-- ==== Sys2Proof/Word.lean ====
section
/-! DEFINITION. The word types of the block: what the spec calls a byte of the code buffer CB and a 32-bit word of
the command port, the register port and the coefficient plane (spec/20_memory.md R46, spec/30_encoding.md R60). -/

namespace Sys2Proof

/-- A byte of the code buffer CB (R40, R46). -/
abbrev Byte := BitVec 8

/-- A 32-bit word: a command word, its argument, a response word, a register-port word, a cell of the
coefficient plane (R26, R29, R60, R70). Arithmetic on it is modulo 2^32 (R9, R14). -/
abbrev Word := BitVec 32

end Sys2Proof
end

