-- ==== Sys2Proof/Config.lean ====
section
/-! DEFINITION. What an implementation of the block fixes (the OPEN parameters of spec/00_scope.md R8) and the free
values: what the spec leaves `unspecified` (R9, R29, R31, R233; spec/93_implementation_defined.md U1 to U3). -/

namespace Sys2Proof

/-- The OPEN parameters of R8: "an OPEN value is an argument of the model". They stand in the state as data that no
step changes, so that a statement about every state is a statement about every value of them (log entry 1). -/
structure Params where
  /-- CBSIZE: the number of bytes of the code buffer CB. -/
  cbsize : Nat
  /-- MAXAREA: the largest W*H that CBINIT accepts, and the number of cells the coefficient plane CP has. -/
  maxarea : Nat
  /-- GUARD: the guard bytes the host leaves after a buffer's logical end; no behaviour of the block depends on it (R55). -/
  guardBytes : Nat
deriving DecidableEq, Repr

/-- The ranges R8 gives the OPEN parameters: 0 ≤ CBSIZE ≤ 2^31 and 1 ≤ MAXAREA ≤ 2^20. -/
def Params.wf (p : Params) : Bool :=
  decide (p.cbsize ≤ 2 ^ 31) && decide (1 ≤ p.maxarea) && decide (p.maxarea ≤ 2 ^ 20)

/-- The parameters of the reset state: the defaults of R8 for MAXAREA and GUARD, and for CBSIZE, which has no
default, the largest value R8 allows (DESIGN CHOICE, unsafe: log entry 1). -/
def Params.initial : Params := { cbsize := 2 ^ 31, maxarea := 4096, guardBytes := 2 }

/-- MAXW and MAXH (R8): the largest width and height of a code-block. -/
def Config.maxSide : Nat := 1024

/-- MAXPLANE (R8): the largest bit-plane index a pass accepts. -/
def Config.maxPlane : Nat := 29

/-- TOLBYTES (R8): the termination slack tolerated, in bytes. -/
def Config.tolBytes : Nat := 2

/-- TOLMARK (R8): the synthesized markers tolerated. -/
def Config.tolMark : Nat := 2

/-- FREE VALUE. The word a draw of an `unspecified` register value answers, by the number of the draw. R29: "a model
must not assume 0 and must not assume that two reads agree". It has no body: nothing can be proved of it. -/
opaque Config.freeWord : Nat → Word

/-- FREE VALUE. The content of a memory cell that the spec leaves `unspecified` (R233, R260), by the number of the
event that left it so and the address. It has no body: nothing can be proved of it. -/
opaque Config.freeCell : (width : Nat) → (event : Nat) → (address : Nat) → BitVec width

end Sys2Proof
end

