-- ==== Sys2Proof/Syntax.lean ====
section
/-! DEFINITION. The command set of the block: one constructor for each of the 21 rows of spec/opcode_table.json
(spec/30_encoding.md R62 to R64). An operand is what its field of the command word holds (R63). -/

namespace Sys2Proof

/-- The orientation tag of a code-block, with the numeric codes 0 to 3 of R24 and R63. -/
inductive Orientation where
  /-- LL, code 0 -/
  | ll
  /-- HL, code 1 -/
  | hl
  /-- LH, code 2 -/
  | lh
  /-- HH, code 3 -/
  | hh
deriving DecidableEq, Repr

/-- A command with its operands. The number operands are what the fields of R62 hold, read as plain unsigned binary
(R63); `WellFormed.lean` says which numbers fit their field. WRREG's data is the word ARG of the command (R61, R193). -/
inductive Instr where
  /-- NOP (R190) -/
  | nop
  /-- CXRESET (R86) -/
  | cxreset
  /-- CLRSTAT (R191) -/
  | clrstat
  /-- WRREG ra, value (R193): `ra` is CMD[7:0], `value` is ARG -/
  | wrreg (ra : Nat) (value : Word)
  /-- RDREG ra (R192): `ra` is CMD[7:0] -/
  | rdreg (ra : Nat)
  /-- INITDEC (R92) -/
  | initdec
  /-- DECODE cx (R93): `cx` is CMD[4:0] -/
  | decode (cx : Nat)
  /-- FINISHDEC (R97) -/
  | finishdec
  /-- TERMCHK (R99) -/
  | termchk
  /-- INITENC (R110) -/
  | initenc
  /-- ENCODE cx, d (R112): `cx` is CMD[4:0], `d` is CMD[8] -/
  | encode (cx : Nat) (d : Bool)
  /-- FLUSHENC (R118) -/
  | flushenc
  /-- RAWINITDEC (R131) -/
  | rawinitdec
  /-- RAWDEC (R132) -/
  | rawdec
  /-- RAWINITENC (R133) -/
  | rawinitenc
  /-- RAWENC d (R134): `d` is CMD[0] -/
  | rawenc (d : Bool)
  /-- RAWFLUSH (R135) -/
  | rawflush
  /-- CBINIT (R162): `wm1` is CMD[9:0], `hm1` is CMD[19:10], `orient` is CMD[21:20], `clr` is CMD[22] -/
  | cbinit (wm1 : Nat) (hm1 : Nat) (orient : Orientation) (clr : Bool)
  /-- SIGPASS p (R163): `p` is CMD[4:0] -/
  | sigpass (p : Nat)
  /-- REFPASS p (R164): `p` is CMD[4:0] -/
  | refpass (p : Nat)
  /-- CLNPASS p (R165): `p` is CMD[4:0] -/
  | clnpass (p : Nat)
deriving DecidableEq, Repr

end Sys2Proof
end

