-- ==== Sys2Proof/Machine/State.lean ====
section
/-! DEFINITION. The state of one instance of the block (spec/10_state.md R10 to R27, R30, R31), what the host hands it
and gets back (spec/30_encoding.md R60, R70; spec/20_memory.md R50), the reasons a step can stop, and the state after
reset. Plain data only. -/

namespace Sys2Proof.Machine

/-- The values of the MODE register (R19). "Values 5 and 6 never occur." -/
inductive Mode where
  | idle
  | dec
  | enc
  | rawdec
  | rawenc
  | fault
deriving DecidableEq, Repr

/-- One entry of the context register file (R22): `i` is a row index into CMT, `mps` the more probable symbol. -/
structure Context where
  i : BitVec 6
  mps : Bool
deriving DecidableEq, Repr

/-- A range `lo ≤ a < hi` of cells whose content the spec left `unspecified` at event number `event`, and which nothing
has written since (R233, R260). -/
structure UnknownRange where
  lo : Nat
  hi : Nat
  event : Nat
deriving DecidableEq, Repr

/-- The cells of a memory of `width`-bit cells that do not read as an unlisted cell does, by strictly rising
address. -/
abbrev Cells (width : Nat) := List (Nat × BitVec width)

/-- A memory of `width`-bit cells that the host can reach (R40): CB and CP. `cells` lists the cells that do not read as
an unlisted cell does, by strictly rising address; `unknown` holds the ranges whose cells are free values.
`Machine/Memory.lean` says what a cell reads as and in which canonical form the lists stand. CB is `Memory 8`: its `cells`
are a list of `Host.Cell`. -/
structure Memory (width : Nat) where
  cells : Cells width
  unknown : List UnknownRange
  /-- MODEL'S OWN (log entry 18): the writes made since `Memory.record`, the last one first; `none`, as between steps,
  while nothing is recorded. -/
  journal : Option (List (Nat × BitVec width))
deriving DecidableEq, Repr

/-- A response `(RSP, VAL)` of two 32-bit words (R60, R70). -/
structure Response where
  rsp : Word
  val : Word
deriving DecidableEq, Repr

/-- What the host does, one action at a time and only between commands, but for the reset event, which can also abandon a
command (R10, R50, R60, R260). The host's reads change nothing and are not actions here. -/
inductive HostAction where
  /-- The host issues the command (CMD, ARG) (R60). -/
  | command (cmd arg : Word)
  /-- The host writes a byte of the code buffer (R40, R50). -/
  | writeCb (address : Nat) (value : Byte)
  /-- The host writes a cell of the coefficient plane (R26, R50). -/
  | writeCp (index : Nat) (value : Word)
  /-- The reset event (R260). -/
  | resetEvent
  /-- The host issues the command (CMD, ARG), and the reset event abandons it when it has made `writes` writes to cells of
  CB or CP (R260; log entry 18). -/
  | resetDuring (cmd arg : Word) (writes : Nat)
deriving DecidableEq, Repr

/-- MODEL'S OWN (log entry 6): which registers hold an `unspecified` value (R31, R233), so that reading one over the
register port answers a free value. A field is true while its registers are unspecified. -/
structure Unspecified where
  /-- A, C and CT -/
  mq : Bool
  /-- BP -/
  bp : Bool
  /-- START and END -/
  window : Bool
  /-- EOSCNT -/
  eoscnt : Bool
  /-- RB and RCT -/
  raw : Bool
  /-- LASTFF -/
  lastff : Bool
  /-- W, H and ORIENT -/
  geom : Bool
  /-- CX[0..18] -/
  cx : Bool
deriving DecidableEq, Repr

/-- The state of one instance of the block, its parameters, and the host's side of the command port. -/
@[ext]
structure State where
  /-- The OPEN parameters CBSIZE, MAXAREA, GUARD (R8); no step changes them. -/
  params : Params
  /-- The host's coming actions, the next one first (R10, R50, R60). -/
  inbox : List HostAction
  /-- The response port: the last response, `none` while there has been none since reset (R60, R70). -/
  response : Option Response
  /-- MODE, 3 bits (R19) -/
  mode : Mode
  /-- STATUS.GEOMV (R27) -/
  geomv : Bool
  /-- STATUS.ERRS, sticky: bit k - 1 is error code k (R27, R236) -/
  errs : BitVec 8
  /-- STATUS.WSLACK, sticky (R27, R236) -/
  wslack : Bool
  /-- STATUS.WMARK, sticky (R27, R236) -/
  wmark : Bool
  /-- SEGBASE (R21) -/
  segbase : Word
  /-- SEGLEN, signed two's complement (R21) -/
  seglen : Word
  /-- A, the interval width (R13) -/
  a : BitVec 16
  /-- C, code value or output accumulator (R14) -/
  c : Word
  /-- CT, the bit counter (R15) -/
  ct : BitVec 4
  /-- BP, the byte cursor: an integer, since in ENC mode it can be START - 1 (R9, R16) -/
  bp : Int
  /-- START (R17) -/
  startAddr : Word
  /-- END (R17) -/
  endAddr : Word
  /-- EOSCNT, the synthesized-marker counter (R18) -/
  eoscnt : Word
  /-- RB (R20) -/
  rb : Byte
  /-- RCT (R20) -/
  rct : BitVec 4
  /-- LASTFF (R20) -/
  lastff : Bool
  /-- CX, the context register file (R22) -/
  cx : Vector Context 19
  /-- W, the width of the code-block (R24) -/
  w : Nat
  /-- H, the height of the code-block (R24) -/
  h : Nat
  /-- ORIENT (R24) -/
  orient : Orientation
  /-- FP, the flag plane (R25): cells of 4 bits, an unlisted one is 0 -/
  fp : Cells 4
  /-- CP, the coefficient plane (R26) -/
  cp : Memory 32
  /-- CB, the code buffer (R41) -/
  cb : Memory 8
  /-- MODEL'S OWN: which registers are unspecified (log entry 6) -/
  unspec : Unspecified
  /-- MODEL'S OWN: how many free values have been drawn (log entry 6) -/
  draws : Nat
deriving DecidableEq, Repr

/-- Why the machine stops with a fault. No command does: a command that cannot be carried out answers an error code
and the block goes on (R232, R233). Only the host's own accesses to addresses that do not exist stop it. -/
inductive Fault where
  /-- Raised by a host write to CB at an address that CB does not have (R40: CB has addresses 0 to CBSIZE - 1). Safe:
  the model stops where the spec gives the access no meaning. -/
  | noSuchCodeByte
  /-- Raised by a host write to CP at an index that no accepted geometry has (R53: at most MAXAREA - 1). Safe: the
  model stops where the spec gives the access no meaning. -/
  | noSuchCoefficient
deriving DecidableEq, Repr

/-- Why a step has no meaning. Every row of the opcode table has one, so nothing raises a refusal. -/
inductive Refusal where
  /-- Raised by an arm of `exec` for an instruction without a meaning; safe. No arm does. -/
  | notModelled (mnemonic : String)
deriving DecidableEq, Repr

/-- A memory in which nothing is listed. -/
def Memory.empty (width : Nat) : Memory width := { cells := [], unknown := [], journal := none }

/-- The registers that R31 leaves unspecified after reset: all of them but CX. -/
def Unspecified.afterReset : Unspecified :=
  { mq := true, bp := true, window := true, eoscnt := true, raw := true, lastff := true, geom := true, cx := false }

/-- The state after reset, with any values of the OPEN parameters: R31, R260. Where R31 says `unspecified` the stored
value is the model's (DESIGN CHOICE, unsafe: log entries 5, 8 and 12), and `unspec` says so. -/
def State.resetWith (p : Params) : State where
  params := p
  inbox := []
  response := none
  mode := .idle
  geomv := false
  errs := 0
  wslack := false
  wmark := false
  segbase := 0
  seglen := 0
  a := 0
  c := 0
  ct := 0
  bp := 0
  startAddr := 0
  endAddr := 0
  eoscnt := 0
  rb := 0
  rct := 0
  lastff := false
  cx := ((Vector.replicate 19 (Context.mk 0 false)).set 0 ⟨4, false⟩).set 17 ⟨3, false⟩ |>.set 18 ⟨46, false⟩
  w := 1
  h := 1
  orient := .ll
  fp := []
  cp := Memory.empty 32
  cb := Memory.empty 8
  unspec := Unspecified.afterReset
  draws := 0

/-- The machine right after reset (R31, R260), with the parameters of `Params.initial` (log entry 1). -/
def State.reset : State := State.resetWith Params.initial

end Sys2Proof.Machine
end

