-- ==== Sys2Proof/Machine/Memory.lean ====
section
/-! DEFINITION. The memories (spec/20_memory.md R40, R45, R46): reading and writing one cell, clearing a range, leaving a
range unspecified, and the canonical form of the lists. Every access of the block is one cell (R9, R46), so there is no
byte order and no alignment (R44, R45). -/

namespace Sys2Proof.Machine

/-- The listed value of a cell, if it is listed. -/
def Cells.find? {width : Nat} : Cells width → Nat → Option (BitVec width)
  | [], _ => none
  | (b, v) :: rest, a => if a = b then some v else Cells.find? rest a

/-- Lists `v` at address `a`, in the place the rising order gives it. -/
def Cells.put {width : Nat} : Cells width → Nat → BitVec width → Cells width
  | [], a, v => [(a, v)]
  | (b, u) :: rest, a, v =>
    if a < b then (a, v) :: (b, u) :: rest
    else if a = b then (a, v) :: rest
    else (b, u) :: Cells.put rest a v

/-- Takes address `a` off the list. -/
def Cells.drop {width : Nat} (m : Cells width) (a : Nat) : Cells width :=
  m.filter fun e => e.1 != a

/-- A write of one cell: 0 is what an unlisted known cell reads as, so writing 0 takes the address off the list. -/
def Cells.write {width : Nat} (m : Cells width) (a : Nat) (v : BitVec width) : Cells width :=
  if v = 0 then m.drop a else m.put a v

/-- What a cell of a memory without unspecified ranges reads as: 0 where it is not listed. -/
def Cells.read {width : Nat} (m : Cells width) (a : Nat) : BitVec width :=
  (m.find? a).getD 0

/-- Takes the addresses `lo ≤ a < hi` off the list. -/
def Cells.dropRange {width : Nat} (m : Cells width) (lo hi : Nat) : Cells width :=
  m.filter fun e => !(decide (lo ≤ e.1) && decide (e.1 < hi))

/-- The canonical form of a list of cells: strictly rising addresses, no listed 0. -/
def Cells.wf {width : Nat} (m : Cells width) : Bool :=
  decide (m.Pairwise fun e f => e.1 < f.1) && m.all fun e => e.2 != 0

/-- The range holds the address. -/
def UnknownRange.covers (r : UnknownRange) (a : Nat) : Bool :=
  decide (r.lo ≤ a) && decide (a < r.hi)

/-- The part of the range outside `lo ≤ a < hi`, in rising order, without empty ranges. -/
def UnknownRange.without (lo hi : Nat) (r : UnknownRange) : List UnknownRange :=
  ({ r with hi := min r.hi lo } :: [{ r with lo := max r.lo hi }]).filter fun q => decide (q.lo < q.hi)

/-- Puts a range into a list of ranges in rising order. -/
def UnknownRange.insert (r : UnknownRange) : List UnknownRange → List UnknownRange
  | [] => [r]
  | q :: rest => if r.lo < q.lo then r :: q :: rest else q :: UnknownRange.insert r rest

/-- The unspecified range that holds the address, if one does. -/
def Memory.unknownAt {width : Nat} (m : Memory width) (a : Nat) : Option UnknownRange :=
  m.unknown.find? fun r => r.covers a

/-- THE ONE DEFINITION of what an unlisted cell reads as: a free value in a range the spec left unspecified (R233,
R260), and otherwise 0, also where nothing has written since reset (DESIGN CHOICE, unsafe: log entry 8). -/
def Memory.unlisted {width : Nat} (m : Memory width) (a : Nat) : BitVec width :=
  match m.unknownAt a with
  | some r => Config.freeCell width r.event a
  | none => 0

/-- `MemRead(space, a, 1)` of R9. -/
def Memory.read {width : Nat} (m : Memory width) (a : Nat) : BitVec width :=
  (m.cells.find? a).getD (m.unlisted a)

/-- The journal after writes, given last one first, where writes are recorded. -/
def Memory.note {width : Nat} (m : Memory width) (writes : List (Nat × BitVec width)) :
    Option (List (Nat × BitVec width)) :=
  m.journal.map (writes ++ ·)

/-- `MemWrite(space, a, 1, v)` of R9. The cell is known from then on. -/
def Memory.write {width : Nat} (m : Memory width) (a : Nat) (v : BitVec width) : Memory width :=
  { cells := m.cells.write a v
    unknown := m.unknown.flatMap (UnknownRange.without a (a + 1))
    journal := m.note [(a, v)] }

/-- Writes 0 to every cell `lo ≤ a < hi`, in rising order. -/
def Memory.zeroRange {width : Nat} (m : Memory width) (lo hi : Nat) : Memory width :=
  if lo < hi then
    { cells := m.cells.dropRange lo hi
      unknown := m.unknown.flatMap (UnknownRange.without lo hi)
      journal := m.note ((List.range' lo (hi - lo)).reverse.map fun a => (a, 0)) }
  else m

/-- Leaves every cell `lo ≤ a < hi` unspecified: each reads as a free value of this event until it is written. -/
def Memory.forget {width : Nat} (m : Memory width) (lo hi event : Nat) : Memory width :=
  if lo < hi then
    { cells := m.cells.dropRange lo hi
      unknown := UnknownRange.insert ⟨lo, hi, event⟩ (m.unknown.flatMap (UnknownRange.without lo hi))
      journal := m.journal }
  else m

/-- The memory with its writes recorded from here on. -/
def Memory.record {width : Nat} (m : Memory width) : Memory width := { m with journal := some [] }

/-- The writes recorded, in the order they were made. -/
def Memory.recorded {width : Nat} (m : Memory width) : List (Nat × BitVec width) := (m.journal.getD []).reverse

/-- Makes the writes, in the list's order. -/
def Memory.writeAll {width : Nat} : List (Nat × BitVec width) → Memory width → Memory width
  | [], m => m
  | (a, v) :: rest, m => Memory.writeAll rest (m.write a v)

/-- The canonical form of a memory: strictly rising addresses; no listed cell that reads as it would unlisted (none
lists 0, none stands in an unspecified range); the unspecified ranges not empty, rising and disjoint; nothing recorded. -/
def Memory.wf {width : Nat} (m : Memory width) : Bool :=
  m.cells.wf && (m.cells.all fun e => (m.unknownAt e.1).isNone)
    && (m.unknown.all fun r => decide (r.lo < r.hi)) && decide (m.unknown.Pairwise fun r q => r.hi ≤ q.lo)
    && m.journal.isNone

end Sys2Proof.Machine
end

