-- ==== Sys2Proof/Machine/ContextTable.lean ====
section
/-! DEFINITION. The Context Model Table and the context labels (spec/40_context.md R80 to R83, R87). -/

namespace Sys2Proof.Machine

/-- A row of CMT (R80): `{QE, NMPS, NLPS, SWITCH}`. -/
structure CmtRow where
  qe : BitVec 16
  nmps : BitVec 6
  nlps : BitVec 6
  switch : Bool
deriving DecidableEq, Repr

/-- The content of CMT, rows 0 to 46 (R81). -/
def cmtTable : List CmtRow :=
  [ ⟨0x5601, 1, 1, true⟩,  -- 0
    ⟨0x3401, 2, 6, false⟩,  -- 1
    ⟨0x1801, 3, 9, false⟩,  -- 2
    ⟨0x0AC1, 4, 12, false⟩,  -- 3
    ⟨0x0521, 5, 29, false⟩,  -- 4
    ⟨0x0221, 38, 33, false⟩,  -- 5
    ⟨0x5601, 7, 6, true⟩,  -- 6
    ⟨0x5401, 8, 14, false⟩,  -- 7
    ⟨0x4801, 9, 14, false⟩,  -- 8
    ⟨0x3801, 10, 14, false⟩,  -- 9
    ⟨0x3001, 11, 17, false⟩,  -- 10
    ⟨0x2401, 12, 18, false⟩,  -- 11
    ⟨0x1C01, 13, 20, false⟩,  -- 12
    ⟨0x1601, 29, 21, false⟩,  -- 13
    ⟨0x5601, 15, 14, true⟩,  -- 14
    ⟨0x5401, 16, 14, false⟩,  -- 15
    ⟨0x5101, 17, 15, false⟩,  -- 16
    ⟨0x4801, 18, 16, false⟩,  -- 17
    ⟨0x3801, 19, 17, false⟩,  -- 18
    ⟨0x3401, 20, 18, false⟩,  -- 19
    ⟨0x3001, 21, 19, false⟩,  -- 20
    ⟨0x2801, 22, 19, false⟩,  -- 21
    ⟨0x2401, 23, 20, false⟩,  -- 22
    ⟨0x2201, 24, 21, false⟩,  -- 23
    ⟨0x1C01, 25, 22, false⟩,  -- 24
    ⟨0x1801, 26, 23, false⟩,  -- 25
    ⟨0x1601, 27, 24, false⟩,  -- 26
    ⟨0x1401, 28, 25, false⟩,  -- 27
    ⟨0x1201, 29, 26, false⟩,  -- 28
    ⟨0x1101, 30, 27, false⟩,  -- 29
    ⟨0x0AC1, 31, 28, false⟩,  -- 30
    ⟨0x09C1, 32, 29, false⟩,  -- 31
    ⟨0x08A1, 33, 30, false⟩,  -- 32
    ⟨0x0521, 34, 31, false⟩,  -- 33
    ⟨0x0441, 35, 32, false⟩,  -- 34
    ⟨0x02A1, 36, 33, false⟩,  -- 35
    ⟨0x0221, 37, 34, false⟩,  -- 36
    ⟨0x0141, 38, 35, false⟩,  -- 37
    ⟨0x0111, 39, 36, false⟩,  -- 38
    ⟨0x0085, 40, 37, false⟩,  -- 39
    ⟨0x0049, 41, 38, false⟩,  -- 40
    ⟨0x0025, 42, 39, false⟩,  -- 41
    ⟨0x0015, 43, 40, false⟩,  -- 42
    ⟨0x0009, 44, 41, false⟩,  -- 43
    ⟨0x0005, 45, 42, false⟩,  -- 44
    ⟨0x0001, 45, 43, false⟩,  -- 45
    ⟨0x5601, 46, 46, false⟩ ]  -- 46

/-- `CMT[i]` (R80, R81). A context's index never leaves 0 to 46 (R22, R87); for the six-bit indices 47 to 63, which
name no row and occur in no reachable state, the last row stands in (DESIGN CHOICE: log entry 15). -/
def cmtRow (i : BitVec 6) : CmtRow :=
  cmtTable.getD i.toNat ⟨0x5601, 46, 46, false⟩

/-- The register-port image of a CMT row (R81): `QE | NMPS << 16 | NLPS << 22 | SWITCH << 28`. -/
def cmtImage (r : CmtRow) : Word :=
  r.qe.setWidth 32 ||| r.nmps.setWidth 32 <<< 16 ||| r.nlps.setWidth 32 <<< 22
    ||| (BitVec.ofBool r.switch).setWidth 32 <<< 28

/-- A context label, 0 to 18 (R82). -/
abbrev Label := Fin 19

/-- ZC0, the label of a coefficient with no significant neighbour (R82, R83). -/
def labelZC0 : Label := 0

/-- SC0, the first of the five sign-coding labels (R82). -/
def labelSC0 : Label := 9

/-- MR0, the first of the three magnitude-refinement labels (R82). -/
def labelMR0 : Label := 14

/-- AGG, the run-length label (R82). -/
def labelAGG : Label := 17

/-- UNI, the uniform label (R82). -/
def labelUNI : Label := 18

/-- The initial values of the 19 contexts (R83, R86): ZC0 in state 4, AGG in state 3, UNI in state 46, all others in
state 0, every MPS 0. -/
def initialContexts : Vector Context 19 :=
  (((Vector.replicate 19 (⟨0, false⟩ : Context)).set labelZC0 ⟨4, false⟩).set labelAGG ⟨3, false⟩).set
    labelUNI ⟨46, false⟩

end Sys2Proof.Machine
end

