-- ==== Sys2Proof/Machine/Updates.lean ====
section
/-! DEFINITION. The named updates of the state, one for each register or group of registers that the rules write
together. `Laws/State.lean` says of each what every field is after it. -/

namespace Sys2Proof.Machine

/-- The host's coming actions are replaced. -/
def State.setInbox (s : State) (inbox' : List HostAction) : State := { s with inbox := inbox' }

/-- The response port is written (R60). -/
def State.setResponse (s : State) (response' : Option Response) : State := { s with response := response' }

/-- MODE is written (R19). -/
def State.setMode (s : State) (mode' : Mode) : State := { s with mode := mode' }

/-- STATUS.GEOMV is written (R27). -/
def State.setGeomv (s : State) (geomv' : Bool) : State := { s with geomv := geomv' }

/-- STATUS.ERRS is written (R27). -/
def State.setErrs (s : State) (errs' : BitVec 8) : State := { s with errs := errs' }

/-- STATUS.WSLACK is written (R27). -/
def State.setWslack (s : State) (wslack' : Bool) : State := { s with wslack := wslack' }

/-- STATUS.WMARK is written (R27). -/
def State.setWmark (s : State) (wmark' : Bool) : State := { s with wmark := wmark' }

/-- SEGBASE is written (R21). -/
def State.setSegbase (s : State) (segbase' : Word) : State := { s with segbase := segbase' }

/-- SEGLEN is written (R21). -/
def State.setSeglen (s : State) (seglen' : Word) : State := { s with seglen := seglen' }

/-- A is written (R13). -/
def State.setA (s : State) (a' : BitVec 16) : State := { s with a := a' }

/-- C is written (R14). -/
def State.setC (s : State) (c' : Word) : State := { s with c := c' }

/-- CT is written (R15). -/
def State.setCt (s : State) (ct' : BitVec 4) : State := { s with ct := ct' }

/-- BP is written (R16). -/
def State.setBp (s : State) (bp' : Int) : State := { s with bp := bp' }

/-- START and END are written together (R17). -/
def State.setWindow (s : State) (startAddr' : Word) (endAddr' : Word) : State := { s with startAddr := startAddr', endAddr := endAddr' }

/-- EOSCNT is written (R18). -/
def State.setEoscnt (s : State) (eoscnt' : Word) : State := { s with eoscnt := eoscnt' }

/-- RB and RCT are written (R20). -/
def State.setRaw (s : State) (rb' : Byte) (rct' : BitVec 4) : State := { s with rb := rb', rct := rct' }

/-- LASTFF is written (R20). -/
def State.setLastff (s : State) (lastff' : Bool) : State := { s with lastff := lastff' }

/-- The context register file is written (R22). -/
def State.setCx (s : State) (cx' : Vector Context 19) : State := { s with cx := cx' }

/-- W, H and ORIENT are written together (R24). -/
def State.setGeometry (s : State) (w' : Nat) (h' : Nat) (orient' : Orientation) : State := { s with w := w', h := h', orient := orient' }

/-- The flag plane is written (R25). -/
def State.setFp (s : State) (fp' : Cells 4) : State := { s with fp := fp' }

/-- The coefficient plane is written (R26). -/
def State.setCp (s : State) (cp' : Memory 32) : State := { s with cp := cp' }

/-- The code buffer is written (R41). -/
def State.setCb (s : State) (cb' : Memory 8) : State := { s with cb := cb' }

/-- The model's own record of what is unspecified is written (log entry 6). -/
def State.setUnspec (s : State) (unspec' : Unspecified) : State := { s with unspec := unspec' }

/-- The model's own count of free values drawn is written (log entry 6). -/
def State.setDraws (s : State) (draws' : Nat) : State := { s with draws := draws' }

end Sys2Proof.Machine
end

