-- ==== Sys2Proof/Machine/Flags.lean ====
section
/-! DEFINITION. The STATUS register with its sticky bits (spec/10_state.md R27), the error codes (spec/60_exceptions.md
R230) and the response words (spec/30_encoding.md R70). The block has no condition codes (R27). -/

namespace Sys2Proof.Machine

/-- The errors of R230, codes 1 to 8. -/
inductive ErrorCode where
  /-- ERR_ILLEGAL, 1 -/
  | illegal
  /-- ERR_MODE, 2 -/
  | mode
  /-- ERR_LENGTH, 3 -/
  | length
  /-- ERR_RANGE, 4 -/
  | range
  /-- ERR_LABEL, 5 -/
  | label
  /-- ERR_BITDEPTH, 6 -/
  | bitdepth
  /-- ERR_GEOM, 7 -/
  | geom
  /-- ERR_OVERFLOW, 8: the fault -/
  | overflow
deriving DecidableEq, Repr

/-- The code of an error (R230). -/
def errorNumber : ErrorCode → Nat
  | .illegal => 1
  | .mode => 2
  | .length => 3
  | .range => 4
  | .label => 5
  | .bitdepth => 6
  | .geom => 7
  | .overflow => 8

/-- The ERRS bit of an error: bit `7 + k` of STATUS for code `k`, which is bit `k - 1` of the field 15:8 (R27). -/
def errorBit (e : ErrorCode) : BitVec 8 := 1#8 <<< (errorNumber e - 1)

/-- The warnings that TERMCHK reports (R230): WKIND 1 and 2. -/
inductive Warning where
  /-- W_SLACK -/
  | slack
  /-- W_MARKERS -/
  | markers
deriving DecidableEq, Repr

/-- WKIND of a warning (R70, R99). -/
def warningNumber : Warning → Nat
  | .slack => 1
  | .markers => 2

/-- The response of a command that succeeds with the value `val`: ERR = BIT = WKIND = 0 (R70). -/
def Response.okValue (val : Word) : Response := { rsp := 0, val := val }

/-- The response of a command that succeeds and has nothing to tell: all 0 (R70). -/
def Response.ok : Response := Response.okValue 0

/-- The response that carries a decoded decision in BIT, RSP bit 4 (R70). -/
def Response.decision (d : Bool) : Response := { rsp := (BitVec.ofBool d).setWidth 32 <<< 4, val := 0 }

/-- The response that carries a warning in WKIND, RSP bits 6:5, and its count in VAL (R70, R99). -/
def Response.warning (k : Warning) (val : Word) : Response :=
  { rsp := BitVec.ofNat 32 (warningNumber k) <<< 5, val := val }

/-- The response of a command that ends with an error: ERR in RSP bits 3:0, all else 0 (R70, R232, R233). -/
def Response.error (e : ErrorCode) : Response := { rsp := BitVec.ofNat 32 (errorNumber e), val := 0 }

/-- The value of the MODE register (R19). -/
def modeNumber : Mode → BitVec 3
  | .idle => 0
  | .dec => 1
  | .enc => 2
  | .rawdec => 3
  | .rawenc => 4
  | .fault => 7

/-- The STATUS register (R27): MODE in bits 2:0, GEOMV in bit 3, ERRS in 15:8, WSLACK in 16, WMARK in 17, others 0. -/
def statusWord (s : State) : Word :=
  (modeNumber s.mode).setWidth 32 ||| (BitVec.ofBool s.geomv).setWidth 32 <<< 3 ||| s.errs.setWidth 32 <<< 8
    ||| (BitVec.ofBool s.wslack).setWidth 32 <<< 16 ||| (BitVec.ofBool s.wmark).setWidth 32 <<< 17

/-- The block gives its response (R60). -/
def State.answer (s : State) (r : Response) : State := s.setResponse (some r)

/-- Sets the sticky bit of an error (R27, R236). -/
def State.markError (s : State) (e : ErrorCode) : State := s.setErrs (s.errs ||| errorBit e)

end Sys2Proof.Machine
end

