-- ==== Sys2Proof/Machine/Operands.lean ====
section
/-! DEFINITION. The operands of the commands: the checks each rule makes on them before anything changes (R231), and
the register port (spec/10_state.md R29). A check answers `none` where the command is admitted. -/

namespace Sys2Proof.Machine

/-- The first of two checks that fails, in the order R231 gives them. -/
def orElse (first second : Option ErrorCode) : Option ErrorCode :=
  match first with
  | some e => some e
  | none => second

/-- A check that raises `e` unless `ok` holds. -/
def require (ok : Bool) (e : ErrorCode) : Option ErrorCode := if ok then none else some e

/-- A mode condition (R19, R231): ERR_MODE unless MODE is one of `modes`. -/
def requireMode (modes : List Mode) (s : State) : Option ErrorCode := require (modes.contains s.mode) .mode

/-- The mode condition of the commands that are refused in FAULT only (R19, R86, R92). -/
def requireNotFault (s : State) : Option ErrorCode := require (s.mode != .fault) .mode

/-- The label an operand names (R63): labels are 0 to 18, "19 to 31 raise ERR_LABEL". -/
def labelOf (cx : Nat) : Option Label := if h : cx < 19 then some ⟨cx, h⟩ else none

/-- The checks of R42 on the window `[SEGBASE, SEGBASE + SEGLEN)`: a negative SEGLEN raises ERR_LENGTH, a window that
ends beyond CBSIZE (as integers, without wrap-around) ERR_RANGE. -/
def windowCheck (s : State) : Option ErrorCode :=
  orElse (require (!s.seglen.msb) .length)
    (require (decide (s.segbase.toNat + s.seglen.toNat ≤ s.params.cbsize)) .range)

/-- Admission of the four INIT commands (R92, R110, R131, R133). -/
def initCheck (s : State) : Option ErrorCode := orElse (requireNotFault s) (windowCheck s)

/-- The check of CBINIT on the geometry (R162): `(WM1 + 1) * (HM1 + 1) > MAXAREA` raises ERR_GEOM. -/
def areaCheck (wm1 hm1 : Nat) (s : State) : Option ErrorCode :=
  require (decide ((wm1 + 1) * (hm1 + 1) ≤ s.params.maxarea)) .geom

/-- Admission of a pass (R167): its modes, then the plane (P ≥ 30 raises ERR_BITDEPTH), then the geometry. -/
def passCheck (modes : List Mode) (p : Nat) (s : State) : Option ErrorCode :=
  orElse (requireMode modes s)
    (orElse (require (decide (p ≤ Config.maxPlane)) .bitdepth) (require s.geomv .geom))

/-- A register of the register port (R29). -/
inductive PortReg where
  | status | segbase | seglen | a | c | ct | bp | startAddr | endAddr | eoscnt | numbytes | rawst | geom
  | cx (k : Label)
  | cmt (i : Fin 47)
deriving DecidableEq, Repr

/-- The register at a register-port address; `none` for an address that is not mapped (R29, R47). -/
def portReg (ra : Nat) : Option PortReg :=
  match ra with
  | 0x00 => some .status
  | 0x04 => some .segbase
  | 0x05 => some .seglen
  | 0x08 => some .a
  | 0x09 => some .c
  | 0x0A => some .ct
  | 0x0B => some .bp
  | 0x0C => some .startAddr
  | 0x0D => some .endAddr
  | 0x0E => some .eoscnt
  | 0x0F => some .numbytes
  | 0x10 => some .rawst
  | 0x11 => some .geom
  | n =>
    if 0x20 ≤ n then
      if h : n - 0x20 < 19 then some (.cx ⟨n - 0x20, h⟩)
      else if 0x40 ≤ n then
        if h : n - 0x40 < 47 then some (.cmt ⟨n - 0x40, h⟩) else none
      else none
    else none

/-- The image of a context on the port (R29): bits 5:0 I, bit 8 MPS. -/
def contextImage (x : Context) : Word := x.i.setWidth 32 ||| (BitVec.ofBool x.mps).setWidth 32 <<< 8

/-- The image of the raw registers (R29, RAWST): bits 7:0 RB, bits 11:8 RCT, bit 12 LASTFF. -/
def rawImage (rb : Byte) (rct : BitVec 4) (lastff : Bool) : Word :=
  rb.setWidth 32 ||| rct.setWidth 32 <<< 8 ||| (BitVec.ofBool lastff).setWidth 32 <<< 12

/-- The numeric code of ORIENT (R24). -/
def orientNumber : Orientation → Nat
  | .ll => 0
  | .hl => 1
  | .lh => 2
  | .hh => 3

/-- The image of the geometry (R29, GEOM): bits 9:0 W - 1, bits 19:10 H - 1, bits 21:20 ORIENT. -/
def geomImage (w h : Nat) (o : Orientation) : Word :=
  BitVec.ofNat 32 (w - 1) ||| BitVec.ofNat 32 (h - 1) <<< 10 ||| BitVec.ofNat 32 (orientNumber o) <<< 20

/-- NUMBYTES (R29): `trunc_32(BP - START)`. -/
def numBytes (s : State) : Word := BitVec.ofInt 32 (s.bp - s.startAddr.toNat)

/-- `REG[a]`: the 32-bit image of a register (R29). -/
def regImage (r : PortReg) (s : State) : Word :=
  match r with
  | .status => statusWord s
  | .segbase => s.segbase
  | .seglen => s.seglen
  | .a => s.a.setWidth 32
  | .c => s.c
  | .ct => s.ct.setWidth 32
  | .bp => BitVec.ofInt 32 s.bp
  | .startAddr => s.startAddr
  | .endAddr => s.endAddr
  | .eoscnt => s.eoscnt
  | .numbytes => numBytes s
  | .rawst => rawImage s.rb s.rct s.lastff
  | .geom => geomImage s.w s.h s.orient
  | .cx k => contextImage s.cx[k]
  | .cmt i => cmtImage (cmtRow (BitVec.ofNat 6 i))

/-- A part of the register is unspecified, so that reading it draws a free value (R29, R31, R233). -/
def isUnspecified (r : PortReg) (u : Unspecified) : Bool :=
  match r with
  | .a | .c | .ct => u.mq
  | .bp => u.bp
  | .startAddr | .endAddr => u.window
  | .eoscnt => u.eoscnt
  | .numbytes => u.bp || u.window
  | .rawst => u.raw || u.lastff
  | .geom => u.geom
  | .cx _ => u.cx
  | .status | .segbase | .seglen | .cmt _ => false

/-- What a read of the register answers (R29, R192): its image, or the free value `free` where it is unspecified. Where
RB and RCT are specified and LASTFF alone is not, bit 12 of RAWST alone is free (log entry 7). -/
def readReg (r : PortReg) (free : Word) (s : State) : Word :=
  if isUnspecified r s.unspec then
    if r = .rawst ∧ s.unspec.raw = false then rawImage s.rb s.rct (free.getLsbD 12) else free
  else regImage r s

end Sys2Proof.Machine
end

