-- ==== Sys2Proof/Machine/Ops.lean ====
section
/-! DEFINITION. The shared operations: refusing a command, the fault and the way out of it (spec/60_exceptions.md R232,
R233, R237), the context multiplexer (spec/40_context.md R84, R85), byte access to CB (spec/20_memory.md R43, R57), and
the procedures of the MQ decoder (spec/41_mq_decoder.md) and encoder (spec/42_mq_encoder.md) and of the raw sub-coder
(spec/43_raw.md) that commands and passes share. -/

namespace Sys2Proof.Machine

/-! ## Refusal, fault and recovery -/

/-- A refused command (R232): the sticky bit of its error is set and the response carries the error; nothing else
changes. -/
def refuse (e : ErrorCode) (s : State) : State := (s.markError e).answer (Response.error e)

/-- A command whose checks (R231) come first: it is refused, or it runs. -/
def admitted (check : Option ErrorCode) (s : State) (run : State → State) : State :=
  match check with
  | some e => refuse e s
  | none => run s

/-- The registers that R233 leaves unspecified after a fault, added to those that were. -/
def unspecifiedByFault (u : Unspecified) : Unspecified :=
  { u with mq := true, bp := true, raw := true, lastff := true, cx := true }

/-- TAKING THE FAULT (R233), in the state in which the write at or beyond END was not made: MODE becomes FAULT, the
sticky bit and the response say ERR_OVERFLOW, what was done before stays done, and A, C, CT, BP, RB, RCT, LASTFF, CX
and the bytes `CB[START .. END - 1]` are unspecified from then on. -/
def takeFault (s : State) : State :=
  let marked := ((s.setMode .fault).markError .overflow).setUnspec (unspecifiedByFault s.unspec)
  let forgotten := marked.setCb (s.cb.forget s.startAddr.toNat s.endAddr.toNat s.draws)
  (forgotten.setDraws (s.draws + 1)).answer (Response.error .overflow)

/-- Every piece of state of the block takes its reset value of R31, but CB and CP, the parameters, and what is not the
block's: the host's coming actions, the response port and the count of free values drawn. -/
def toResetValues (s : State) : State :=
  { State.resetWith s.params with
    inbox := s.inbox, response := s.response, cp := s.cp, cb := s.cb, draws := s.draws }

/-- CLRSTAT's first three writes (R191): the sticky bits are cleared. -/
def clearSticky (s : State) : State := ((s.setErrs 0).setWslack false).setWmark false

/-- LEAVING THE FAULT (R191, R237): the reset state is restored; CB and CP are not changed. -/
def leaveFault (s : State) : State := toResetValues s

/-- The reset event (R260): every piece of state takes its reset value and the response port is empty. CB is not
touched; every cell of CP becomes unspecified (log entry 11). -/
def resetEvent (s : State) : State :=
  let r := toResetValues s
  ((r.setResponse none).setCp (s.cp.forget 0 s.params.maxarea s.draws)).setDraws (s.draws + 1)

/-! ## Running a coding procedure -/

/-- How a coding procedure ends: at its end with a value, or at a write at or beyond END, with the state of that
moment (R57, R233). -/
inductive Run (α : Type) where
  | done (value : α) (s : State)
  | overflow (s : State)

/-- One procedure after another; an overflow ends both (R233: "the command stops at that point"). -/
def Run.bind {α β : Type} (r : Run α) (next : α → State → Run β) : Run β :=
  match r with
  | .done v s => next v s
  | .overflow s => .overflow s

/-- A procedure for each of a list of things, in the list's order. -/
def forEach {α : Type} (visit : α → State → Run Unit) : List α → State → Run Unit
  | [], s => .done () s
  | x :: rest, s => (visit x s).bind fun _ t => forEach visit rest t

/-- The end of a command that codes: its last writes and its response, or the fault (R233). -/
def finish {α : Type} (r : Run α) (last : α → State → State) : State :=
  match r with
  | .done v s => last v s
  | .overflow s => takeFault s

/-! ## The context multiplexer -/

/-- `CMT[CX[k].I]`, the row the multiplexer delivers (R84). -/
def selectedRow (k : Label) (s : State) : CmtRow := cmtRow s.cx[k].i

/-- `MPS-transition(k)` of R85. -/
def mpsTransition (k : Label) (s : State) : State :=
  s.setCx (s.cx.set k { s.cx[k] with i := (selectedRow k s).nmps })

/-- `LPS-transition(k)` of R85: the SWITCH bit is that of the old row. -/
def lpsTransition (k : Label) (s : State) : State :=
  s.setCx (s.cx.set k { i := (selectedRow k s).nlps, mps := s.cx[k].mps != (selectedRow k s).switch })

/-! ## Bytes of the code buffer -/

/-- `fetch(a)` of R43: the decoder's only way to read CB; 0xFF at and beyond END. -/
def fetchByte (s : State) (address : Int) : Byte :=
  if address < s.endAddr.toNat then s.cb.read address.toNat else 0xFF

/-- `CB[a] <- v` by an encoder (R57): at or beyond END it is not made and the procedure overflows. -/
def storeByte (address : Int) (v : Byte) (s : State) : Run Unit :=
  if address < s.endAddr.toNat then .done () (s.setCb (s.cb.write address.toNat v)) else .overflow s

/-! ## MQ decoder -/

/-- `Chigh` = `C[31:16]` (R14). -/
def chigh (c : Word) : BitVec 16 := c.extractLsb' 16 16

/-- EOSCNT + 1, saturating at 2^32 - 1 (R18). -/
def countMarker (n : Word) : Word := if n = 0xFFFFFFFF then n else n + 1

/-- BYTEIN (R90). -/
def byteIn (s : State) : State :=
  let cur := fetchByte s s.bp
  let following := fetchByte s (s.bp + 1)
  if cur = 0xFF then
    if 0x8F < following then ((s.setC (s.c + 0xFF00)).setCt 8).setEoscnt (countMarker s.eoscnt)
    else ((s.setBp (s.bp + 1)).setC (s.c + following.setWidth 32 <<< 9)).setCt 7
  else ((s.setBp (s.bp + 1)).setC (s.c + following.setWidth 32 <<< 8)).setCt 8

/-- The shift of both renormalizations (R91, R115): A and C move one place up, CT counts down. -/
def shiftUp (s : State) : State := ((s.setA (s.a <<< 1)).setC (s.c <<< 1)).setCt (s.ct - 1)

/-- At most how often a renormalization shifts (R91, R115): A is at least 1 on entry (log entry 14). -/
def maxShifts : Nat := 15

/-- One round of RENORMD (R91): byte-in where CT is 0, then the shift. -/
def decoderRound (s : State) : State := shiftUp (if s.ct = 0 then byteIn s else s)

/-- RENORMD (R91), with at most `n` rounds, until A is at least 0x8000. -/
def renormDecoder : Nat → State → State
  | 0, s => s
  | n + 1, s => if (decoderRound s).a < 0x8000 then renormDecoder n (decoderRound s) else decoderRound s

/-- MPS-EXCHANGE (R94); A is already reduced by q. -/
def mpsExchange (k : Label) (q : BitVec 16) (s : State) : Bool × State :=
  if s.a < q then (!s.cx[k].mps, lpsTransition k s) else (s.cx[k].mps, mpsTransition k s)

/-- LPS-EXCHANGE (R95); A is already reduced by q, and becomes q in both arms. -/
def lpsExchange (k : Label) (q : BitVec 16) (s : State) : Bool × State :=
  if s.a < q then (s.cx[k].mps, (mpsTransition k s).setA q) else (!s.cx[k].mps, (lpsTransition k s).setA q)

/-- One decision under label k (the operation of R93): the comparison of Chigh comes first. -/
def decodeDecision (k : Label) (s : State) : Bool × State :=
  let q := (selectedRow k s).qe
  let reduced := s.setA (s.a - q)
  if chigh s.c < q then
    let exchanged := lpsExchange k q reduced
    (exchanged.1, renormDecoder maxShifts exchanged.2)
  else
    let upper := reduced.setC (s.c - q.setWidth 32 <<< 16)
    if upper.a < 0x8000 then
      let exchanged := mpsExchange k q upper
      (exchanged.1, renormDecoder maxShifts exchanged.2)
    else (s.cx[k].mps, upper)

/-! ## MQ encoder -/

/-- BP = START - 1: the last byte is the phantom byte (R111). -/
def atPhantom (s : State) : Bool := s.bp == (s.startAddr.toNat : Int) - 1

/-- `B`, the last byte written: 0x00 for the phantom byte, else `CB[BP]` (R111, R116). -/
def lastByte (s : State) : Byte := if atPhantom s then 0 else s.cb.read s.bp.toNat

/-- `put(v)` of R116: the next byte takes `v[7:0]` and BP moves to it, if there is room (R57). -/
def putByte (v : Word) (s : State) : Run Unit :=
  (storeByte (s.bp + 1) (v.setWidth 8) s).bind fun _ t => .done () (t.setBp (s.bp + 1))

/-- BYTEOUT after a byte 0xFF (R116): 7 bits move out. -/
def putStuffed (s : State) : Run Unit :=
  (putByte (s.c >>> 20) s).bind fun _ t => .done () ((t.setC (t.c &&& 0x000FFFFF)).setCt 7)

/-- BYTEOUT after any other byte (R116): 8 bits move out. -/
def putPlain (s : State) : Run Unit :=
  (putByte (s.c >>> 19) s).bind fun _ t => .done () ((t.setC (t.c &&& 0x0007FFFF)).setCt 8)

/-- `CB[BP] <- B + 1` of R116: the carry goes into the previous byte. The phantom byte is never written (R111). -/
def carryIntoLast (s : State) : Run Unit :=
  if atPhantom s then .done () s else storeByte s.bp (lastByte s + 1) s

/-- BYTEOUT (R116). -/
def byteOut (s : State) : Run Unit :=
  let b := lastByte s
  if b = 0xFF then putStuffed s
  else if s.c < 0x08000000 then putPlain s
  else (carryIntoLast s).bind fun _ t =>
    if b + 1 = 0xFF then putStuffed (t.setC (t.c &&& 0x07FFFFFF)) else putPlain t

/-- One round of RENORME (R115): the shift, then byte-out where CT became 0. -/
def encoderRound (s : State) : Run Unit :=
  if (shiftUp s).ct = 0 then byteOut (shiftUp s) else .done () (shiftUp s)

/-- RENORME (R115), with at most `n` rounds, until A is at least 0x8000. -/
def renormEncoder : Nat → State → Run Unit
  | 0, s => .done () s
  | n + 1, s => (encoderRound s).bind fun _ t => if t.a < 0x8000 then renormEncoder n t else .done () t

/-- CODEMPS(k) (R113). -/
def codeMps (k : Label) (s : State) : Run Unit :=
  let q := (selectedRow k s).qe
  let reduced := s.setA (s.a - q)
  if reduced.a < 0x8000 then
    let split := if reduced.a < q then reduced.setA q else reduced.setC (s.c + q.setWidth 32)
    renormEncoder maxShifts (mpsTransition k split)
  else .done () (reduced.setC (s.c + q.setWidth 32))

/-- CODELPS(k) (R114). -/
def codeLps (k : Label) (s : State) : Run Unit :=
  let q := (selectedRow k s).qe
  let reduced := s.setA (s.a - q)
  let split := if reduced.a < q then reduced.setC (s.c + q.setWidth 32) else reduced.setA q
  renormEncoder maxShifts (lpsTransition k split)

/-- One decision `d` under label k (the operation of R112). -/
def encodeDecision (k : Label) (d : Bool) (s : State) : Run Unit :=
  if d = s.cx[k].mps then codeMps k s else codeLps k s

/-- SETBITS (R117): the comparison is between integers, `T` needs 29 bits. -/
def setBits (s : State) : State :=
  let ones := s.c ||| 0x0000FFFF
  if s.c.toNat + s.a.toNat ≤ ones.toNat then s.setC (ones - 0x8000) else s.setC ones

/-- The shift of the flush (R118): `C <- (C << CT)[31:0]`. -/
def shiftOut (s : State) : State := s.setC (s.c <<< s.ct.toNat)

/-- The writes of FLUSHENC up to MODE (R118): SETBITS, two byte-outs, and a final 0xFF is not counted. -/
def flushEncoder (s : State) : Run Unit :=
  (byteOut (shiftOut (setBits s))).bind fun _ t =>
    (byteOut (shiftOut t)).bind fun _ u =>
      .done () (if lastByte u = 0xFF then u else u.setBp (u.bp + 1))

/-! ## Raw sub-coder -/

/-- The refill of RAWDEC where RCT is 0 (R132). -/
def rawRefill (s : State) : State :=
  let following := fetchByte s s.bp
  if s.rb = 0xFF then
    if 0x8F < following then s.setRaw 0xFF 8 else (s.setRaw following 7).setBp (s.bp + 1)
  else (s.setRaw following 8).setBp (s.bp + 1)

/-- The next raw bit (the operation of R132). -/
def rawDecodeBit (s : State) : Bool × State :=
  let filled := if s.rct = 0 then rawRefill s else s
  let left := filled.rct - 1
  (filled.rb.getLsbD left.toNat, filled.setRaw filled.rb left)

/-- One raw bit appended (the operation of R134). -/
def rawEncodeBit (d : Bool) (s : State) : Run Unit :=
  let left := s.rct - 1
  let rb := s.rb ||| (BitVec.ofBool d).setWidth 8 <<< left.toNat
  let packed := s.setRaw rb left
  if left = 0 then
    (storeByte s.bp rb packed).bind fun _ t =>
      .done () (((t.setLastff (rb == 0xFF)).setRaw 0 (if rb = 0xFF then 7 else 8)).setBp (s.bp + 1))
  else .done () packed

/-- The padding loop of RAWFLUSH (R135): `n` free bits take `v`, its complement, `v`, ... downwards. -/
def padByte : Nat → Bool → Byte → Byte
  | 0, _, rb => rb
  | n + 1, v, rb => padByte n (!v) (rb ||| (BitVec.ofBool v).setWidth 8 <<< n)

/-- The writes of RAWFLUSH up to MODE (R135). -/
def rawFlush (s : State) : Run Unit :=
  let full : BitVec 4 := if s.lastff then 7 else 8
  let ended : Run Unit :=
    if s.rct ≠ full then
      let rb := padByte s.rct.toNat false s.rb
      (storeByte s.bp rb (s.setRaw rb 0)).bind fun _ t => .done () (t.setBp (s.bp + 1))
    else if s.lastff then .done () (s.setBp (s.bp - 1))
    else .done () s
  ended.bind fun _ t => .done () ((t.setRaw 0 8).setLastff false)

end Sys2Proof.Machine
end

