-- ==== Sys2Proof/Machine/MqDecoder.lean ====
section
/-! DEFINITION. The commands of the MQ decoder: INITDEC, DECODE, FINISHDEC, TERMCHK (spec/41_mq_decoder.md). -/

namespace Sys2Proof.Machine

/-- START and END take the window of SEGBASE and SEGLEN (R42), and BP starts at `bp`: common to the INIT commands. -/
def loadWindow (bp : Int) (s : State) : State :=
  ((s.setWindow s.segbase (s.segbase + s.seglen)).setBp bp).setUnspec
    { s.unspec with window := false, bp := false }

/-- The operation of INITDEC (R92): EOSCNT is cleared before the first byte-in. -/
def startDecoder (s : State) : State :=
  let opened := (loadWindow s.segbase.toNat s).setEoscnt 0
  let first := opened.setC ((fetchByte opened opened.bp).setWidth 32 <<< 16)
  let primed := byteIn first
  ((((primed.setC (primed.c <<< 7)).setCt (primed.ct - 7)).setA 0x8000).setMode .dec).setUnspec
    { primed.unspec with mq := false, eoscnt := false }

/-- INITDEC (R92). -/
def execInitdec (s : State) : Host.Outcome State Fault Refusal :=
  .next (admitted (initCheck s) s fun s => (startDecoder s).answer Response.ok)

/-- DECODE cx (R93). -/
def execDecode (cx : Nat) (s : State) : Host.Outcome State Fault Refusal :=
  .next (admitted (requireMode [.dec] s) s fun s =>
    match labelOf cx with
    | none => refuse .label s
    | some k => (decodeDecision k s).2.answer (Response.decision (decodeDecision k s).1))

/-- FINISHDEC (R97): nothing changes. -/
def execFinishdec (s : State) : Host.Outcome State Fault Refusal :=
  .next (admitted (requireMode [.dec, .rawdec] s) s fun s => s.answer Response.ok)

/-- The slack of R99: `END - BP`, an integer. -/
def slackBytes (s : State) : Int := s.endAddr.toNat - s.bp

/-- TERMCHK (R99, R234): at most one warning, slack first. -/
def execTermchk (s : State) : Host.Outcome State Fault Refusal :=
  .next (admitted (requireMode [.dec, .rawdec] s) s fun s =>
    if (Config.tolBytes : Int) < slackBytes s then
      (s.setWslack true).answer (Response.warning .slack (BitVec.ofInt 32 (slackBytes s - Config.tolBytes)))
    else if Config.tolMark < s.eoscnt.toNat then
      (s.setWmark true).answer (Response.warning .markers s.eoscnt)
    else s.answer Response.ok)

end Sys2Proof.Machine
end

