-- ==== Sys2Proof/Machine/MqEncoder.lean ====
section
/-! DEFINITION. The commands of the MQ encoder: INITENC, ENCODE, FLUSHENC (spec/42_mq_encoder.md). -/

namespace Sys2Proof.Machine

/-- The operation of INITENC (R110): BP starts at the phantom byte, CT at 12. -/
def startEncoder (s : State) : State :=
  let opened := loadWindow ((s.segbase.toNat : Int) - 1) s
  ((((opened.setA 0x8000).setC 0).setCt 12).setMode .enc).setUnspec { opened.unspec with mq := false }

/-- INITENC (R110). -/
def execInitenc (s : State) : Host.Outcome State Fault Refusal :=
  .next (admitted (initCheck s) s fun s => (startEncoder s).answer Response.ok)

/-- ENCODE cx, d (R112). -/
def execEncode (cx : Nat) (d : Bool) (s : State) : Host.Outcome State Fault Refusal :=
  .next (admitted (requireMode [.enc] s) s fun s =>
    match labelOf cx with
    | none => refuse .label s
    | some k => finish (encodeDecision k d s) fun _ t => t.answer Response.ok)

/-- FLUSHENC (R118): MODE becomes IDLE and VAL is the number of bytes of the segment. -/
def execFlushenc (s : State) : Host.Outcome State Fault Refusal :=
  .next (admitted (requireMode [.enc] s) s fun s =>
    finish (flushEncoder s) fun _ t => (t.setMode .idle).answer (Response.okValue (numBytes t)))

end Sys2Proof.Machine
end

