-- ==== Sys2Proof/Machine/Raw.lean ====
section
/-! DEFINITION. The commands of the raw sub-coder: RAWINITDEC, RAWDEC, RAWINITENC, RAWENC, RAWFLUSH (spec/43_raw.md). -/

namespace Sys2Proof.Machine

/-- The operation of RAWINITDEC (R131). -/
def startRawDecoder (s : State) : State :=
  let opened := loadWindow s.segbase.toNat s
  (((opened.setRaw 0 0).setEoscnt 0).setMode .rawdec).setUnspec { opened.unspec with raw := false, eoscnt := false }

/-- RAWINITDEC (R131). -/
def execRawinitdec (s : State) : Host.Outcome State Fault Refusal :=
  .next (admitted (initCheck s) s fun s => (startRawDecoder s).answer Response.ok)

/-- RAWDEC (R132). -/
def execRawdec (s : State) : Host.Outcome State Fault Refusal :=
  .next (admitted (requireMode [.rawdec] s) s fun s =>
    (rawDecodeBit s).2.answer (Response.decision (rawDecodeBit s).1))

/-- The operation of RAWINITENC (R133). -/
def startRawEncoder (s : State) : State :=
  let opened := loadWindow s.segbase.toNat s
  (((opened.setRaw 0 8).setLastff false).setMode .rawenc).setUnspec { opened.unspec with raw := false, lastff := false }

/-- RAWINITENC (R133). -/
def execRawinitenc (s : State) : Host.Outcome State Fault Refusal :=
  .next (admitted (initCheck s) s fun s => (startRawEncoder s).answer Response.ok)

/-- RAWENC d (R134). -/
def execRawenc (d : Bool) (s : State) : Host.Outcome State Fault Refusal :=
  .next (admitted (requireMode [.rawenc] s) s fun s =>
    finish (rawEncodeBit d s) fun _ t => t.answer Response.ok)

/-- RAWFLUSH (R135): MODE becomes IDLE and VAL is the number of bytes of the segment. -/
def execRawflush (s : State) : Host.Outcome State Fault Refusal :=
  .next (admitted (requireMode [.rawenc] s) s fun s =>
    finish (rawFlush s) fun _ t => (t.setMode .idle).answer (Response.okValue (numBytes t)))

end Sys2Proof.Machine
end

