-- ==== Sys2Proof/Machine/Labels.lean ====
section
/-! DEFINITION. The scanner's view of the planes (spec/44_scanner.md R150 to R152) and the derivation of a context label
from the neighbours of a coefficient (R153 to R159). -/

namespace Sys2Proof.Machine

/-! ## Planes -/

/-- Where the list of the flag plane holds `FP[xf][yf]`, 0 ≤ xf ≤ W + 1 (R25, R54). -/
def flagIndex (w xf yf : Nat) : Nat := yf * (w + 2) + xf

/-- `FP[xf][yf]` (R25). The cell of coefficient (x, y) is `FP[x + 1][y + 1]`. -/
def flagCell (s : State) (xf yf : Nat) : BitVec 4 := s.fp.read (flagIndex s.w xf yf)

/-- Bit numbers of a flag cell (R25): SIG, SGN, VIS, REF. -/
def sigBit : Nat := 0
/-- SGN, 1 = negative (R25). -/
def sgnBit : Nat := 1
/-- VIS, visited this bit-plane (R25). -/
def visBit : Nat := 2
/-- REF, refined at least once (R25). -/
def refBit : Nat := 3

/-- A flag of coefficient (x, y) (R151). -/
def flagOf (n : Nat) (s : State) (x y : Nat) : Bool := (flagCell s (x + 1) (y + 1)).getLsbD n

/-- σ(x, y) (R151). -/
def isSignificant (s : State) (x y : Nat) : Bool := flagOf sigBit s x y

/-- π(x, y) (R151). -/
def isVisited (s : State) (x y : Nat) : Bool := flagOf visBit s x y

/-- μ(x, y) (R151). -/
def isRefined (s : State) (x y : Nat) : Bool := flagOf refBit s x y

/-- A write of the flag cell of coefficient (x, y). -/
def setFlagCell (s : State) (x y : Nat) (v : BitVec 4) : State :=
  s.setFp (s.fp.write (flagIndex s.w (x + 1) (y + 1)) v)

/-- `σ(x, y) <- 1 ; χ(x, y) <- neg` (R161). -/
def markSignificant (x y : Nat) (neg : Bool) (s : State) : State :=
  let old := flagCell s (x + 1) (y + 1)
  setFlagCell s x y ((old &&& 0b1100#4) ||| (if neg then 0b0011#4 else 0b0001#4))

/-- `π(x, y) <- 1` (R163). -/
def markVisited (x y : Nat) (s : State) : State :=
  setFlagCell s x y (flagCell s (x + 1) (y + 1) ||| 0b0100#4)

/-- `μ(x, y) <- 1` (R164). -/
def markRefined (x y : Nat) (s : State) : State :=
  setFlagCell s x y (flagCell s (x + 1) (y + 1) ||| 0b1000#4)

/-- `clear all π` (R165, R166): the VIS bit of every flag cell is cleared. -/
def clearVisited (s : State) : State :=
  s.setFp (s.fp.filterMap fun e =>
    let v := e.2 &&& 0b1011#4
    if v = 0 then none else some (e.1, v))

/-- The index of coefficient (x, y) in CP (R53): `y * W + x`. -/
def coefIndex (s : State) (x y : Nat) : Nat := y * s.w + x

/-- The cell of coefficient (x, y) in CP (R26, R53). -/
def coefCell (s : State) (x y : Nat) : Word := s.cp.read (coefIndex s x y)

/-- `mbit(x, y, P)`: bit P of MAG(x, y), P ≤ 29 (R152). -/
def magBit (s : State) (x y p : Nat) : Bool := (coefCell s x y).getLsbD p

/-- `NEG(x, y)` (R26, R152). -/
def isNegative (s : State) (x y : Nat) : Bool := (coefCell s x y).getLsbD 31

/-- A write of the cell of coefficient (x, y). -/
def setCoefCell (s : State) (x y : Nat) (v : Word) : State := s.setCp (s.cp.write (coefIndex s x y) v)

/-- `MAG(x, y) <- MAG(x, y) | (b << P)` (R152, R164). -/
def orMagBit (x y p : Nat) (b : Bool) (s : State) : State :=
  setCoefCell s x y (coefCell s x y ||| (BitVec.ofBool b).setWidth 32 <<< p)

/-- `NEG(x, y) <- neg` (R161). -/
def setNegative (x y : Nat) (neg : Bool) (s : State) : State :=
  setCoefCell s x y ((coefCell s x y &&& 0x7FFFFFFF) ||| (BitVec.ofBool neg).setWidth 32 <<< 31)

/-! ## Scan order -/

/-- The number of stripes, `ceil(H / 4)` (R150). -/
def stripeCount (h : Nat) : Nat := (h + 3) / 4

/-- The columns of the stripes in scan order, as pairs (k, x) (R150). -/
def scanColumns (w h : Nat) : List (Nat × Nat) :=
  (List.range (stripeCount h)).flatMap fun k => (List.range w).map fun x => (k, x)

/-- The rows of stripe k from row j of the stripe on, top to bottom, those inside the code-block (R150). -/
def stripeRows (h k j : Nat) : List Nat :=
  ((List.range' j (4 - j)).map fun i => 4 * k + i).filter fun y => decide (y < h)

/-- The coefficients (x, y) in scan order (R150). -/
def scanOrder (w h : Nat) : List (Nat × Nat) :=
  (scanColumns w h).flatMap fun col => (stripeRows h col.1 0).map fun y => (col.2, y)

/-! ## Neighbour sums -/

/-- σ of the flag cell `FP[xf][yf]`, as a number. -/
def sigAt (s : State) (xf yf : Nat) : Nat := ((flagCell s xf yf).getLsbD sigBit).toNat

/-- ΣH of R153: left and right. -/
def sumH (s : State) (x y : Nat) : Nat := sigAt s x (y + 1) + sigAt s (x + 2) (y + 1)

/-- ΣV of R153: above and below. -/
def sumV (s : State) (x y : Nat) : Nat := sigAt s (x + 1) y + sigAt s (x + 1) (y + 2)

/-- ΣD of R153: the diagonals. -/
def sumD (s : State) (x y : Nat) : Nat :=
  sigAt s x y + sigAt s (x + 2) y + sigAt s x (y + 2) + sigAt s (x + 2) (y + 2)

/-- NBR of R153: the number of significant neighbours. -/
def neighbours (s : State) (x y : Nat) : Nat := sumH s x y + sumV s x y + sumD s x y

/-! ## Labels -/

/-- ZC label for LL and LH (R154), from ΣH, ΣV, ΣD. -/
def zcLabelLL (h v d : Nat) : Label :=
  if 2 ≤ h then 8
  else if h = 1 then (if 1 ≤ v then 7 else if 1 ≤ d then 6 else 5)
  else if 2 ≤ v then 4
  else if v = 1 then 3
  else if 2 ≤ d then 2
  else if d = 1 then 1
  else 0

/-- ZC label for HH (R156), from ΣHV and ΣD. -/
def zcLabelHH (hv d : Nat) : Label :=
  if 3 ≤ d then 8
  else if d = 2 then (if 1 ≤ hv then 7 else 6)
  else if d = 1 then (if 2 ≤ hv then 5 else if hv = 1 then 4 else 3)
  else if 2 ≤ hv then 2
  else if hv = 1 then 1
  else 0

/-- ZC label of an orientation (R154 to R156); HL is the table of LL with ΣH and ΣV exchanged (R155). -/
def zcLabel (o : Orientation) (h v d : Nat) : Label :=
  match o with
  | .ll => zcLabelLL h v d
  | .hl => zcLabelLL v h d
  | .lh => zcLabelLL h v d
  | .hh => zcLabelHH (h + v) d

/-- ZC label of coefficient (x, y) (R154 to R156). -/
def zcLabelOf (s : State) (x y : Nat) : Label := zcLabel s.orient (sumH s x y) (sumV s x y) (sumD s x y)

/-- `s(n)` of R157: 0 insignificant, +1 positive, -1 negative. -/
def signOfCell (cell : BitVec 4) : Int :=
  if cell.getLsbD sigBit then (if cell.getLsbD sgnBit then -1 else 1) else 0

/-- `clamp(v, -1, +1)` (R157). -/
def clampOne (v : Int) : Int := max (-1) (min 1 v)

/-- `hc` of R157. -/
def contributionH (s : State) (x y : Nat) : Int :=
  clampOne (signOfCell (flagCell s x (y + 1)) + signOfCell (flagCell s (x + 2) (y + 1)))

/-- `vc` of R157. -/
def contributionV (s : State) (x y : Nat) : Int :=
  clampOne (signOfCell (flagCell s (x + 1) y) + signOfCell (flagCell s (x + 1) (y + 2)))

/-- SC label and XORBIT from (hc, vc) (R158), each -1, 0 or 1. -/
def scLabel (hc vc : Int) : Label × Bool :=
  if hc = 1 then (if vc = 1 then (13, false) else if vc = 0 then (12, false) else (11, false))
  else if hc = 0 then (if vc = 1 then (10, false) else if vc = 0 then (9, false) else (10, true))
  else (if vc = 1 then (11, true) else if vc = 0 then (12, true) else (13, true))

/-- SC label and XORBIT of coefficient (x, y) (R157, R158). -/
def scLabelOf (s : State) (x y : Nat) : Label × Bool := scLabel (contributionH s x y) (contributionV s x y)

/-- MR label (R159), from μ and whether a neighbour is significant. -/
def mrLabel (refined : Bool) (nbr : Nat) : Label :=
  if refined then 16 else if 0 < nbr then 15 else 14

/-- MR label of coefficient (x, y) (R159). -/
def mrLabelOf (s : State) (x y : Nat) : Label := mrLabel (isRefined s x y) (neighbours s x y)

end Sys2Proof.Machine
end

