-- ==== Sys2Proof/Machine/Coding.lean ====
section
/-! DEFINITION. The coding primitives of the scanner (spec/44_scanner.md R160, R161) and the visits of the three passes to
one coefficient or one column (R163 to R165). -/

namespace Sys2Proof.Machine

/-- The mode codes by the MQ coder (R160). -/
def isArithmetic (s : State) : Bool := s.mode == .dec || s.mode == .enc

/-- The mode decodes, so that a pass writes CP (R152, R161, R164). -/
def isDecoding (s : State) : Bool := s.mode == .dec || s.mode == .rawdec

/-- `CODE(k, v)` of R160. -/
def codeLabel (k : Label) (v : Bool) (s : State) : Run Bool :=
  if s.mode = .dec then
    let r := decodeDecision k s
    .done r.1 r.2
  else (encodeDecision k v s).bind fun _ t => .done v t

/-- `CODERAW(v)` of R160. -/
def codeRaw (v : Bool) (s : State) : Run Bool :=
  if s.mode = .rawdec then
    let r := rawDecodeBit s
    .done r.1 r.2
  else (rawEncodeBit v s).bind fun _ t => .done v t

/-- `SYM(k, v)` of R160. -/
def codeSymbol (k : Label) (v : Bool) (s : State) : Run Bool :=
  if isArithmetic s then codeLabel k v s else codeRaw v s

/-- The sign decision of R161: under the SC label with XORBIT, or the sign bit itself in a raw mode. -/
def codeSign (x y : Nat) (s : State) : Run Bool :=
  if isArithmetic s then
    let sc := scLabelOf s x y
    (codeLabel sc.1 (isNegative s x y != sc.2) s).bind fun d t => .done (d != sc.2) t
  else codeRaw (isNegative s x y) s

/-- `SIGNIFY(x, y, P)` of R161. DESIGN CHOICE (log entry 18): its assignments to MAG and NEG are two writes of the cell, in
that order, for a reset event that abandons the pass. -/
def signify (x y p : Nat) (s : State) : Run Unit :=
  (codeSign x y s).bind fun neg t =>
    let marked := markSignificant x y neg t
    .done () (if isDecoding t then setNegative x y neg (orMagBit x y p true marked) else marked)

/-- A significance decision under the ZC label, and SIGNIFY where it is 1 (R163, R165). -/
def codeSignificance (x y p : Nat) (s : State) : Run Unit :=
  (codeSymbol (zcLabelOf s x y) (magBit s x y p) s).bind fun b t =>
    if b then signify x y p t else .done () t

/-- SIGPASS's visit to (x, y) (R163). -/
def visitSignificance (p : Nat) (xy : Nat × Nat) (s : State) : Run Unit :=
  if !isSignificant s xy.1 xy.2 && !isVisited s xy.1 xy.2 && decide (0 < neighbours s xy.1 xy.2) then
    (codeSignificance xy.1 xy.2 p s).bind fun _ t => .done () (markVisited xy.1 xy.2 t)
  else .done () s

/-- REFPASS's visit to (x, y) (R164). -/
def visitRefinement (p : Nat) (xy : Nat × Nat) (s : State) : Run Unit :=
  if isSignificant s xy.1 xy.2 && !isVisited s xy.1 xy.2 then
    (codeSymbol (mrLabelOf s xy.1 xy.2) (magBit s xy.1 xy.2 p) s).bind fun b t =>
      .done () (markRefined xy.1 xy.2 (if isDecoding t then orMagBit xy.1 xy.2 p b t else t))
  else .done () s

/-- CLNPASS's visit to a coefficient coded one by one (R165). -/
def visitCleanup (p x y : Nat) (s : State) : Run Unit :=
  if !isSignificant s x y && !isVisited s x y then codeSignificance x y p s else .done () s

/-- The run-length test of R165: a full stripe of four rows, and all four coefficients of the column insignificant, not
visited and without a significant neighbour. -/
def runEligible (k x : Nat) (s : State) : Bool :=
  decide (4 * k + 3 < s.h) && (List.range 4).all fun j =>
    !isSignificant s x (4 * k + j) && !isVisited s x (4 * k + j) && neighbours s x (4 * k + j) == 0

/-- `first` of R165: the least j whose magnitude has bit P; 0 where none has (it is then not coded). -/
def firstInRun (k x p : Nat) (s : State) : Nat :=
  ((List.range 4).find? fun j => magBit s x (4 * k + j) p).getD 0

/-- `any` of R165. -/
def anyInRun (k x p : Nat) (s : State) : Bool :=
  (List.range 4).any fun j => magBit s x (4 * k + j) p

/-- The rows of column x of stripe k from row j of the stripe on, coded one by one (R165). -/
def cleanRows (p k x j : Nat) (s : State) : Run Unit :=
  forEach (fun y => visitCleanup p x y) (stripeRows s.h k j) s

/-- CLNPASS's visit to a column (R165): run-length mode where it is eligible, else row by row. -/
def visitColumn (p : Nat) (col : Nat × Nat) (s : State) : Run Unit :=
  let k := col.1
  let x := col.2
  if runEligible k x s then
    (codeLabel labelAGG (anyInRun k x p s) s).bind fun a t =>
      if a then
        let first := firstInRun k x p s
        (codeLabel labelUNI (first.testBit 1) t).bind fun r1 t1 =>
          (codeLabel labelUNI (first.testBit 0) t1).bind fun r0 t0 =>
            let r := 2 * r1.toNat + r0.toNat
            (signify x (4 * k + r) p t0).bind fun _ u => cleanRows p k x (r + 1) u
      else .done () t
  else cleanRows p k x 0 s

/-- SIGPASS's scan (R163). -/
def significancePass (p : Nat) (s : State) : Run Unit :=
  forEach (visitSignificance p) (scanOrder s.w s.h) s

/-- REFPASS's scan (R164). -/
def refinementPass (p : Nat) (s : State) : Run Unit :=
  forEach (visitRefinement p) (scanOrder s.w s.h) s

/-- CLNPASS's scan, and the end of the pass (R165, R166). -/
def cleanupPass (p : Nat) (s : State) : Run Unit :=
  (forEach (visitColumn p) (scanColumns s.w s.h) s).bind fun _ t => .done () (clearVisited t)

end Sys2Proof.Machine
end

