-- ==== Sys2Proof/Machine/Scanner.lean ====
section
/-! DEFINITION. The commands of the scanner: CBINIT, SIGPASS, REFPASS, CLNPASS (spec/44_scanner.md). -/

namespace Sys2Proof.Machine

/-- The operation of CBINIT (R162): the geometry is loaded, FP is cleared, and CP too where CLR is 1. -/
def loadGeometry (wm1 hm1 : Nat) (orient : Orientation) (clr : Bool) (s : State) : State :=
  let loaded := ((s.setGeometry (wm1 + 1) (hm1 + 1) orient).setFp []).setUnspec { s.unspec with geom := false }
  let cleared := if clr then loaded.setCp (loaded.cp.zeroRange 0 ((wm1 + 1) * (hm1 + 1))) else loaded
  cleared.setGeomv true

/-- CBINIT w, h, orient, clr (R162). -/
def execCbinit (wm1 hm1 : Nat) (orient : Orientation) (clr : Bool) (s : State) : Host.Outcome State Fault Refusal :=
  .next (admitted (orElse (requireNotFault s) (areaCheck wm1 hm1 s)) s fun s =>
    (loadGeometry wm1 hm1 orient clr s).answer Response.ok)

/-- SIGPASS p (R163, R167). -/
def execSigpass (p : Nat) (s : State) : Host.Outcome State Fault Refusal :=
  .next (admitted (passCheck [.dec, .enc, .rawdec, .rawenc] p s) s fun s =>
    finish (significancePass p s) fun _ t => t.answer Response.ok)

/-- REFPASS p (R164, R167). -/
def execRefpass (p : Nat) (s : State) : Host.Outcome State Fault Refusal :=
  .next (admitted (passCheck [.dec, .enc, .rawdec, .rawenc] p s) s fun s =>
    finish (refinementPass p s) fun _ t => t.answer Response.ok)

/-- CLNPASS p (R165 to R167): refused in the raw modes. -/
def execClnpass (p : Nat) (s : State) : Host.Outcome State Fault Refusal :=
  .next (admitted (passCheck [.dec, .enc] p s) s fun s =>
    finish (cleanupPass p s) fun _ t => t.answer Response.ok)

end Sys2Proof.Machine
end

