-- ==== Sys2Proof/Machine/System.lean ====
section
/-! DEFINITION. The housekeeping commands NOP, CLRSTAT, RDREG, WRREG (spec/45_system.md) and CXRESET
(spec/40_context.md R86). -/

namespace Sys2Proof.Machine

/-- NOP (R190): every mode; nothing is written. -/
def execNop (s : State) : Host.Outcome State Fault Refusal := .next (s.answer Response.ok)

/-- CXRESET (R86): the 19 contexts take their initial values; refused in FAULT. -/
def execCxreset (s : State) : Host.Outcome State Fault Refusal :=
  .next (admitted (requireNotFault s) s fun s => (s.setCx initialContexts).answer Response.ok)

/-- CLRSTAT (R191): the sticky bits are cleared in every mode; in FAULT the reset state is restored too. -/
def execClrstat (s : State) : Host.Outcome State Fault Refusal :=
  .next ((if s.mode = .fault then leaveFault (clearSticky s) else clearSticky s).answer Response.ok)

/-- WRREG ra, value (R193): SEGBASE or SEGLEN takes ARG; every other address raises ERR_ILLEGAL. -/
def execWrreg (ra : Nat) (value : Word) (s : State) : Host.Outcome State Fault Refusal :=
  match portReg ra with
  | some .segbase => .next ((s.setSegbase value).answer Response.ok)
  | some .seglen => .next ((s.setSeglen value).answer Response.ok)
  | _ => .next (refuse .illegal s)

/-- RDREG ra (R192): VAL is the register's image, or a free value where it is unspecified (log entry 6); an unmapped
address raises ERR_ILLEGAL. No state of the block is written. -/
def execRdreg (ra : Nat) (s : State) : Host.Outcome State Fault Refusal :=
  match portReg ra with
  | some r =>
    let drawn := if isUnspecified r s.unspec then s.setDraws (s.draws + 1) else s
    .next (drawn.answer (Response.okValue (readReg r (Config.freeWord s.draws) s)))
  | none => .next (refuse .illegal s)

end Sys2Proof.Machine
end

