-- ==== Sys2Proof/Machine/Dispatch.lean ====
section
/-! DEFINITION. The meaning of every command: one arm for each row of spec/opcode_table.json. -/

namespace Sys2Proof.Machine

def exec (i : Instr) (s : State) : Host.Outcome State Fault Refusal :=
  match i with
  | .nop => Sys2Proof.Machine.execNop s
  | .cxreset => Sys2Proof.Machine.execCxreset s
  | .clrstat => Sys2Proof.Machine.execClrstat s
  | .wrreg ra value => Sys2Proof.Machine.execWrreg ra value s
  | .rdreg ra => Sys2Proof.Machine.execRdreg ra s
  | .initdec => Sys2Proof.Machine.execInitdec s
  | .decode cx => Sys2Proof.Machine.execDecode cx s
  | .finishdec => Sys2Proof.Machine.execFinishdec s
  | .termchk => Sys2Proof.Machine.execTermchk s
  | .initenc => Sys2Proof.Machine.execInitenc s
  | .encode cx d => Sys2Proof.Machine.execEncode cx d s
  | .flushenc => Sys2Proof.Machine.execFlushenc s
  | .rawinitdec => Sys2Proof.Machine.execRawinitdec s
  | .rawdec => Sys2Proof.Machine.execRawdec s
  | .rawinitenc => Sys2Proof.Machine.execRawinitenc s
  | .rawenc d => Sys2Proof.Machine.execRawenc d s
  | .rawflush => Sys2Proof.Machine.execRawflush s
  | .cbinit wm1 hm1 orient clr => Sys2Proof.Machine.execCbinit wm1 hm1 orient clr s
  | .sigpass p => Sys2Proof.Machine.execSigpass p s
  | .refpass p => Sys2Proof.Machine.execRefpass p s
  | .clnpass p => Sys2Proof.Machine.execClnpass p s

end Sys2Proof.Machine
end

