-- ==== Sys2Proof/WellFormed.lean ====
section
/-! DEFINITION. Which command terms have an encoding: every number operand fits the field R62 gives it. A value that
fits its field but lies outside its legal range (a label 19 to 31, a plane 30 or 31, an unmapped address) is well
formed: R65 says that it "is not an illegal *encoding*", and the command's own rule refuses it. -/

namespace Sys2Proof

/-- The operand fits its field of the command word (R62): RA has 8 bits, CX and P have 5, WM1 and HM1 have 10. -/
def Instr.wf : Instr → Bool
  | .nop => true
  | .cxreset => true
  | .clrstat => true
  | .wrreg ra _ => decide (ra < 2 ^ 8)
  | .rdreg ra => decide (ra < 2 ^ 8)
  | .initdec => true
  | .decode cx => decide (cx < 2 ^ 5)
  | .finishdec => true
  | .termchk => true
  | .initenc => true
  | .encode cx _ => decide (cx < 2 ^ 5)
  | .flushenc => true
  | .rawinitdec => true
  | .rawdec => true
  | .rawinitenc => true
  | .rawenc _ => true
  | .rawflush => true
  | .cbinit wm1 hm1 _ _ => decide (wm1 < 2 ^ 10) && decide (hm1 < 2 ^ 10)
  | .sigpass p => decide (p < 2 ^ 5)
  | .refpass p => decide (p < 2 ^ 5)
  | .clnpass p => decide (p < 2 ^ 5)

end Sys2Proof
end

