-- ==== Sys2Proof/Decode.lean ====
section
/-! DEFINITION. The command encoding of spec/30_encoding.md: the decoder (R62 to R65), total on every pair of words,
and after it the encoder, both written from the formats of R62 and the opcode map of R64. -/

namespace Sys2Proof

/-- Why a command word is illegal: the two cases of R65. Both make the block raise ERR_ILLEGAL. -/
inductive DecodeError where
  /-- R65 (a): an opcode value that is not in the table. -/
  | unknownOpcode
  /-- R65 (b): a listed opcode with a reserved bit that is 1. -/
  | reservedBit
deriving DecidableEq, Repr

/-- The bit slice `w[hi:lo]` as an unsigned number (R9). -/
def field (w : Word) (hi lo : Nat) : Nat := (w.toNat / 2 ^ lo) % 2 ^ (hi + 1 - lo)

/-- The instruction of a word whose reserved bits are 0; R65: "A reserved bit is never ignored". -/
def checked (reservedZero : Bool) (i : Instr) : Except DecodeError Instr :=
  if reservedZero then .ok i else .error .reservedBit

/-- Format Z of R62: no operand, CMD[23:0] = 0. -/
def formatZ (w : Word) (i : Instr) : Except DecodeError Instr :=
  checked (field w 23 0 == 0) i

/-- Format A of R62: RA = CMD[7:0], CMD[23:8] = 0. -/
def formatA (w : Word) (i : Nat → Instr) : Except DecodeError Instr :=
  checked (field w 23 8 == 0) (i (field w 7 0))

/-- Formats K and P of R62: a 5-bit operand CMD[4:0], CMD[23:5] = 0. -/
def formatK (w : Word) (i : Nat → Instr) : Except DecodeError Instr :=
  checked (field w 23 5 == 0) (i (field w 4 0))

/-- Format E of R62: CX = CMD[4:0], D = CMD[8], CMD[7:5] = 0, CMD[23:9] = 0. -/
def formatE (w : Word) (i : Nat → Bool → Instr) : Except DecodeError Instr :=
  checked (field w 7 5 == 0 && field w 23 9 == 0) (i (field w 4 0) (field w 8 8 == 1))

/-- Format B of R62: D = CMD[0], CMD[23:1] = 0. -/
def formatB (w : Word) (i : Bool → Instr) : Except DecodeError Instr :=
  checked (field w 23 1 == 0) (i (field w 0 0 == 1))

/-- The orientation of a numeric code (R24); a code has two bits, so only 0 to 3 occur. -/
def orientOfCode : Nat → Orientation
  | 0 => .ll
  | 1 => .hl
  | 2 => .lh
  | _ => .hh

/-- The numeric code of an orientation (R24, R63): 0 LL, 1 HL, 2 LH, 3 HH. -/
def orientCode : Orientation → Nat
  | .ll => 0
  | .hl => 1
  | .lh => 2
  | .hh => 3

/-- Format G of R62: WM1 = CMD[9:0], HM1 = CMD[19:10], ORIENT = CMD[21:20], CLR = CMD[22], CMD[23] = 0. -/
def formatG (w : Word) (i : Nat → Nat → Orientation → Bool → Instr) : Except DecodeError Instr :=
  checked (field w 23 23 == 0)
    (i (field w 9 0) (field w 19 10) (orientOfCode (field w 21 20)) (field w 22 22 == 1))

/-- The command that the pair of words (CMD, ARG) is (R60 to R64), or why CMD is illegal (R65). ARG is the data of
WRREG; every other command ignores it entirely (R61). -/
def decode (cmd arg : Word) : Except DecodeError Instr :=
  match field cmd 31 24 with
  | 0x00 => formatZ cmd .nop
  | 0x01 => formatZ cmd .cxreset
  | 0x02 => formatZ cmd .clrstat
  | 0x03 => formatA cmd (fun ra => .wrreg ra arg)
  | 0x04 => formatA cmd .rdreg
  | 0x10 => formatZ cmd .initdec
  | 0x11 => formatK cmd .decode
  | 0x12 => formatZ cmd .finishdec
  | 0x13 => formatZ cmd .termchk
  | 0x20 => formatZ cmd .initenc
  | 0x21 => formatE cmd .encode
  | 0x22 => formatZ cmd .flushenc
  | 0x30 => formatZ cmd .rawinitdec
  | 0x31 => formatZ cmd .rawdec
  | 0x38 => formatZ cmd .rawinitenc
  | 0x39 => formatB cmd .rawenc
  | 0x3A => formatZ cmd .rawflush
  | 0x40 => formatG cmd .cbinit
  | 0x41 => formatK cmd .sigpass
  | 0x42 => formatK cmd .refpass
  | 0x43 => formatK cmd .clnpass
  | _ => .error .unknownOpcode

/-- The command word with opcode `opc` and the operand bits `operands` in CMD[23:0] (R62). -/
def commandWord (opc operands : Nat) : Word := BitVec.ofNat 32 (opc * 2 ^ 24 + operands)

/-- The pair (CMD, ARG) of a well-formed command: the `Encoding` line of each command's rule. ARG is 0 for every
command but WRREG, as the assembler of R68 writes it. -/
def encode : Instr → Word × Word
  | .nop => (commandWord 0x00 0, 0)
  | .cxreset => (commandWord 0x01 0, 0)
  | .clrstat => (commandWord 0x02 0, 0)
  | .wrreg ra value => (commandWord 0x03 ra, value)
  | .rdreg ra => (commandWord 0x04 ra, 0)
  | .initdec => (commandWord 0x10 0, 0)
  | .decode cx => (commandWord 0x11 cx, 0)
  | .finishdec => (commandWord 0x12 0, 0)
  | .termchk => (commandWord 0x13 0, 0)
  | .initenc => (commandWord 0x20 0, 0)
  | .encode cx d => (commandWord 0x21 (d.toNat * 2 ^ 8 + cx), 0)
  | .flushenc => (commandWord 0x22 0, 0)
  | .rawinitdec => (commandWord 0x30 0, 0)
  | .rawdec => (commandWord 0x31 0, 0)
  | .rawinitenc => (commandWord 0x38 0, 0)
  | .rawenc d => (commandWord 0x39 d.toNat, 0)
  | .rawflush => (commandWord 0x3A 0, 0)
  | .cbinit wm1 hm1 orient clr =>
    (commandWord 0x40 (clr.toNat * 2 ^ 22 + orientCode orient * 2 ^ 20 + hm1 * 2 ^ 10 + wm1), 0)
  | .sigpass p => (commandWord 0x41 p, 0)
  | .refpass p => (commandWord 0x42 p, 0)
  | .clnpass p => (commandWord 0x43 p, 0)

/-- The mnemonic of a command (R64). -/
def mnemonicOf : Instr → String
  | .nop => "NOP"
  | .cxreset => "CXRESET"
  | .clrstat => "CLRSTAT"
  | .wrreg _ _ => "WRREG"
  | .rdreg _ => "RDREG"
  | .initdec => "INITDEC"
  | .decode _ => "DECODE"
  | .finishdec => "FINISHDEC"
  | .termchk => "TERMCHK"
  | .initenc => "INITENC"
  | .encode _ _ => "ENCODE"
  | .flushenc => "FLUSHENC"
  | .rawinitdec => "RAWINITDEC"
  | .rawdec => "RAWDEC"
  | .rawinitenc => "RAWINITENC"
  | .rawenc _ => "RAWENC"
  | .rawflush => "RAWFLUSH"
  | .cbinit _ _ _ _ => "CBINIT"
  | .sigpass _ => "SIGPASS"
  | .refpass _ => "REFPASS"
  | .clnpass _ => "CLNPASS"

/-- A row of the opcode map of R64: "a word `w` is this command when `w & mask = match`". -/
structure OpcodeRow where
  mnemonic : String
  pattern : Word
  mask : Word
deriving DecidableEq, Repr

/-- The 21 rows of R64, as the table writes them. -/
def opcodeTable : List OpcodeRow :=
  [ { mnemonic := "NOP", pattern := 0x00000000, mask := 0xFFFFFFFF },
    { mnemonic := "CXRESET", pattern := 0x01000000, mask := 0xFFFFFFFF },
    { mnemonic := "CLRSTAT", pattern := 0x02000000, mask := 0xFFFFFFFF },
    { mnemonic := "WRREG", pattern := 0x03000000, mask := 0xFFFFFF00 },
    { mnemonic := "RDREG", pattern := 0x04000000, mask := 0xFFFFFF00 },
    { mnemonic := "INITDEC", pattern := 0x10000000, mask := 0xFFFFFFFF },
    { mnemonic := "DECODE", pattern := 0x11000000, mask := 0xFFFFFFE0 },
    { mnemonic := "FINISHDEC", pattern := 0x12000000, mask := 0xFFFFFFFF },
    { mnemonic := "TERMCHK", pattern := 0x13000000, mask := 0xFFFFFFFF },
    { mnemonic := "INITENC", pattern := 0x20000000, mask := 0xFFFFFFFF },
    { mnemonic := "ENCODE", pattern := 0x21000000, mask := 0xFFFFFEE0 },
    { mnemonic := "FLUSHENC", pattern := 0x22000000, mask := 0xFFFFFFFF },
    { mnemonic := "RAWINITDEC", pattern := 0x30000000, mask := 0xFFFFFFFF },
    { mnemonic := "RAWDEC", pattern := 0x31000000, mask := 0xFFFFFFFF },
    { mnemonic := "RAWINITENC", pattern := 0x38000000, mask := 0xFFFFFFFF },
    { mnemonic := "RAWENC", pattern := 0x39000000, mask := 0xFFFFFFFE },
    { mnemonic := "RAWFLUSH", pattern := 0x3A000000, mask := 0xFFFFFFFF },
    { mnemonic := "CBINIT", pattern := 0x40000000, mask := 0xFF800000 },
    { mnemonic := "SIGPASS", pattern := 0x41000000, mask := 0xFFFFFFE0 },
    { mnemonic := "REFPASS", pattern := 0x42000000, mask := 0xFFFFFFE0 },
    { mnemonic := "CLNPASS", pattern := 0x43000000, mask := 0xFFFFFFE0 } ]

/-- The word is the command of this row (R64). -/
def OpcodeRow.matches (r : OpcodeRow) (cmd : Word) : Bool := (cmd &&& r.mask) == r.pattern

/-- The instruction that the decoder reads from an instruction of `nbits` bits `w`, bit 0 the least significant bit of
CMD and bit 32 that of ARG; the bits above `nbits` are 0. -/
def decodeTableWord (nbits w : Nat) : Option Instr :=
  match decode (BitVec.ofNat 32 (w % 2 ^ nbits)) (BitVec.ofNat 32 (w % 2 ^ nbits / 2 ^ 32)) with
  | .ok i => some i
  | .error _ => none

end Sys2Proof
end

