-- ==== Sys2Proof/Machine/HostPort.lean ====
section
/-! DEFINITION. The host's side of the command port (spec/30_encoding.md R60, R65; spec/20_memory.md R50): what a command
word that is no command does, what the host's writes to CB and CP do, and where the next command is taken from. -/

namespace Sys2Proof.Machine

/-- A command word that matches no row of R64 (R65): the block does nothing but raise ERR_ILLEGAL. -/
def illegalCommand (s : State) : State := refuse .illegal s

/-- The host writes a byte of CB (R40, R50); an address CB does not have stops the machine. -/
def hostWriteCb (address : Nat) (value : Byte) (s : State) : Host.Outcome State Fault Refusal :=
  if address < s.params.cbsize then .next (s.setCb (s.cb.write address value)) else .fault .noSuchCodeByte

/-- The host writes a cell of CP (R26, R50); CP has MAXAREA cells (R53, log entry 17). -/
def hostWriteCp (index : Nat) (value : Word) (s : State) : Host.Outcome State Fault Refusal :=
  if index < s.params.maxarea then .next (s.setCp (s.cp.write index value)) else .fault .noSuchCoefficient

/-- The pair (CMD, ARG) of an instruction of `nbits` bits `w`, numbered as spec/opcode_table.json numbers them. -/
def commandOfBits (nbits w : Nat) : HostAction :=
  .command (BitVec.ofNat 32 (w % 2 ^ nbits)) (BitVec.ofNat 32 (w % 2 ^ nbits / 2 ^ 32))

/-- Puts an action before all that the host has still to do, so that the next step takes it. -/
def State.issue (s : State) (action : HostAction) : State := s.setInbox (action :: s.inbox)

end Sys2Proof.Machine
end

