-- ==== Sys2Proof/Machine/Abandon.lean ====
section
/-! DEFINITION. The reset event while a command runs (spec/70_reset_and_hazards.md R260, U20): the command is abandoned
without a response, and what it has written to CB and CP by then stays. Every other piece of state takes its reset value,
so the number of writes made is all that the moment of the event decides. -/

namespace Sys2Proof.Machine

/-- The state with the writes to CB and CP recorded. -/
def recordWrites (s : State) : State := (s.setCb s.cb.record).setCp s.cp.record

/-- The state after the reset event in which a command has made these writes to CB and to CP: "the cells it had already
written keep the new values" (R260). -/
def resetAfterWrites (cbWrites : List (Nat × Byte)) (cpWrites : List (Nat × Word)) (s : State) : State :=
  let r := resetEvent s
  (r.setCb (r.cb.writeAll cbWrites)).setCp (r.cp.writeAll cpWrites)

/-- The reset event when the command has made `writes` writes, or all it would make if they are fewer. A command writes
CB or CP, never both. -/
def abandonCommand (cmd arg : Word) (writes : Nat) (s : State) : State :=
  match decode cmd arg with
  | .error _ => resetEvent s
  | .ok i =>
    match exec i (recordWrites s) with
    | .next t => resetAfterWrites (t.cb.recorded.take writes) (t.cp.recorded.take writes) s
    | .fault _ => resetEvent s
    | .refused _ => resetEvent s

end Sys2Proof.Machine
end

