-- ==== Sys2Proof/Machine/Step.lean ====
section
/-! DEFINITION. One step of the machine: the next action of the host is taken and carried out to its end
(spec/30_encoding.md R60; spec/20_memory.md R50; spec/70_reset_and_hazards.md R260). -/

namespace Sys2Proof.Machine

/-- One step. A command is decoded and executed to completion and answered before the next action is taken (R60); a
word that is no command is refused (R65); with nothing to do the block is idle and holds its state (R242). -/
def step (s : State) : Host.Outcome State Fault Refusal :=
  match s.inbox with
  | [] => .next s
  | .command cmd arg :: rest =>
    match decode cmd arg with
    | .ok i => exec i (s.setInbox rest)
    | .error _ => .next (illegalCommand (s.setInbox rest))
  | .writeCb address value :: rest => hostWriteCb address value (s.setInbox rest)
  | .writeCp index value :: rest => hostWriteCp index value (s.setInbox rest)
  | .resetEvent :: rest => .next (resetEvent (s.setInbox rest))
  | .resetDuring cmd arg writes :: rest => .next (abandonCommand cmd arg writes (s.setInbox rest))

/-- `s` with the instruction of `nbits` bits `w` standing where `step` takes its next command: first in the host's
coming actions. -/
def State.withFetchWord (s : State) (nbits w : Nat) : State := s.issue (commandOfBits nbits w)

end Sys2Proof.Machine
end

