-- ==== Sys2Proof/Machine/Assembler.lean ====
section
/-! DEFINITION. The textual form of the commands (spec/30_encoding.md R68) and the pseudo-commands (R69): what one line of
text assembles to. The host uses it; the block never sees text. -/

namespace Sys2Proof.Machine

/-- The pseudo-commands of R69. -/
inductive PseudoCommand where
  /-- `SETSEG base, len` -/
  | setseg (base len : Word)
  /-- `DECSEG base, len` -/
  | decseg (base len : Word)
  /-- `ENCSEG base, len` -/
  | encseg (base len : Word)
  /-- `RAWDECSEG base, len` -/
  | rawdecseg (base len : Word)
  /-- `RAWENCSEG base, len` -/
  | rawencseg (base len : Word)
  /-- `PASS t, p` with t from 0 to 2 -/
  | pass (t : Fin 3) (p : Nat)
deriving DecidableEq, Repr

/-- The real commands that a pseudo-command stands for (R69). -/
def PseudoCommand.expand : PseudoCommand → List Instr
  | .setseg base len => [.wrreg 0x04 base, .wrreg 0x05 len]
  | .decseg base len => [.wrreg 0x04 base, .wrreg 0x05 len, .initdec]
  | .encseg base len => [.wrreg 0x04 base, .wrreg 0x05 len, .initenc]
  | .rawdecseg base len => [.wrreg 0x04 base, .wrreg 0x05 len, .rawinitdec]
  | .rawencseg base len => [.wrreg 0x04 base, .wrreg 0x05 len, .rawinitenc]
  | .pass t p => if t = 0 then [.sigpass p] else if t = 1 then [.refpass p] else [.clnpass p]

/-- The value of a digit of a decimal or hexadecimal number. -/
def digitValue (base : Nat) (c : Char) : Option Nat :=
  let n := c.toNat
  if 48 ≤ n ∧ n ≤ 57 then some (n - 48)
  else if base = 16 ∧ 65 ≤ n ∧ n ≤ 70 then some (n - 55)
  else if base = 16 ∧ 97 ≤ n ∧ n ≤ 102 then some (n - 87)
  else none

/-- The number that the digits go on to from `n`. -/
def readDigits (base : Nat) : List Char → Nat → Option Nat
  | [], n => some n
  | c :: rest, n =>
    match digitValue base c with
    | some d => readDigits base rest (base * n + d)
    | none => none

/-- "Numbers are decimal or `0x` hexadecimal" (R68). No sign is read here; `readWord` reads one (DESIGN CHOICE: log entry
35). -/
def readNumber : List Char → Option Nat
  | [] => none
  | '0' :: 'x' :: d :: rest => readDigits 16 (d :: rest) 0
  | d :: rest => readDigits 10 (d :: rest) 0

/-- The label names of R82, each at its number. -/
def labelNames : List String :=
  ["ZC0", "ZC1", "ZC2", "ZC3", "ZC4", "ZC5", "ZC6", "ZC7", "ZC8", "SC0", "SC1", "SC2", "SC3", "SC4", "MR0", "MR1",
    "MR2", "AGG", "UNI"]

/-- A label operand: a number or a name of R82. DESIGN CHOICE (log entry 35): R68 says "a number 0 to 18"; any number that
fits the field, 0 to 31, is read, as a line of spec/95_test_vectors.md (Program F) has `DECODE 25`. -/
def readLabel (t : List Char) : Option Nat :=
  match labelNames.idxOf? (String.ofList t) with
  | some n => some n
  | none => readNumber t

/-- The register names of R29 that stand alone, with their addresses. -/
def registerNames : List (String × Nat) :=
  [("STATUS", 0x00), ("SEGBASE", 0x04), ("SEGLEN", 0x05), ("A", 0x08), ("C", 0x09), ("CT", 0x0A), ("BP", 0x0B),
    ("START", 0x0C), ("END", 0x0D), ("EOSCNT", 0x0E), ("NUMBYTES", 0x0F), ("RAWST", 0x10), ("GEOM", 0x11)]

/-- The address of entry `n]` of a register file of `count` entries that starts at `base`. -/
def readIndex (base count : Nat) (t : List Char) : Option Nat :=
  match t.reverse with
  | ']' :: digits =>
    match readNumber digits.reverse with
    | some n => if n < count then some (base + n) else none
    | none => none
  | _ => none

/-- A register operand: a number or a name of R29, `CX[k]` and `CMT[i]` included. -/
def readRegister (t : List Char) : Option Nat :=
  match registerNames.lookup (String.ofList t) with
  | some a => some a
  | none =>
    match t with
    | 'C' :: 'X' :: '[' :: rest => readIndex 0x20 19 rest
    | 'C' :: 'M' :: 'T' :: '[' :: rest => readIndex 0x40 47 rest
    | _ => readNumber t

/-- A 32-bit word operand: a number, or a number after a minus sign, taken in two's complement. DESIGN CHOICE (log entry
35): R68 says "decimal or `0x` hexadecimal" and names no sign; a line of spec/95_test_vectors.md (Program F) has one. -/
def readWord (t : List Char) : Option Word :=
  let negated := fun digits =>
    match readNumber digits with
    | some n => if n ≤ 2 ^ 31 then some (-BitVec.ofNat 32 n) else none
    | none => none
  match t with
  | '-' :: digits => negated digits
  | '−' :: digits => negated digits
  | digits =>
    match readNumber digits with
    | some n => if n < 2 ^ 32 then some (BitVec.ofNat 32 n) else none
    | none => none

/-- A bit operand. -/
def readBit (t : List Char) : Option Bool :=
  match readNumber t with
  | some 0 => some false
  | some 1 => some true
  | _ => none

/-- An orientation operand. -/
def readOrientation (t : List Char) : Option Orientation :=
  match String.ofList t with
  | "LL" => some .ll
  | "HL" => some .hl
  | "LH" => some .lh
  | "HH" => some .hh
  | _ => none

/-- The command of a line of R68 whose operands are `ops`; width and height are the true ones, "encoded minus 1". -/
def assembleCommand (mnemonic : String) (ops : List (List Char)) : Option Instr :=
  match mnemonic, ops with
  | "NOP", [] => some .nop
  | "CXRESET", [] => some .cxreset
  | "CLRSTAT", [] => some .clrstat
  | "WRREG", [ra, v] => do return .wrreg (← readRegister ra) (← readWord v)
  | "RDREG", [ra] => do return .rdreg (← readRegister ra)
  | "INITDEC", [] => some .initdec
  | "DECODE", [cx] => do return .decode (← readLabel cx)
  | "FINISHDEC", [] => some .finishdec
  | "TERMCHK", [] => some .termchk
  | "INITENC", [] => some .initenc
  | "ENCODE", [cx, d] => do return .encode (← readLabel cx) (← readBit d)
  | "FLUSHENC", [] => some .flushenc
  | "RAWINITDEC", [] => some .rawinitdec
  | "RAWDEC", [] => some .rawdec
  | "RAWINITENC", [] => some .rawinitenc
  | "RAWENC", [d] => do return .rawenc (← readBit d)
  | "RAWFLUSH", [] => some .rawflush
  | "CBINIT", [w, h, o, clr] => do
    let w ← readNumber w
    let h ← readNumber h
    if w = 0 ∨ h = 0 then none else return .cbinit (w - 1) (h - 1) (← readOrientation o) (← readBit clr)
  | "SIGPASS", [p] => do return .sigpass (← readNumber p)
  | "REFPASS", [p] => do return .refpass (← readNumber p)
  | "CLNPASS", [p] => do return .clnpass (← readNumber p)
  | _, _ => none

/-- The pseudo-command of a line (R69). -/
def assemblePseudo (mnemonic : String) (ops : List (List Char)) : Option PseudoCommand :=
  match mnemonic, ops with
  | "SETSEG", [b, n] => do return .setseg (← readWord b) (← readWord n)
  | "DECSEG", [b, n] => do return .decseg (← readWord b) (← readWord n)
  | "ENCSEG", [b, n] => do return .encseg (← readWord b) (← readWord n)
  | "RAWDECSEG", [b, n] => do return .rawdecseg (← readWord b) (← readWord n)
  | "RAWENCSEG", [b, n] => do return .rawencseg (← readWord b) (← readWord n)
  | "PASS", [t, p] => do
    let t ← readNumber t
    if h : t < 3 then return .pass ⟨t, h⟩ (← readNumber p) else none
  | _, _ => none

/-- A space or a tab. -/
def isBlank (c : Char) : Bool := c == ' ' || c == '\t'

/-- The text without blanks at its ends. -/
def trimBlanks (t : List Char) : List Char := ((t.dropWhile isBlank).reverse.dropWhile isBlank).reverse

/-- The parts of the text between commas. -/
def splitCommas : List Char → List (List Char)
  | [] => [[]]
  | c :: rest =>
    match splitCommas rest with
    | [] => [[c]]
    | part :: parts => if c = ',' then [] :: part :: parts else (c :: part) :: parts

/-- What a line assembles to (R68, R69): no command for an empty line, one for a command, several for a pseudo-command;
`none` where the line is no line of R68 or an operand does not fit its field. A comment runs from `;` to the end. -/
def assembleLine (line : String) : Option (List Instr) :=
  let text := trimBlanks (line.toList.takeWhile (· != ';'))
  let mnemonic := String.ofList (text.takeWhile fun c => !isBlank c)
  let rest := trimBlanks (text.dropWhile fun c => !isBlank c)
  let ops := if rest = [] then [] else (splitCommas rest).map trimBlanks
  if text = [] then some []
  else
    let made :=
      match assembleCommand mnemonic ops with
      | some i => some [i]
      | none => (assemblePseudo mnemonic ops).map PseudoCommand.expand
    made.bind fun is => if is.all Instr.wf then some is else none

/-- The words of a line (R68): "ARG is 0 for every command but WRREG". -/
def assembleWords (line : String) : Option (List (Word × Word)) := (assembleLine line).map (List.map encode)

end Sys2Proof.Machine
end

