-- ==== Sys2Proof/Machine/Orchestrator.lean ====
section
/-! DEFINITION. The host contract (spec/46_host_sequence.md R200 to R220): what the host, the document's "Codeblock
Orchestrator", does around the block's commands to decode or encode one code-block. It is outside the block (R5): `step`
knows nothing of it. Every command it issues goes through `step`. -/

namespace Sys2Proof.Machine

/-- A coefficient of a plane (R26): NEG and MAG. -/
structure Coefficient where
  neg : Bool
  mag : BitVec 31
deriving DecidableEq, Repr

/-- The cell of CP that holds a coefficient (R26): NEG is bit 31, MAG bits 30:0. -/
def Coefficient.cell (v : Coefficient) : Word := (v.mag.setWidth 32) ||| (BitVec.ofBool v.neg).setWidth 32 <<< 31

/-- A segment of a code-block's compressed data (R200). -/
structure Segment where
  length : Int
  passCount : Int
deriving DecidableEq, Repr

/-- A chunk of a code-block's compressed data (R200): a buffer, and how many bytes of it are the chunk. -/
structure Chunk where
  bytes : List Byte
  length : Int
deriving DecidableEq, Repr

/-- The bytes of a chunk: the first `length` of its buffer (log entry 36). -/
def Chunk.data (c : Chunk) : List Byte := c.bytes.take c.length.toNat

/-- A warning sent to the sink, with its count (R201, R214). -/
structure SinkMessage where
  kind : Warning
  count : Word
deriving DecidableEq, Repr

/-- The code-block descriptor and the other inputs of R200, with the caller's choices; host integers are mathematical
integers. A decode takes it once and answers its outcome: nothing of it is kept ("stateless across calls"). -/
structure CodeBlock where
  x0 : Int
  y0 : Int
  x1 : Int
  y1 : Int
  numBitplanes : Int
  roiShift : Int
  /-- The flag BYPASS, also called LAZY (R219). -/
  bypass : Bool
  /-- The flag RESET (R219). -/
  resetContexts : Bool
  orient : Orientation
  corrupted : Bool
  chunks : List Chunk
  segments : List Segment
  /-- The coefficients handed over, row by row (R53, R215). -/
  coefficientPlane : List Coefficient
  /-- "a destination coefficient buffer (or none ...)": the code-block's own buffer, when the caller supplies one. -/
  destination : Option (List Coefficient)
  /-- "an optional sink for non-fatal diagnostic messages", with what it holds. -/
  sink : Option (List SinkMessage)
  /-- The caller selected the termination check (R214). -/
  checkTermination : Bool
deriving DecidableEq, Repr

/-- Why a code-block fails (R201, R202, R205). -/
inductive FailReason where
  /-- A caller-contract violation, or a command that answered an error (R202, R209, R210). -/
  | contract
  /-- The bit-depth guard (R205). -/
  | bitDepth
deriving DecidableEq, Repr

/-- The result of one code-block decode (R201). -/
inductive DecodeResult where
  | decoded
  | skipped
  | failed (reason : FailReason)
deriving DecidableEq, Repr

/-- The pass-loop variables that run on across segments: `passtype` and `bpnoPlusOne` (R207, R212). -/
structure PassPosition where
  passtype : Nat
  bpnoPlusOne : Int
deriving DecidableEq, Repr

/-- Width of the code-block: `x1 - x0` (R200). -/
def CodeBlock.width (d : CodeBlock) : Int := d.x1 - d.x0

/-- Height of the code-block: `y1 - y0` (R200). -/
def CodeBlock.height (d : CodeBlock) : Int := d.y1 - d.y0

/-- All chunk bytes in chunk order (R206). -/
def CodeBlock.bytes (d : CodeBlock) : List Byte := d.chunks.flatMap Chunk.data

/-- The sum of the chunk lengths (R202, R206). -/
def CodeBlock.totalLength (d : CodeBlock) : Int := (d.chunks.map Chunk.length).sum

/-- The first bit-plane counter: `roiShift + numBitplanes` (R204). -/
def CodeBlock.firstCounter (d : CodeBlock) : Int := d.roiShift + d.numBitplanes

/-- The sum of the segment lengths. -/
def CodeBlock.segmentBytes (d : CodeBlock) : Int := (d.segments.map Segment.length).sum

/-- The descriptor keeps the caller's contract (R202), with its data placed in CB from address `base` and GUARD bytes
after it (R55, R206). A chunk whose buffer does not hold its length is an invalid stream argument (log entry 36). -/
def contractKept (d : CodeBlock) (base : Nat) (p : Params) : Bool :=
  decide (1 ≤ d.width) && decide (1 ≤ d.height) && decide (d.width ≤ Config.maxSide)
    && decide (d.height ≤ Config.maxSide) && decide (d.width * d.height ≤ p.maxarea)
    && d.segments.all (fun g => decide (0 ≤ g.length) && decide (0 ≤ g.passCount))
    && d.chunks.all (fun c => decide (0 ≤ c.length) && decide (c.length ≤ c.bytes.length))
    && decide (d.segmentBytes ≤ d.totalLength)
    && decide (base + d.totalLength + p.guardBytes ≤ p.cbsize)

/-- Mode of a segment that starts at this position (R208): raw, or arithmetic. -/
def rawSelected (bypass : Bool) (numBitplanes : Int) (pos : PassPosition) : Bool :=
  bypass && (pos.passtype == 0 || pos.passtype == 1) && decide (pos.bpnoPlusOne ≤ numBitplanes - 4)

/-- The cycle of R212: passtype 0, 1, 2, 0, and one plane down after every cleanup pass. -/
def nextPosition (pos : PassPosition) : PassPosition :=
  if pos.passtype + 1 = 3 then { passtype := 0, bpnoPlusOne := pos.bpnoPlusOne - 1 }
  else { pos with passtype := pos.passtype + 1 }

/-- The pass command at a position: P = bpnoPlusOne - 1 (R204, R210). -/
def passCommand (pos : PassPosition) : Instr :=
  let p := (pos.bpnoPlusOne - 1).toNat
  if pos.passtype = 0 then .sigpass p else if pos.passtype = 1 then .refpass p else .clnpass p

/-- The host issues one command and waits for its response (R60): the state after it. -/
def perform (i : Instr) (s : State) : State :=
  match step (s.issue (.command (encode i).1 (encode i).2)) with
  | .next t => t
  | .fault _ => s
  | .refused _ => s

/-- The last response carries an error (R70). -/
def answeredError (s : State) : Bool :=
  match s.response with
  | some r => r.rsp.extractLsb' 0 4 != 0
  | none => false

/-- The host places bytes in CB from address `a` on (R206). -/
def placeBytes (a : Nat) : List Byte → State → State
  | [], s => s
  | b :: rest, s => placeBytes (a + 1) rest (s.setCb (s.cb.write a b))

/-- The passes of a segment: at most `n`, while bpnoPlusOne ≥ 1 (R210 to R213). Where a pass is refused it ends with an
error, which carries the block as it then is. -/
def segmentPasses (resetContexts : Bool) : Nat → PassPosition → State → Except State (PassPosition × State)
  | 0, pos, s => .ok (pos, s)
  | n + 1, pos, s =>
    if 1 ≤ pos.bpnoPlusOne then
      let prepared := if resetContexts then perform .cxreset s else s
      let coded := perform (passCommand pos) prepared
      if answeredError coded then .error coded else segmentPasses resetContexts n (nextPosition pos) coded
    else .ok (pos, s)

/-- The segments of a code-block, from `cursor` on, while bpnoPlusOne ≥ 1 (R209, R213). The flag says whether a segment
was initialised. Where a command is refused it ends with an error, which carries the block as it then is. -/
def decodeSegments (d : CodeBlock) : List Segment → Nat → PassPosition → Bool → State → Except State (Bool × State)
  | [], _, _, started, s => .ok (started, s)
  | g :: rest, cursor, pos, started, s =>
    if 1 ≤ pos.bpnoPlusOne then
      let loaded := perform (.wrreg 0x05 (BitVec.ofInt 32 g.length)) (perform (.wrreg 0x04 (BitVec.ofNat 32 cursor)) s)
      let opened := perform (if rawSelected d.bypass d.numBitplanes pos then .rawinitdec else .initdec) loaded
      if answeredError opened then .error opened
      else
        match segmentPasses d.resetContexts g.passCount.toNat pos opened with
        | .error stopped => .error stopped
        | .ok (pos', coded) => decodeSegments d rest (cursor + g.length.toNat) pos' true coded
    else .ok (started, s)

/-- The warnings that the last response carries (R70, R214). -/
def warningsOf (s : State) : List SinkMessage :=
  match s.response with
  | some r =>
    if r.rsp.extractLsb' 5 2 = 1 then [⟨.slack, r.val⟩]
    else if r.rsp.extractLsb' 5 2 = 2 then [⟨.markers, r.val⟩]
    else []
  | none => []

/-- The plane that the host reads from CP after the last command (R215, R220), row by row (R53). -/
def readPlane (s : State) : List Coefficient :=
  (List.range (s.w * s.h)).map fun n => ⟨(s.cp.read n).getLsbD 31, (s.cp.read n).setWidth 31⟩

/-- What the host has after a decode (R201, R203, R215): the result, the coefficient plane, the caller's buffer and the
sink as they then are, and the block. -/
structure DecodeOutcome where
  result : DecodeResult
  coefficientPlane : List Coefficient
  destination : Option (List Coefficient)
  sink : Option (List SinkMessage)
  block : State
deriving DecidableEq, Repr

/-- A code-block that is skipped or fails: "leaving the coefficient plane untouched" (R203, R205), and no warning. -/
def CodeBlock.untouched (d : CodeBlock) (result : DecodeResult) (s : State) : DecodeOutcome :=
  ⟨result, d.coefficientPlane, d.destination, d.sink, s⟩

/-- The hand-over (R214, R215): the plane read from CP is the coefficient plane, in the caller's buffer when there is one,
and the warnings go to the sink when there is one. -/
def CodeBlock.handOver (d : CodeBlock) (warnings : List SinkMessage) (s : State) : DecodeOutcome :=
  let plane := readPlane s
  ⟨.decoded, plane, d.destination.map fun old => plane ++ old.drop plane.length, d.sink.map (· ++ warnings), s⟩

/-- What the wavelet layer takes for the code-block's region: the plane of a decoded one, zeros for a skipped one (R203);
for a failed one it is the caller's policy (R216). -/
def CodeBlock.region (d : CodeBlock) (o : DecodeOutcome) : Option (List Coefficient) :=
  match o.result with
  | .decoded => some o.coefficientPlane
  | .skipped => some (List.replicate (d.width * d.height).toNat ⟨false, 0⟩)
  | .failed _ => none

/-- DECODE_CBLK of R220. -/
def decodeCodeBlock (d : CodeBlock) (base : Nat) (s : State) : DecodeOutcome :=
  if !contractKept d base s.params then d.untouched (.failed .contract) s
  else if d.corrupted then d.untouched .skipped s
  else if 31 ≤ d.firstCounter then d.untouched (.failed .bitDepth) s
  else
    let placed := placeBytes base (d.bytes ++ List.replicate s.params.guardBytes 0) s
    let ready := perform .cxreset
      (perform (.cbinit (d.width - 1).toNat (d.height - 1).toNat d.orient true) placed)
    match decodeSegments d d.segments base ⟨2, d.firstCounter⟩ false ready with
    | .error stopped => d.untouched (.failed .contract) stopped
    | .ok (started, coded) =>
      if d.checkTermination && started then
        let checked := perform .termchk (perform .finishdec coded)
        d.handOver (warningsOf checked) checked
      else d.handOver [] coded

/-- The canonical order of the passes from a position on, until bpnoPlusOne is 0 (R212), at most `n`. -/
def passesFrom : Nat → PassPosition → List PassPosition
  | 0, _ => []
  | n + 1, pos => if 1 ≤ pos.bpnoPlusOne then pos :: passesFrom n (nextPosition pos) else []

/-- "load CP from plane ({NEG, MAG})" (R217): the host writes the coefficients, row by row (R53), from cell `n` on. -/
def loadPlane (n : Nat) : List Coefficient → State → State
  | [], s => s
  | v :: rest, s => loadPlane (n + 1) rest (s.setCp (s.cp.write n v.cell))

/-- The mode choice of R217 while a code-block is encoded; roiShift is 0. -/
structure EncodeChoice where
  numBitplanes : Nat
  bypass : Bool
  resetContexts : Bool
  capacity : Word
deriving DecidableEq, Repr

/-- VAL of the last response (R70). -/
def lastVal (s : State) : Word :=
  match s.response with
  | some r => r.val
  | none => 0

/-- The end of a segment in encode direction (R217): the flush, and the segment it made, whose length is the flush's
VAL. -/
def closeSegment (raw : Bool) (passes : Nat) (s : State) : Segment × State :=
  let flushed := perform (if raw then .rawflush else .flushenc) s
  (⟨(lastVal flushed).toNat, passes⟩, flushed)

/-- The start of a segment in encode direction (R217). -/
def openSegment (e : EncodeChoice) (raw : Bool) (cursor : Nat) (s : State) : State :=
  perform (if raw then .rawinitenc else .initenc)
    (perform (.wrreg 0x05 e.capacity) (perform (.wrreg 0x04 (BitVec.ofNat 32 cursor)) s))

/-- The passes of an encode, from `cursor` on; `current` is the mode and the pass count of the running segment. A
segment ends where the mode changes (R217). -/
def encodePasses (e : EncodeChoice) :
    List PassPosition → Nat → Option (Bool × Nat) → List Segment → State → List Segment × State
  | [], _, none, made, s => (made, s)
  | [], _, some (raw, n), made, s =>
    let closed := closeSegment raw n s
    (made ++ [closed.1], closed.2)
  | pos :: rest, cursor, current, made, s =>
    let raw := rawSelected e.bypass e.numBitplanes pos
    let code := fun t => perform (passCommand pos) (if e.resetContexts then perform .cxreset t else t)
    match current with
    | none => encodePasses e rest cursor (some (raw, 1)) made (code (openSegment e raw cursor s))
    | some (before, n) =>
      if before = raw then encodePasses e rest cursor (some (before, n + 1)) made (code s)
      else
        let closed := closeSegment before n s
        let at' := cursor + closed.1.length.toNat
        encodePasses e rest at' (some (raw, 1)) (made ++ [closed.1]) (code (openSegment e raw at' closed.2))

/-- ENCODE_CBLK of R217: CP is loaded from the plane, of `w * h` coefficients row by row, and its passes are encoded from
`base` on; the segments made and the block afterwards. DESIGN CHOICE (log entry 30): R217 names no check of `w` and `h`;
0 acts as 1, and a value above 1024 spills into the next field of CBINIT's word. -/
def encodeCodeBlock (e : EncodeChoice) (plane : List Coefficient) (w h : Nat) (o : Orientation) (base : Nat) (s : State) :
    List Segment × State :=
  let ready := perform .cxreset (perform (.cbinit (w - 1) (h - 1) o false) (loadPlane 0 plane s))
  encodePasses e (passesFrom (3 * e.numBitplanes) ⟨2, e.numBitplanes⟩) base none [] ready

end Sys2Proof.Machine
end

