-- ==== Sys2Proof/Safety.lean ====
section
/-! DEFINITION. The vocabulary of the claims: the invariants of a safe run (spec/10_state.md R13 to R22, R25,
spec/41_mq_decoder.md R96, spec/42_mq_encoder.md R120), and which part of the state an operation may change. -/

namespace Sys2Proof.Machine

/-! ## Invariants -/

/-- The memories stand in their canonical form, so that equal memories are equal data. -/
def MemoriesCanonical (s : State) : Prop := s.cb.wf = true ∧ s.cp.wf = true ∧ s.fp.wf = true

/-- Every context's index is a row of CMT (R22, R96). -/
def ContextsInTable (s : State) : Prop := ∀ k : Label, s.cx[k].i ≤ 46

/-- The UNI context never adapts: it stays in state 46 with MPS 0 (R83, R87). -/
def UniformContextFixed (s : State) : Prop := s.cx[labelUNI] = ⟨46, false⟩

/-- The parameters are in the ranges of R8, W and H in those of R24, and W * H is an area CBINIT accepts (R162). -/
def GeometryLegal (s : State) : Prop :=
  s.params.wf = true ∧ 1 ≤ s.w ∧ s.w ≤ Config.maxSide ∧ 1 ≤ s.h ∧ s.h ≤ Config.maxSide ∧ s.w * s.h ≤ s.params.maxarea

/-- No bit of a halo cell of the flag plane is set (R25, R151); FP's list is canonical. -/
def HaloClear (s : State) : Prop :=
  s.fp.wf = true ∧ ∀ xf yf : Nat, xf ≤ s.w + 1 → yf ≤ s.h + 1 →
    (xf = 0 ∨ xf = s.w + 1 ∨ yf = 0 ∨ yf = s.h + 1) → flagCell s xf yf = 0

/-- START and END bound a window inside CB (R17). -/
def WindowLegal (s : State) : Prop :=
  s.params.wf = true ∧ s.startAddr.toNat ≤ s.endAddr.toNat ∧ s.endAddr.toNat ≤ s.params.cbsize

/-- The bounds of the MQ decoder's registers in mode DEC (R13, R15, R16, R96). -/
def DecoderBounds (s : State) : Prop :=
  s.mode = .dec →
    0x8000 ≤ s.a ∧ s.ct ≤ 8 ∧ (s.startAddr.toNat : Int) ≤ s.bp ∧ s.bp ≤ s.endAddr.toNat

/-- The bounds of the MQ encoder's registers in mode ENC (R13 to R16, R120). The two bounds on `(C + A) * 2^CT` are the
"Reason" of R120, from which `C < 2^28` follows and that the phantom byte never receives a carry (R111). -/
def EncoderBounds (s : State) : Prop :=
  s.mode = .enc →
    0x8000 ≤ s.a ∧ 1 ≤ s.ct.toNat ∧ s.ct ≤ 12
      ∧ (s.c.toNat + s.a.toNat) * 2 ^ s.ct.toNat < 2 ^ 27 + 2 ^ 24
      ∧ (s.bp = (s.startAddr.toNat : Int) - 1 → (s.c.toNat + s.a.toNat) * 2 ^ s.ct.toNat ≤ 2 ^ 27)
      ∧ (s.startAddr.toNat : Int) - 1 ≤ s.bp ∧ s.bp < s.endAddr.toNat

/-- The bounds of the raw decoder's registers in mode RAWDEC (R16, R20, R132). -/
def RawDecoderBounds (s : State) : Prop :=
  s.mode = .rawdec →
    s.rct ≤ 8 ∧ (s.startAddr.toNat : Int) ≤ s.bp ∧ s.bp ≤ (s.endAddr.toNat : Int) + 1
      ∧ (s.bp = (s.endAddr.toNat : Int) + 1 → s.rb = 0xFF)

/-- The bounds of the raw encoder's registers in mode RAWENC (R16, R20, R134). -/
def RawEncoderBounds (s : State) : Prop :=
  s.mode = .rawenc →
    1 ≤ s.rct.toNat ∧ s.rct ≤ 8 ∧ (s.startAddr.toNat : Int) ≤ s.bp ∧ s.bp ≤ s.endAddr.toNat
      ∧ (s.lastff = true → s.rct ≤ 7 ∧ (s.startAddr.toNat : Int) < s.bp)

/-- The bounds of all coder registers, in whichever mode the block is. -/
def CoderBounds (s : State) : Prop :=
  WindowLegal s ∧ DecoderBounds s ∧ EncoderBounds s ∧ RawDecoderBounds s ∧ RawEncoderBounds s

/-- Every invariant of the block that a step keeps. -/
def Legal (s : State) : Prop :=
  MemoriesCanonical s ∧ ContextsInTable s ∧ UniformContextFixed s ∧ GeometryLegal s ∧ HaloClear s ∧ CoderBounds s

/-! ## Frames: `t` is `s` but for the fields named -/

/-- Only what the MQ decoder writes differs (R93): A, C, CT, BP, EOSCNT and contexts. -/
def DecoderFrame (s t : State) : Prop :=
  t = { s with a := t.a, c := t.c, ct := t.ct, bp := t.bp, eoscnt := t.eoscnt, cx := t.cx }

/-- Only what the MQ encoder writes differs (R112): A, C, CT, BP, contexts and bytes of CB. -/
def EncoderFrame (s t : State) : Prop :=
  t = { s with a := t.a, c := t.c, ct := t.ct, bp := t.bp, cx := t.cx, cb := t.cb }

/-- Only what the raw decoder writes differs (R132): RB, RCT and BP. -/
def RawDecoderFrame (s t : State) : Prop := t = { s with rb := t.rb, rct := t.rct, bp := t.bp }

/-- Only what the raw encoder writes differs (R134): RB, RCT, LASTFF, BP and bytes of CB. -/
def RawEncoderFrame (s t : State) : Prop :=
  t = { s with rb := t.rb, rct := t.rct, lastff := t.lastff, bp := t.bp, cb := t.cb }

/-- Only what a sub-coder of the mode of `s` writes differs (R160). -/
def CoderFrame (s t : State) : Prop :=
  match s.mode with
  | .dec => DecoderFrame s t
  | .enc => EncoderFrame s t
  | .rawdec => RawDecoderFrame s t
  | .rawenc => RawEncoderFrame s t
  | .idle => t = s
  | .fault => t = s

/-- Only what a pass writes differs (R163 to R166): FP, CP in decode direction, and what the sub-coder of the mode
writes. -/
def PassFrame (s t : State) : Prop :=
  CoderFrame s { t with fp := s.fp, cp := s.cp } ∧ (s.mode = .enc ∨ s.mode = .rawenc → t.cp = s.cp)

/-- Every byte of CB outside the segment window `[START, END)` reads as before (R41, R57). -/
def BytesOutsideWindowKept (s t : State) : Prop :=
  ∀ a : Nat, a < s.startAddr.toNat ∨ s.endAddr.toNat ≤ a → t.cb.read a = s.cb.read a

/-- The response of `t` carries the error `e` (R70). -/
def AnswersError (t : State) (e : ErrorCode) : Prop := t.response = some (Response.error e)

/-- The response of `t` carries no error (R70). -/
def AnswersWithoutError (t : State) : Prop := ∃ r, t.response = some r ∧ r.rsp.extractLsb' 0 4 = 0

/-- The command takes the fault of R233. -/
def FaultsOn (i : Instr) (s : State) : Prop := ∃ t, exec i s = .next t ∧ t.mode = .fault ∧ AnswersError t .overflow

/-- The command completes without an error. -/
def CompletesOn (i : Instr) (s : State) : Prop := ∃ t, exec i s = .next t ∧ AnswersWithoutError t

/-- The field ERR of a response (R70). -/
def Response.err (r : Response) : BitVec 4 := r.rsp.extractLsb' 0 4

/-- The field BIT of a response (R70). -/
def Response.bit (r : Response) : Bool := r.rsp.getLsbD 4

/-- The field WKIND of a response (R70). -/
def Response.wkind (r : Response) : BitVec 2 := r.rsp.extractLsb' 5 2

/-- The commands that start a segment: the INIT commands of R42. -/
def initCommands : List Instr := [.initdec, .initenc, .rawinitdec, .rawinitenc]

/-- The window of SEGBASE and SEGLEN passes the checks of R42: the length is not negative and the window lies in CB. -/
def WindowAdmitted (s : State) : Prop := 0 ≤ s.seglen.toInt ∧ s.segbase.toNat + s.seglen.toNat ≤ s.params.cbsize

/-- The host issues commands one after the other, each after the response to the one before it (R60): the responses,
and the block afterwards. -/
def issueAll : List Instr → State → List Response × State
  | [], s => ([], s)
  | i :: rest, s =>
    match exec i s with
    | .next t => (t.response.toList ++ (issueAll rest t).1, (issueAll rest t).2)
    | .fault _ => ([], s)
    | .refused _ => ([], s)

/-- Byte `n` of the window of SEGBASE and SEGLEN as a decoder started over it fetches it: 0xFF at and beyond its end
(R43). -/
def segmentByte (s : State) (n : Nat) : Byte :=
  if n < s.seglen.toNat then s.cb.read (s.segbase.toNat + n) else 0xFF

/-- What a run of a coding procedure leaves has the property, whether it ended or overflowed. -/
def Run.All {α : Type} (P : State → Prop) : Run α → Prop
  | .done _ s => P s
  | .overflow s => P s

end Sys2Proof.Machine
end

