-- ==== Sys2Proof/Certificates/Slice0/Obligations.lean ====
section
/-! DEFINITION. The statements for the provers. Each docstring names the rules of spec/ that the statement formalises, or
says that a clause is the model's choice. -/

section

open Sys2Proof Sys2Proof.Machine

/-! ## Encoding -/

/-- DECODE AND ENCODE AGREE: every well-formed command, with every operand value its fields admit, is what the decoder
reads from the words the encoder writes (R62 to R64). -/
def Obligations.DecodeOfEncodeIsTheInstruction : Prop :=
  ∀ i : Instr, i.wf = true → decode (encode i).1 (encode i).2 = .ok i

/-- No bit of a legal command word is dropped: the command read from it encodes to that word; ARG is the data of WRREG,
and every other command ignores it (R61, R62, R65). -/
def Obligations.DecodedWordEncodesBack : Prop :=
  ∀ (cmd arg : Word) (i : Instr), decode cmd arg = .ok i →
    i.wf = true ∧ (encode i).1 = cmd
      ∧ (∀ ra value, i = .wrreg ra value → value = arg ∧ ∀ other, decode cmd other = .ok (.wrreg ra other))
      ∧ ((∀ ra value, i ≠ .wrreg ra value) → ∀ other, decode cmd other = .ok i)

/-- R64: a word is the command of a row exactly when `w & mask = match`; no two rows overlap; R65: a word is illegal
exactly when it matches no row. -/
def Obligations.WordIsTheCommandWhoseRowItMatches : Prop :=
  (∀ (cmd arg : Word), ∀ r ∈ opcodeTable,
      r.matches cmd = true ↔ ∃ i, decode cmd arg = .ok i ∧ mnemonicOf i = r.mnemonic)
    ∧ (∀ cmd : Word, ∀ r ∈ opcodeTable, ∀ q ∈ opcodeTable, r.matches cmd = true → q.matches cmd = true → r = q)
    ∧ (∀ cmd arg : Word, (∀ r ∈ opcodeTable, r.matches cmd = false) ↔ ∃ e, decode cmd arg = .error e)

/-- Words written out from the encodings of the spec (R66, and the illegal words of R65 and V15) decode to the command
they stand for, or are illegal. The names of the two ways to be illegal are the model's (log entry 20). -/
def Obligations.WordsOfTheSpecDecode : Prop :=
  decode 0x00000000 0 = .ok .nop ∧ decode 0x04000009 0 = .ok (.rdreg 9)
    ∧ decode 0x03000005 0x1C = .ok (.wrreg 5 0x1C) ∧ decode 0x11000012 0 = .ok (.decode 18)
    ∧ decode 0x21000011 0 = .ok (.encode 17 false) ∧ decode 0x21000101 0 = .ok (.encode 1 true)
    ∧ decode 0x39000001 0 = .ok (.rawenc true) ∧ decode 0x40501002 0 = .ok (.cbinit 2 4 .hl true)
    ∧ decode 0x43000002 0 = .ok (.clnpass 2) ∧ decode 0xFFFFFFFF 0 = .error .unknownOpcode
    ∧ decode 0x21000031 0 = .error .reservedBit

/-! ## The step -/

/-- A STEP RUNS THE DECODED COMMAND: the host's next action is a legal command, and the step is `exec` of it with that
action taken off (R60); so a well-formed command that the host issues is executed. -/
def Obligations.StepRunsTheDecodedCommand : Prop :=
  (∀ (s : State) (cmd arg : Word) (rest : List HostAction) (i : Instr),
      s.inbox = .command cmd arg :: rest → decode cmd arg = .ok i → step s = exec i { s with inbox := rest })
    ∧ ∀ (s : State) (i : Instr), i.wf = true →
      step (s.issue (.command (encode i).1 (encode i).2)) = exec i s

/-- R65: a word that matches no row of R64 does nothing but raise ERR_ILLEGAL: its sticky bit and its response. -/
def Obligations.IllegalWordOnlyRaisesErrIllegal : Prop :=
  ∀ (s : State) (cmd arg : Word) (rest : List HostAction), s.inbox = .command cmd arg :: rest →
    (∀ r ∈ opcodeTable, cmd &&& r.mask ≠ r.pattern) →
    step s = .next { s with inbox := rest, errs := s.errs ||| 1, response := some ⟨1, 0⟩ }

/-- What a step does that completes no command. The host's writes are R40 and R50. The reset event is R260 with the
values of R31; where it abandons a command, the cells that the command had written keep the new values. THE MODEL'S
CHOICE: that a step without a host action changes nothing (log entry 3), that a host write outside CB or CP stops (log
entry 17), that the response port is empty after the reset event (log entry 4), the marks it leaves in `unspec` (log
entry 6), and that it keeps the host's coming actions (log entries 2 and 11). -/
def Obligations.StepsThatRunNoCommand : Prop :=
  (∀ s : State, s.inbox = [] → step s = .next s)
    ∧ (∀ (s : State) (a : Nat) (v : Byte) (rest : List HostAction), s.inbox = .writeCb a v :: rest →
        if a < s.params.cbsize then
          ∃ t, step s = .next t ∧ t = { s with inbox := rest, cb := t.cb }
            ∧ ∀ b : Nat, t.cb.read b = if b = a then v else s.cb.read b
        else step s = .fault .noSuchCodeByte)
    ∧ (∀ (s : State) (n : Nat) (v : Word) (rest : List HostAction), s.inbox = .writeCp n v :: rest →
        if n < s.params.maxarea then
          ∃ t, step s = .next t ∧ t = { s with inbox := rest, cp := t.cp }
            ∧ ∀ m : Nat, t.cp.read m = if m = n then v else s.cp.read m
        else step s = .fault .noSuchCoefficient)
    ∧ (∀ (s : State) (rest : List HostAction), s.inbox = .resetEvent :: rest →
      ∃ t, step s = .next t ∧ t.mode = .idle ∧ t.geomv = false ∧ t.errs = 0 ∧ t.wslack = false ∧ t.wmark = false
        ∧ t.segbase = 0 ∧ t.seglen = 0
        ∧ (∀ k : Label, t.cx[k] = if k.val = 18 then ⟨46, false⟩ else if k.val = 17 then ⟨3, false⟩
            else if k.val = 0 then ⟨4, false⟩ else ⟨0, false⟩)
        ∧ t.unspec = { mq := true, bp := true, window := true, eoscnt := true, raw := true, lastff := true
                       geom := true, cx := false }
        ∧ t.cb = s.cb ∧ t.params = s.params ∧ t.inbox = rest ∧ t.response = none)
    ∧ ∀ (s : State) (cmd arg : Word) (n : Nat) (rest : List HostAction), s.inbox = .resetDuring cmd arg n :: rest →
      ∃ t u, step s = .next t ∧ step { s with inbox := .resetEvent :: rest } = .next u
        ∧ t = { u with cb := t.cb, cp := t.cp }
        ∧ (n = 0 → t = u)
        ∧ (s.mode ≠ .enc → s.mode ≠ .rawenc → t.cb = s.cb)
        ∧ (∀ d, decode cmd arg = .ok (.rawenc d) → s.mode = .rawenc → s.rct = 1 → 0 ≤ s.bp → s.bp < s.endAddr.toNat →
            1 ≤ n → ∀ a : Nat, t.cb.read a =
              if (a : Int) = s.bp then (if d then s.rb ||| 1 else s.rb) else s.cb.read a)
        ∧ ∀ wm1 hm1 o, decode cmd arg = .ok (.cbinit wm1 hm1 o true) → s.mode ≠ .fault →
            (wm1 + 1) * (hm1 + 1) ≤ s.params.maxarea →
            ∀ k : Nat, k < n → k < (wm1 + 1) * (hm1 + 1) → t.cp.read k = 0

/-! ## Invariants that every step keeps -/

/-- Every step keeps the canonical form of CB, CP and FP, so that equal memories stay equal data. -/
def Obligations.StepKeepsMemoriesCanonical : Prop :=
  ∀ s t : State, MemoriesCanonical s → step s = .next t → MemoriesCanonical t

/-- Every step keeps the bounds of the coder's registers in every mode: `0x8000 ≤ A`, the ranges of CT, RCT and BP, the
bound on C from which the encoder's carry fits one byte, and START ≤ END ≤ CBSIZE (R13 to R17, R96, R120). -/
def Obligations.StepKeepsCoderBounds : Prop :=
  ∀ s t : State, CoderBounds s → step s = .next t → CoderBounds t

/-- Every step keeps every context's index a row of CMT, and the UNI context in state 46 with MPS 0 (R22, R83, R87). -/
def Obligations.StepKeepsContextsInTable : Prop :=
  ∀ s t : State, ContextsInTable s → UniformContextFixed s → step s = .next t →
    ContextsInTable t ∧ UniformContextFixed t

/-- Every step keeps a legal geometry, and no bit of a halo cell of the flag plane is ever set (R24, R25, R151). -/
def Obligations.StepKeepsHaloClear : Prop :=
  ∀ s t : State, GeometryLegal s → HaloClear s → step s = .next t → GeometryLegal t ∧ HaloClear t

/-- The state after reset has every invariant, whatever the values of the OPEN parameters (R8, R31). -/
def Obligations.ResetStateIsLegal : Prop :=
  (∀ p : Params, p.wf = true → Legal (State.resetWith p)) ∧ Legal State.reset

/-! ## All commands -/

/-- R60, R70: every command, in every state, is carried out and answered. The response has ERR at most 8 and bits 31:7
zero; BIT only of DECODE and RAWDEC, WKIND only of TERMCHK, VAL only of RDREG, TERMCHK, FLUSHENC and RAWFLUSH; with an
error all of them are 0. -/
def Obligations.EveryCommandIsAnswered : Prop :=
  ∀ (i : Instr) (s : State), ∃ t r, exec i s = .next t ∧ t.response = some r ∧ t.inbox = s.inbox ∧ t.params = s.params
    ∧ r.rsp.toNat < 2 ^ 7 ∧ r.err.toNat ≤ 8
    ∧ (r.err ≠ 0 → r.bit = false ∧ r.wkind = 0 ∧ r.val = 0)
    ∧ (r.bit = true → (∃ cx, i = .decode cx) ∨ i = .rawdec)
    ∧ (r.wkind ≠ 0 → i = .termchk)
    ∧ (r.val ≠ 0 → (∃ ra, i = .rdreg ra) ∨ i = .termchk ∨ i = .flushenc ∨ i = .rawflush)

/-- R232: a refused command changes one thing, its sticky bit, and answers with its error alone. -/
def Obligations.RefusedCommandChangesOneStickyBit : Prop :=
  ∀ (i : Instr) (s t : State) (e : ErrorCode), exec i s = .next t → AnswersError t e → e ≠ .overflow →
    t = { s with errs := s.errs ||| errorBit e, response := some ⟨BitVec.ofNat 32 (errorNumber e), 0⟩ }

/-- R19, R231: the checks of every command come in the listed order, before any change: mode, then the operands; in FAULT
every command but NOP, RDREG, WRREG and CLRSTAT is refused with ERR_MODE (R233). -/
def Obligations.ChecksComeInTheListedOrder : Prop :=
  (∀ (s : State) (cx : Nat) (d : Bool),
      (s.mode ≠ .dec → exec (.decode cx) s = .next (refuse .mode s))
        ∧ (s.mode = .dec → 19 ≤ cx → exec (.decode cx) s = .next (refuse .label s))
        ∧ (s.mode ≠ .enc → exec (.encode cx d) s = .next (refuse .mode s))
        ∧ (s.mode = .enc → 19 ≤ cx → exec (.encode cx d) s = .next (refuse .label s)))
    ∧ (∀ (s : State), ∀ i ∈ initCommands,
      (s.mode = .fault → exec i s = .next (refuse .mode s))
        ∧ (s.mode ≠ .fault → s.seglen.toInt < 0 → exec i s = .next (refuse .length s))
        ∧ (s.mode ≠ .fault → 0 ≤ s.seglen.toInt → s.params.cbsize < s.segbase.toNat + s.seglen.toNat →
            exec i s = .next (refuse .range s)))
    ∧ (∀ (s : State) (p : Nat), ∀ i ∈ [Instr.sigpass p, Instr.refpass p, Instr.clnpass p],
      (s.mode = .idle ∨ s.mode = .fault ∨ i = .clnpass p ∧ (s.mode = .rawdec ∨ s.mode = .rawenc) →
          exec i s = .next (refuse .mode s))
        ∧ (s.mode = .dec ∨ s.mode = .enc ∨ i ≠ .clnpass p ∧ (s.mode = .rawdec ∨ s.mode = .rawenc) →
          (30 ≤ p → exec i s = .next (refuse .bitdepth s))
            ∧ (p ≤ 29 → s.geomv = false → exec i s = .next (refuse .geom s))))
    ∧ (∀ (s : State) (wm1 hm1 : Nat) (o : Orientation) (clr : Bool),
      (s.mode = .fault → exec (.cbinit wm1 hm1 o clr) s = .next (refuse .mode s))
        ∧ (s.mode ≠ .fault → s.params.maxarea < (wm1 + 1) * (hm1 + 1) →
            exec (.cbinit wm1 hm1 o clr) s = .next (refuse .geom s)))
    ∧ (∀ s : State,
      (s.mode ≠ .enc → exec .flushenc s = .next (refuse .mode s))
        ∧ (s.mode ≠ .rawdec → exec .rawdec s = .next (refuse .mode s))
        ∧ (∀ d, s.mode ≠ .rawenc → exec (.rawenc d) s = .next (refuse .mode s))
        ∧ (s.mode ≠ .rawenc → exec .rawflush s = .next (refuse .mode s))
        ∧ (s.mode ≠ .dec → s.mode ≠ .rawdec → exec .finishdec s = .next (refuse .mode s))
        ∧ (s.mode ≠ .dec → s.mode ≠ .rawdec → exec .termchk s = .next (refuse .mode s)))
    ∧ ∀ (s : State) (i : Instr), s.mode = .fault → i ≠ .nop → i ≠ .clrstat → (∀ ra, i ≠ .rdreg ra) →
      (∀ ra value, i ≠ .wrreg ra value) → exec i s = .next (refuse .mode s)

/-- R233: FAULT is entered by an encoder alone, with ERR_OVERFLOW; the sticky bit 15 of STATUS is set, what R233 says
keeps its value keeps it, CB keeps every byte outside `[START, END)`, and the registers R233 names are unspecified. -/
def Obligations.OnlyEncoderOverflowEntersFault : Prop :=
  ∀ (s t : State) (i : Instr), CoderBounds s → exec i s = .next t → s.mode ≠ .fault → t.mode = .fault →
    (s.mode = .enc ∧ ((∃ cx d, i = .encode cx d) ∨ i = .flushenc ∨ ∃ p, i = .sigpass p ∨ i = .refpass p ∨ i = .clnpass p)
        ∨ s.mode = .rawenc ∧ ((∃ d, i = .rawenc d) ∨ i = .rawflush ∨ ∃ p, i = .sigpass p ∨ i = .refpass p))
      ∧ t.response = some ⟨8, 0⟩ ∧ t.errs = s.errs ||| 0x80#8 ∧ t.wslack = s.wslack ∧ t.wmark = s.wmark
      ∧ t.segbase = s.segbase ∧ t.seglen = s.seglen ∧ t.startAddr = s.startAddr ∧ t.endAddr = s.endAddr
      ∧ t.w = s.w ∧ t.h = s.h ∧ t.orient = s.orient ∧ t.geomv = s.geomv ∧ t.cp = s.cp ∧ t.eoscnt = s.eoscnt
      ∧ BytesOutsideWindowKept s t
      ∧ t.unspec = { s.unspec with mq := true, bp := true, raw := true, lastff := true, cx := true }

/-- R19, R27, R236: the ways the fields of STATUS change. MODE changes only as listed, so that of the commands only
CLRSTAT leaves FAULT (R237); a sticky bit once set stays set until CLRSTAT; GEOMV is set by CBINIT alone and cleared by
CLRSTAT in FAULT alone. -/
def Obligations.StatusFieldsChangeOnlyAsListed : Prop :=
  ∀ (s t : State) (i : Instr), exec i s = .next t →
    (t.mode ≠ s.mode →
      (s.mode ≠ .fault ∧ (
          (i = .initdec ∧ t.mode = .dec) ∨ (i = .initenc ∧ t.mode = .enc) ∨ (i = .rawinitdec ∧ t.mode = .rawdec)
            ∨ (i = .rawinitenc ∧ t.mode = .rawenc) ∨ (i = .flushenc ∧ t.mode = .idle)
            ∨ (i = .rawflush ∧ t.mode = .idle) ∨ (AnswersError t .overflow ∧ t.mode = .fault)))
        ∨ (s.mode = .fault ∧ i = .clrstat ∧ t.mode = .idle))
      ∧ (i ≠ .clrstat →
        s.errs &&& t.errs = s.errs ∧ (s.wslack = true → t.wslack = true) ∧ (s.wmark = true → t.wmark = true))
      ∧ (t.wslack ≠ s.wslack ∨ t.wmark ≠ s.wmark → i = .clrstat ∨ i = .termchk)
      ∧ (t.geomv ≠ s.geomv → (t.geomv = true ∧ ∃ wm1 hm1 o clr, i = .cbinit wm1 hm1 o clr)
        ∨ (t.geomv = false ∧ s.mode = .fault ∧ i = .clrstat))

/-- R88: the only writers of CX are CXRESET, a decision of the MQ coder, and CLRSTAT when it leaves FAULT; a raw segment
carries the contexts over, and with them A, C and CT (R130) and EOSCNT (R18, R131). For a state in FAULT, where R233
leaves A, C, CT and CX unspecified, what is said of the stored values is the model's choice (log entry 10). -/
def Obligations.OnlyListedCommandsWriteContexts : Prop :=
  (∀ (s t : State) (i : Instr), exec i s = .next t → t.cx ≠ s.cx →
    i = .cxreset ∨ (i = .clrstat ∧ s.mode = .fault) ∨ (∃ cx, i = .decode cx) ∨ (∃ cx d, i = .encode cx d)
      ∨ ((s.mode = .dec ∨ s.mode = .enc) ∧ ∃ p, i = .sigpass p ∨ i = .refpass p ∨ i = .clnpass p))
    ∧ ∀ (s t : State) (i : Instr), exec i s = .next t → s.mode = .rawdec ∨ s.mode = .rawenc →
      (∃ d, i = .rawenc d) ∨ i = .rawdec ∨ i = .rawflush ∨ (∃ p, i = .sigpass p ∨ i = .refpass p) →
      t.cx = s.cx ∧ t.a = s.a ∧ t.c = s.c ∧ t.ct = s.ct ∧ t.eoscnt = s.eoscnt

/-- R41, R57: no command writes a byte of CB outside the segment window, in any state with legal coder registers. -/
def Obligations.NoCommandWritesOutsideTheWindow : Prop :=
  ∀ (s t : State) (i : Instr), CoderBounds s → exec i s = .next t → BytesOutsideWindowKept s t

/-- R43, R55: in the decoding modes the result of every command is the same whatever the bytes outside the running
segment, and outside the segment that an INIT command is about to load, hold. -/
def Obligations.DecodersNeverReadOutsideTheSegment : Prop :=
  ∀ (s : State) (m : Memory 8) (i : Instr), CoderBounds s → s.mode = .dec ∨ s.mode = .rawdec →
    (∀ a : Nat, s.startAddr.toNat ≤ a → a < s.endAddr.toNat → m.read a = s.cb.read a) →
    (∀ a : Nat, s.segbase.toNat ≤ a → a < s.segbase.toNat + s.seglen.toNat → m.read a = s.cb.read a) →
    ∃ t, exec i s = .next t ∧ exec i { s with cb := m } = .next { t with cb := m }

/-! ## Housekeeping and contexts -/

/-- NOP (R190), FINISHDEC (R97) and CLRSTAT (R191, R237) complete and write what their rules list; CLRSTAT in FAULT
restores the state of reset, but for CB and CP. That it leaves the marks of reset in `unspec` is the model's choice (log
entries 6 and 13). -/
def Obligations.NopFinishdecClrstatResults : Prop :=
  ∀ s : State,
    exec .nop s = .next { s with response := some ⟨0, 0⟩ }
      ∧ (s.mode = .dec ∨ s.mode = .rawdec → exec .finishdec s = .next { s with response := some ⟨0, 0⟩ })
      ∧ (s.mode ≠ .fault → exec .clrstat s =
          .next { s with errs := 0, wslack := false, wmark := false, response := some ⟨0, 0⟩ })
      ∧ (s.mode = .fault →
        ∃ t, exec .clrstat s = .next t ∧ t.response = some ⟨0, 0⟩ ∧ t.mode = .idle ∧ t.geomv = false ∧ t.errs = 0
          ∧ t.wslack = false ∧ t.wmark = false ∧ t.segbase = 0 ∧ t.seglen = 0 ∧ t.cx = State.reset.cx
          ∧ t.unspec = State.reset.unspec ∧ t.cb = s.cb ∧ t.cp = s.cp ∧ t.params = s.params ∧ t.inbox = s.inbox)

/-- CXRESET (R83, R86): every context takes its initial value, and nothing else but the response changes. -/
def Obligations.CxresetLoadsInitialContexts : Prop :=
  ∀ s : State, s.mode ≠ .fault →
    ∃ t, exec .cxreset s = .next t ∧ t = { s with cx := t.cx, response := some ⟨0, 0⟩ }
      ∧ t.cx[labelUNI] = ⟨46, false⟩ ∧ t.cx[labelAGG] = ⟨3, false⟩ ∧ t.cx[labelZC0] = ⟨4, false⟩
      ∧ ∀ k : Label, 1 ≤ k.val → k.val ≤ 16 → t.cx[k] = ⟨0, false⟩

/-- WRREG (R193): SEGBASE or SEGLEN takes ARG, whatever its value, in every mode; every other address is refused. -/
def Obligations.WrregWritesSegbaseOrSeglen : Prop :=
  ∀ (s : State) (v : Word),
    exec (.wrreg 0x04 v) s = .next { s with segbase := v, response := some ⟨0, 0⟩ }
      ∧ exec (.wrreg 0x05 v) s = .next { s with seglen := v, response := some ⟨0, 0⟩ }
      ∧ ∀ ra : Nat, ra ≠ 0x04 → ra ≠ 0x05 → exec (.wrreg ra v) s = .next (refuse .illegal s)

/-- RDREG (R29, R192): the register that stands at each address; a mapped address answers the register's image where it
is specified, and a value that nothing fixes where it is not; no state of the block is written; an unmapped address is
refused. STATUS, SEGBASE, SEGLEN and CMT[i] are always specified; which mark each other register depends on is the
model's reading of R29, R31, R233 and U1 (log entries 6, 7, 23). `draws` is the model's own count of free values (log
entry 6). -/
def Obligations.RdregAnswersTheRegister : Prop :=
  (∀ (s : State) (ra : Nat) (r : PortReg), portReg ra = some r →
      ∃ t v, exec (.rdreg ra) s = .next t ∧ t = { s with response := some ⟨0, v⟩, draws := t.draws }
        ∧ (isUnspecified r s.unspec = false → v = regImage r s ∧ t.draws = s.draws)
        ∧ (r = .rawst → s.unspec.raw = false → ∀ n : Nat, n ≠ 12 → v.getLsbD n = (regImage .rawst s).getLsbD n))
    ∧ (∀ u : Unspecified,
      isUnspecified .status u = false ∧ isUnspecified .segbase u = false ∧ isUnspecified .seglen u = false
        ∧ (∀ i : Fin 47, isUnspecified (.cmt i) u = false)
        ∧ isUnspecified .a u = u.mq ∧ isUnspecified .c u = u.mq ∧ isUnspecified .ct u = u.mq
        ∧ isUnspecified .bp u = u.bp ∧ isUnspecified .startAddr u = u.window ∧ isUnspecified .endAddr u = u.window
        ∧ isUnspecified .eoscnt u = u.eoscnt ∧ isUnspecified .numbytes u = (u.bp || u.window)
        ∧ isUnspecified .rawst u = (u.raw || u.lastff) ∧ isUnspecified .geom u = u.geom
        ∧ ∀ k : Label, isUnspecified (.cx k) u = u.cx)
    ∧ (∀ (s : State) (ra : Nat), portReg ra = none → exec (.rdreg ra) s = .next (refuse .illegal s))
    ∧ (∀ ra : Nat, portReg ra ≠ none ↔
        ra = 0 ∨ ra = 4 ∨ ra = 5 ∨ (8 ≤ ra ∧ ra ≤ 0x11) ∨ (0x20 ≤ ra ∧ ra ≤ 0x32) ∨ (0x40 ≤ ra ∧ ra ≤ 0x6E))
    ∧ portReg 0x00 = some .status ∧ portReg 0x04 = some .segbase ∧ portReg 0x05 = some .seglen
    ∧ portReg 0x08 = some .a ∧ portReg 0x09 = some .c ∧ portReg 0x0A = some .ct ∧ portReg 0x0B = some .bp
    ∧ portReg 0x0C = some .startAddr ∧ portReg 0x0D = some .endAddr ∧ portReg 0x0E = some .eoscnt
    ∧ portReg 0x0F = some .numbytes ∧ portReg 0x10 = some .rawst ∧ portReg 0x11 = some .geom
    ∧ (∀ k : Label, portReg (0x20 + k.val) = some (.cx k)) ∧ (∀ i : Fin 47, portReg (0x40 + i.val) = some (.cmt i))
    ∧ ∀ s : State, regImage .segbase s = s.segbase ∧ regImage .seglen s = s.seglen
        ∧ regImage .startAddr s = s.startAddr ∧ regImage .endAddr s = s.endAddr ∧ regImage .eoscnt s = s.eoscnt

/-- R16, R27, R29: the images of STATUS, BP, NUMBYTES, RAWST, GEOM, CX[k] and CMT[i], field by field, with the codes of
MODE (R19) and of ORIENT (R24). -/
def Obligations.RegisterImagesAsLaidOut : Prop :=
  modeNumber .idle = 0 ∧ modeNumber .dec = 1 ∧ modeNumber .enc = 2 ∧ modeNumber .rawdec = 3 ∧ modeNumber .rawenc = 4
    ∧ modeNumber .fault = 7 ∧ orientCode .ll = 0 ∧ orientCode .hl = 1 ∧ orientCode .lh = 2 ∧ orientCode .hh = 3
    ∧ ∀ s : State,
    (regImage .status s).toNat = (modeNumber s.mode).toNat + 2 ^ 3 * s.geomv.toNat + 2 ^ 8 * s.errs.toNat
        + 2 ^ 16 * s.wslack.toNat + 2 ^ 17 * s.wmark.toNat
      ∧ ((regImage .bp s).toNat : Int) = s.bp % 2 ^ 32
      ∧ ((regImage .numbytes s).toNat : Int) = (s.bp - s.startAddr.toNat) % 2 ^ 32
      ∧ (regImage .a s).toNat = s.a.toNat ∧ regImage .c s = s.c ∧ (regImage .ct s).toNat = s.ct.toNat
      ∧ (regImage .rawst s).toNat = s.rb.toNat + 2 ^ 8 * s.rct.toNat + 2 ^ 12 * s.lastff.toNat
      ∧ (1 ≤ s.w → s.w ≤ 1024 → 1 ≤ s.h → s.h ≤ 1024 →
          (regImage .geom s).toNat = (s.w - 1) + 2 ^ 10 * (s.h - 1) + 2 ^ 20 * orientCode s.orient)
      ∧ (∀ k : Label, (regImage (.cx k) s).toNat = s.cx[k].i.toNat + 2 ^ 8 * s.cx[k].mps.toNat)
      ∧ ∀ i : Fin 47, (regImage (.cmt i) s).toNat = (cmtRow (BitVec.ofNat 6 i)).qe.toNat
          + 2 ^ 16 * (cmtRow (BitVec.ofNat 6 i)).nmps.toNat + 2 ^ 22 * (cmtRow (BitVec.ofNat 6 i)).nlps.toNat
          + 2 ^ 28 * (cmtRow (BitVec.ofNat 6 i)).switch.toNat

/-- R87: the facts about CMT that other rules rely on. -/
def Obligations.ContextModelTableFacts : Prop :=
  (∀ i : BitVec 6, i ≤ 46 → 0x0001 ≤ (cmtRow i).qe ∧ (cmtRow i).qe ≤ 0x5601 ∧ (0x5601 : BitVec 16) < 0x8000
      ∧ (cmtRow i).nmps ≤ 46 ∧ (cmtRow i).nlps ≤ 46)
    ∧ (∀ i : BitVec 6, i ≤ 46 → ((cmtRow i).switch = true ↔ i = 0 ∨ i = 6 ∨ i = 14))
    ∧ (∀ i : BitVec 6, i ≤ 46 → ((cmtRow i).qe = 0x5601 ↔ i = 0 ∨ i = 6 ∨ i = 14 ∨ i = 46))
    ∧ ((cmtRow 46).nmps = 46 ∧ (cmtRow 46).nlps = 46 ∧ (cmtRow 46).switch = false)
    ∧ (∀ (k : Label) (s : State), s.cx[k].i = 46 →
        (mpsTransition k s).cx[k] = s.cx[k] ∧ (lpsTransition k s).cx[k] = s.cx[k])
    ∧ (∀ (k : Label) (s : State), s.cx[k].i ≤ 46 →
        (mpsTransition k s).cx[k].i ≤ 46 ∧ (lpsTransition k s).cx[k].i ≤ 46)
    ∧ ∀ i : BitVec 6, i ≤ 46 → ((cmtRow i).nmps = i ↔ i = 45 ∨ i = 46)

/-- R84, R85: the two transitions write the selected context alone, from its old row. -/
def Obligations.TransitionsWriteTheSelectedContext : Prop :=
  ∀ (k : Label) (s : State),
    let row := cmtRow s.cx[k].i
    mpsTransition k s = { s with cx := (mpsTransition k s).cx }
      ∧ (mpsTransition k s).cx[k] = ⟨row.nmps, s.cx[k].mps⟩
      ∧ lpsTransition k s = { s with cx := (lpsTransition k s).cx }
      ∧ (lpsTransition k s).cx[k] = ⟨row.nlps, if row.switch then !s.cx[k].mps else s.cx[k].mps⟩
      ∧ ∀ j : Label, j ≠ k → (mpsTransition k s).cx[j] = s.cx[j] ∧ (lpsTransition k s).cx[j] = s.cx[j]

/-! ## MQ decoder -/

/-- BYTEIN (R90): a marker, a stuffed byte, or an ordinary byte; nothing but C, CT, BP and EOSCNT is written. -/
def Obligations.ByteInTakesMarkerStuffedOrOrdinaryByte : Prop :=
  ∀ s : State,
    let t := byteIn s
    let cur := fetchByte s s.bp
    let following := fetchByte s (s.bp + 1)
    t = { s with c := t.c, ct := t.ct, bp := t.bp, eoscnt := t.eoscnt }
      ∧ (cur = 0xFF → 0x8F < following →
          t.bp = s.bp ∧ t.ct = 8 ∧ t.c.toNat = (s.c.toNat + 0xFF00) % 2 ^ 32
            ∧ t.eoscnt.toNat = min (s.eoscnt.toNat + 1) (2 ^ 32 - 1))
      ∧ (cur = 0xFF → following ≤ 0x8F →
          t.bp = s.bp + 1 ∧ t.ct = 7 ∧ t.c.toNat = (s.c.toNat + following.toNat * 2 ^ 9) % 2 ^ 32 ∧ t.eoscnt = s.eoscnt)
      ∧ (cur ≠ 0xFF →
          t.bp = s.bp + 1 ∧ t.ct = 8 ∧ t.c.toNat = (s.c.toNat + following.toNat * 2 ^ 8) % 2 ^ 32 ∧ t.eoscnt = s.eoscnt)

/-- RENORMD (R91): entered with 0x0001 ≤ A < 0x8000 it makes exactly the rounds, at least 1 and at most 15, that bring A
to 0x8000 or more; each takes a byte where CT is 0 and shifts A and C. RENORME (R115): a round shifts, counts CT down and
puts a byte where CT became 0; as many rounds are made. -/
def Obligations.RenormalizationShiftsUntilNormalized : Prop :=
  (∀ (s : State) (n : Nat), 1 ≤ s.a.toNat → 1 ≤ n → s.a.toNat * 2 ^ (n - 1) < 2 ^ 15 → 2 ^ 15 ≤ s.a.toNat * 2 ^ n →
      n ≤ 15 ∧ renormDecoder maxShifts s = decoderRound^[n] s ∧ (renormDecoder maxShifts s).a.toNat = s.a.toNat * 2 ^ n
        ∧ ∀ t, renormEncoder maxShifts s = .done () t → t.a.toNat = s.a.toNat * 2 ^ n)
    ∧ (∀ s : State,
      let u := if s.ct = 0 then byteIn s else s
      decoderRound s = { u with a := u.a <<< 1, c := u.c <<< 1, ct := u.ct - 1 })
    ∧ ∀ s : State,
      let u := { s with a := s.a <<< 1, c := s.c <<< 1, ct := s.ct - 1 }
      encoderRound s = if u.ct = 0 then byteOut u else .done () u

/-- INITDEC (R92) completes wherever its window is admitted, in every mode but FAULT, and leaves what R92 lists, in each
of the three cases of its byte-in. The marks of `unspec` are the model's (log entry 6). -/
def Obligations.InitdecLoadsTheSegment : Prop :=
  ∀ s : State, s.params.wf = true → s.mode ≠ .fault → WindowAdmitted s →
    let b0 := segmentByte s 0
    let b1 := segmentByte s 1
    ∃ t, exec .initdec s = .next t
      ∧ t = { s with
          mode := .dec, startAddr := s.segbase, endAddr := s.segbase + s.seglen, a := 0x8000, c := t.c, ct := t.ct
          bp := t.bp, eoscnt := t.eoscnt, response := some ⟨0, 0⟩
          unspec := { s.unspec with mq := false, bp := false, window := false, eoscnt := false } }
      ∧ t.endAddr.toNat = s.segbase.toNat + s.seglen.toNat
      ∧ (b0 = 0xFF → 0x8F < b1 →
          t.c = 0x7FFF8000 ∧ t.ct = 1 ∧ t.bp = s.segbase.toNat ∧ t.eoscnt = 1)
      ∧ (b0 = 0xFF → b1 ≤ 0x8F →
          t.c.toNat = (0xFF0000 + b1.toNat * 2 ^ 9) * 2 ^ 7 ∧ t.ct = 0 ∧ t.bp = s.segbase.toNat + 1 ∧ t.eoscnt = 0)
      ∧ (b0 ≠ 0xFF →
          t.c.toNat = (b0.toNat * 2 ^ 16 + b1.toNat * 2 ^ 8) * 2 ^ 7 ∧ t.ct = 1 ∧ t.bp = s.segbase.toNat + 1
            ∧ t.eoscnt = 0)

/-- DECODE (R93 to R95) completes in DEC under every label, for every data: the decision, the context's transition and
the interval of each of its paths; RENORMD ends it where A fell below 0x8000. Only the selected context and A, C, CT,
BP and EOSCNT change. -/
def Obligations.DecodeFollowsTheFourPaths : Prop :=
  ∀ (s : State) (cx : Nat) (hcx : cx < 19), s.mode = .dec →
    let k : Label := ⟨cx, hcx⟩
    let row := cmtRow s.cx[k].i
    let m := s.cx[k].mps
    let reduced := s.a - row.qe
    let lower := decide (s.c.extractLsb' 16 16 < row.qe)
    let small := decide (reduced < row.qe)
    let d := if lower = small then m else !m
    ∃ t, exec (.decode cx) s = .next t
      ∧ t = { s with
          a := t.a, c := t.c, ct := t.ct, bp := t.bp, eoscnt := t.eoscnt, cx := t.cx, response := t.response }
      ∧ (∀ j : Label, j ≠ k → t.cx[j] = s.cx[j])
      ∧ (lower = false → 0x8000 ≤ reduced →
          t.a = reduced ∧ t.c.toNat + row.qe.toNat * 2 ^ 16 = s.c.toNat ∧ t.ct = s.ct ∧ t.bp = s.bp
            ∧ t.eoscnt = s.eoscnt ∧ t.cx = s.cx ∧ t.response = some ⟨if m then 0x10 else 0, 0⟩)
      ∧ (lower = true ∨ reduced < 0x8000 →
          t.response = some ⟨if d then 0x10 else 0, 0⟩
            ∧ t.cx[k] = (if d = m then ⟨row.nmps, m⟩ else ⟨row.nlps, if row.switch then !m else m⟩)
            ∧ t = { renormDecoder maxShifts { s with
                a := if lower then row.qe else reduced
                c := if lower then s.c else s.c - row.qe.setWidth 32 <<< 16
                cx := t.cx } with response := t.response }
            ∧ (0x8000 ≤ s.a → 0x8000 ≤ t.a))

/-- MPS-EXCHANGE (R94): with A already reduced by q, the conditional exchange returns the LPS where A < q, and A is left
as it is. LPS-EXCHANGE (R95): the conditional exchange returns the MPS where A < q; A becomes q in both arms, and C is not
changed. -/
def Obligations.ConditionalExchangesAsStated : Prop :=
  ∀ (k : Label) (s : State) (q : BitVec 16), q = (cmtRow s.cx[k].i).qe →
    (s.a < q → mpsExchange k q s = (!s.cx[k].mps, lpsTransition k s))
      ∧ (q ≤ s.a → mpsExchange k q s = (s.cx[k].mps, mpsTransition k s))
      ∧ (mpsExchange k q s).2.a = s.a
      ∧ (s.a < q → (lpsExchange k q s).1 = s.cx[k].mps ∧ (lpsExchange k q s).2 = { mpsTransition k s with a := q })
      ∧ (q ≤ s.a → (lpsExchange k q s).1 = (!s.cx[k].mps) ∧ (lpsExchange k q s).2 = { lpsTransition k s with a := q })
      ∧ (lpsExchange k q s).2.c = s.c

/-- TERMCHK (R99, R234) completes in DEC and RAWDEC: slack beyond 2 bytes first, else more than 2 markers, else no
warning; only the sticky bit of the warning and the response change. -/
def Obligations.TermchkReportsAtMostOneWarning : Prop :=
  ∀ s : State, s.mode = .dec ∨ s.mode = .rawdec →
    (s.bp + 2 < s.endAddr.toNat →
        ∃ val : Word, (0 ≤ s.bp → (val.toNat : Int) = s.endAddr.toNat - s.bp - 2) ∧
          exec .termchk s = .next { s with wslack := true, response := some ⟨0x20, val⟩ })
      ∧ ((s.endAddr.toNat : Int) ≤ s.bp + 2 → 2 < s.eoscnt.toNat →
          exec .termchk s = .next { s with wmark := true, response := some ⟨0x40, s.eoscnt⟩ })
      ∧ ((s.endAddr.toNat : Int) ≤ s.bp + 2 → s.eoscnt.toNat ≤ 2 →
          exec .termchk s = .next { s with response := some ⟨0, 0⟩ })

/-! ## MQ encoder -/

/-- ENCODE (R112 to R116) completes in ENC under every label wherever two bytes have room: the context's transition and
the interval of each path; at most two bytes are put, and only they and the byte at BP can change in CB. -/
def Obligations.EncodeCodesOneDecision : Prop :=
  ∀ (s : State) (cx : Nat) (hcx : cx < 19) (d : Bool), s.mode = .enc → EncoderBounds s → s.bp + 2 < s.endAddr.toNat →
    let k : Label := ⟨cx, hcx⟩
    let row := cmtRow s.cx[k].i
    let m := s.cx[k].mps
    let reduced := s.a - row.qe
    ∃ t, exec (.encode cx d) s = .next t
      ∧ t = { s with a := t.a, c := t.c, ct := t.ct, bp := t.bp, cx := t.cx, cb := t.cb, response := some ⟨0, 0⟩ }
      ∧ (∀ j : Label, j ≠ k → t.cx[j] = s.cx[j])
      ∧ (d = m → 0x8000 ≤ reduced →
          t.a = reduced ∧ t.c.toNat = s.c.toNat + row.qe.toNat ∧ t.ct = s.ct ∧ t.bp = s.bp ∧ t.cx = s.cx ∧ t.cb = s.cb)
      ∧ (d = m → reduced < 0x8000 → t.cx[k] = ⟨row.nmps, m⟩)
      ∧ (d ≠ m → t.cx[k] = ⟨row.nlps, if row.switch then !m else m⟩)
      ∧ (d ≠ m ∨ reduced < 0x8000 →
          renormEncoder maxShifts { s with
            a := if decide (reduced < row.qe) = decide (d = m) then row.qe else reduced
            c := if decide (reduced < row.qe) = decide (d = m) then s.c else s.c + row.qe.setWidth 32
            cx := t.cx } = .done () { t with response := s.response })
      ∧ 0x8000 ≤ t.a ∧ s.bp ≤ t.bp ∧ t.bp ≤ s.bp + 2
      ∧ ∀ a : Nat, (a : Int) < s.bp ∨ t.bp < a → t.cb.read a = s.cb.read a

/-- BYTEOUT (R116) where the next byte has room: the byte put, what stays in C, the reload of CT, and the carry into the
previous byte, in each of its arms. `B` is `CB[BP]`, and 0 at the phantom byte, which is never read (R111). The carry never meets the phantom
byte: that is an invariant (R111, R120), stated as StepKeepsCoderBounds; here it is a premise. -/
def Obligations.ByteOutMovesOneByte : Prop :=
  ∀ s : State, (s.startAddr.toNat : Int) - 1 ≤ s.bp → s.bp + 1 < s.endAddr.toNat →
    (s.bp = (s.startAddr.toNat : Int) - 1 → s.c.toNat < 2 ^ 27) →
    let b := if s.bp = (s.startAddr.toNat : Int) - 1 then 0 else s.cb.read s.bp.toNat
    let carries := decide (b ≠ 0xFF ∧ 2 ^ 27 ≤ s.c.toNat)
    let stuffs := decide (b = 0xFF ∨ (carries = true ∧ b = 0xFE))
    lastByte s = b ∧ ∃ t, byteOut s = .done () t
      ∧ t = { s with c := t.c, ct := t.ct, bp := s.bp + 1, cb := t.cb }
      ∧ t.ct = (if stuffs then 7 else 8)
      ∧ t.c.toNat = (if stuffs then s.c.toNat % 2 ^ 20 else s.c.toNat % 2 ^ 19)
      ∧ (t.cb.read (s.bp + 1).toNat).toNat =
          (if b = 0xFF then s.c.toNat / 2 ^ 20 % 2 ^ 8
            else if stuffs then s.c.toNat % 2 ^ 27 / 2 ^ 20 else s.c.toNat / 2 ^ 19 % 2 ^ 8)
      ∧ (carries = true → t.cb.read s.bp.toNat = b + 1)
      ∧ ∀ a : Nat, (a : Int) ≠ s.bp + 1 → ((a : Int) ≠ s.bp ∨ carries = false) → t.cb.read a = s.cb.read a

/-- SETBITS (R117): C takes 16 trailing 1 bits, less 0x8000 where that is at or beyond T = C + A as integers; T needs 29
bits at most, and after it C < T. -/
def Obligations.SetBitsStaysInTheInterval : Prop :=
  ∀ s : State, 0x8000 ≤ s.a → s.c.toNat < 2 ^ 28 →
    setBits s = { s with c := (setBits s).c }
      ∧ (s.c.toNat + s.a.toNat ≤ (s.c ||| 0x0000FFFF).toNat → (setBits s).c = (s.c ||| 0x0000FFFF) - 0x8000)
      ∧ ((s.c ||| 0x0000FFFF).toNat < s.c.toNat + s.a.toNat → (setBits s).c = s.c ||| 0x0000FFFF)
      ∧ s.c.toNat + s.a.toNat < 2 ^ 29 ∧ (setBits s).c.toNat < s.c.toNat + s.a.toNat

/-- FLUSHENC (R117, R118) completes in ENC wherever two bytes have room: MODE is IDLE, VAL is the number of bytes, the
last byte kept is never 0xFF; A and the contexts stay, and only the bytes at BP to BP + 2 can change in CB. -/
def Obligations.FlushencEndsTheSegment : Prop :=
  ∀ s : State, s.mode = .enc → EncoderBounds s → s.bp + 2 < s.endAddr.toNat →
    ∃ t, exec .flushenc s = .next t
      ∧ t = { s with
          mode := .idle, c := t.c, ct := t.ct, bp := t.bp, cb := t.cb
          response := some ⟨0, BitVec.ofInt 32 (t.bp - s.startAddr.toNat)⟩ }
      ∧ (t.bp = s.bp + 2 ∨ t.bp = s.bp + 3)
      ∧ (t.bp = s.bp + 2 ↔ t.cb.read (s.bp + 2).toNat = 0xFF)
      ∧ (0 ≤ t.bp - 1 → t.cb.read (t.bp - 1).toNat ≠ 0xFF)
      ∧ (∀ a : Nat, (a : Int) < s.bp ∨ s.bp + 2 < a → t.cb.read a = s.cb.read a)
      ∧ ∃ u v, byteOut { setBits s with c := (setBits s).c <<< s.ct.toNat } = .done () u
          ∧ byteOut { u with c := u.c <<< u.ct.toNat } = .done () v
          ∧ t = { v with
              mode := .idle, bp := if v.cb.read (s.bp + 2).toNat = 0xFF then v.bp else v.bp + 1, response := t.response }

/-- The encoder mirrors the decoder (V1): where the decoder's decision under a label is what the encoder is given under
that label, from the same A and contexts, both end with the same A and the same contexts. -/
def Obligations.EncoderMirrorsTheDecoder : Prop :=
  ∀ (k : Label) (s t u : State), s.a = t.a → s.cx = t.cx → encodeDecision k (decodeDecision k s).1 t = .done () u →
    u.a = (decodeDecision k s).2.a ∧ u.cx = (decodeDecision k s).2.cx

/-- R119: a segment of n ENCODE commands and a FLUSHENC never faults in a window of `floor(15 n / 7) + 3` bytes: every
command of the run answers without error, and MODE is IDLE at its end. -/
def Obligations.WindowOfTheStatedCapacityNeverFaults : Prop :=
  ∀ (s : State) (decisions : List (Label × Bool)), s.params.wf = true → s.mode ≠ .fault → WindowAdmitted s →
    15 * decisions.length / 7 + 3 ≤ s.seglen.toNat →
    let run := issueAll ([.initenc] ++ decisions.map (fun kd => .encode kd.1.val kd.2) ++ [.flushenc]) s
    run.1.length = decisions.length + 2 ∧ (∀ r ∈ run.1, r.err = 0) ∧ run.2.mode = .idle

/-- R69: the pseudo-command that starts a segment stands for WRREG, WRREG and the INIT command; where its window is legal
(R42) and MODE is not FAULT, the three answer without error and leave MODE, the window and the operand registers set. -/
def Obligations.SegmentPseudoCommandsOpenTheSegment : Prop :=
  ∀ (s : State) (base len : Word), s.mode ≠ .fault → WindowAdmitted { s with segbase := base, seglen := len } →
    ∀ pm ∈ [(PseudoCommand.decseg base len, Mode.dec), (.encseg base len, .enc), (.rawdecseg base len, .rawdec),
            (.rawencseg base len, .rawenc)],
      let run := issueAll pm.1.expand s
      run.1.length = 3 ∧ (∀ r ∈ run.1, r.err = 0) ∧ run.2.mode = pm.2 ∧ run.2.startAddr = base
        ∧ run.2.endAddr = base + len ∧ run.2.segbase = base ∧ run.2.seglen = len ∧ run.2.cx = s.cx

/-! ## Raw sub-coder -/

/-- INITENC (R110), RAWINITDEC (R131) and RAWINITENC (R133) complete wherever their window is admitted, in every mode but
FAULT, and leave what their rules list; INITENC leaves BP at the phantom byte. The marks of `unspec` are the model's (log
entry 6). -/
def Obligations.EncoderAndRawInitsLoadTheWindow : Prop :=
  ∀ s : State, s.mode ≠ .fault → WindowAdmitted s →
    exec .initenc s = .next { s with
        mode := .enc, startAddr := s.segbase, endAddr := s.segbase + s.seglen, bp := (s.segbase.toNat : Int) - 1
        a := 0x8000, c := 0, ct := 12, response := some ⟨0, 0⟩
        unspec := { s.unspec with mq := false, bp := false, window := false } }
      ∧ exec .rawinitdec s = .next { s with
        mode := .rawdec, startAddr := s.segbase, endAddr := s.segbase + s.seglen, bp := s.segbase.toNat
        rb := 0, rct := 0, eoscnt := 0, response := some ⟨0, 0⟩
        unspec := { s.unspec with bp := false, window := false, raw := false, eoscnt := false } }
      ∧ exec .rawinitenc s = .next { s with
        mode := .rawenc, startAddr := s.segbase, endAddr := s.segbase + s.seglen, bp := s.segbase.toNat
        rb := 0, rct := 8, lastff := false, response := some ⟨0, 0⟩
        unspec := { s.unspec with bp := false, window := false, raw := false, lastff := false } }

/-- RAWDEC (R132) completes in RAWDEC for every data: a bit of RB, after a refill where RCT is 0: a marker that is not
consumed, a stuffed byte of 7 bits, or a whole byte. Only RB, RCT and BP change. -/
def Obligations.RawdecDeliversTheNextBit : Prop :=
  ∀ s : State, s.mode = .rawdec →
    let next := fetchByte s s.bp
    ∃ t bit, exec .rawdec s = .next t
      ∧ t = { s with rb := t.rb, rct := t.rct, bp := t.bp, response := some ⟨if bit then 0x10 else 0, 0⟩ }
      ∧ bit = t.rb.getLsbD t.rct.toNat
      ∧ (s.rct ≠ 0 → t.rb = s.rb ∧ t.rct = s.rct - 1 ∧ t.bp = s.bp)
      ∧ (s.rct = 0 → s.rb = 0xFF → 0x8F < next → t.rb = 0xFF ∧ t.rct = 7 ∧ t.bp = s.bp)
      ∧ (s.rct = 0 → s.rb = 0xFF → next ≤ 0x8F → t.rb = next ∧ t.rct = 6 ∧ t.bp = s.bp + 1)
      ∧ (s.rct = 0 → s.rb ≠ 0xFF → t.rb = next ∧ t.rct = 7 ∧ t.bp = s.bp + 1)

/-- RAWENC (R134) completes in RAWENC wherever a byte that becomes full has room: the bit goes to RB; a full byte is
stored at BP, and after 0xFF the next byte has 7 bits. Only those registers and that byte change. -/
def Obligations.RawencAppendsOneBit : Prop :=
  ∀ (s : State) (d : Bool), s.mode = .rawenc → RawEncoderBounds s → (s.rct = 1 → s.bp < s.endAddr.toNat) →
    let rb := if d then s.rb ||| (1#8 <<< (s.rct.toNat - 1)) else s.rb
    ∃ t, exec (.rawenc d) s = .next t
      ∧ (s.rct ≠ 1 → t = { s with rb := rb, rct := s.rct - 1, response := some ⟨0, 0⟩ })
      ∧ (s.rct = 1 →
          t = { s with
            rb := 0, rct := if rb = 0xFF then 7 else 8, lastff := decide (rb = 0xFF), bp := s.bp + 1, cb := t.cb
            response := some ⟨0, 0⟩ }
            ∧ ∀ a : Nat, t.cb.read a = if (a : Int) = s.bp then rb else s.cb.read a)

/-- RAWFLUSH (R135) completes in RAWENC wherever a padded byte has room: it stores the bits that wait, padded 0, 1, 0,
..., or drops a final 0xFF; MODE is IDLE, VAL the number of bytes. -/
def Obligations.RawflushEndsTheSegment : Prop :=
  ∀ s : State, s.mode = .rawenc → RawEncoderBounds s →
    let full : BitVec 4 := if s.lastff then 7 else 8
    (s.rct ≠ full → s.bp < s.endAddr.toNat) →
    ∃ t, exec .rawflush s = .next t
      ∧ t = { s with
          mode := .idle, rb := 0, rct := 8, lastff := false, bp := t.bp, cb := t.cb
          response := some ⟨0, BitVec.ofInt 32 (t.bp - s.startAddr.toNat)⟩ }
      ∧ (s.rct ≠ full →
          t.bp = s.bp + 1
            ∧ (∀ a : Nat, (a : Int) ≠ s.bp → t.cb.read a = s.cb.read a)
            ∧ ∀ n : Nat, n < 8 → (t.cb.read s.bp.toNat).getLsbD n =
                (s.rb.getLsbD n || decide (n < s.rct.toNat) && decide ((s.rct.toNat - 1 - n) % 2 = 1)))
      ∧ (s.rct = full → t.cb = s.cb ∧ t.bp = if s.lastff then s.bp - 1 else s.bp)

/-- R57, R230, R233: an encoder that must write at or beyond END takes the fault. RAWENC, RAWFLUSH and FLUSHENC; ENCODE,
which after its split makes n shifts and puts a byte at each shift that brings CT to 0: it completes exactly where each of
these bytes, two at most, has room (R115); and the passes, which fault exactly where a visit of the scan does. -/
def Obligations.EncodersFaultAtTheEndOfTheWindow : Prop :=
  (∀ s : State,
    (∀ d, s.mode = .rawenc → s.rct = 1 → (s.endAddr.toNat : Int) ≤ s.bp → FaultsOn (.rawenc d) s)
      ∧ (s.mode = .rawenc → s.rct ≠ (if s.lastff then 7 else 8) → (s.endAddr.toNat : Int) ≤ s.bp → FaultsOn .rawflush s)
      ∧ (s.mode = .enc → (s.endAddr.toNat : Int) ≤ s.bp + 2 → FaultsOn .flushenc s))
    ∧ (∀ (s : State) (cx : Nat) (hcx : cx < 19) (d : Bool), s.mode = .enc → EncoderBounds s →
      let row := cmtRow s.cx[(⟨cx, hcx⟩ : Label)].i
      let m := s.cx[(⟨cx, hcx⟩ : Label)].mps
      let reduced := s.a - row.qe
      let exchanged := decide (reduced < row.qe) = decide (d = m)
      let a := if exchanged then row.qe else reduced
      let c := if exchanged then s.c else s.c + row.qe.setWidth 32
      let first := byteOut { s with c := c <<< s.ct.toNat }
      (d = m → 0x8000 ≤ reduced → CompletesOn (.encode cx d) s)
        ∧ ∀ n : Nat, d ≠ m ∨ reduced < 0x8000 → 1 ≤ n → a.toNat * 2 ^ (n - 1) < 2 ^ 15 → 2 ^ 15 ≤ a.toNat * 2 ^ n →
          (n < s.ct.toNat → CompletesOn (.encode cx d) s)
            ∧ (s.ct.toNat ≤ n → (s.endAddr.toNat : Int) ≤ s.bp + 1 → FaultsOn (.encode cx d) s)
            ∧ (s.ct.toNat ≤ n → s.bp + 1 < s.endAddr.toNat →
              ∃ u, first = .done () u
                ∧ (n < s.ct.toNat + u.ct.toNat ∨ s.bp + 2 < s.endAddr.toNat → CompletesOn (.encode cx d) s)
                ∧ (s.ct.toNat + u.ct.toNat ≤ n → (s.endAddr.toNat : Int) ≤ s.bp + 2 → FaultsOn (.encode cx d) s)))
    ∧ (∀ (s : State) (p : Nat), p ≤ 29 → s.geomv = true →
      (s.mode = .enc ∨ s.mode = .rawenc →
        (FaultsOn (.sigpass p) s ↔ ∃ before xy after u v, scanOrder s.w s.h = before ++ xy :: after
            ∧ forEach (visitSignificance p) before s = .done () u ∧ visitSignificance p xy u = .overflow v)
          ∧ (FaultsOn (.refpass p) s ↔ ∃ before xy after u v, scanOrder s.w s.h = before ++ xy :: after
            ∧ forEach (visitRefinement p) before s = .done () u ∧ visitRefinement p xy u = .overflow v))
        ∧ (s.mode = .enc →
          (FaultsOn (.clnpass p) s ↔ ∃ before col after u v, scanColumns s.w s.h = before ++ col :: after
            ∧ forEach (visitColumn p) before s = .done () u ∧ visitColumn p col u = .overflow v)))
    ∧ ∀ (s : State) (p x y : Nat), s.mode = .rawenc → s.rct = 1 → (s.endAddr.toNat : Int) ≤ s.bp →
      isVisited s x y = false →
        (isSignificant s x y = false → 0 < neighbours s x y → ∃ v, visitSignificance p (x, y) s = .overflow v)
          ∧ (isSignificant s x y = true → ∃ v, visitRefinement p (x, y) s = .overflow v)

/-- R137: for any bits encoded by RAWINITENC, one RAWENC each and RAWFLUSH into a window of a byte for each 7 bits,
RAWINITDEC over exactly the VAL bytes of the flush and as many RAWDEC return those bits. -/
def Obligations.RawRoundTripReturnsTheBits : Prop :=
  ∀ (s : State) (bits : List Bool), s.params.wf = true → s.mode ≠ .fault → WindowAdmitted s →
    bits.length ≤ 7 * s.seglen.toNat →
    let coded := issueAll ([.rawinitenc] ++ bits.map .rawenc ++ [.rawflush]) s
    ∃ flush, coded.1.getLast? = some flush ∧ (∀ r ∈ coded.1, r.err = 0)
      ∧ (let decoded := issueAll ([.wrreg 0x05 flush.val, .rawinitdec] ++ List.replicate bits.length .rawdec) coded.2
         (∀ r ∈ decoded.1, r.err = 0) ∧ (decoded.1.drop 2).map Response.bit = bits)

/-! ## Labels -/

/-- The tables of R154, R155, R156 and R158: the ZC label of every orientation from ΣH, ΣV, ΣD, row by row; NBR = 0 gives
ZC0 and NBR > 0 a label 1 to 8; the SC label and XORBIT of each pair of contributions, and the sign coded under that label
as `NEG xor XORBIT` and recovered as `D xor XORBIT`. -/
def Obligations.ZeroAndSignCodingLabelTables : Prop :=
  (∀ o : Orientation, o = .ll ∨ o = .lh → ∀ h v d : Nat, h ≤ 2 → v ≤ 2 → d ≤ 4 →
      (h = 2 → (zcLabel o h v d).val = 8) ∧ (h = 1 → 1 ≤ v → (zcLabel o h v d).val = 7)
        ∧ (h = 1 → v = 0 → 1 ≤ d → (zcLabel o h v d).val = 6) ∧ (h = 1 → v = 0 → d = 0 → (zcLabel o h v d).val = 5)
        ∧ (h = 0 → v = 2 → (zcLabel o h v d).val = 4) ∧ (h = 0 → v = 1 → (zcLabel o h v d).val = 3)
        ∧ (h = 0 → v = 0 → 2 ≤ d → (zcLabel o h v d).val = 2) ∧ (h = 0 → v = 0 → d = 1 → (zcLabel o h v d).val = 1)
        ∧ (h = 0 → v = 0 → d = 0 → (zcLabel o h v d).val = 0))
    ∧ (∀ h v d : Nat, h ≤ 2 → v ≤ 2 → d ≤ 4 → zcLabel .hl h v d = zcLabel .ll v h d)
    ∧ (∀ h v d : Nat, h ≤ 2 → v ≤ 2 → d ≤ 4 →
      (3 ≤ d → (zcLabel .hh h v d).val = 8) ∧ (d = 2 → 1 ≤ h + v → (zcLabel .hh h v d).val = 7)
        ∧ (d = 2 → h + v = 0 → (zcLabel .hh h v d).val = 6) ∧ (d = 1 → 2 ≤ h + v → (zcLabel .hh h v d).val = 5)
        ∧ (d = 1 → h + v = 1 → (zcLabel .hh h v d).val = 4) ∧ (d = 1 → h + v = 0 → (zcLabel .hh h v d).val = 3)
        ∧ (d = 0 → 2 ≤ h + v → (zcLabel .hh h v d).val = 2) ∧ (d = 0 → h + v = 1 → (zcLabel .hh h v d).val = 1)
        ∧ (d = 0 → h + v = 0 → (zcLabel .hh h v d).val = 0))
    ∧ (∀ (o : Orientation) (h v d : Nat), h ≤ 2 → v ≤ 2 → d ≤ 4 →
      (h + v + d = 0 → (zcLabel o h v d).val = 0)
        ∧ (0 < h + v + d → 1 ≤ (zcLabel o h v d).val ∧ (zcLabel o h v d).val ≤ 8))
    ∧ scLabel 1 1 = (13, false) ∧ scLabel 1 0 = (12, false) ∧ scLabel 1 (-1) = (11, false)
    ∧ scLabel 0 1 = (10, false) ∧ scLabel 0 0 = (9, false) ∧ scLabel 0 (-1) = (10, true)
    ∧ scLabel (-1) 1 = (11, true) ∧ scLabel (-1) 0 = (12, true) ∧ scLabel (-1) (-1) = (13, true)
    ∧ ∀ (s : State) (x y : Nat),
      let sc := scLabel (contributionH s x y) (contributionV s x y)
      (s.mode = .enc → codeSign x y s =
          (encodeDecision sc.1 (isNegative s x y != sc.2) s).bind fun _ t => .done (isNegative s x y) t)
        ∧ (s.mode = .dec → codeSign x y s =
          .done ((decodeDecision sc.1 s).1 != sc.2) (decodeDecision sc.1 s).2)

/-- R153, R157, R159: which neighbours the sums and the sign contributions are taken from (the flag cell of coefficient
(x, y) is `FP[x + 1][y + 1]`, R54); the sums are in the ranges of R153 and the contributions -1, 0 or 1, so every label
the scanner derives is of its family (R82). -/
def Obligations.DerivedLabelsAreOfTheirFamily : Prop :=
  ∀ (s : State) (x y : Nat),
    let sig := fun xf yf => ((flagCell s xf yf).getLsbD 0).toNat
    let sign : Nat → Nat → Int := fun xf yf =>
      if (flagCell s xf yf).getLsbD 0 then (if (flagCell s xf yf).getLsbD 1 then -1 else 1) else 0
    sumH s x y = sig x (y + 1) + sig (x + 2) (y + 1) ∧ sumV s x y = sig (x + 1) y + sig (x + 1) (y + 2)
      ∧ sumD s x y = sig x y + sig (x + 2) y + sig x (y + 2) + sig (x + 2) (y + 2)
      ∧ neighbours s x y = sumH s x y + sumV s x y + sumD s x y
      ∧ contributionH s x y = max (-1) (min 1 (sign x (y + 1) + sign (x + 2) (y + 1)))
      ∧ contributionV s x y = max (-1) (min 1 (sign (x + 1) y + sign (x + 1) (y + 2)))
      ∧ zcLabelOf s x y = zcLabel s.orient (sumH s x y) (sumV s x y) (sumD s x y)
      ∧ scLabelOf s x y = scLabel (contributionH s x y) (contributionV s x y)
      ∧ sumH s x y ≤ 2 ∧ sumV s x y ≤ 2 ∧ sumD s x y ≤ 4 ∧ neighbours s x y ≤ 8
      ∧ (contributionH s x y = -1 ∨ contributionH s x y = 0 ∨ contributionH s x y = 1)
      ∧ (contributionV s x y = -1 ∨ contributionV s x y = 0 ∨ contributionV s x y = 1)
      ∧ (zcLabelOf s x y).val ≤ 8 ∧ ((zcLabelOf s x y).val = 0 ↔ neighbours s x y = 0)
      ∧ 9 ≤ (scLabelOf s x y).1.val ∧ (scLabelOf s x y).1.val ≤ 13
      ∧ (isRefined s x y = true → (mrLabelOf s x y).val = 16)
      ∧ (isRefined s x y = false → 0 < neighbours s x y → (mrLabelOf s x y).val = 15)
      ∧ (isRefined s x y = false → neighbours s x y = 0 → (mrLabelOf s x y).val = 14)

/-! ## Scanner -/

/-- R150: every coefficient is visited once, by stripes of four rows, columns left to right, rows top to bottom. -/
def Obligations.ScanOrderVisitsEachCoefficientOnce : Prop :=
  ∀ w h : Nat,
    (∀ x y : Nat, (x, y) ∈ scanOrder w h ↔ x < w ∧ y < h)
      ∧ (scanOrder w h).Nodup
      ∧ (scanOrder w h).Pairwise fun a b =>
        a.2 / 4 < b.2 / 4 ∨ a.2 / 4 = b.2 / 4 ∧ (a.1 < b.1 ∨ a.1 = b.1 ∧ a.2 < b.2)

/-- CBINIT (R162) completes in every mode but FAULT for every geometry of an area MAXAREA admits: every flag cell is 0,
the coefficients are 0 where CLR is 1, and nothing else is written. The mark of `unspec` is the model's (log entry
6). -/
def Obligations.CbinitLoadsTheGeometry : Prop :=
  ∀ (s : State) (wm1 hm1 : Nat) (o : Orientation) (clr : Bool), s.mode ≠ .fault →
    (wm1 + 1) * (hm1 + 1) ≤ s.params.maxarea →
    ∃ t, exec (.cbinit wm1 hm1 o clr) s = .next t
      ∧ t = { s with
          w := wm1 + 1, h := hm1 + 1, orient := o, geomv := true, fp := t.fp, cp := t.cp
          unspec := { s.unspec with geom := false }, response := some ⟨0, 0⟩ }
      ∧ (∀ xf yf : Nat, xf ≤ wm1 + 2 → yf ≤ hm1 + 2 → flagCell t xf yf = 0)
      ∧ ∀ n : Nat, t.cp.read n = if clr = true ∧ n < (wm1 + 1) * (hm1 + 1) then 0 else s.cp.read n

/-- SIGPASS, REFPASS (R163, R164) and CLNPASS (R165) complete in the decoding modes that allow them, for every data, with
a plane up to 29 and a geometry loaded; they write FP, CP and the coder's registers alone. In CP bit P of a magnitude can
become 1; no other magnitude bit of the code-block and no cell outside it changes (R152). -/
def Obligations.DecodingPassesComplete : Prop :=
  ∀ (s : State) (p : Nat) (i : Instr), p ≤ 29 → s.geomv = true →
    (s.mode = .dec ∧ (i = .sigpass p ∨ i = .refpass p ∨ i = .clnpass p))
      ∨ (s.mode = .rawdec ∧ (i = .sigpass p ∨ i = .refpass p)) →
    ∃ t, exec i s = .next t
      ∧ (s.mode = .dec → t = { s with
          a := t.a, c := t.c, ct := t.ct, bp := t.bp, eoscnt := t.eoscnt, cx := t.cx, fp := t.fp, cp := t.cp
          response := some ⟨0, 0⟩ })
      ∧ (s.mode = .rawdec → t = { s with
          rb := t.rb, rct := t.rct, bp := t.bp, fp := t.fp, cp := t.cp, response := some ⟨0, 0⟩ })
      ∧ (∀ n b : Nat, b < 31 → b ≠ p → (t.cp.read n).getLsbD b = (s.cp.read n).getLsbD b)
      ∧ (∀ n : Nat, (s.cp.read n).getLsbD p = true → (t.cp.read n).getLsbD p = true)
      ∧ ∀ n : Nat, s.w * s.h ≤ n → t.cp.read n = s.cp.read n

/-- SIGPASS, REFPASS and CLNPASS complete in the encoding modes that allow them wherever the window has room for the most
decisions R170 gives the pass: two bytes for each decision of the MQ coder, one byte for each raw bit. They write FP, the
coder's registers and the bytes of CB from BP to the new BP alone. -/
def Obligations.EncodingPassesCompleteWithRoom : Prop :=
  ∀ (s : State) (p : Nat) (i : Instr), p ≤ 29 → s.geomv = true → CoderBounds s →
    (s.mode = .enc ∧ (i = .sigpass p ∨ i = .refpass p ∨ i = .clnpass p)
        ∧ s.bp + 2 * (2 * s.w * s.h + 3 * s.w * ((s.h + 3) / 4)) < s.endAddr.toNat)
      ∨ (s.mode = .rawenc ∧ (i = .sigpass p ∨ i = .refpass p) ∧ s.bp + 2 * s.w * s.h ≤ s.endAddr.toNat) →
    ∃ t, exec i s = .next t
      ∧ (s.mode = .enc → t = { s with
          a := t.a, c := t.c, ct := t.ct, bp := t.bp, cx := t.cx, cb := t.cb, fp := t.fp, response := some ⟨0, 0⟩ })
      ∧ (s.mode = .rawenc → t = { s with
          rb := t.rb, rct := t.rct, lastff := t.lastff, bp := t.bp, cb := t.cb, fp := t.fp
          response := some ⟨0, 0⟩ })
      ∧ s.bp ≤ t.bp ∧ ∀ a : Nat, (a : Int) < s.bp ∨ t.bp < a → t.cb.read a = s.cb.read a

/-- SIGNIFY (R161), once the sign is coded: SIG is set, SGN is the sign, VIS and REF stay; in decode direction bit P of
the magnitude is set and NEG is the sign; no other flag cell and no other coefficient changes, and nothing else but the
coder. In DEC the sign is `D xor XORBIT` of a decision under the SC label of the flags before the update; in the raw
modes it is the raw bit itself, 1 = negative, without a label. -/
def Obligations.SignifyMarksTheCoefficient : Prop :=
  (∀ (s : State) (x y : Nat),
      (s.mode = .rawenc → codeSign x y s =
          (rawEncodeBit (isNegative s x y) s).bind fun _ t => .done (isNegative s x y) t)
        ∧ (s.mode = .rawdec → codeSign x y s = .done (rawDecodeBit s).1 (rawDecodeBit s).2))
    ∧ ∀ (s u : State) (x y p : Nat) (neg : Bool), x < s.w → p ≤ 29 → codeSign x y s = .done neg u →
    (s.mode = .dec → neg = ((decodeDecision (scLabelOf s x y).1 s).1 != (scLabelOf s x y).2)
        ∧ u = (decodeDecision (scLabelOf s x y).1 s).2)
      ∧ ∃ t, signify x y p s = .done () t ∧ t = { u with fp := t.fp, cp := t.cp }
        ∧ isSignificant t x y = true ∧ flagOf sgnBit t x y = neg
        ∧ isVisited t x y = isVisited s x y ∧ isRefined t x y = isRefined s x y
        ∧ (∀ xf yf : Nat, xf ≤ s.w + 1 → xf ≠ x + 1 ∨ yf ≠ y + 1 → flagCell t xf yf = flagCell s xf yf)
        ∧ (∀ n : Nat, n ≠ y * s.w + x → t.cp.read n = s.cp.read n)
        ∧ (isDecoding s = false → t.cp = s.cp)
        ∧ (isDecoding s = true → isNegative t x y = neg ∧ magBit t x y p = true
            ∧ ∀ b : Nat, b < 31 → b ≠ p → magBit t x y b = magBit s x y b)

/-- REFPASS (R164), in every mode: REF becomes 1 for exactly the coefficients that were significant and not visited, and
no other flag changes; a coefficient it does not refine keeps its cell of CP. The pass visits the coefficients in scan
order; a visit that refines codes bit P under the MR label, or as a raw bit, and in decode direction ORs the decision into
bit P; any other visit does nothing. -/
def Obligations.RefpassRefinesExactlyTheSignificant : Prop :=
  (∀ (s : State) (p x y : Nat), isSignificant s x y = true → isVisited s x y = false →
    let k := mrLabelOf s x y
    let v := magBit s x y p
    (s.mode = .enc → visitRefinement p (x, y) s =
        (encodeDecision k v s).bind fun _ t => .done () (markRefined x y t))
      ∧ (s.mode = .rawenc → visitRefinement p (x, y) s =
        (rawEncodeBit v s).bind fun _ t => .done () (markRefined x y t))
      ∧ ∀ r : Bool × State, s.mode = .dec ∧ r = decodeDecision k s ∨ s.mode = .rawdec ∧ r = rawDecodeBit s →
        ∃ t, visitRefinement p (x, y) s = .done () t ∧ t = { markRefined x y r.2 with cp := t.cp }
          ∧ coefCell t x y = coefCell s x y ||| (if r.1 then 1#32 <<< p else 0)
          ∧ ∀ n : Nat, n ≠ y * s.w + x → t.cp.read n = s.cp.read n)
    ∧ (∀ (s : State) (p x y : Nat), isSignificant s x y = false ∨ isVisited s x y = true →
      visitRefinement p (x, y) s = .done () s)
    ∧ (∀ (s : State) (p : Nat), p ≤ 29 → s.geomv = true → s.mode ≠ .idle → s.mode ≠ .fault →
      exec (.refpass p) s =
        .next (finish (forEach (visitRefinement p) (scanOrder s.w s.h) s) fun _ t => t.answer Response.ok))
    ∧ ∀ (s t : State) (p : Nat), exec (.refpass p) s = .next t → AnswersWithoutError t →
    ∀ x y : Nat, x < s.w → y < s.h →
      (isRefined t x y = (isRefined s x y || isSignificant s x y && !isVisited s x y))
        ∧ isSignificant t x y = isSignificant s x y ∧ isVisited t x y = isVisited s x y
        ∧ flagOf sgnBit t x y = flagOf sgnBit s x y
        ∧ ((isSignificant s x y && !isVisited s x y) = false → coefCell t x y = coefCell s x y)

/-- SIGPASS (R163), in every mode. The pass visits the coefficients in scan order; a visit to a coefficient that is not
significant, not visited and has a significant neighbour codes bit P under the ZC label of that moment, or as a raw bit,
makes the coefficient significant where the bit is 1, and marks it visited; any other visit does nothing. So a
coefficient that had a significant neighbour before the pass, and was not significant and not visited, is visited after
it. A coefficient that was significant or visited keeps its flags and its coefficient; any other keeps REF, and is
changed only where it is coded: it is then visited, and some neighbour of it is significant. In encode direction a coded
coefficient is significant exactly where its bit P is 1; in decode direction bit P of a newly significant one is 1 and
NEG is its sign. -/
def Obligations.SigpassCodesInsignificantNeighbours : Prop :=
  (∀ (s : State) (p x y : Nat), isSignificant s x y = false → isVisited s x y = false → 0 < neighbours s x y →
    let k := zcLabelOf s x y
    let v := magBit s x y p
    let last := fun (b : Bool) (t : State) =>
      (if b then signify x y p t else .done () t).bind fun _ u => .done () (markVisited x y u)
    (s.mode = .dec → visitSignificance p (x, y) s = last (decodeDecision k s).1 (decodeDecision k s).2)
      ∧ (s.mode = .rawdec → visitSignificance p (x, y) s = last (rawDecodeBit s).1 (rawDecodeBit s).2)
      ∧ (s.mode = .enc → visitSignificance p (x, y) s = (encodeDecision k v s).bind fun _ t => last v t)
      ∧ (s.mode = .rawenc → visitSignificance p (x, y) s = (rawEncodeBit v s).bind fun _ t => last v t))
    ∧ (∀ (s : State) (p x y : Nat), isSignificant s x y = true ∨ isVisited s x y = true ∨ neighbours s x y = 0 →
      visitSignificance p (x, y) s = .done () s)
    ∧ (∀ (s : State) (p : Nat), p ≤ 29 → s.geomv = true → s.mode ≠ .idle → s.mode ≠ .fault →
      exec (.sigpass p) s =
        .next (finish (forEach (visitSignificance p) (scanOrder s.w s.h) s) fun _ t => t.answer Response.ok))
    ∧ ∀ (s t : State) (p : Nat), exec (.sigpass p) s = .next t → AnswersWithoutError t →
    ∀ x y : Nat, x < s.w → y < s.h →
      (isSignificant s x y = true ∨ isVisited s x y = true →
          flagCell t (x + 1) (y + 1) = flagCell s (x + 1) (y + 1) ∧ coefCell t x y = coefCell s x y)
        ∧ (isSignificant s x y = false → isVisited s x y = false →
          isRefined t x y = isRefined s x y
            ∧ (0 < neighbours s x y → isVisited t x y = true)
            ∧ (isVisited t x y = false →
                flagCell t (x + 1) (y + 1) = flagCell s (x + 1) (y + 1) ∧ coefCell t x y = coefCell s x y)
            ∧ (isVisited t x y = true → 0 < neighbours t x y
                ∧ (isDecoding s = false → isSignificant t x y = magBit s x y p
                    ∧ (isSignificant t x y = true → flagOf sgnBit t x y = isNegative s x y))
                ∧ (isDecoding s = true → isSignificant t x y = true →
                    magBit t x y p = true ∧ isNegative t x y = flagOf sgnBit t x y)))

/-- CLNPASS (R165, R166). The pass visits the columns of the stripes in scan order and then clears every VIS bit; the
rows of a column that is not run-length coded are visited one by one, and a visit to a coefficient that is not
significant and not visited codes bit P under the ZC label of that moment and makes it significant where the bit is 1.
Afterwards no coefficient is visited; one that was significant or visited keeps SIG, SGN, REF and its coefficient; every
other is coded: in encode direction it is significant exactly where its bit P is 1, with its sign, run-length columns
included; in decode direction bit P of a newly significant one is 1 and NEG is its sign. -/
def Obligations.ClnpassCodesTheRest : Prop :=
  (∀ (s : State) (p x y : Nat), isSignificant s x y = false → isVisited s x y = false →
    let k := zcLabelOf s x y
    let v := magBit s x y p
    let last := fun (b : Bool) (t : State) => if b then signify x y p t else .done () t
    (s.mode = .dec → visitCleanup p x y s = last (decodeDecision k s).1 (decodeDecision k s).2)
      ∧ (s.mode = .enc → visitCleanup p x y s = (encodeDecision k v s).bind fun _ t => last v t))
    ∧ (∀ (s : State) (p x y : Nat), isSignificant s x y = true ∨ isVisited s x y = true →
      visitCleanup p x y s = .done () s)
    ∧ (∀ (s : State) (p k x : Nat), runEligible k x s = false → visitColumn p (k, x) s =
      forEach (fun y => visitCleanup p x y) (List.range' (4 * k) (min 4 (s.h - 4 * k))) s)
    ∧ (∀ (s : State) (p : Nat), p ≤ 29 → s.geomv = true → s.mode = .dec ∨ s.mode = .enc →
      exec (.clnpass p) s =
        .next (finish (forEach (visitColumn p) (scanColumns s.w s.h) s) fun _ t =>
          (clearVisited t).answer Response.ok))
    ∧ ∀ (s t : State) (p : Nat), s.fp.wf = true → exec (.clnpass p) s = .next t → AnswersWithoutError t →
    (∀ xf yf : Nat, (flagCell t xf yf).getLsbD visBit = false)
      ∧ ∀ x y : Nat, x < s.w → y < s.h →
        isRefined t x y = isRefined s x y
          ∧ (isSignificant s x y = true ∨ isVisited s x y = true →
            isSignificant t x y = isSignificant s x y ∧ flagOf sgnBit t x y = flagOf sgnBit s x y
              ∧ coefCell t x y = coefCell s x y)
          ∧ (isSignificant s x y = false → isVisited s x y = false →
            (s.mode = .enc → isSignificant t x y = magBit s x y p
                ∧ (isSignificant t x y = true → flagOf sgnBit t x y = isNegative s x y))
              ∧ (s.mode = .dec → isSignificant t x y = true →
                  magBit t x y p = true ∧ isNegative t x y = flagOf sgnBit t x y)
              ∧ (s.mode = .dec → isSignificant t x y = false → coefCell t x y = coefCell s x y))

/-- R163, R164, R169: with no significant coefficient and a clear halo, SIGPASS and REFPASS code nothing and change
nothing, in every mode that allows them. -/
def Obligations.PassesWithNothingSignificantChangeNothing : Prop :=
  ∀ (s : State) (p : Nat), s.mode ≠ .idle → s.mode ≠ .fault → p ≤ 29 → s.geomv = true → HaloClear s →
    (∀ x y : Nat, x < s.w → y < s.h → isSignificant s x y = false) →
    exec (.sigpass p) s = .next { s with response := some ⟨0, 0⟩ }
      ∧ exec (.refpass p) s = .next { s with response := some ⟨0, 0⟩ }

/-- The run-length mode of CLNPASS (R165): it is tried for exactly the columns of a full stripe whose four coefficients
are not significant, not visited and have no significant neighbour. In a column it is tried for, a decision under AGG;
where it is 0 the column is done; where it is 1, two decisions under UNI give the row r, most significant bit first, row
r gets its sign only and the rows after it are coded one by one. In ENC the decision under AGG is whether one of the
four magnitudes has bit P, and r is the least row whose magnitude has it. -/
def Obligations.EligibleColumnIsRunLengthCoded : Prop :=
  (∀ (s : State) (k x : Nat), runEligible k x s = true ↔
      4 * k + 3 < s.h ∧ ∀ j : Nat, j < 4 →
        isSignificant s x (4 * k + j) = false ∧ isVisited s x (4 * k + j) = false ∧ neighbours s x (4 * k + j) = 0)
    ∧ (∀ (s : State) (p k x : Nat), s.mode = .enc → runEligible k x s = true →
      ((∀ j : Nat, j < 4 → magBit s x (4 * k + j) p = false) → visitColumn p (k, x) s = encodeDecision 17 false s)
        ∧ ∀ r : Nat, r < 4 → magBit s x (4 * k + r) p = true →
          (∀ j : Nat, j < r → magBit s x (4 * k + j) p = false) →
          visitColumn p (k, x) s =
            (encodeDecision 17 true s).bind fun _ t =>
              (encodeDecision 18 (decide (2 ≤ r)) t).bind fun _ t1 =>
                (encodeDecision 18 (decide (r % 2 = 1)) t1).bind fun _ t0 =>
                  (signify x (4 * k + r) p t0).bind fun _ u =>
                    forEach (fun j => visitCleanup p x (4 * k + j)) (List.range' (r + 1) (3 - r)) u)
    ∧ ∀ (s : State) (p k x : Nat), s.mode = .dec → runEligible k x s = true →
    let a := decodeDecision 17 s
    let r1 := decodeDecision 18 a.2
    let r0 := decodeDecision 18 r1.2
    let r := 2 * r1.1.toNat + r0.1.toNat
    (4 * k + 3 < s.h ∧ ∀ j : Nat, j < 4 →
        isSignificant s x (4 * k + j) = false ∧ isVisited s x (4 * k + j) = false ∧ neighbours s x (4 * k + j) = 0)
      ∧ (a.1 = false → visitColumn p (k, x) s = .done () a.2)
      ∧ (a.1 = true → visitColumn p (k, x) s =
          (signify x (4 * k + r) p r0.2).bind fun _ u =>
            forEach (fun j => visitCleanup p x (4 * k + j)) (List.range' (r + 1) (3 - r)) u)

/-! ## Host contract -/

/-- R202, R203, R205: a descriptor that breaks the contract, a corrupted code-block and one of 31 planes or more issue no
command: the block, the coefficient plane, the caller's buffer and the sink are as before; the results are
Failed(contract), Skipped and Failed(bit-depth), in that order. The contract is kept exactly under the conditions of R202;
that the last one counts the address `base` of the data, and that a chunk's buffer must hold its length, is the model's
choice (log entries 28 and 36). R215: a decoded code-block hands over the plane that stands in CP, W * H coefficients row by
row, to the buffer where there is one (a longer buffer keeps its rest: log entry 36); the sink gets at most one warning. -/
def Obligations.RejectedCodeBlocksLeaveTheBlock : Prop :=
  ∀ (d : CodeBlock) (base : Nat) (s : State),
    let total := (d.chunks.map fun c => c.length).sum
    (contractKept d base s.params = true ↔
      1 ≤ d.x1 - d.x0 ∧ 1 ≤ d.y1 - d.y0 ∧ d.x1 - d.x0 ≤ 1024 ∧ d.y1 - d.y0 ≤ 1024
        ∧ (d.x1 - d.x0) * (d.y1 - d.y0) ≤ s.params.maxarea
        ∧ (∀ g ∈ d.segments, 0 ≤ g.length ∧ 0 ≤ g.passCount)
        ∧ (∀ c ∈ d.chunks, 0 ≤ c.length ∧ c.length ≤ c.bytes.length)
        ∧ (d.segments.map fun g => g.length).sum ≤ total
        ∧ base + total + s.params.guardBytes ≤ s.params.cbsize)
      ∧ (contractKept d base s.params = false →
          decodeCodeBlock d base s = ⟨.failed .contract, d.coefficientPlane, d.destination, d.sink, s⟩)
      ∧ (contractKept d base s.params = true → d.corrupted = true →
          decodeCodeBlock d base s = ⟨.skipped, d.coefficientPlane, d.destination, d.sink, s⟩)
      ∧ (contractKept d base s.params = true → d.corrupted = false → 31 ≤ d.roiShift + d.numBitplanes →
          decodeCodeBlock d base s = ⟨.failed .bitDepth, d.coefficientPlane, d.destination, d.sink, s⟩)
      ∧ (d.roiShift + d.numBitplanes ≤ 30 → (decodeCodeBlock d base s).result ≠ .failed .bitDepth)
      ∧ ∀ o, decodeCodeBlock d base s = o → o.result = .decoded →
        o.coefficientPlane = (List.range (o.block.w * o.block.h)).map (fun n =>
            ⟨(o.block.cp.read n).getLsbD 31, (o.block.cp.read n).setWidth 31⟩)
          ∧ o.destination = d.destination.map (fun old => o.coefficientPlane ++ old.drop o.coefficientPlane.length)
          ∧ ∃ warnings : List SinkMessage, warnings.length ≤ 1 ∧ o.sink = d.sink.map (· ++ warnings)

/-- R208, R212, R217: the canonical order of the passes has `3 n - 2` passes, the first a cleanup pass, and ends where
the counter is 0; raw mode is selected from `numBitplanes - 4` on and never for a cleanup pass. -/
def Obligations.PassesFollowTheCanonicalCycle : Prop :=
  (∀ n : Nat, 1 ≤ n →
      (passesFrom (3 * n) ⟨2, n⟩).length = 3 * n - 2
        ∧ (passesFrom (3 * n) ⟨2, n⟩).head? = some ⟨2, n⟩
        ∧ ∀ m : Nat, m < 3 * n - 2 → (passesFrom (3 * n) ⟨2, n⟩)[m]? =
            some ⟨(m + 2) % 3, (n : Int) - ((m + 2) / 3 : Nat)⟩)
    ∧ (∀ (n : Int) (pos : PassPosition), rawSelected false n pos = false)
    ∧ ∀ (n b : Int) (t : Nat), rawSelected true n ⟨t, b⟩ = true ↔ t < 2 ∧ b ≤ n - 4

end
end

