-- ==== Sys2Proof/Laws/Memory.lean ====
section
/-! SUPPORT. The laws of the memories: a read after a write, a write leaves every other cell alone, clearing and
forgetting a range, and that every memory operation keeps the canonical form. -/

namespace Sys2Proof.Machine

variable {width : Nat}

/-! ## Lists of cells -/

@[simp] theorem Cells.find?_nil (a : Nat) : Cells.find? ([] : Cells width) a = none := rfl

@[simp] theorem Cells.find?_cons (b : Nat) (v : BitVec width) (m : Cells width) (a : Nat) :
    Cells.find? ((b, v) :: m) a = if a = b then some v else Cells.find? m a := rfl

theorem Cells.find?_put_self (m : Cells width) (a : Nat) (v : BitVec width) :
    (Cells.put m a v).find? a = some v := by
  induction m with
  | nil => simp [Cells.put]
  | cons e m ih =>
    obtain ⟨b, u⟩ := e
    simp only [Cells.put]
    split
    · simp
    · split <;> simp_all

theorem Cells.find?_put_other (m : Cells width) {a b : Nat} (v : BitVec width) (h : b ≠ a) :
    (Cells.put m a v).find? b = m.find? b := by
  induction m with
  | nil => simp [Cells.put, h]
  | cons e m ih =>
    obtain ⟨c, u⟩ := e
    simp only [Cells.put]
    split
    · simp [h]
    · split
      · rename_i hc; subst hc; simp [h]
      · simp [ih]

/-- Filtering by address keeps the cells of the addresses kept, and no other. -/
theorem Cells.find?_filter (m : Cells width) (keep : Nat → Bool) (a : Nat) :
    Cells.find? (m.filter fun e => keep e.1) a = if keep a then m.find? a else none := by
  induction m with
  | nil => simp
  | cons e m ih =>
    obtain ⟨b, v⟩ := e
    by_cases hb : keep b <;> by_cases hab : a = b <;> simp_all

theorem Cells.find?_drop (m : Cells width) (a b : Nat) :
    (m.drop a).find? b = if b = a then none else m.find? b := by
  have := Cells.find?_filter m (fun c => c != a) b
  simp only [Cells.drop, this, bne_iff_ne]
  by_cases h : b = a <;> simp [h]

theorem Cells.find?_dropRange (m : Cells width) (lo hi a : Nat) :
    (m.dropRange lo hi).find? a = if lo ≤ a ∧ a < hi then none else m.find? a := by
  have := Cells.find?_filter m (fun c => !(decide (lo ≤ c) && decide (c < hi))) a
  simp only [Cells.dropRange, this]
  by_cases h : lo ≤ a ∧ a < hi <;> simp [h]

/-- What a write of one cell leaves at every address. -/
theorem Cells.find?_write (m : Cells width) (a b : Nat) (v : BitVec width) :
    (m.write a v).find? b = if b = a then (if v = 0 then none else some v) else m.find? b := by
  unfold Cells.write
  split
  · simp [Cells.find?_drop]
  · by_cases h : b = a
    · subst h; simp [Cells.find?_put_self]
    · simp [h, Cells.find?_put_other]

/-- Read after write, and every other cell unchanged, for a memory without unspecified ranges. -/
@[simp] theorem Cells.read_write (m : Cells width) (a b : Nat) (v : BitVec width) :
    (m.write a v).read b = if b = a then v else m.read b := by
  unfold Cells.read
  rw [Cells.find?_write]
  by_cases h : b = a
  · by_cases hv : v = 0 <;> simp only [h, hv, if_true, if_false] <;> rfl
  · simp [h]

theorem Cells.mem_put {m : Cells width} {a : Nat} {v : BitVec width} {e : Nat × BitVec width}
    (h : e ∈ m.put a v) : e = (a, v) ∨ e ∈ m := by
  induction m with
  | nil => simp [Cells.put] at h; exact .inl h
  | cons f m ih =>
    obtain ⟨b, u⟩ := f
    simp only [Cells.put] at h
    split at h
    · simpa using h
    · split at h
      · rcases List.mem_cons.1 h with h | h
        · exact .inl h
        · exact .inr (List.mem_cons_of_mem _ h)
      · rcases List.mem_cons.1 h with h | h
        · exact .inr (h ▸ List.mem_cons_self ..)
        · exact (ih h).imp id (List.mem_cons_of_mem _)

theorem Cells.mem_write {m : Cells width} {a : Nat} {v : BitVec width} {e : Nat × BitVec width}
    (h : e ∈ m.write a v) : e = (a, v) ∨ (e ∈ m ∧ e.1 ≠ a) ∨ (e ∈ m ∧ v ≠ 0) := by
  unfold Cells.write at h
  split at h
  · simp only [Cells.drop, List.mem_filter, bne_iff_ne] at h
    exact .inr (.inl h)
  · rename_i hv
    exact (Cells.mem_put h).imp id fun h => .inr ⟨h, hv⟩

theorem Cells.wf_iff (m : Cells width) :
    m.wf = true ↔ (m.Pairwise fun e f => e.1 < f.1) ∧ ∀ e ∈ m, e.2 ≠ 0 := by
  simp [Cells.wf]

theorem Cells.rising_put {m : Cells width} (h : m.Pairwise fun e f => e.1 < f.1) (a : Nat) (v : BitVec width) :
    (m.put a v).Pairwise fun e f => e.1 < f.1 := by
  induction m with
  | nil => simp [Cells.put]
  | cons f m ih =>
    obtain ⟨b, u⟩ := f
    rw [List.pairwise_cons] at h
    simp only [Cells.put]
    split
    · rename_i hab
      refine List.pairwise_cons.2 ⟨?_, List.pairwise_cons.2 h⟩
      intro e he
      rcases List.mem_cons.1 he with he | he
      · subst he; exact hab
      · exact Nat.lt_trans hab (h.1 e he)
    · split
      · rename_i hab; subst hab
        exact List.pairwise_cons.2 ⟨h.1, h.2⟩
      · refine List.pairwise_cons.2 ⟨?_, ih h.2⟩
        intro e he
        rcases Cells.mem_put he with he | he
        · subst he; simp; omega
        · exact h.1 e he

/-- A write keeps the canonical form of a list of cells. -/
theorem Cells.wf_write {m : Cells width} (h : m.wf = true) (a : Nat) (v : BitVec width) :
    (m.write a v).wf = true := by
  rw [Cells.wf_iff] at h ⊢
  unfold Cells.write
  split
  · exact ⟨h.1.filter _, fun e he => h.2 e (List.mem_of_mem_filter he)⟩
  · rename_i hv
    refine ⟨Cells.rising_put h.1 a v, fun e he => ?_⟩
    rcases Cells.mem_put he with he | he
    · subst he; exact hv
    · exact h.2 e he

theorem Cells.wf_dropRange {m : Cells width} (h : m.wf = true) (lo hi : Nat) :
    (m.dropRange lo hi).wf = true := by
  rw [Cells.wf_iff] at h ⊢
  exact ⟨h.1.filter _, fun e he => h.2 e (List.mem_of_mem_filter he)⟩

/-! ## Unspecified ranges -/

theorem UnknownRange.mem_without {lo hi : Nat} {r q : UnknownRange} (h : q ∈ r.without lo hi) :
    r.lo ≤ q.lo ∧ q.hi ≤ r.hi ∧ q.lo < q.hi ∧ (q.hi ≤ lo ∨ hi ≤ q.lo) ∧ q.event = r.event := by
  simp only [UnknownRange.without, List.mem_filter, List.mem_cons, decide_eq_true_eq, List.not_mem_nil, or_false] at h
  obtain ⟨h | h, hlt⟩ := h <;> subst h <;> simp at hlt ⊢ <;> omega

/-- The parts left of a range cover what it covered, less the range taken out. -/
theorem UnknownRange.find?_without (lo hi a : Nat) (r : UnknownRange) :
    ((r.without lo hi).find? fun q => q.covers a).isSome = (r.covers a && !(decide (lo ≤ a) && decide (a < hi))) := by
  rw [Bool.eq_iff_iff, List.find?_isSome]
  simp only [UnknownRange.without, List.mem_filter, List.mem_cons, decide_eq_true_eq, List.not_mem_nil, or_false,
    UnknownRange.covers, Bool.and_eq_true, Bool.not_eq_true', Bool.and_eq_false_iff, decide_eq_false_iff_not]
  constructor
  · rintro ⟨q, ⟨h | h, hlt⟩, hq⟩ <;> subst h <;> simp at hlt hq ⊢ <;> omega
  · rintro ⟨⟨h1, h2⟩, h3⟩
    by_cases h : a < lo
    · exact ⟨_, ⟨.inl rfl, by simp; omega⟩, by simp; omega⟩
    · exact ⟨_, ⟨.inr rfl, by simp; omega⟩, by simp; omega⟩

/-- Which event left the cell unspecified, if one did. -/
theorem Memory.unknownAt_event_without (ranges : List UnknownRange) (lo hi a : Nat) :
    (((ranges.flatMap (UnknownRange.without lo hi)).find? fun q => q.covers a).map (·.event)) =
      if lo ≤ a ∧ a < hi then none else (ranges.find? fun q => q.covers a).map (·.event) := by
  induction ranges with
  | nil => simp
  | cons r ranges ih =>
    rw [List.flatMap_cons, List.find?_append]
    have hs := UnknownRange.find?_without lo hi a r
    cases hf : (r.without lo hi).find? (fun q => q.covers a) with
    | some q =>
      rw [hf] at hs
      have hq := UnknownRange.mem_without (List.mem_of_find?_eq_some hf)
      simp at hs
      simp only [List.find?_cons, hs.1]
      have : ¬ (lo ≤ a ∧ a < hi) := by omega
      simp [this, hq.2.2.2.2]
    | none =>
      rw [hf] at hs
      simp only [Option.none_or, ih, List.find?_cons]
      by_cases hin : lo ≤ a ∧ a < hi
      · simp [hin]
      · have : r.covers a = false := by
          cases hc : r.covers a with
          | false => rfl
          | true => simp [hc] at hs; omega
        simp [hin, this]

theorem UnknownRange.mem_insert {r q : UnknownRange} {ranges : List UnknownRange} :
    q ∈ r.insert ranges ↔ q = r ∨ q ∈ ranges := by
  induction ranges with
  | nil => simp [UnknownRange.insert]
  | cons s ranges ih =>
    simp only [UnknownRange.insert]
    split
    · simp
    · simp only [List.mem_cons, ih]; tauto

theorem UnknownRange.find?_insert (r : UnknownRange) (ranges : List UnknownRange) (a : Nat)
    (h : r.covers a = true → ∀ q ∈ ranges, q.covers a = false) :
    ((r.insert ranges).find? fun q => q.covers a) =
      if r.covers a then some r else ranges.find? fun q => q.covers a := by
  induction ranges with
  | nil => cases hc : r.covers a <;> simp [UnknownRange.insert, hc]
  | cons s ranges ih =>
    have ih := ih fun hc q hq => h hc q (List.mem_cons_of_mem _ hq)
    simp only [UnknownRange.insert]
    split
    · cases hc : r.covers a <;> simp [hc]
    · cases hc : r.covers a with
      | false => simp [List.find?_cons, ih, hc]
      | true =>
        have hs := h hc s (List.mem_cons_self ..)
        simp [hs, ih, hc]

/-! ## Memories -/

/-- What an unlisted cell reads as depends only on which event left it unspecified. -/
theorem Memory.unlisted_eq (m : Memory width) (a : Nat) :
    m.unlisted a = match (m.unknownAt a).map (·.event) with
      | some e => Config.freeCell width e a
      | none => 0 := by
  unfold Memory.unlisted
  cases m.unknownAt a <;> rfl

/-- Read after write, and every other cell unchanged. -/
@[simp] theorem Memory.read_write (m : Memory width) (a b : Nat) (v : BitVec width) :
    (m.write a v).read b = if b = a then v else m.read b := by
  have hu : ((m.write a v).unknownAt b).map (·.event) = if b = a then none else (m.unknownAt b).map (·.event) := by
    have := Memory.unknownAt_event_without m.unknown a (a + 1) b
    unfold Memory.unknownAt Memory.write
    rw [this]
    by_cases h : b = a
    · simp [h]
    · rw [if_neg (by omega), if_neg h]
  have hc : (m.write a v).cells.find? b = if b = a then (if v = 0 then none else some v) else m.cells.find? b :=
    Cells.find?_write ..
  unfold Memory.read
  rw [hc, Memory.unlisted_eq, hu, Memory.unlisted_eq]
  by_cases h : b = a
  · by_cases hv : v = 0 <;> simp only [h, hv, if_true, if_false] <;> rfl
  · simp [h]

/-- A cleared range reads 0, every other cell is unchanged. -/
theorem Memory.read_zeroRange (m : Memory width) (lo hi a : Nat) :
    (m.zeroRange lo hi).read a = if lo ≤ a ∧ a < hi then 0 else m.read a := by
  unfold Memory.zeroRange
  by_cases hlh : lo < hi
  · have hu := Memory.unknownAt_event_without m.unknown lo hi a
    simp only [hlh, if_true]
    unfold Memory.read
    rw [Memory.unlisted_eq, Memory.unlisted_eq]
    unfold Memory.unknownAt
    simp only [hu, Cells.find?_dropRange]
    by_cases h : lo ≤ a ∧ a < hi <;> simp [h]
  · have : ¬ (lo ≤ a ∧ a < hi) := by omega
    simp [hlh, this]

theorem UnknownRange.not_covers_of_mem_without {lo hi a : Nat} {ranges : List UnknownRange} {q : UnknownRange}
    (hq : q ∈ ranges.flatMap (UnknownRange.without lo hi)) (h : lo ≤ a ∧ a < hi) : q.covers a = false := by
  obtain ⟨r, _, hr⟩ := List.mem_flatMap.1 hq
  have := UnknownRange.mem_without hr
  simp [UnknownRange.covers]
  omega

/-- A forgotten range reads as the free values of its event, every other cell is unchanged. -/
theorem Memory.read_forget (m : Memory width) (lo hi event a : Nat) :
    (m.forget lo hi event).read a =
      if lo ≤ a ∧ a < hi then Config.freeCell width event a else m.read a := by
  unfold Memory.forget
  by_cases hlh : lo < hi
  · have hu := Memory.unknownAt_event_without m.unknown lo hi a
    simp only [hlh, if_true]
    unfold Memory.read
    rw [Memory.unlisted_eq, Memory.unlisted_eq]
    unfold Memory.unknownAt
    simp only [Cells.find?_dropRange]
    rw [UnknownRange.find?_insert]
    · by_cases h : lo ≤ a ∧ a < hi
      · simp [h, UnknownRange.covers]
      · have hc : UnknownRange.covers ⟨lo, hi, event⟩ a = false := by
          simp only [UnknownRange.covers, Bool.and_eq_false_iff, decide_eq_false_iff_not]; omega
        rw [if_neg h, hc, if_neg Bool.false_ne_true, hu, if_neg h, if_neg h]
    · intro hc q hq
      refine UnknownRange.not_covers_of_mem_without hq ?_
      simpa [UnknownRange.covers] using hc
  · have : ¬ (lo ≤ a ∧ a < hi) := by omega
    simp [hlh, this]

theorem Memory.unknownAt_eq_none (m : Memory width) (a : Nat) :
    m.unknownAt a = none ↔ ∀ r ∈ m.unknown, r.covers a = false := by
  simp [Memory.unknownAt]

/-- The canonical form in words. -/
theorem Memory.wf_iff (m : Memory width) :
    m.wf = true ↔ m.cells.wf = true ∧ (∀ e ∈ m.cells, ∀ r ∈ m.unknown, r.covers e.1 = false) ∧
      (∀ r ∈ m.unknown, r.lo < r.hi) ∧ (m.unknown.Pairwise fun r q => r.hi ≤ q.lo) ∧ m.journal = none := by
  simp only [Memory.wf, Bool.and_eq_true, List.all_eq_true, Option.isNone_iff_eq_none, decide_eq_true_eq,
    Memory.unknownAt_eq_none, and_assoc]

theorem UnknownRange.rising_without {lo hi : Nat} (hlh : lo ≤ hi) {ranges : List UnknownRange}
    (h : ranges.Pairwise fun r q => r.hi ≤ q.lo) :
    (ranges.flatMap (UnknownRange.without lo hi)).Pairwise fun r q => r.hi ≤ q.lo := by
  rw [List.pairwise_flatMap]
  constructor
  · intro r _
    refine List.Pairwise.filter _ ?_
    simp
    omega
  · refine h.imp ?_
    intro r q hrq p hp p' hp'
    have := UnknownRange.mem_without hp
    have := UnknownRange.mem_without hp'
    omega

theorem UnknownRange.rising_insert {r : UnknownRange} {ranges : List UnknownRange}
    (h : ranges.Pairwise fun p q => p.hi ≤ q.lo) (hlt : ∀ q ∈ ranges, q.lo < q.hi) (hr : r.lo < r.hi)
    (hd : ∀ q ∈ ranges, q.hi ≤ r.lo ∨ r.hi ≤ q.lo) : (r.insert ranges).Pairwise fun p q => p.hi ≤ q.lo := by
  induction ranges with
  | nil => simp [UnknownRange.insert]
  | cons s ranges ih =>
    rw [List.pairwise_cons] at h
    have hs := hd s (List.mem_cons_self ..)
    have hs' := hlt s (List.mem_cons_self ..)
    simp only [UnknownRange.insert]
    split
    · refine List.pairwise_cons.2 ⟨?_, List.pairwise_cons.2 h⟩
      intro q hq
      rcases List.mem_cons.1 hq with hq | hq
      · subst hq; omega
      · have := h.1 q hq; omega
    · refine List.pairwise_cons.2 ⟨?_, ih h.2 (fun q hq => hlt q (List.mem_cons_of_mem _ hq))
        (fun q hq => hd q (List.mem_cons_of_mem _ hq))⟩
      intro q hq
      rcases UnknownRange.mem_insert.1 hq with hq | hq
      · subst hq; omega
      · exact h.1 q hq

/-- A write keeps the canonical form. -/
theorem Memory.wf_write {m : Memory width} (h : m.wf = true) (a : Nat) (v : BitVec width) :
    (m.write a v).wf = true := by
  rw [Memory.wf_iff] at h ⊢
  obtain ⟨hc, hu, hn, hr, hj⟩ := h
  refine ⟨Cells.wf_write hc a v, ?_, ?_, UnknownRange.rising_without (Nat.le_succ a) hr, by
    simp [Memory.write, Memory.note, hj]⟩
  · intro e he q hq
    obtain ⟨r, hrm, hqr⟩ := List.mem_flatMap.1 hq
    have hw := UnknownRange.mem_without hqr
    rcases Cells.mem_write he with he | ⟨he, _⟩ | ⟨he, _⟩
    · subst he; simp [UnknownRange.covers]; omega
    all_goals
      have := hu e he r hrm
      simp [UnknownRange.covers] at this ⊢
      omega
  · intro q hq
    obtain ⟨r, _, hqr⟩ := List.mem_flatMap.1 hq
    exact (UnknownRange.mem_without hqr).2.2.1

theorem Cells.mem_dropRange {m : Cells width} {lo hi : Nat} {e : Nat × BitVec width} (h : e ∈ m.dropRange lo hi) :
    e ∈ m ∧ ¬ (lo ≤ e.1 ∧ e.1 < hi) := by
  simp [Cells.dropRange] at h
  exact ⟨h.1, by omega⟩

/-- Clearing a range keeps the canonical form. -/
theorem Memory.wf_zeroRange {m : Memory width} (h : m.wf = true) (lo hi : Nat) : (m.zeroRange lo hi).wf = true := by
  unfold Memory.zeroRange
  split
  · rename_i hlh
    rw [Memory.wf_iff] at h ⊢
    obtain ⟨hc, hu, hn, hr, hj⟩ := h
    refine ⟨Cells.wf_dropRange hc lo hi, ?_, ?_, UnknownRange.rising_without (Nat.le_of_lt hlh) hr, by
      simp [Memory.note, hj]⟩
    · intro e he q hq
      obtain ⟨r, hrm, hqr⟩ := List.mem_flatMap.1 hq
      have hw := UnknownRange.mem_without hqr
      have := hu e (Cells.mem_dropRange he).1 r hrm
      simp [UnknownRange.covers] at this ⊢
      omega
    · intro q hq
      obtain ⟨r, _, hqr⟩ := List.mem_flatMap.1 hq
      exact (UnknownRange.mem_without hqr).2.2.1
  · exact h

/-- Forgetting a range keeps the canonical form. -/
theorem Memory.wf_forget {m : Memory width} (h : m.wf = true) (lo hi event : Nat) :
    (m.forget lo hi event).wf = true := by
  unfold Memory.forget
  split
  · rename_i hlh
    rw [Memory.wf_iff] at h ⊢
    obtain ⟨hc, hu, hn, hr, hj⟩ := h
    have hpart : ∀ q ∈ m.unknown.flatMap (UnknownRange.without lo hi),
        ∃ r ∈ m.unknown, r.lo ≤ q.lo ∧ q.hi ≤ r.hi ∧ q.lo < q.hi ∧ (q.hi ≤ lo ∨ hi ≤ q.lo) := by
      intro q hq
      obtain ⟨r, hrm, hqr⟩ := List.mem_flatMap.1 hq
      have := UnknownRange.mem_without hqr
      exact ⟨r, hrm, this.1, this.2.1, this.2.2.1, this.2.2.2.1⟩
    refine ⟨Cells.wf_dropRange hc lo hi, ?_, ?_, ?_, hj⟩
    · intro e he q hq
      have hd := Cells.mem_dropRange he
      rcases UnknownRange.mem_insert.1 hq with hq | hq
      · subst hq; simp [UnknownRange.covers]; omega
      · obtain ⟨r, hrm, hw⟩ := hpart q hq
        have := hu e hd.1 r hrm
        simp [UnknownRange.covers] at this ⊢
        omega
    · intro q hq
      rcases UnknownRange.mem_insert.1 hq with hq | hq
      · subst hq; exact hlh
      · obtain ⟨r, _, hw⟩ := hpart q hq
        exact hw.2.2.1
    · refine UnknownRange.rising_insert (UnknownRange.rising_without (Nat.le_of_lt hlh) hr) ?_ hlh ?_
      · intro q hq
        obtain ⟨r, _, hw⟩ := hpart q hq
        exact hw.2.2.1
      · intro q hq
        obtain ⟨r, _, hw⟩ := hpart q hq
        exact hw.2.2.2
  · exact h

/-! ## Recording -/

@[simp] theorem Memory.read_record (m : Memory width) (a : Nat) : m.record.read a = m.read a := rfl

@[simp] theorem Memory.recorded_record (m : Memory width) : m.record.recorded = [] := rfl

/-- A recorded memory notes each write, in order. -/
theorem Memory.recorded_write {m : Memory width} {ws : List (Nat × BitVec width)} (h : m.journal = some ws) (a : Nat)
    (v : BitVec width) : (m.write a v).recorded = m.recorded ++ [(a, v)] := by
  simp [Memory.recorded, Memory.write, Memory.note, h]

/-- A recorded memory notes a cleared range cell by cell, in rising order. -/
theorem Memory.recorded_zeroRange {m : Memory width} {ws : List (Nat × BitVec width)} (h : m.journal = some ws)
    (lo hi : Nat) :
    (m.zeroRange lo hi).recorded = m.recorded ++ (List.range' lo (hi - lo)).map fun a => (a, 0) := by
  unfold Memory.zeroRange
  split
  · simp [Memory.recorded, Memory.note, h]
  · have : hi - lo = 0 := by omega
    simp [this]

/-- A cell that none of the writes names is unchanged. -/
theorem Memory.read_writeAll_other {ws : List (Nat × BitVec width)} (m : Memory width) {a : Nat}
    (h : ∀ w ∈ ws, w.1 ≠ a) : (Memory.writeAll ws m).read a = m.read a := by
  induction ws generalizing m with
  | nil => rfl
  | cons w ws ih =>
    have hw := h w (List.mem_cons_self ..)
    simp only [Memory.writeAll]
    rw [ih _ fun w hw => h w (List.mem_cons_of_mem _ hw), Memory.read_write, if_neg (Ne.symm hw)]

/-- A cell that the writes name, always with the same value, has that value. -/
theorem Memory.read_writeAll_mem {ws : List (Nat × BitVec width)} (m : Memory width) {a : Nat} {v : BitVec width}
    (ha : (a, v) ∈ ws) (h : ∀ w ∈ ws, w.1 = a → w.2 = v) : (Memory.writeAll ws m).read a = v := by
  induction ws generalizing m with
  | nil => simp at ha
  | cons w ws ih =>
    simp only [Memory.writeAll]
    by_cases hm : (a, v) ∈ ws
    · exact ih _ hm fun w hw => h w (List.mem_cons_of_mem _ hw)
    · obtain rfl : (a, v) = w := (List.mem_cons.1 ha).resolve_right hm
      rw [Memory.read_writeAll_other, Memory.read_write, if_pos rfl]
      intro w hw hwa
      have := h w (List.mem_cons_of_mem _ hw) hwa
      exact hm (by rw [← hwa, ← this]; exact hw)

/-- Writes keep the canonical form. -/
theorem Memory.wf_writeAll {m : Memory width} (h : m.wf = true) (ws : List (Nat × BitVec width)) :
    (Memory.writeAll ws m).wf = true := by
  induction ws generalizing m with
  | nil => exact h
  | cons w ws ih => exact ih (Memory.wf_write h ..)

@[simp] theorem Memory.wf_empty : (Memory.empty width).wf = true := by
  simp [Memory.wf_iff, Memory.empty, Cells.wf_iff]

/-- The memories of the state after reset have the canonical form. -/
theorem State.resetWith_memories_wf (p : Params) :
    (State.resetWith p).cb.wf = true ∧ (State.resetWith p).cp.wf = true ∧ (State.resetWith p).fp.wf = true :=
  ⟨Memory.wf_empty, Memory.wf_empty, (by decide : Cells.wf ([] : Cells 4) = true)⟩

end Sys2Proof.Machine
end

