-- ==== Sys2Proof/Laws/State.lean ====
section
/-! SUPPORT. Every field of the state after every named update of `Machine/Updates.lean`: the updated fields hold what was
written, all others what they held. -/

namespace Sys2Proof.Machine

@[simp] theorem State.setInbox_params (s : State) (inbox' : List HostAction) :
    (s.setInbox inbox').params = s.params := rfl
@[simp] theorem State.setInbox_inbox (s : State) (inbox' : List HostAction) :
    (s.setInbox inbox').inbox = inbox' := rfl
@[simp] theorem State.setInbox_response (s : State) (inbox' : List HostAction) :
    (s.setInbox inbox').response = s.response := rfl
@[simp] theorem State.setInbox_mode (s : State) (inbox' : List HostAction) :
    (s.setInbox inbox').mode = s.mode := rfl
@[simp] theorem State.setInbox_geomv (s : State) (inbox' : List HostAction) :
    (s.setInbox inbox').geomv = s.geomv := rfl
@[simp] theorem State.setInbox_errs (s : State) (inbox' : List HostAction) :
    (s.setInbox inbox').errs = s.errs := rfl
@[simp] theorem State.setInbox_wslack (s : State) (inbox' : List HostAction) :
    (s.setInbox inbox').wslack = s.wslack := rfl
@[simp] theorem State.setInbox_wmark (s : State) (inbox' : List HostAction) :
    (s.setInbox inbox').wmark = s.wmark := rfl
@[simp] theorem State.setInbox_segbase (s : State) (inbox' : List HostAction) :
    (s.setInbox inbox').segbase = s.segbase := rfl
@[simp] theorem State.setInbox_seglen (s : State) (inbox' : List HostAction) :
    (s.setInbox inbox').seglen = s.seglen := rfl
@[simp] theorem State.setInbox_a (s : State) (inbox' : List HostAction) :
    (s.setInbox inbox').a = s.a := rfl
@[simp] theorem State.setInbox_c (s : State) (inbox' : List HostAction) :
    (s.setInbox inbox').c = s.c := rfl
@[simp] theorem State.setInbox_ct (s : State) (inbox' : List HostAction) :
    (s.setInbox inbox').ct = s.ct := rfl
@[simp] theorem State.setInbox_bp (s : State) (inbox' : List HostAction) :
    (s.setInbox inbox').bp = s.bp := rfl
@[simp] theorem State.setInbox_startAddr (s : State) (inbox' : List HostAction) :
    (s.setInbox inbox').startAddr = s.startAddr := rfl
@[simp] theorem State.setInbox_endAddr (s : State) (inbox' : List HostAction) :
    (s.setInbox inbox').endAddr = s.endAddr := rfl
@[simp] theorem State.setInbox_eoscnt (s : State) (inbox' : List HostAction) :
    (s.setInbox inbox').eoscnt = s.eoscnt := rfl
@[simp] theorem State.setInbox_rb (s : State) (inbox' : List HostAction) :
    (s.setInbox inbox').rb = s.rb := rfl
@[simp] theorem State.setInbox_rct (s : State) (inbox' : List HostAction) :
    (s.setInbox inbox').rct = s.rct := rfl
@[simp] theorem State.setInbox_lastff (s : State) (inbox' : List HostAction) :
    (s.setInbox inbox').lastff = s.lastff := rfl
@[simp] theorem State.setInbox_cx (s : State) (inbox' : List HostAction) :
    (s.setInbox inbox').cx = s.cx := rfl
@[simp] theorem State.setInbox_w (s : State) (inbox' : List HostAction) :
    (s.setInbox inbox').w = s.w := rfl
@[simp] theorem State.setInbox_h (s : State) (inbox' : List HostAction) :
    (s.setInbox inbox').h = s.h := rfl
@[simp] theorem State.setInbox_orient (s : State) (inbox' : List HostAction) :
    (s.setInbox inbox').orient = s.orient := rfl
@[simp] theorem State.setInbox_fp (s : State) (inbox' : List HostAction) :
    (s.setInbox inbox').fp = s.fp := rfl
@[simp] theorem State.setInbox_cp (s : State) (inbox' : List HostAction) :
    (s.setInbox inbox').cp = s.cp := rfl
@[simp] theorem State.setInbox_cb (s : State) (inbox' : List HostAction) :
    (s.setInbox inbox').cb = s.cb := rfl
@[simp] theorem State.setInbox_unspec (s : State) (inbox' : List HostAction) :
    (s.setInbox inbox').unspec = s.unspec := rfl
@[simp] theorem State.setInbox_draws (s : State) (inbox' : List HostAction) :
    (s.setInbox inbox').draws = s.draws := rfl

@[simp] theorem State.setResponse_params (s : State) (response' : Option Response) :
    (s.setResponse response').params = s.params := rfl
@[simp] theorem State.setResponse_inbox (s : State) (response' : Option Response) :
    (s.setResponse response').inbox = s.inbox := rfl
@[simp] theorem State.setResponse_response (s : State) (response' : Option Response) :
    (s.setResponse response').response = response' := rfl
@[simp] theorem State.setResponse_mode (s : State) (response' : Option Response) :
    (s.setResponse response').mode = s.mode := rfl
@[simp] theorem State.setResponse_geomv (s : State) (response' : Option Response) :
    (s.setResponse response').geomv = s.geomv := rfl
@[simp] theorem State.setResponse_errs (s : State) (response' : Option Response) :
    (s.setResponse response').errs = s.errs := rfl
@[simp] theorem State.setResponse_wslack (s : State) (response' : Option Response) :
    (s.setResponse response').wslack = s.wslack := rfl
@[simp] theorem State.setResponse_wmark (s : State) (response' : Option Response) :
    (s.setResponse response').wmark = s.wmark := rfl
@[simp] theorem State.setResponse_segbase (s : State) (response' : Option Response) :
    (s.setResponse response').segbase = s.segbase := rfl
@[simp] theorem State.setResponse_seglen (s : State) (response' : Option Response) :
    (s.setResponse response').seglen = s.seglen := rfl
@[simp] theorem State.setResponse_a (s : State) (response' : Option Response) :
    (s.setResponse response').a = s.a := rfl
@[simp] theorem State.setResponse_c (s : State) (response' : Option Response) :
    (s.setResponse response').c = s.c := rfl
@[simp] theorem State.setResponse_ct (s : State) (response' : Option Response) :
    (s.setResponse response').ct = s.ct := rfl
@[simp] theorem State.setResponse_bp (s : State) (response' : Option Response) :
    (s.setResponse response').bp = s.bp := rfl
@[simp] theorem State.setResponse_startAddr (s : State) (response' : Option Response) :
    (s.setResponse response').startAddr = s.startAddr := rfl
@[simp] theorem State.setResponse_endAddr (s : State) (response' : Option Response) :
    (s.setResponse response').endAddr = s.endAddr := rfl
@[simp] theorem State.setResponse_eoscnt (s : State) (response' : Option Response) :
    (s.setResponse response').eoscnt = s.eoscnt := rfl
@[simp] theorem State.setResponse_rb (s : State) (response' : Option Response) :
    (s.setResponse response').rb = s.rb := rfl
@[simp] theorem State.setResponse_rct (s : State) (response' : Option Response) :
    (s.setResponse response').rct = s.rct := rfl
@[simp] theorem State.setResponse_lastff (s : State) (response' : Option Response) :
    (s.setResponse response').lastff = s.lastff := rfl
@[simp] theorem State.setResponse_cx (s : State) (response' : Option Response) :
    (s.setResponse response').cx = s.cx := rfl
@[simp] theorem State.setResponse_w (s : State) (response' : Option Response) :
    (s.setResponse response').w = s.w := rfl
@[simp] theorem State.setResponse_h (s : State) (response' : Option Response) :
    (s.setResponse response').h = s.h := rfl
@[simp] theorem State.setResponse_orient (s : State) (response' : Option Response) :
    (s.setResponse response').orient = s.orient := rfl
@[simp] theorem State.setResponse_fp (s : State) (response' : Option Response) :
    (s.setResponse response').fp = s.fp := rfl
@[simp] theorem State.setResponse_cp (s : State) (response' : Option Response) :
    (s.setResponse response').cp = s.cp := rfl
@[simp] theorem State.setResponse_cb (s : State) (response' : Option Response) :
    (s.setResponse response').cb = s.cb := rfl
@[simp] theorem State.setResponse_unspec (s : State) (response' : Option Response) :
    (s.setResponse response').unspec = s.unspec := rfl
@[simp] theorem State.setResponse_draws (s : State) (response' : Option Response) :
    (s.setResponse response').draws = s.draws := rfl

@[simp] theorem State.setMode_params (s : State) (mode' : Mode) :
    (s.setMode mode').params = s.params := rfl
@[simp] theorem State.setMode_inbox (s : State) (mode' : Mode) :
    (s.setMode mode').inbox = s.inbox := rfl
@[simp] theorem State.setMode_response (s : State) (mode' : Mode) :
    (s.setMode mode').response = s.response := rfl
@[simp] theorem State.setMode_mode (s : State) (mode' : Mode) :
    (s.setMode mode').mode = mode' := rfl
@[simp] theorem State.setMode_geomv (s : State) (mode' : Mode) :
    (s.setMode mode').geomv = s.geomv := rfl
@[simp] theorem State.setMode_errs (s : State) (mode' : Mode) :
    (s.setMode mode').errs = s.errs := rfl
@[simp] theorem State.setMode_wslack (s : State) (mode' : Mode) :
    (s.setMode mode').wslack = s.wslack := rfl
@[simp] theorem State.setMode_wmark (s : State) (mode' : Mode) :
    (s.setMode mode').wmark = s.wmark := rfl
@[simp] theorem State.setMode_segbase (s : State) (mode' : Mode) :
    (s.setMode mode').segbase = s.segbase := rfl
@[simp] theorem State.setMode_seglen (s : State) (mode' : Mode) :
    (s.setMode mode').seglen = s.seglen := rfl
@[simp] theorem State.setMode_a (s : State) (mode' : Mode) :
    (s.setMode mode').a = s.a := rfl
@[simp] theorem State.setMode_c (s : State) (mode' : Mode) :
    (s.setMode mode').c = s.c := rfl
@[simp] theorem State.setMode_ct (s : State) (mode' : Mode) :
    (s.setMode mode').ct = s.ct := rfl
@[simp] theorem State.setMode_bp (s : State) (mode' : Mode) :
    (s.setMode mode').bp = s.bp := rfl
@[simp] theorem State.setMode_startAddr (s : State) (mode' : Mode) :
    (s.setMode mode').startAddr = s.startAddr := rfl
@[simp] theorem State.setMode_endAddr (s : State) (mode' : Mode) :
    (s.setMode mode').endAddr = s.endAddr := rfl
@[simp] theorem State.setMode_eoscnt (s : State) (mode' : Mode) :
    (s.setMode mode').eoscnt = s.eoscnt := rfl
@[simp] theorem State.setMode_rb (s : State) (mode' : Mode) :
    (s.setMode mode').rb = s.rb := rfl
@[simp] theorem State.setMode_rct (s : State) (mode' : Mode) :
    (s.setMode mode').rct = s.rct := rfl
@[simp] theorem State.setMode_lastff (s : State) (mode' : Mode) :
    (s.setMode mode').lastff = s.lastff := rfl
@[simp] theorem State.setMode_cx (s : State) (mode' : Mode) :
    (s.setMode mode').cx = s.cx := rfl
@[simp] theorem State.setMode_w (s : State) (mode' : Mode) :
    (s.setMode mode').w = s.w := rfl
@[simp] theorem State.setMode_h (s : State) (mode' : Mode) :
    (s.setMode mode').h = s.h := rfl
@[simp] theorem State.setMode_orient (s : State) (mode' : Mode) :
    (s.setMode mode').orient = s.orient := rfl
@[simp] theorem State.setMode_fp (s : State) (mode' : Mode) :
    (s.setMode mode').fp = s.fp := rfl
@[simp] theorem State.setMode_cp (s : State) (mode' : Mode) :
    (s.setMode mode').cp = s.cp := rfl
@[simp] theorem State.setMode_cb (s : State) (mode' : Mode) :
    (s.setMode mode').cb = s.cb := rfl
@[simp] theorem State.setMode_unspec (s : State) (mode' : Mode) :
    (s.setMode mode').unspec = s.unspec := rfl
@[simp] theorem State.setMode_draws (s : State) (mode' : Mode) :
    (s.setMode mode').draws = s.draws := rfl

@[simp] theorem State.setGeomv_params (s : State) (geomv' : Bool) :
    (s.setGeomv geomv').params = s.params := rfl
@[simp] theorem State.setGeomv_inbox (s : State) (geomv' : Bool) :
    (s.setGeomv geomv').inbox = s.inbox := rfl
@[simp] theorem State.setGeomv_response (s : State) (geomv' : Bool) :
    (s.setGeomv geomv').response = s.response := rfl
@[simp] theorem State.setGeomv_mode (s : State) (geomv' : Bool) :
    (s.setGeomv geomv').mode = s.mode := rfl
@[simp] theorem State.setGeomv_geomv (s : State) (geomv' : Bool) :
    (s.setGeomv geomv').geomv = geomv' := rfl
@[simp] theorem State.setGeomv_errs (s : State) (geomv' : Bool) :
    (s.setGeomv geomv').errs = s.errs := rfl
@[simp] theorem State.setGeomv_wslack (s : State) (geomv' : Bool) :
    (s.setGeomv geomv').wslack = s.wslack := rfl
@[simp] theorem State.setGeomv_wmark (s : State) (geomv' : Bool) :
    (s.setGeomv geomv').wmark = s.wmark := rfl
@[simp] theorem State.setGeomv_segbase (s : State) (geomv' : Bool) :
    (s.setGeomv geomv').segbase = s.segbase := rfl
@[simp] theorem State.setGeomv_seglen (s : State) (geomv' : Bool) :
    (s.setGeomv geomv').seglen = s.seglen := rfl
@[simp] theorem State.setGeomv_a (s : State) (geomv' : Bool) :
    (s.setGeomv geomv').a = s.a := rfl
@[simp] theorem State.setGeomv_c (s : State) (geomv' : Bool) :
    (s.setGeomv geomv').c = s.c := rfl
@[simp] theorem State.setGeomv_ct (s : State) (geomv' : Bool) :
    (s.setGeomv geomv').ct = s.ct := rfl
@[simp] theorem State.setGeomv_bp (s : State) (geomv' : Bool) :
    (s.setGeomv geomv').bp = s.bp := rfl
@[simp] theorem State.setGeomv_startAddr (s : State) (geomv' : Bool) :
    (s.setGeomv geomv').startAddr = s.startAddr := rfl
@[simp] theorem State.setGeomv_endAddr (s : State) (geomv' : Bool) :
    (s.setGeomv geomv').endAddr = s.endAddr := rfl
@[simp] theorem State.setGeomv_eoscnt (s : State) (geomv' : Bool) :
    (s.setGeomv geomv').eoscnt = s.eoscnt := rfl
@[simp] theorem State.setGeomv_rb (s : State) (geomv' : Bool) :
    (s.setGeomv geomv').rb = s.rb := rfl
@[simp] theorem State.setGeomv_rct (s : State) (geomv' : Bool) :
    (s.setGeomv geomv').rct = s.rct := rfl
@[simp] theorem State.setGeomv_lastff (s : State) (geomv' : Bool) :
    (s.setGeomv geomv').lastff = s.lastff := rfl
@[simp] theorem State.setGeomv_cx (s : State) (geomv' : Bool) :
    (s.setGeomv geomv').cx = s.cx := rfl
@[simp] theorem State.setGeomv_w (s : State) (geomv' : Bool) :
    (s.setGeomv geomv').w = s.w := rfl
@[simp] theorem State.setGeomv_h (s : State) (geomv' : Bool) :
    (s.setGeomv geomv').h = s.h := rfl
@[simp] theorem State.setGeomv_orient (s : State) (geomv' : Bool) :
    (s.setGeomv geomv').orient = s.orient := rfl
@[simp] theorem State.setGeomv_fp (s : State) (geomv' : Bool) :
    (s.setGeomv geomv').fp = s.fp := rfl
@[simp] theorem State.setGeomv_cp (s : State) (geomv' : Bool) :
    (s.setGeomv geomv').cp = s.cp := rfl
@[simp] theorem State.setGeomv_cb (s : State) (geomv' : Bool) :
    (s.setGeomv geomv').cb = s.cb := rfl
@[simp] theorem State.setGeomv_unspec (s : State) (geomv' : Bool) :
    (s.setGeomv geomv').unspec = s.unspec := rfl
@[simp] theorem State.setGeomv_draws (s : State) (geomv' : Bool) :
    (s.setGeomv geomv').draws = s.draws := rfl

@[simp] theorem State.setErrs_params (s : State) (errs' : BitVec 8) :
    (s.setErrs errs').params = s.params := rfl
@[simp] theorem State.setErrs_inbox (s : State) (errs' : BitVec 8) :
    (s.setErrs errs').inbox = s.inbox := rfl
@[simp] theorem State.setErrs_response (s : State) (errs' : BitVec 8) :
    (s.setErrs errs').response = s.response := rfl
@[simp] theorem State.setErrs_mode (s : State) (errs' : BitVec 8) :
    (s.setErrs errs').mode = s.mode := rfl
@[simp] theorem State.setErrs_geomv (s : State) (errs' : BitVec 8) :
    (s.setErrs errs').geomv = s.geomv := rfl
@[simp] theorem State.setErrs_errs (s : State) (errs' : BitVec 8) :
    (s.setErrs errs').errs = errs' := rfl
@[simp] theorem State.setErrs_wslack (s : State) (errs' : BitVec 8) :
    (s.setErrs errs').wslack = s.wslack := rfl
@[simp] theorem State.setErrs_wmark (s : State) (errs' : BitVec 8) :
    (s.setErrs errs').wmark = s.wmark := rfl
@[simp] theorem State.setErrs_segbase (s : State) (errs' : BitVec 8) :
    (s.setErrs errs').segbase = s.segbase := rfl
@[simp] theorem State.setErrs_seglen (s : State) (errs' : BitVec 8) :
    (s.setErrs errs').seglen = s.seglen := rfl
@[simp] theorem State.setErrs_a (s : State) (errs' : BitVec 8) :
    (s.setErrs errs').a = s.a := rfl
@[simp] theorem State.setErrs_c (s : State) (errs' : BitVec 8) :
    (s.setErrs errs').c = s.c := rfl
@[simp] theorem State.setErrs_ct (s : State) (errs' : BitVec 8) :
    (s.setErrs errs').ct = s.ct := rfl
@[simp] theorem State.setErrs_bp (s : State) (errs' : BitVec 8) :
    (s.setErrs errs').bp = s.bp := rfl
@[simp] theorem State.setErrs_startAddr (s : State) (errs' : BitVec 8) :
    (s.setErrs errs').startAddr = s.startAddr := rfl
@[simp] theorem State.setErrs_endAddr (s : State) (errs' : BitVec 8) :
    (s.setErrs errs').endAddr = s.endAddr := rfl
@[simp] theorem State.setErrs_eoscnt (s : State) (errs' : BitVec 8) :
    (s.setErrs errs').eoscnt = s.eoscnt := rfl
@[simp] theorem State.setErrs_rb (s : State) (errs' : BitVec 8) :
    (s.setErrs errs').rb = s.rb := rfl
@[simp] theorem State.setErrs_rct (s : State) (errs' : BitVec 8) :
    (s.setErrs errs').rct = s.rct := rfl
@[simp] theorem State.setErrs_lastff (s : State) (errs' : BitVec 8) :
    (s.setErrs errs').lastff = s.lastff := rfl
@[simp] theorem State.setErrs_cx (s : State) (errs' : BitVec 8) :
    (s.setErrs errs').cx = s.cx := rfl
@[simp] theorem State.setErrs_w (s : State) (errs' : BitVec 8) :
    (s.setErrs errs').w = s.w := rfl
@[simp] theorem State.setErrs_h (s : State) (errs' : BitVec 8) :
    (s.setErrs errs').h = s.h := rfl
@[simp] theorem State.setErrs_orient (s : State) (errs' : BitVec 8) :
    (s.setErrs errs').orient = s.orient := rfl
@[simp] theorem State.setErrs_fp (s : State) (errs' : BitVec 8) :
    (s.setErrs errs').fp = s.fp := rfl
@[simp] theorem State.setErrs_cp (s : State) (errs' : BitVec 8) :
    (s.setErrs errs').cp = s.cp := rfl
@[simp] theorem State.setErrs_cb (s : State) (errs' : BitVec 8) :
    (s.setErrs errs').cb = s.cb := rfl
@[simp] theorem State.setErrs_unspec (s : State) (errs' : BitVec 8) :
    (s.setErrs errs').unspec = s.unspec := rfl
@[simp] theorem State.setErrs_draws (s : State) (errs' : BitVec 8) :
    (s.setErrs errs').draws = s.draws := rfl

@[simp] theorem State.setWslack_params (s : State) (wslack' : Bool) :
    (s.setWslack wslack').params = s.params := rfl
@[simp] theorem State.setWslack_inbox (s : State) (wslack' : Bool) :
    (s.setWslack wslack').inbox = s.inbox := rfl
@[simp] theorem State.setWslack_response (s : State) (wslack' : Bool) :
    (s.setWslack wslack').response = s.response := rfl
@[simp] theorem State.setWslack_mode (s : State) (wslack' : Bool) :
    (s.setWslack wslack').mode = s.mode := rfl
@[simp] theorem State.setWslack_geomv (s : State) (wslack' : Bool) :
    (s.setWslack wslack').geomv = s.geomv := rfl
@[simp] theorem State.setWslack_errs (s : State) (wslack' : Bool) :
    (s.setWslack wslack').errs = s.errs := rfl
@[simp] theorem State.setWslack_wslack (s : State) (wslack' : Bool) :
    (s.setWslack wslack').wslack = wslack' := rfl
@[simp] theorem State.setWslack_wmark (s : State) (wslack' : Bool) :
    (s.setWslack wslack').wmark = s.wmark := rfl
@[simp] theorem State.setWslack_segbase (s : State) (wslack' : Bool) :
    (s.setWslack wslack').segbase = s.segbase := rfl
@[simp] theorem State.setWslack_seglen (s : State) (wslack' : Bool) :
    (s.setWslack wslack').seglen = s.seglen := rfl
@[simp] theorem State.setWslack_a (s : State) (wslack' : Bool) :
    (s.setWslack wslack').a = s.a := rfl
@[simp] theorem State.setWslack_c (s : State) (wslack' : Bool) :
    (s.setWslack wslack').c = s.c := rfl
@[simp] theorem State.setWslack_ct (s : State) (wslack' : Bool) :
    (s.setWslack wslack').ct = s.ct := rfl
@[simp] theorem State.setWslack_bp (s : State) (wslack' : Bool) :
    (s.setWslack wslack').bp = s.bp := rfl
@[simp] theorem State.setWslack_startAddr (s : State) (wslack' : Bool) :
    (s.setWslack wslack').startAddr = s.startAddr := rfl
@[simp] theorem State.setWslack_endAddr (s : State) (wslack' : Bool) :
    (s.setWslack wslack').endAddr = s.endAddr := rfl
@[simp] theorem State.setWslack_eoscnt (s : State) (wslack' : Bool) :
    (s.setWslack wslack').eoscnt = s.eoscnt := rfl
@[simp] theorem State.setWslack_rb (s : State) (wslack' : Bool) :
    (s.setWslack wslack').rb = s.rb := rfl
@[simp] theorem State.setWslack_rct (s : State) (wslack' : Bool) :
    (s.setWslack wslack').rct = s.rct := rfl
@[simp] theorem State.setWslack_lastff (s : State) (wslack' : Bool) :
    (s.setWslack wslack').lastff = s.lastff := rfl
@[simp] theorem State.setWslack_cx (s : State) (wslack' : Bool) :
    (s.setWslack wslack').cx = s.cx := rfl
@[simp] theorem State.setWslack_w (s : State) (wslack' : Bool) :
    (s.setWslack wslack').w = s.w := rfl
@[simp] theorem State.setWslack_h (s : State) (wslack' : Bool) :
    (s.setWslack wslack').h = s.h := rfl
@[simp] theorem State.setWslack_orient (s : State) (wslack' : Bool) :
    (s.setWslack wslack').orient = s.orient := rfl
@[simp] theorem State.setWslack_fp (s : State) (wslack' : Bool) :
    (s.setWslack wslack').fp = s.fp := rfl
@[simp] theorem State.setWslack_cp (s : State) (wslack' : Bool) :
    (s.setWslack wslack').cp = s.cp := rfl
@[simp] theorem State.setWslack_cb (s : State) (wslack' : Bool) :
    (s.setWslack wslack').cb = s.cb := rfl
@[simp] theorem State.setWslack_unspec (s : State) (wslack' : Bool) :
    (s.setWslack wslack').unspec = s.unspec := rfl
@[simp] theorem State.setWslack_draws (s : State) (wslack' : Bool) :
    (s.setWslack wslack').draws = s.draws := rfl

@[simp] theorem State.setWmark_params (s : State) (wmark' : Bool) :
    (s.setWmark wmark').params = s.params := rfl
@[simp] theorem State.setWmark_inbox (s : State) (wmark' : Bool) :
    (s.setWmark wmark').inbox = s.inbox := rfl
@[simp] theorem State.setWmark_response (s : State) (wmark' : Bool) :
    (s.setWmark wmark').response = s.response := rfl
@[simp] theorem State.setWmark_mode (s : State) (wmark' : Bool) :
    (s.setWmark wmark').mode = s.mode := rfl
@[simp] theorem State.setWmark_geomv (s : State) (wmark' : Bool) :
    (s.setWmark wmark').geomv = s.geomv := rfl
@[simp] theorem State.setWmark_errs (s : State) (wmark' : Bool) :
    (s.setWmark wmark').errs = s.errs := rfl
@[simp] theorem State.setWmark_wslack (s : State) (wmark' : Bool) :
    (s.setWmark wmark').wslack = s.wslack := rfl
@[simp] theorem State.setWmark_wmark (s : State) (wmark' : Bool) :
    (s.setWmark wmark').wmark = wmark' := rfl
@[simp] theorem State.setWmark_segbase (s : State) (wmark' : Bool) :
    (s.setWmark wmark').segbase = s.segbase := rfl
@[simp] theorem State.setWmark_seglen (s : State) (wmark' : Bool) :
    (s.setWmark wmark').seglen = s.seglen := rfl
@[simp] theorem State.setWmark_a (s : State) (wmark' : Bool) :
    (s.setWmark wmark').a = s.a := rfl
@[simp] theorem State.setWmark_c (s : State) (wmark' : Bool) :
    (s.setWmark wmark').c = s.c := rfl
@[simp] theorem State.setWmark_ct (s : State) (wmark' : Bool) :
    (s.setWmark wmark').ct = s.ct := rfl
@[simp] theorem State.setWmark_bp (s : State) (wmark' : Bool) :
    (s.setWmark wmark').bp = s.bp := rfl
@[simp] theorem State.setWmark_startAddr (s : State) (wmark' : Bool) :
    (s.setWmark wmark').startAddr = s.startAddr := rfl
@[simp] theorem State.setWmark_endAddr (s : State) (wmark' : Bool) :
    (s.setWmark wmark').endAddr = s.endAddr := rfl
@[simp] theorem State.setWmark_eoscnt (s : State) (wmark' : Bool) :
    (s.setWmark wmark').eoscnt = s.eoscnt := rfl
@[simp] theorem State.setWmark_rb (s : State) (wmark' : Bool) :
    (s.setWmark wmark').rb = s.rb := rfl
@[simp] theorem State.setWmark_rct (s : State) (wmark' : Bool) :
    (s.setWmark wmark').rct = s.rct := rfl
@[simp] theorem State.setWmark_lastff (s : State) (wmark' : Bool) :
    (s.setWmark wmark').lastff = s.lastff := rfl
@[simp] theorem State.setWmark_cx (s : State) (wmark' : Bool) :
    (s.setWmark wmark').cx = s.cx := rfl
@[simp] theorem State.setWmark_w (s : State) (wmark' : Bool) :
    (s.setWmark wmark').w = s.w := rfl
@[simp] theorem State.setWmark_h (s : State) (wmark' : Bool) :
    (s.setWmark wmark').h = s.h := rfl
@[simp] theorem State.setWmark_orient (s : State) (wmark' : Bool) :
    (s.setWmark wmark').orient = s.orient := rfl
@[simp] theorem State.setWmark_fp (s : State) (wmark' : Bool) :
    (s.setWmark wmark').fp = s.fp := rfl
@[simp] theorem State.setWmark_cp (s : State) (wmark' : Bool) :
    (s.setWmark wmark').cp = s.cp := rfl
@[simp] theorem State.setWmark_cb (s : State) (wmark' : Bool) :
    (s.setWmark wmark').cb = s.cb := rfl
@[simp] theorem State.setWmark_unspec (s : State) (wmark' : Bool) :
    (s.setWmark wmark').unspec = s.unspec := rfl
@[simp] theorem State.setWmark_draws (s : State) (wmark' : Bool) :
    (s.setWmark wmark').draws = s.draws := rfl

@[simp] theorem State.setSegbase_params (s : State) (segbase' : Word) :
    (s.setSegbase segbase').params = s.params := rfl
@[simp] theorem State.setSegbase_inbox (s : State) (segbase' : Word) :
    (s.setSegbase segbase').inbox = s.inbox := rfl
@[simp] theorem State.setSegbase_response (s : State) (segbase' : Word) :
    (s.setSegbase segbase').response = s.response := rfl
@[simp] theorem State.setSegbase_mode (s : State) (segbase' : Word) :
    (s.setSegbase segbase').mode = s.mode := rfl
@[simp] theorem State.setSegbase_geomv (s : State) (segbase' : Word) :
    (s.setSegbase segbase').geomv = s.geomv := rfl
@[simp] theorem State.setSegbase_errs (s : State) (segbase' : Word) :
    (s.setSegbase segbase').errs = s.errs := rfl
@[simp] theorem State.setSegbase_wslack (s : State) (segbase' : Word) :
    (s.setSegbase segbase').wslack = s.wslack := rfl
@[simp] theorem State.setSegbase_wmark (s : State) (segbase' : Word) :
    (s.setSegbase segbase').wmark = s.wmark := rfl
@[simp] theorem State.setSegbase_segbase (s : State) (segbase' : Word) :
    (s.setSegbase segbase').segbase = segbase' := rfl
@[simp] theorem State.setSegbase_seglen (s : State) (segbase' : Word) :
    (s.setSegbase segbase').seglen = s.seglen := rfl
@[simp] theorem State.setSegbase_a (s : State) (segbase' : Word) :
    (s.setSegbase segbase').a = s.a := rfl
@[simp] theorem State.setSegbase_c (s : State) (segbase' : Word) :
    (s.setSegbase segbase').c = s.c := rfl
@[simp] theorem State.setSegbase_ct (s : State) (segbase' : Word) :
    (s.setSegbase segbase').ct = s.ct := rfl
@[simp] theorem State.setSegbase_bp (s : State) (segbase' : Word) :
    (s.setSegbase segbase').bp = s.bp := rfl
@[simp] theorem State.setSegbase_startAddr (s : State) (segbase' : Word) :
    (s.setSegbase segbase').startAddr = s.startAddr := rfl
@[simp] theorem State.setSegbase_endAddr (s : State) (segbase' : Word) :
    (s.setSegbase segbase').endAddr = s.endAddr := rfl
@[simp] theorem State.setSegbase_eoscnt (s : State) (segbase' : Word) :
    (s.setSegbase segbase').eoscnt = s.eoscnt := rfl
@[simp] theorem State.setSegbase_rb (s : State) (segbase' : Word) :
    (s.setSegbase segbase').rb = s.rb := rfl
@[simp] theorem State.setSegbase_rct (s : State) (segbase' : Word) :
    (s.setSegbase segbase').rct = s.rct := rfl
@[simp] theorem State.setSegbase_lastff (s : State) (segbase' : Word) :
    (s.setSegbase segbase').lastff = s.lastff := rfl
@[simp] theorem State.setSegbase_cx (s : State) (segbase' : Word) :
    (s.setSegbase segbase').cx = s.cx := rfl
@[simp] theorem State.setSegbase_w (s : State) (segbase' : Word) :
    (s.setSegbase segbase').w = s.w := rfl
@[simp] theorem State.setSegbase_h (s : State) (segbase' : Word) :
    (s.setSegbase segbase').h = s.h := rfl
@[simp] theorem State.setSegbase_orient (s : State) (segbase' : Word) :
    (s.setSegbase segbase').orient = s.orient := rfl
@[simp] theorem State.setSegbase_fp (s : State) (segbase' : Word) :
    (s.setSegbase segbase').fp = s.fp := rfl
@[simp] theorem State.setSegbase_cp (s : State) (segbase' : Word) :
    (s.setSegbase segbase').cp = s.cp := rfl
@[simp] theorem State.setSegbase_cb (s : State) (segbase' : Word) :
    (s.setSegbase segbase').cb = s.cb := rfl
@[simp] theorem State.setSegbase_unspec (s : State) (segbase' : Word) :
    (s.setSegbase segbase').unspec = s.unspec := rfl
@[simp] theorem State.setSegbase_draws (s : State) (segbase' : Word) :
    (s.setSegbase segbase').draws = s.draws := rfl

@[simp] theorem State.setSeglen_params (s : State) (seglen' : Word) :
    (s.setSeglen seglen').params = s.params := rfl
@[simp] theorem State.setSeglen_inbox (s : State) (seglen' : Word) :
    (s.setSeglen seglen').inbox = s.inbox := rfl
@[simp] theorem State.setSeglen_response (s : State) (seglen' : Word) :
    (s.setSeglen seglen').response = s.response := rfl
@[simp] theorem State.setSeglen_mode (s : State) (seglen' : Word) :
    (s.setSeglen seglen').mode = s.mode := rfl
@[simp] theorem State.setSeglen_geomv (s : State) (seglen' : Word) :
    (s.setSeglen seglen').geomv = s.geomv := rfl
@[simp] theorem State.setSeglen_errs (s : State) (seglen' : Word) :
    (s.setSeglen seglen').errs = s.errs := rfl
@[simp] theorem State.setSeglen_wslack (s : State) (seglen' : Word) :
    (s.setSeglen seglen').wslack = s.wslack := rfl
@[simp] theorem State.setSeglen_wmark (s : State) (seglen' : Word) :
    (s.setSeglen seglen').wmark = s.wmark := rfl
@[simp] theorem State.setSeglen_segbase (s : State) (seglen' : Word) :
    (s.setSeglen seglen').segbase = s.segbase := rfl
@[simp] theorem State.setSeglen_seglen (s : State) (seglen' : Word) :
    (s.setSeglen seglen').seglen = seglen' := rfl
@[simp] theorem State.setSeglen_a (s : State) (seglen' : Word) :
    (s.setSeglen seglen').a = s.a := rfl
@[simp] theorem State.setSeglen_c (s : State) (seglen' : Word) :
    (s.setSeglen seglen').c = s.c := rfl
@[simp] theorem State.setSeglen_ct (s : State) (seglen' : Word) :
    (s.setSeglen seglen').ct = s.ct := rfl
@[simp] theorem State.setSeglen_bp (s : State) (seglen' : Word) :
    (s.setSeglen seglen').bp = s.bp := rfl
@[simp] theorem State.setSeglen_startAddr (s : State) (seglen' : Word) :
    (s.setSeglen seglen').startAddr = s.startAddr := rfl
@[simp] theorem State.setSeglen_endAddr (s : State) (seglen' : Word) :
    (s.setSeglen seglen').endAddr = s.endAddr := rfl
@[simp] theorem State.setSeglen_eoscnt (s : State) (seglen' : Word) :
    (s.setSeglen seglen').eoscnt = s.eoscnt := rfl
@[simp] theorem State.setSeglen_rb (s : State) (seglen' : Word) :
    (s.setSeglen seglen').rb = s.rb := rfl
@[simp] theorem State.setSeglen_rct (s : State) (seglen' : Word) :
    (s.setSeglen seglen').rct = s.rct := rfl
@[simp] theorem State.setSeglen_lastff (s : State) (seglen' : Word) :
    (s.setSeglen seglen').lastff = s.lastff := rfl
@[simp] theorem State.setSeglen_cx (s : State) (seglen' : Word) :
    (s.setSeglen seglen').cx = s.cx := rfl
@[simp] theorem State.setSeglen_w (s : State) (seglen' : Word) :
    (s.setSeglen seglen').w = s.w := rfl
@[simp] theorem State.setSeglen_h (s : State) (seglen' : Word) :
    (s.setSeglen seglen').h = s.h := rfl
@[simp] theorem State.setSeglen_orient (s : State) (seglen' : Word) :
    (s.setSeglen seglen').orient = s.orient := rfl
@[simp] theorem State.setSeglen_fp (s : State) (seglen' : Word) :
    (s.setSeglen seglen').fp = s.fp := rfl
@[simp] theorem State.setSeglen_cp (s : State) (seglen' : Word) :
    (s.setSeglen seglen').cp = s.cp := rfl
@[simp] theorem State.setSeglen_cb (s : State) (seglen' : Word) :
    (s.setSeglen seglen').cb = s.cb := rfl
@[simp] theorem State.setSeglen_unspec (s : State) (seglen' : Word) :
    (s.setSeglen seglen').unspec = s.unspec := rfl
@[simp] theorem State.setSeglen_draws (s : State) (seglen' : Word) :
    (s.setSeglen seglen').draws = s.draws := rfl

@[simp] theorem State.setA_params (s : State) (a' : BitVec 16) :
    (s.setA a').params = s.params := rfl
@[simp] theorem State.setA_inbox (s : State) (a' : BitVec 16) :
    (s.setA a').inbox = s.inbox := rfl
@[simp] theorem State.setA_response (s : State) (a' : BitVec 16) :
    (s.setA a').response = s.response := rfl
@[simp] theorem State.setA_mode (s : State) (a' : BitVec 16) :
    (s.setA a').mode = s.mode := rfl
@[simp] theorem State.setA_geomv (s : State) (a' : BitVec 16) :
    (s.setA a').geomv = s.geomv := rfl
@[simp] theorem State.setA_errs (s : State) (a' : BitVec 16) :
    (s.setA a').errs = s.errs := rfl
@[simp] theorem State.setA_wslack (s : State) (a' : BitVec 16) :
    (s.setA a').wslack = s.wslack := rfl
@[simp] theorem State.setA_wmark (s : State) (a' : BitVec 16) :
    (s.setA a').wmark = s.wmark := rfl
@[simp] theorem State.setA_segbase (s : State) (a' : BitVec 16) :
    (s.setA a').segbase = s.segbase := rfl
@[simp] theorem State.setA_seglen (s : State) (a' : BitVec 16) :
    (s.setA a').seglen = s.seglen := rfl
@[simp] theorem State.setA_a (s : State) (a' : BitVec 16) :
    (s.setA a').a = a' := rfl
@[simp] theorem State.setA_c (s : State) (a' : BitVec 16) :
    (s.setA a').c = s.c := rfl
@[simp] theorem State.setA_ct (s : State) (a' : BitVec 16) :
    (s.setA a').ct = s.ct := rfl
@[simp] theorem State.setA_bp (s : State) (a' : BitVec 16) :
    (s.setA a').bp = s.bp := rfl
@[simp] theorem State.setA_startAddr (s : State) (a' : BitVec 16) :
    (s.setA a').startAddr = s.startAddr := rfl
@[simp] theorem State.setA_endAddr (s : State) (a' : BitVec 16) :
    (s.setA a').endAddr = s.endAddr := rfl
@[simp] theorem State.setA_eoscnt (s : State) (a' : BitVec 16) :
    (s.setA a').eoscnt = s.eoscnt := rfl
@[simp] theorem State.setA_rb (s : State) (a' : BitVec 16) :
    (s.setA a').rb = s.rb := rfl
@[simp] theorem State.setA_rct (s : State) (a' : BitVec 16) :
    (s.setA a').rct = s.rct := rfl
@[simp] theorem State.setA_lastff (s : State) (a' : BitVec 16) :
    (s.setA a').lastff = s.lastff := rfl
@[simp] theorem State.setA_cx (s : State) (a' : BitVec 16) :
    (s.setA a').cx = s.cx := rfl
@[simp] theorem State.setA_w (s : State) (a' : BitVec 16) :
    (s.setA a').w = s.w := rfl
@[simp] theorem State.setA_h (s : State) (a' : BitVec 16) :
    (s.setA a').h = s.h := rfl
@[simp] theorem State.setA_orient (s : State) (a' : BitVec 16) :
    (s.setA a').orient = s.orient := rfl
@[simp] theorem State.setA_fp (s : State) (a' : BitVec 16) :
    (s.setA a').fp = s.fp := rfl
@[simp] theorem State.setA_cp (s : State) (a' : BitVec 16) :
    (s.setA a').cp = s.cp := rfl
@[simp] theorem State.setA_cb (s : State) (a' : BitVec 16) :
    (s.setA a').cb = s.cb := rfl
@[simp] theorem State.setA_unspec (s : State) (a' : BitVec 16) :
    (s.setA a').unspec = s.unspec := rfl
@[simp] theorem State.setA_draws (s : State) (a' : BitVec 16) :
    (s.setA a').draws = s.draws := rfl

@[simp] theorem State.setC_params (s : State) (c' : Word) :
    (s.setC c').params = s.params := rfl
@[simp] theorem State.setC_inbox (s : State) (c' : Word) :
    (s.setC c').inbox = s.inbox := rfl
@[simp] theorem State.setC_response (s : State) (c' : Word) :
    (s.setC c').response = s.response := rfl
@[simp] theorem State.setC_mode (s : State) (c' : Word) :
    (s.setC c').mode = s.mode := rfl
@[simp] theorem State.setC_geomv (s : State) (c' : Word) :
    (s.setC c').geomv = s.geomv := rfl
@[simp] theorem State.setC_errs (s : State) (c' : Word) :
    (s.setC c').errs = s.errs := rfl
@[simp] theorem State.setC_wslack (s : State) (c' : Word) :
    (s.setC c').wslack = s.wslack := rfl
@[simp] theorem State.setC_wmark (s : State) (c' : Word) :
    (s.setC c').wmark = s.wmark := rfl
@[simp] theorem State.setC_segbase (s : State) (c' : Word) :
    (s.setC c').segbase = s.segbase := rfl
@[simp] theorem State.setC_seglen (s : State) (c' : Word) :
    (s.setC c').seglen = s.seglen := rfl
@[simp] theorem State.setC_a (s : State) (c' : Word) :
    (s.setC c').a = s.a := rfl
@[simp] theorem State.setC_c (s : State) (c' : Word) :
    (s.setC c').c = c' := rfl
@[simp] theorem State.setC_ct (s : State) (c' : Word) :
    (s.setC c').ct = s.ct := rfl
@[simp] theorem State.setC_bp (s : State) (c' : Word) :
    (s.setC c').bp = s.bp := rfl
@[simp] theorem State.setC_startAddr (s : State) (c' : Word) :
    (s.setC c').startAddr = s.startAddr := rfl
@[simp] theorem State.setC_endAddr (s : State) (c' : Word) :
    (s.setC c').endAddr = s.endAddr := rfl
@[simp] theorem State.setC_eoscnt (s : State) (c' : Word) :
    (s.setC c').eoscnt = s.eoscnt := rfl
@[simp] theorem State.setC_rb (s : State) (c' : Word) :
    (s.setC c').rb = s.rb := rfl
@[simp] theorem State.setC_rct (s : State) (c' : Word) :
    (s.setC c').rct = s.rct := rfl
@[simp] theorem State.setC_lastff (s : State) (c' : Word) :
    (s.setC c').lastff = s.lastff := rfl
@[simp] theorem State.setC_cx (s : State) (c' : Word) :
    (s.setC c').cx = s.cx := rfl
@[simp] theorem State.setC_w (s : State) (c' : Word) :
    (s.setC c').w = s.w := rfl
@[simp] theorem State.setC_h (s : State) (c' : Word) :
    (s.setC c').h = s.h := rfl
@[simp] theorem State.setC_orient (s : State) (c' : Word) :
    (s.setC c').orient = s.orient := rfl
@[simp] theorem State.setC_fp (s : State) (c' : Word) :
    (s.setC c').fp = s.fp := rfl
@[simp] theorem State.setC_cp (s : State) (c' : Word) :
    (s.setC c').cp = s.cp := rfl
@[simp] theorem State.setC_cb (s : State) (c' : Word) :
    (s.setC c').cb = s.cb := rfl
@[simp] theorem State.setC_unspec (s : State) (c' : Word) :
    (s.setC c').unspec = s.unspec := rfl
@[simp] theorem State.setC_draws (s : State) (c' : Word) :
    (s.setC c').draws = s.draws := rfl

@[simp] theorem State.setCt_params (s : State) (ct' : BitVec 4) :
    (s.setCt ct').params = s.params := rfl
@[simp] theorem State.setCt_inbox (s : State) (ct' : BitVec 4) :
    (s.setCt ct').inbox = s.inbox := rfl
@[simp] theorem State.setCt_response (s : State) (ct' : BitVec 4) :
    (s.setCt ct').response = s.response := rfl
@[simp] theorem State.setCt_mode (s : State) (ct' : BitVec 4) :
    (s.setCt ct').mode = s.mode := rfl
@[simp] theorem State.setCt_geomv (s : State) (ct' : BitVec 4) :
    (s.setCt ct').geomv = s.geomv := rfl
@[simp] theorem State.setCt_errs (s : State) (ct' : BitVec 4) :
    (s.setCt ct').errs = s.errs := rfl
@[simp] theorem State.setCt_wslack (s : State) (ct' : BitVec 4) :
    (s.setCt ct').wslack = s.wslack := rfl
@[simp] theorem State.setCt_wmark (s : State) (ct' : BitVec 4) :
    (s.setCt ct').wmark = s.wmark := rfl
@[simp] theorem State.setCt_segbase (s : State) (ct' : BitVec 4) :
    (s.setCt ct').segbase = s.segbase := rfl
@[simp] theorem State.setCt_seglen (s : State) (ct' : BitVec 4) :
    (s.setCt ct').seglen = s.seglen := rfl
@[simp] theorem State.setCt_a (s : State) (ct' : BitVec 4) :
    (s.setCt ct').a = s.a := rfl
@[simp] theorem State.setCt_c (s : State) (ct' : BitVec 4) :
    (s.setCt ct').c = s.c := rfl
@[simp] theorem State.setCt_ct (s : State) (ct' : BitVec 4) :
    (s.setCt ct').ct = ct' := rfl
@[simp] theorem State.setCt_bp (s : State) (ct' : BitVec 4) :
    (s.setCt ct').bp = s.bp := rfl
@[simp] theorem State.setCt_startAddr (s : State) (ct' : BitVec 4) :
    (s.setCt ct').startAddr = s.startAddr := rfl
@[simp] theorem State.setCt_endAddr (s : State) (ct' : BitVec 4) :
    (s.setCt ct').endAddr = s.endAddr := rfl
@[simp] theorem State.setCt_eoscnt (s : State) (ct' : BitVec 4) :
    (s.setCt ct').eoscnt = s.eoscnt := rfl
@[simp] theorem State.setCt_rb (s : State) (ct' : BitVec 4) :
    (s.setCt ct').rb = s.rb := rfl
@[simp] theorem State.setCt_rct (s : State) (ct' : BitVec 4) :
    (s.setCt ct').rct = s.rct := rfl
@[simp] theorem State.setCt_lastff (s : State) (ct' : BitVec 4) :
    (s.setCt ct').lastff = s.lastff := rfl
@[simp] theorem State.setCt_cx (s : State) (ct' : BitVec 4) :
    (s.setCt ct').cx = s.cx := rfl
@[simp] theorem State.setCt_w (s : State) (ct' : BitVec 4) :
    (s.setCt ct').w = s.w := rfl
@[simp] theorem State.setCt_h (s : State) (ct' : BitVec 4) :
    (s.setCt ct').h = s.h := rfl
@[simp] theorem State.setCt_orient (s : State) (ct' : BitVec 4) :
    (s.setCt ct').orient = s.orient := rfl
@[simp] theorem State.setCt_fp (s : State) (ct' : BitVec 4) :
    (s.setCt ct').fp = s.fp := rfl
@[simp] theorem State.setCt_cp (s : State) (ct' : BitVec 4) :
    (s.setCt ct').cp = s.cp := rfl
@[simp] theorem State.setCt_cb (s : State) (ct' : BitVec 4) :
    (s.setCt ct').cb = s.cb := rfl
@[simp] theorem State.setCt_unspec (s : State) (ct' : BitVec 4) :
    (s.setCt ct').unspec = s.unspec := rfl
@[simp] theorem State.setCt_draws (s : State) (ct' : BitVec 4) :
    (s.setCt ct').draws = s.draws := rfl

@[simp] theorem State.setBp_params (s : State) (bp' : Int) :
    (s.setBp bp').params = s.params := rfl
@[simp] theorem State.setBp_inbox (s : State) (bp' : Int) :
    (s.setBp bp').inbox = s.inbox := rfl
@[simp] theorem State.setBp_response (s : State) (bp' : Int) :
    (s.setBp bp').response = s.response := rfl
@[simp] theorem State.setBp_mode (s : State) (bp' : Int) :
    (s.setBp bp').mode = s.mode := rfl
@[simp] theorem State.setBp_geomv (s : State) (bp' : Int) :
    (s.setBp bp').geomv = s.geomv := rfl
@[simp] theorem State.setBp_errs (s : State) (bp' : Int) :
    (s.setBp bp').errs = s.errs := rfl
@[simp] theorem State.setBp_wslack (s : State) (bp' : Int) :
    (s.setBp bp').wslack = s.wslack := rfl
@[simp] theorem State.setBp_wmark (s : State) (bp' : Int) :
    (s.setBp bp').wmark = s.wmark := rfl
@[simp] theorem State.setBp_segbase (s : State) (bp' : Int) :
    (s.setBp bp').segbase = s.segbase := rfl
@[simp] theorem State.setBp_seglen (s : State) (bp' : Int) :
    (s.setBp bp').seglen = s.seglen := rfl
@[simp] theorem State.setBp_a (s : State) (bp' : Int) :
    (s.setBp bp').a = s.a := rfl
@[simp] theorem State.setBp_c (s : State) (bp' : Int) :
    (s.setBp bp').c = s.c := rfl
@[simp] theorem State.setBp_ct (s : State) (bp' : Int) :
    (s.setBp bp').ct = s.ct := rfl
@[simp] theorem State.setBp_bp (s : State) (bp' : Int) :
    (s.setBp bp').bp = bp' := rfl
@[simp] theorem State.setBp_startAddr (s : State) (bp' : Int) :
    (s.setBp bp').startAddr = s.startAddr := rfl
@[simp] theorem State.setBp_endAddr (s : State) (bp' : Int) :
    (s.setBp bp').endAddr = s.endAddr := rfl
@[simp] theorem State.setBp_eoscnt (s : State) (bp' : Int) :
    (s.setBp bp').eoscnt = s.eoscnt := rfl
@[simp] theorem State.setBp_rb (s : State) (bp' : Int) :
    (s.setBp bp').rb = s.rb := rfl
@[simp] theorem State.setBp_rct (s : State) (bp' : Int) :
    (s.setBp bp').rct = s.rct := rfl
@[simp] theorem State.setBp_lastff (s : State) (bp' : Int) :
    (s.setBp bp').lastff = s.lastff := rfl
@[simp] theorem State.setBp_cx (s : State) (bp' : Int) :
    (s.setBp bp').cx = s.cx := rfl
@[simp] theorem State.setBp_w (s : State) (bp' : Int) :
    (s.setBp bp').w = s.w := rfl
@[simp] theorem State.setBp_h (s : State) (bp' : Int) :
    (s.setBp bp').h = s.h := rfl
@[simp] theorem State.setBp_orient (s : State) (bp' : Int) :
    (s.setBp bp').orient = s.orient := rfl
@[simp] theorem State.setBp_fp (s : State) (bp' : Int) :
    (s.setBp bp').fp = s.fp := rfl
@[simp] theorem State.setBp_cp (s : State) (bp' : Int) :
    (s.setBp bp').cp = s.cp := rfl
@[simp] theorem State.setBp_cb (s : State) (bp' : Int) :
    (s.setBp bp').cb = s.cb := rfl
@[simp] theorem State.setBp_unspec (s : State) (bp' : Int) :
    (s.setBp bp').unspec = s.unspec := rfl
@[simp] theorem State.setBp_draws (s : State) (bp' : Int) :
    (s.setBp bp').draws = s.draws := rfl

@[simp] theorem State.setWindow_params (s : State) (startAddr' : Word) (endAddr' : Word) :
    (s.setWindow startAddr' endAddr').params = s.params := rfl
@[simp] theorem State.setWindow_inbox (s : State) (startAddr' : Word) (endAddr' : Word) :
    (s.setWindow startAddr' endAddr').inbox = s.inbox := rfl
@[simp] theorem State.setWindow_response (s : State) (startAddr' : Word) (endAddr' : Word) :
    (s.setWindow startAddr' endAddr').response = s.response := rfl
@[simp] theorem State.setWindow_mode (s : State) (startAddr' : Word) (endAddr' : Word) :
    (s.setWindow startAddr' endAddr').mode = s.mode := rfl
@[simp] theorem State.setWindow_geomv (s : State) (startAddr' : Word) (endAddr' : Word) :
    (s.setWindow startAddr' endAddr').geomv = s.geomv := rfl
@[simp] theorem State.setWindow_errs (s : State) (startAddr' : Word) (endAddr' : Word) :
    (s.setWindow startAddr' endAddr').errs = s.errs := rfl
@[simp] theorem State.setWindow_wslack (s : State) (startAddr' : Word) (endAddr' : Word) :
    (s.setWindow startAddr' endAddr').wslack = s.wslack := rfl
@[simp] theorem State.setWindow_wmark (s : State) (startAddr' : Word) (endAddr' : Word) :
    (s.setWindow startAddr' endAddr').wmark = s.wmark := rfl
@[simp] theorem State.setWindow_segbase (s : State) (startAddr' : Word) (endAddr' : Word) :
    (s.setWindow startAddr' endAddr').segbase = s.segbase := rfl
@[simp] theorem State.setWindow_seglen (s : State) (startAddr' : Word) (endAddr' : Word) :
    (s.setWindow startAddr' endAddr').seglen = s.seglen := rfl
@[simp] theorem State.setWindow_a (s : State) (startAddr' : Word) (endAddr' : Word) :
    (s.setWindow startAddr' endAddr').a = s.a := rfl
@[simp] theorem State.setWindow_c (s : State) (startAddr' : Word) (endAddr' : Word) :
    (s.setWindow startAddr' endAddr').c = s.c := rfl
@[simp] theorem State.setWindow_ct (s : State) (startAddr' : Word) (endAddr' : Word) :
    (s.setWindow startAddr' endAddr').ct = s.ct := rfl
@[simp] theorem State.setWindow_bp (s : State) (startAddr' : Word) (endAddr' : Word) :
    (s.setWindow startAddr' endAddr').bp = s.bp := rfl
@[simp] theorem State.setWindow_startAddr (s : State) (startAddr' : Word) (endAddr' : Word) :
    (s.setWindow startAddr' endAddr').startAddr = startAddr' := rfl
@[simp] theorem State.setWindow_endAddr (s : State) (startAddr' : Word) (endAddr' : Word) :
    (s.setWindow startAddr' endAddr').endAddr = endAddr' := rfl
@[simp] theorem State.setWindow_eoscnt (s : State) (startAddr' : Word) (endAddr' : Word) :
    (s.setWindow startAddr' endAddr').eoscnt = s.eoscnt := rfl
@[simp] theorem State.setWindow_rb (s : State) (startAddr' : Word) (endAddr' : Word) :
    (s.setWindow startAddr' endAddr').rb = s.rb := rfl
@[simp] theorem State.setWindow_rct (s : State) (startAddr' : Word) (endAddr' : Word) :
    (s.setWindow startAddr' endAddr').rct = s.rct := rfl
@[simp] theorem State.setWindow_lastff (s : State) (startAddr' : Word) (endAddr' : Word) :
    (s.setWindow startAddr' endAddr').lastff = s.lastff := rfl
@[simp] theorem State.setWindow_cx (s : State) (startAddr' : Word) (endAddr' : Word) :
    (s.setWindow startAddr' endAddr').cx = s.cx := rfl
@[simp] theorem State.setWindow_w (s : State) (startAddr' : Word) (endAddr' : Word) :
    (s.setWindow startAddr' endAddr').w = s.w := rfl
@[simp] theorem State.setWindow_h (s : State) (startAddr' : Word) (endAddr' : Word) :
    (s.setWindow startAddr' endAddr').h = s.h := rfl
@[simp] theorem State.setWindow_orient (s : State) (startAddr' : Word) (endAddr' : Word) :
    (s.setWindow startAddr' endAddr').orient = s.orient := rfl
@[simp] theorem State.setWindow_fp (s : State) (startAddr' : Word) (endAddr' : Word) :
    (s.setWindow startAddr' endAddr').fp = s.fp := rfl
@[simp] theorem State.setWindow_cp (s : State) (startAddr' : Word) (endAddr' : Word) :
    (s.setWindow startAddr' endAddr').cp = s.cp := rfl
@[simp] theorem State.setWindow_cb (s : State) (startAddr' : Word) (endAddr' : Word) :
    (s.setWindow startAddr' endAddr').cb = s.cb := rfl
@[simp] theorem State.setWindow_unspec (s : State) (startAddr' : Word) (endAddr' : Word) :
    (s.setWindow startAddr' endAddr').unspec = s.unspec := rfl
@[simp] theorem State.setWindow_draws (s : State) (startAddr' : Word) (endAddr' : Word) :
    (s.setWindow startAddr' endAddr').draws = s.draws := rfl

@[simp] theorem State.setEoscnt_params (s : State) (eoscnt' : Word) :
    (s.setEoscnt eoscnt').params = s.params := rfl
@[simp] theorem State.setEoscnt_inbox (s : State) (eoscnt' : Word) :
    (s.setEoscnt eoscnt').inbox = s.inbox := rfl
@[simp] theorem State.setEoscnt_response (s : State) (eoscnt' : Word) :
    (s.setEoscnt eoscnt').response = s.response := rfl
@[simp] theorem State.setEoscnt_mode (s : State) (eoscnt' : Word) :
    (s.setEoscnt eoscnt').mode = s.mode := rfl
@[simp] theorem State.setEoscnt_geomv (s : State) (eoscnt' : Word) :
    (s.setEoscnt eoscnt').geomv = s.geomv := rfl
@[simp] theorem State.setEoscnt_errs (s : State) (eoscnt' : Word) :
    (s.setEoscnt eoscnt').errs = s.errs := rfl
@[simp] theorem State.setEoscnt_wslack (s : State) (eoscnt' : Word) :
    (s.setEoscnt eoscnt').wslack = s.wslack := rfl
@[simp] theorem State.setEoscnt_wmark (s : State) (eoscnt' : Word) :
    (s.setEoscnt eoscnt').wmark = s.wmark := rfl
@[simp] theorem State.setEoscnt_segbase (s : State) (eoscnt' : Word) :
    (s.setEoscnt eoscnt').segbase = s.segbase := rfl
@[simp] theorem State.setEoscnt_seglen (s : State) (eoscnt' : Word) :
    (s.setEoscnt eoscnt').seglen = s.seglen := rfl
@[simp] theorem State.setEoscnt_a (s : State) (eoscnt' : Word) :
    (s.setEoscnt eoscnt').a = s.a := rfl
@[simp] theorem State.setEoscnt_c (s : State) (eoscnt' : Word) :
    (s.setEoscnt eoscnt').c = s.c := rfl
@[simp] theorem State.setEoscnt_ct (s : State) (eoscnt' : Word) :
    (s.setEoscnt eoscnt').ct = s.ct := rfl
@[simp] theorem State.setEoscnt_bp (s : State) (eoscnt' : Word) :
    (s.setEoscnt eoscnt').bp = s.bp := rfl
@[simp] theorem State.setEoscnt_startAddr (s : State) (eoscnt' : Word) :
    (s.setEoscnt eoscnt').startAddr = s.startAddr := rfl
@[simp] theorem State.setEoscnt_endAddr (s : State) (eoscnt' : Word) :
    (s.setEoscnt eoscnt').endAddr = s.endAddr := rfl
@[simp] theorem State.setEoscnt_eoscnt (s : State) (eoscnt' : Word) :
    (s.setEoscnt eoscnt').eoscnt = eoscnt' := rfl
@[simp] theorem State.setEoscnt_rb (s : State) (eoscnt' : Word) :
    (s.setEoscnt eoscnt').rb = s.rb := rfl
@[simp] theorem State.setEoscnt_rct (s : State) (eoscnt' : Word) :
    (s.setEoscnt eoscnt').rct = s.rct := rfl
@[simp] theorem State.setEoscnt_lastff (s : State) (eoscnt' : Word) :
    (s.setEoscnt eoscnt').lastff = s.lastff := rfl
@[simp] theorem State.setEoscnt_cx (s : State) (eoscnt' : Word) :
    (s.setEoscnt eoscnt').cx = s.cx := rfl
@[simp] theorem State.setEoscnt_w (s : State) (eoscnt' : Word) :
    (s.setEoscnt eoscnt').w = s.w := rfl
@[simp] theorem State.setEoscnt_h (s : State) (eoscnt' : Word) :
    (s.setEoscnt eoscnt').h = s.h := rfl
@[simp] theorem State.setEoscnt_orient (s : State) (eoscnt' : Word) :
    (s.setEoscnt eoscnt').orient = s.orient := rfl
@[simp] theorem State.setEoscnt_fp (s : State) (eoscnt' : Word) :
    (s.setEoscnt eoscnt').fp = s.fp := rfl
@[simp] theorem State.setEoscnt_cp (s : State) (eoscnt' : Word) :
    (s.setEoscnt eoscnt').cp = s.cp := rfl
@[simp] theorem State.setEoscnt_cb (s : State) (eoscnt' : Word) :
    (s.setEoscnt eoscnt').cb = s.cb := rfl
@[simp] theorem State.setEoscnt_unspec (s : State) (eoscnt' : Word) :
    (s.setEoscnt eoscnt').unspec = s.unspec := rfl
@[simp] theorem State.setEoscnt_draws (s : State) (eoscnt' : Word) :
    (s.setEoscnt eoscnt').draws = s.draws := rfl

@[simp] theorem State.setRaw_params (s : State) (rb' : Byte) (rct' : BitVec 4) :
    (s.setRaw rb' rct').params = s.params := rfl
@[simp] theorem State.setRaw_inbox (s : State) (rb' : Byte) (rct' : BitVec 4) :
    (s.setRaw rb' rct').inbox = s.inbox := rfl
@[simp] theorem State.setRaw_response (s : State) (rb' : Byte) (rct' : BitVec 4) :
    (s.setRaw rb' rct').response = s.response := rfl
@[simp] theorem State.setRaw_mode (s : State) (rb' : Byte) (rct' : BitVec 4) :
    (s.setRaw rb' rct').mode = s.mode := rfl
@[simp] theorem State.setRaw_geomv (s : State) (rb' : Byte) (rct' : BitVec 4) :
    (s.setRaw rb' rct').geomv = s.geomv := rfl
@[simp] theorem State.setRaw_errs (s : State) (rb' : Byte) (rct' : BitVec 4) :
    (s.setRaw rb' rct').errs = s.errs := rfl
@[simp] theorem State.setRaw_wslack (s : State) (rb' : Byte) (rct' : BitVec 4) :
    (s.setRaw rb' rct').wslack = s.wslack := rfl
@[simp] theorem State.setRaw_wmark (s : State) (rb' : Byte) (rct' : BitVec 4) :
    (s.setRaw rb' rct').wmark = s.wmark := rfl
@[simp] theorem State.setRaw_segbase (s : State) (rb' : Byte) (rct' : BitVec 4) :
    (s.setRaw rb' rct').segbase = s.segbase := rfl
@[simp] theorem State.setRaw_seglen (s : State) (rb' : Byte) (rct' : BitVec 4) :
    (s.setRaw rb' rct').seglen = s.seglen := rfl
@[simp] theorem State.setRaw_a (s : State) (rb' : Byte) (rct' : BitVec 4) :
    (s.setRaw rb' rct').a = s.a := rfl
@[simp] theorem State.setRaw_c (s : State) (rb' : Byte) (rct' : BitVec 4) :
    (s.setRaw rb' rct').c = s.c := rfl
@[simp] theorem State.setRaw_ct (s : State) (rb' : Byte) (rct' : BitVec 4) :
    (s.setRaw rb' rct').ct = s.ct := rfl
@[simp] theorem State.setRaw_bp (s : State) (rb' : Byte) (rct' : BitVec 4) :
    (s.setRaw rb' rct').bp = s.bp := rfl
@[simp] theorem State.setRaw_startAddr (s : State) (rb' : Byte) (rct' : BitVec 4) :
    (s.setRaw rb' rct').startAddr = s.startAddr := rfl
@[simp] theorem State.setRaw_endAddr (s : State) (rb' : Byte) (rct' : BitVec 4) :
    (s.setRaw rb' rct').endAddr = s.endAddr := rfl
@[simp] theorem State.setRaw_eoscnt (s : State) (rb' : Byte) (rct' : BitVec 4) :
    (s.setRaw rb' rct').eoscnt = s.eoscnt := rfl
@[simp] theorem State.setRaw_rb (s : State) (rb' : Byte) (rct' : BitVec 4) :
    (s.setRaw rb' rct').rb = rb' := rfl
@[simp] theorem State.setRaw_rct (s : State) (rb' : Byte) (rct' : BitVec 4) :
    (s.setRaw rb' rct').rct = rct' := rfl
@[simp] theorem State.setRaw_lastff (s : State) (rb' : Byte) (rct' : BitVec 4) :
    (s.setRaw rb' rct').lastff = s.lastff := rfl
@[simp] theorem State.setRaw_cx (s : State) (rb' : Byte) (rct' : BitVec 4) :
    (s.setRaw rb' rct').cx = s.cx := rfl
@[simp] theorem State.setRaw_w (s : State) (rb' : Byte) (rct' : BitVec 4) :
    (s.setRaw rb' rct').w = s.w := rfl
@[simp] theorem State.setRaw_h (s : State) (rb' : Byte) (rct' : BitVec 4) :
    (s.setRaw rb' rct').h = s.h := rfl
@[simp] theorem State.setRaw_orient (s : State) (rb' : Byte) (rct' : BitVec 4) :
    (s.setRaw rb' rct').orient = s.orient := rfl
@[simp] theorem State.setRaw_fp (s : State) (rb' : Byte) (rct' : BitVec 4) :
    (s.setRaw rb' rct').fp = s.fp := rfl
@[simp] theorem State.setRaw_cp (s : State) (rb' : Byte) (rct' : BitVec 4) :
    (s.setRaw rb' rct').cp = s.cp := rfl
@[simp] theorem State.setRaw_cb (s : State) (rb' : Byte) (rct' : BitVec 4) :
    (s.setRaw rb' rct').cb = s.cb := rfl
@[simp] theorem State.setRaw_unspec (s : State) (rb' : Byte) (rct' : BitVec 4) :
    (s.setRaw rb' rct').unspec = s.unspec := rfl
@[simp] theorem State.setRaw_draws (s : State) (rb' : Byte) (rct' : BitVec 4) :
    (s.setRaw rb' rct').draws = s.draws := rfl

@[simp] theorem State.setLastff_params (s : State) (lastff' : Bool) :
    (s.setLastff lastff').params = s.params := rfl
@[simp] theorem State.setLastff_inbox (s : State) (lastff' : Bool) :
    (s.setLastff lastff').inbox = s.inbox := rfl
@[simp] theorem State.setLastff_response (s : State) (lastff' : Bool) :
    (s.setLastff lastff').response = s.response := rfl
@[simp] theorem State.setLastff_mode (s : State) (lastff' : Bool) :
    (s.setLastff lastff').mode = s.mode := rfl
@[simp] theorem State.setLastff_geomv (s : State) (lastff' : Bool) :
    (s.setLastff lastff').geomv = s.geomv := rfl
@[simp] theorem State.setLastff_errs (s : State) (lastff' : Bool) :
    (s.setLastff lastff').errs = s.errs := rfl
@[simp] theorem State.setLastff_wslack (s : State) (lastff' : Bool) :
    (s.setLastff lastff').wslack = s.wslack := rfl
@[simp] theorem State.setLastff_wmark (s : State) (lastff' : Bool) :
    (s.setLastff lastff').wmark = s.wmark := rfl
@[simp] theorem State.setLastff_segbase (s : State) (lastff' : Bool) :
    (s.setLastff lastff').segbase = s.segbase := rfl
@[simp] theorem State.setLastff_seglen (s : State) (lastff' : Bool) :
    (s.setLastff lastff').seglen = s.seglen := rfl
@[simp] theorem State.setLastff_a (s : State) (lastff' : Bool) :
    (s.setLastff lastff').a = s.a := rfl
@[simp] theorem State.setLastff_c (s : State) (lastff' : Bool) :
    (s.setLastff lastff').c = s.c := rfl
@[simp] theorem State.setLastff_ct (s : State) (lastff' : Bool) :
    (s.setLastff lastff').ct = s.ct := rfl
@[simp] theorem State.setLastff_bp (s : State) (lastff' : Bool) :
    (s.setLastff lastff').bp = s.bp := rfl
@[simp] theorem State.setLastff_startAddr (s : State) (lastff' : Bool) :
    (s.setLastff lastff').startAddr = s.startAddr := rfl
@[simp] theorem State.setLastff_endAddr (s : State) (lastff' : Bool) :
    (s.setLastff lastff').endAddr = s.endAddr := rfl
@[simp] theorem State.setLastff_eoscnt (s : State) (lastff' : Bool) :
    (s.setLastff lastff').eoscnt = s.eoscnt := rfl
@[simp] theorem State.setLastff_rb (s : State) (lastff' : Bool) :
    (s.setLastff lastff').rb = s.rb := rfl
@[simp] theorem State.setLastff_rct (s : State) (lastff' : Bool) :
    (s.setLastff lastff').rct = s.rct := rfl
@[simp] theorem State.setLastff_lastff (s : State) (lastff' : Bool) :
    (s.setLastff lastff').lastff = lastff' := rfl
@[simp] theorem State.setLastff_cx (s : State) (lastff' : Bool) :
    (s.setLastff lastff').cx = s.cx := rfl
@[simp] theorem State.setLastff_w (s : State) (lastff' : Bool) :
    (s.setLastff lastff').w = s.w := rfl
@[simp] theorem State.setLastff_h (s : State) (lastff' : Bool) :
    (s.setLastff lastff').h = s.h := rfl
@[simp] theorem State.setLastff_orient (s : State) (lastff' : Bool) :
    (s.setLastff lastff').orient = s.orient := rfl
@[simp] theorem State.setLastff_fp (s : State) (lastff' : Bool) :
    (s.setLastff lastff').fp = s.fp := rfl
@[simp] theorem State.setLastff_cp (s : State) (lastff' : Bool) :
    (s.setLastff lastff').cp = s.cp := rfl
@[simp] theorem State.setLastff_cb (s : State) (lastff' : Bool) :
    (s.setLastff lastff').cb = s.cb := rfl
@[simp] theorem State.setLastff_unspec (s : State) (lastff' : Bool) :
    (s.setLastff lastff').unspec = s.unspec := rfl
@[simp] theorem State.setLastff_draws (s : State) (lastff' : Bool) :
    (s.setLastff lastff').draws = s.draws := rfl

@[simp] theorem State.setCx_params (s : State) (cx' : Vector Context 19) :
    (s.setCx cx').params = s.params := rfl
@[simp] theorem State.setCx_inbox (s : State) (cx' : Vector Context 19) :
    (s.setCx cx').inbox = s.inbox := rfl
@[simp] theorem State.setCx_response (s : State) (cx' : Vector Context 19) :
    (s.setCx cx').response = s.response := rfl
@[simp] theorem State.setCx_mode (s : State) (cx' : Vector Context 19) :
    (s.setCx cx').mode = s.mode := rfl
@[simp] theorem State.setCx_geomv (s : State) (cx' : Vector Context 19) :
    (s.setCx cx').geomv = s.geomv := rfl
@[simp] theorem State.setCx_errs (s : State) (cx' : Vector Context 19) :
    (s.setCx cx').errs = s.errs := rfl
@[simp] theorem State.setCx_wslack (s : State) (cx' : Vector Context 19) :
    (s.setCx cx').wslack = s.wslack := rfl
@[simp] theorem State.setCx_wmark (s : State) (cx' : Vector Context 19) :
    (s.setCx cx').wmark = s.wmark := rfl
@[simp] theorem State.setCx_segbase (s : State) (cx' : Vector Context 19) :
    (s.setCx cx').segbase = s.segbase := rfl
@[simp] theorem State.setCx_seglen (s : State) (cx' : Vector Context 19) :
    (s.setCx cx').seglen = s.seglen := rfl
@[simp] theorem State.setCx_a (s : State) (cx' : Vector Context 19) :
    (s.setCx cx').a = s.a := rfl
@[simp] theorem State.setCx_c (s : State) (cx' : Vector Context 19) :
    (s.setCx cx').c = s.c := rfl
@[simp] theorem State.setCx_ct (s : State) (cx' : Vector Context 19) :
    (s.setCx cx').ct = s.ct := rfl
@[simp] theorem State.setCx_bp (s : State) (cx' : Vector Context 19) :
    (s.setCx cx').bp = s.bp := rfl
@[simp] theorem State.setCx_startAddr (s : State) (cx' : Vector Context 19) :
    (s.setCx cx').startAddr = s.startAddr := rfl
@[simp] theorem State.setCx_endAddr (s : State) (cx' : Vector Context 19) :
    (s.setCx cx').endAddr = s.endAddr := rfl
@[simp] theorem State.setCx_eoscnt (s : State) (cx' : Vector Context 19) :
    (s.setCx cx').eoscnt = s.eoscnt := rfl
@[simp] theorem State.setCx_rb (s : State) (cx' : Vector Context 19) :
    (s.setCx cx').rb = s.rb := rfl
@[simp] theorem State.setCx_rct (s : State) (cx' : Vector Context 19) :
    (s.setCx cx').rct = s.rct := rfl
@[simp] theorem State.setCx_lastff (s : State) (cx' : Vector Context 19) :
    (s.setCx cx').lastff = s.lastff := rfl
@[simp] theorem State.setCx_cx (s : State) (cx' : Vector Context 19) :
    (s.setCx cx').cx = cx' := rfl
@[simp] theorem State.setCx_w (s : State) (cx' : Vector Context 19) :
    (s.setCx cx').w = s.w := rfl
@[simp] theorem State.setCx_h (s : State) (cx' : Vector Context 19) :
    (s.setCx cx').h = s.h := rfl
@[simp] theorem State.setCx_orient (s : State) (cx' : Vector Context 19) :
    (s.setCx cx').orient = s.orient := rfl
@[simp] theorem State.setCx_fp (s : State) (cx' : Vector Context 19) :
    (s.setCx cx').fp = s.fp := rfl
@[simp] theorem State.setCx_cp (s : State) (cx' : Vector Context 19) :
    (s.setCx cx').cp = s.cp := rfl
@[simp] theorem State.setCx_cb (s : State) (cx' : Vector Context 19) :
    (s.setCx cx').cb = s.cb := rfl
@[simp] theorem State.setCx_unspec (s : State) (cx' : Vector Context 19) :
    (s.setCx cx').unspec = s.unspec := rfl
@[simp] theorem State.setCx_draws (s : State) (cx' : Vector Context 19) :
    (s.setCx cx').draws = s.draws := rfl

@[simp] theorem State.setGeometry_params (s : State) (w' : Nat) (h' : Nat) (orient' : Orientation) :
    (s.setGeometry w' h' orient').params = s.params := rfl
@[simp] theorem State.setGeometry_inbox (s : State) (w' : Nat) (h' : Nat) (orient' : Orientation) :
    (s.setGeometry w' h' orient').inbox = s.inbox := rfl
@[simp] theorem State.setGeometry_response (s : State) (w' : Nat) (h' : Nat) (orient' : Orientation) :
    (s.setGeometry w' h' orient').response = s.response := rfl
@[simp] theorem State.setGeometry_mode (s : State) (w' : Nat) (h' : Nat) (orient' : Orientation) :
    (s.setGeometry w' h' orient').mode = s.mode := rfl
@[simp] theorem State.setGeometry_geomv (s : State) (w' : Nat) (h' : Nat) (orient' : Orientation) :
    (s.setGeometry w' h' orient').geomv = s.geomv := rfl
@[simp] theorem State.setGeometry_errs (s : State) (w' : Nat) (h' : Nat) (orient' : Orientation) :
    (s.setGeometry w' h' orient').errs = s.errs := rfl
@[simp] theorem State.setGeometry_wslack (s : State) (w' : Nat) (h' : Nat) (orient' : Orientation) :
    (s.setGeometry w' h' orient').wslack = s.wslack := rfl
@[simp] theorem State.setGeometry_wmark (s : State) (w' : Nat) (h' : Nat) (orient' : Orientation) :
    (s.setGeometry w' h' orient').wmark = s.wmark := rfl
@[simp] theorem State.setGeometry_segbase (s : State) (w' : Nat) (h' : Nat) (orient' : Orientation) :
    (s.setGeometry w' h' orient').segbase = s.segbase := rfl
@[simp] theorem State.setGeometry_seglen (s : State) (w' : Nat) (h' : Nat) (orient' : Orientation) :
    (s.setGeometry w' h' orient').seglen = s.seglen := rfl
@[simp] theorem State.setGeometry_a (s : State) (w' : Nat) (h' : Nat) (orient' : Orientation) :
    (s.setGeometry w' h' orient').a = s.a := rfl
@[simp] theorem State.setGeometry_c (s : State) (w' : Nat) (h' : Nat) (orient' : Orientation) :
    (s.setGeometry w' h' orient').c = s.c := rfl
@[simp] theorem State.setGeometry_ct (s : State) (w' : Nat) (h' : Nat) (orient' : Orientation) :
    (s.setGeometry w' h' orient').ct = s.ct := rfl
@[simp] theorem State.setGeometry_bp (s : State) (w' : Nat) (h' : Nat) (orient' : Orientation) :
    (s.setGeometry w' h' orient').bp = s.bp := rfl
@[simp] theorem State.setGeometry_startAddr (s : State) (w' : Nat) (h' : Nat) (orient' : Orientation) :
    (s.setGeometry w' h' orient').startAddr = s.startAddr := rfl
@[simp] theorem State.setGeometry_endAddr (s : State) (w' : Nat) (h' : Nat) (orient' : Orientation) :
    (s.setGeometry w' h' orient').endAddr = s.endAddr := rfl
@[simp] theorem State.setGeometry_eoscnt (s : State) (w' : Nat) (h' : Nat) (orient' : Orientation) :
    (s.setGeometry w' h' orient').eoscnt = s.eoscnt := rfl
@[simp] theorem State.setGeometry_rb (s : State) (w' : Nat) (h' : Nat) (orient' : Orientation) :
    (s.setGeometry w' h' orient').rb = s.rb := rfl
@[simp] theorem State.setGeometry_rct (s : State) (w' : Nat) (h' : Nat) (orient' : Orientation) :
    (s.setGeometry w' h' orient').rct = s.rct := rfl
@[simp] theorem State.setGeometry_lastff (s : State) (w' : Nat) (h' : Nat) (orient' : Orientation) :
    (s.setGeometry w' h' orient').lastff = s.lastff := rfl
@[simp] theorem State.setGeometry_cx (s : State) (w' : Nat) (h' : Nat) (orient' : Orientation) :
    (s.setGeometry w' h' orient').cx = s.cx := rfl
@[simp] theorem State.setGeometry_w (s : State) (w' : Nat) (h' : Nat) (orient' : Orientation) :
    (s.setGeometry w' h' orient').w = w' := rfl
@[simp] theorem State.setGeometry_h (s : State) (w' : Nat) (h' : Nat) (orient' : Orientation) :
    (s.setGeometry w' h' orient').h = h' := rfl
@[simp] theorem State.setGeometry_orient (s : State) (w' : Nat) (h' : Nat) (orient' : Orientation) :
    (s.setGeometry w' h' orient').orient = orient' := rfl
@[simp] theorem State.setGeometry_fp (s : State) (w' : Nat) (h' : Nat) (orient' : Orientation) :
    (s.setGeometry w' h' orient').fp = s.fp := rfl
@[simp] theorem State.setGeometry_cp (s : State) (w' : Nat) (h' : Nat) (orient' : Orientation) :
    (s.setGeometry w' h' orient').cp = s.cp := rfl
@[simp] theorem State.setGeometry_cb (s : State) (w' : Nat) (h' : Nat) (orient' : Orientation) :
    (s.setGeometry w' h' orient').cb = s.cb := rfl
@[simp] theorem State.setGeometry_unspec (s : State) (w' : Nat) (h' : Nat) (orient' : Orientation) :
    (s.setGeometry w' h' orient').unspec = s.unspec := rfl
@[simp] theorem State.setGeometry_draws (s : State) (w' : Nat) (h' : Nat) (orient' : Orientation) :
    (s.setGeometry w' h' orient').draws = s.draws := rfl

@[simp] theorem State.setFp_params (s : State) (fp' : Cells 4) :
    (s.setFp fp').params = s.params := rfl
@[simp] theorem State.setFp_inbox (s : State) (fp' : Cells 4) :
    (s.setFp fp').inbox = s.inbox := rfl
@[simp] theorem State.setFp_response (s : State) (fp' : Cells 4) :
    (s.setFp fp').response = s.response := rfl
@[simp] theorem State.setFp_mode (s : State) (fp' : Cells 4) :
    (s.setFp fp').mode = s.mode := rfl
@[simp] theorem State.setFp_geomv (s : State) (fp' : Cells 4) :
    (s.setFp fp').geomv = s.geomv := rfl
@[simp] theorem State.setFp_errs (s : State) (fp' : Cells 4) :
    (s.setFp fp').errs = s.errs := rfl
@[simp] theorem State.setFp_wslack (s : State) (fp' : Cells 4) :
    (s.setFp fp').wslack = s.wslack := rfl
@[simp] theorem State.setFp_wmark (s : State) (fp' : Cells 4) :
    (s.setFp fp').wmark = s.wmark := rfl
@[simp] theorem State.setFp_segbase (s : State) (fp' : Cells 4) :
    (s.setFp fp').segbase = s.segbase := rfl
@[simp] theorem State.setFp_seglen (s : State) (fp' : Cells 4) :
    (s.setFp fp').seglen = s.seglen := rfl
@[simp] theorem State.setFp_a (s : State) (fp' : Cells 4) :
    (s.setFp fp').a = s.a := rfl
@[simp] theorem State.setFp_c (s : State) (fp' : Cells 4) :
    (s.setFp fp').c = s.c := rfl
@[simp] theorem State.setFp_ct (s : State) (fp' : Cells 4) :
    (s.setFp fp').ct = s.ct := rfl
@[simp] theorem State.setFp_bp (s : State) (fp' : Cells 4) :
    (s.setFp fp').bp = s.bp := rfl
@[simp] theorem State.setFp_startAddr (s : State) (fp' : Cells 4) :
    (s.setFp fp').startAddr = s.startAddr := rfl
@[simp] theorem State.setFp_endAddr (s : State) (fp' : Cells 4) :
    (s.setFp fp').endAddr = s.endAddr := rfl
@[simp] theorem State.setFp_eoscnt (s : State) (fp' : Cells 4) :
    (s.setFp fp').eoscnt = s.eoscnt := rfl
@[simp] theorem State.setFp_rb (s : State) (fp' : Cells 4) :
    (s.setFp fp').rb = s.rb := rfl
@[simp] theorem State.setFp_rct (s : State) (fp' : Cells 4) :
    (s.setFp fp').rct = s.rct := rfl
@[simp] theorem State.setFp_lastff (s : State) (fp' : Cells 4) :
    (s.setFp fp').lastff = s.lastff := rfl
@[simp] theorem State.setFp_cx (s : State) (fp' : Cells 4) :
    (s.setFp fp').cx = s.cx := rfl
@[simp] theorem State.setFp_w (s : State) (fp' : Cells 4) :
    (s.setFp fp').w = s.w := rfl
@[simp] theorem State.setFp_h (s : State) (fp' : Cells 4) :
    (s.setFp fp').h = s.h := rfl
@[simp] theorem State.setFp_orient (s : State) (fp' : Cells 4) :
    (s.setFp fp').orient = s.orient := rfl
@[simp] theorem State.setFp_fp (s : State) (fp' : Cells 4) :
    (s.setFp fp').fp = fp' := rfl
@[simp] theorem State.setFp_cp (s : State) (fp' : Cells 4) :
    (s.setFp fp').cp = s.cp := rfl
@[simp] theorem State.setFp_cb (s : State) (fp' : Cells 4) :
    (s.setFp fp').cb = s.cb := rfl
@[simp] theorem State.setFp_unspec (s : State) (fp' : Cells 4) :
    (s.setFp fp').unspec = s.unspec := rfl
@[simp] theorem State.setFp_draws (s : State) (fp' : Cells 4) :
    (s.setFp fp').draws = s.draws := rfl

@[simp] theorem State.setCp_params (s : State) (cp' : Memory 32) :
    (s.setCp cp').params = s.params := rfl
@[simp] theorem State.setCp_inbox (s : State) (cp' : Memory 32) :
    (s.setCp cp').inbox = s.inbox := rfl
@[simp] theorem State.setCp_response (s : State) (cp' : Memory 32) :
    (s.setCp cp').response = s.response := rfl
@[simp] theorem State.setCp_mode (s : State) (cp' : Memory 32) :
    (s.setCp cp').mode = s.mode := rfl
@[simp] theorem State.setCp_geomv (s : State) (cp' : Memory 32) :
    (s.setCp cp').geomv = s.geomv := rfl
@[simp] theorem State.setCp_errs (s : State) (cp' : Memory 32) :
    (s.setCp cp').errs = s.errs := rfl
@[simp] theorem State.setCp_wslack (s : State) (cp' : Memory 32) :
    (s.setCp cp').wslack = s.wslack := rfl
@[simp] theorem State.setCp_wmark (s : State) (cp' : Memory 32) :
    (s.setCp cp').wmark = s.wmark := rfl
@[simp] theorem State.setCp_segbase (s : State) (cp' : Memory 32) :
    (s.setCp cp').segbase = s.segbase := rfl
@[simp] theorem State.setCp_seglen (s : State) (cp' : Memory 32) :
    (s.setCp cp').seglen = s.seglen := rfl
@[simp] theorem State.setCp_a (s : State) (cp' : Memory 32) :
    (s.setCp cp').a = s.a := rfl
@[simp] theorem State.setCp_c (s : State) (cp' : Memory 32) :
    (s.setCp cp').c = s.c := rfl
@[simp] theorem State.setCp_ct (s : State) (cp' : Memory 32) :
    (s.setCp cp').ct = s.ct := rfl
@[simp] theorem State.setCp_bp (s : State) (cp' : Memory 32) :
    (s.setCp cp').bp = s.bp := rfl
@[simp] theorem State.setCp_startAddr (s : State) (cp' : Memory 32) :
    (s.setCp cp').startAddr = s.startAddr := rfl
@[simp] theorem State.setCp_endAddr (s : State) (cp' : Memory 32) :
    (s.setCp cp').endAddr = s.endAddr := rfl
@[simp] theorem State.setCp_eoscnt (s : State) (cp' : Memory 32) :
    (s.setCp cp').eoscnt = s.eoscnt := rfl
@[simp] theorem State.setCp_rb (s : State) (cp' : Memory 32) :
    (s.setCp cp').rb = s.rb := rfl
@[simp] theorem State.setCp_rct (s : State) (cp' : Memory 32) :
    (s.setCp cp').rct = s.rct := rfl
@[simp] theorem State.setCp_lastff (s : State) (cp' : Memory 32) :
    (s.setCp cp').lastff = s.lastff := rfl
@[simp] theorem State.setCp_cx (s : State) (cp' : Memory 32) :
    (s.setCp cp').cx = s.cx := rfl
@[simp] theorem State.setCp_w (s : State) (cp' : Memory 32) :
    (s.setCp cp').w = s.w := rfl
@[simp] theorem State.setCp_h (s : State) (cp' : Memory 32) :
    (s.setCp cp').h = s.h := rfl
@[simp] theorem State.setCp_orient (s : State) (cp' : Memory 32) :
    (s.setCp cp').orient = s.orient := rfl
@[simp] theorem State.setCp_fp (s : State) (cp' : Memory 32) :
    (s.setCp cp').fp = s.fp := rfl
@[simp] theorem State.setCp_cp (s : State) (cp' : Memory 32) :
    (s.setCp cp').cp = cp' := rfl
@[simp] theorem State.setCp_cb (s : State) (cp' : Memory 32) :
    (s.setCp cp').cb = s.cb := rfl
@[simp] theorem State.setCp_unspec (s : State) (cp' : Memory 32) :
    (s.setCp cp').unspec = s.unspec := rfl
@[simp] theorem State.setCp_draws (s : State) (cp' : Memory 32) :
    (s.setCp cp').draws = s.draws := rfl

@[simp] theorem State.setCb_params (s : State) (cb' : Memory 8) :
    (s.setCb cb').params = s.params := rfl
@[simp] theorem State.setCb_inbox (s : State) (cb' : Memory 8) :
    (s.setCb cb').inbox = s.inbox := rfl
@[simp] theorem State.setCb_response (s : State) (cb' : Memory 8) :
    (s.setCb cb').response = s.response := rfl
@[simp] theorem State.setCb_mode (s : State) (cb' : Memory 8) :
    (s.setCb cb').mode = s.mode := rfl
@[simp] theorem State.setCb_geomv (s : State) (cb' : Memory 8) :
    (s.setCb cb').geomv = s.geomv := rfl
@[simp] theorem State.setCb_errs (s : State) (cb' : Memory 8) :
    (s.setCb cb').errs = s.errs := rfl
@[simp] theorem State.setCb_wslack (s : State) (cb' : Memory 8) :
    (s.setCb cb').wslack = s.wslack := rfl
@[simp] theorem State.setCb_wmark (s : State) (cb' : Memory 8) :
    (s.setCb cb').wmark = s.wmark := rfl
@[simp] theorem State.setCb_segbase (s : State) (cb' : Memory 8) :
    (s.setCb cb').segbase = s.segbase := rfl
@[simp] theorem State.setCb_seglen (s : State) (cb' : Memory 8) :
    (s.setCb cb').seglen = s.seglen := rfl
@[simp] theorem State.setCb_a (s : State) (cb' : Memory 8) :
    (s.setCb cb').a = s.a := rfl
@[simp] theorem State.setCb_c (s : State) (cb' : Memory 8) :
    (s.setCb cb').c = s.c := rfl
@[simp] theorem State.setCb_ct (s : State) (cb' : Memory 8) :
    (s.setCb cb').ct = s.ct := rfl
@[simp] theorem State.setCb_bp (s : State) (cb' : Memory 8) :
    (s.setCb cb').bp = s.bp := rfl
@[simp] theorem State.setCb_startAddr (s : State) (cb' : Memory 8) :
    (s.setCb cb').startAddr = s.startAddr := rfl
@[simp] theorem State.setCb_endAddr (s : State) (cb' : Memory 8) :
    (s.setCb cb').endAddr = s.endAddr := rfl
@[simp] theorem State.setCb_eoscnt (s : State) (cb' : Memory 8) :
    (s.setCb cb').eoscnt = s.eoscnt := rfl
@[simp] theorem State.setCb_rb (s : State) (cb' : Memory 8) :
    (s.setCb cb').rb = s.rb := rfl
@[simp] theorem State.setCb_rct (s : State) (cb' : Memory 8) :
    (s.setCb cb').rct = s.rct := rfl
@[simp] theorem State.setCb_lastff (s : State) (cb' : Memory 8) :
    (s.setCb cb').lastff = s.lastff := rfl
@[simp] theorem State.setCb_cx (s : State) (cb' : Memory 8) :
    (s.setCb cb').cx = s.cx := rfl
@[simp] theorem State.setCb_w (s : State) (cb' : Memory 8) :
    (s.setCb cb').w = s.w := rfl
@[simp] theorem State.setCb_h (s : State) (cb' : Memory 8) :
    (s.setCb cb').h = s.h := rfl
@[simp] theorem State.setCb_orient (s : State) (cb' : Memory 8) :
    (s.setCb cb').orient = s.orient := rfl
@[simp] theorem State.setCb_fp (s : State) (cb' : Memory 8) :
    (s.setCb cb').fp = s.fp := rfl
@[simp] theorem State.setCb_cp (s : State) (cb' : Memory 8) :
    (s.setCb cb').cp = s.cp := rfl
@[simp] theorem State.setCb_cb (s : State) (cb' : Memory 8) :
    (s.setCb cb').cb = cb' := rfl
@[simp] theorem State.setCb_unspec (s : State) (cb' : Memory 8) :
    (s.setCb cb').unspec = s.unspec := rfl
@[simp] theorem State.setCb_draws (s : State) (cb' : Memory 8) :
    (s.setCb cb').draws = s.draws := rfl

@[simp] theorem State.setUnspec_params (s : State) (unspec' : Unspecified) :
    (s.setUnspec unspec').params = s.params := rfl
@[simp] theorem State.setUnspec_inbox (s : State) (unspec' : Unspecified) :
    (s.setUnspec unspec').inbox = s.inbox := rfl
@[simp] theorem State.setUnspec_response (s : State) (unspec' : Unspecified) :
    (s.setUnspec unspec').response = s.response := rfl
@[simp] theorem State.setUnspec_mode (s : State) (unspec' : Unspecified) :
    (s.setUnspec unspec').mode = s.mode := rfl
@[simp] theorem State.setUnspec_geomv (s : State) (unspec' : Unspecified) :
    (s.setUnspec unspec').geomv = s.geomv := rfl
@[simp] theorem State.setUnspec_errs (s : State) (unspec' : Unspecified) :
    (s.setUnspec unspec').errs = s.errs := rfl
@[simp] theorem State.setUnspec_wslack (s : State) (unspec' : Unspecified) :
    (s.setUnspec unspec').wslack = s.wslack := rfl
@[simp] theorem State.setUnspec_wmark (s : State) (unspec' : Unspecified) :
    (s.setUnspec unspec').wmark = s.wmark := rfl
@[simp] theorem State.setUnspec_segbase (s : State) (unspec' : Unspecified) :
    (s.setUnspec unspec').segbase = s.segbase := rfl
@[simp] theorem State.setUnspec_seglen (s : State) (unspec' : Unspecified) :
    (s.setUnspec unspec').seglen = s.seglen := rfl
@[simp] theorem State.setUnspec_a (s : State) (unspec' : Unspecified) :
    (s.setUnspec unspec').a = s.a := rfl
@[simp] theorem State.setUnspec_c (s : State) (unspec' : Unspecified) :
    (s.setUnspec unspec').c = s.c := rfl
@[simp] theorem State.setUnspec_ct (s : State) (unspec' : Unspecified) :
    (s.setUnspec unspec').ct = s.ct := rfl
@[simp] theorem State.setUnspec_bp (s : State) (unspec' : Unspecified) :
    (s.setUnspec unspec').bp = s.bp := rfl
@[simp] theorem State.setUnspec_startAddr (s : State) (unspec' : Unspecified) :
    (s.setUnspec unspec').startAddr = s.startAddr := rfl
@[simp] theorem State.setUnspec_endAddr (s : State) (unspec' : Unspecified) :
    (s.setUnspec unspec').endAddr = s.endAddr := rfl
@[simp] theorem State.setUnspec_eoscnt (s : State) (unspec' : Unspecified) :
    (s.setUnspec unspec').eoscnt = s.eoscnt := rfl
@[simp] theorem State.setUnspec_rb (s : State) (unspec' : Unspecified) :
    (s.setUnspec unspec').rb = s.rb := rfl
@[simp] theorem State.setUnspec_rct (s : State) (unspec' : Unspecified) :
    (s.setUnspec unspec').rct = s.rct := rfl
@[simp] theorem State.setUnspec_lastff (s : State) (unspec' : Unspecified) :
    (s.setUnspec unspec').lastff = s.lastff := rfl
@[simp] theorem State.setUnspec_cx (s : State) (unspec' : Unspecified) :
    (s.setUnspec unspec').cx = s.cx := rfl
@[simp] theorem State.setUnspec_w (s : State) (unspec' : Unspecified) :
    (s.setUnspec unspec').w = s.w := rfl
@[simp] theorem State.setUnspec_h (s : State) (unspec' : Unspecified) :
    (s.setUnspec unspec').h = s.h := rfl
@[simp] theorem State.setUnspec_orient (s : State) (unspec' : Unspecified) :
    (s.setUnspec unspec').orient = s.orient := rfl
@[simp] theorem State.setUnspec_fp (s : State) (unspec' : Unspecified) :
    (s.setUnspec unspec').fp = s.fp := rfl
@[simp] theorem State.setUnspec_cp (s : State) (unspec' : Unspecified) :
    (s.setUnspec unspec').cp = s.cp := rfl
@[simp] theorem State.setUnspec_cb (s : State) (unspec' : Unspecified) :
    (s.setUnspec unspec').cb = s.cb := rfl
@[simp] theorem State.setUnspec_unspec (s : State) (unspec' : Unspecified) :
    (s.setUnspec unspec').unspec = unspec' := rfl
@[simp] theorem State.setUnspec_draws (s : State) (unspec' : Unspecified) :
    (s.setUnspec unspec').draws = s.draws := rfl

@[simp] theorem State.setDraws_params (s : State) (draws' : Nat) :
    (s.setDraws draws').params = s.params := rfl
@[simp] theorem State.setDraws_inbox (s : State) (draws' : Nat) :
    (s.setDraws draws').inbox = s.inbox := rfl
@[simp] theorem State.setDraws_response (s : State) (draws' : Nat) :
    (s.setDraws draws').response = s.response := rfl
@[simp] theorem State.setDraws_mode (s : State) (draws' : Nat) :
    (s.setDraws draws').mode = s.mode := rfl
@[simp] theorem State.setDraws_geomv (s : State) (draws' : Nat) :
    (s.setDraws draws').geomv = s.geomv := rfl
@[simp] theorem State.setDraws_errs (s : State) (draws' : Nat) :
    (s.setDraws draws').errs = s.errs := rfl
@[simp] theorem State.setDraws_wslack (s : State) (draws' : Nat) :
    (s.setDraws draws').wslack = s.wslack := rfl
@[simp] theorem State.setDraws_wmark (s : State) (draws' : Nat) :
    (s.setDraws draws').wmark = s.wmark := rfl
@[simp] theorem State.setDraws_segbase (s : State) (draws' : Nat) :
    (s.setDraws draws').segbase = s.segbase := rfl
@[simp] theorem State.setDraws_seglen (s : State) (draws' : Nat) :
    (s.setDraws draws').seglen = s.seglen := rfl
@[simp] theorem State.setDraws_a (s : State) (draws' : Nat) :
    (s.setDraws draws').a = s.a := rfl
@[simp] theorem State.setDraws_c (s : State) (draws' : Nat) :
    (s.setDraws draws').c = s.c := rfl
@[simp] theorem State.setDraws_ct (s : State) (draws' : Nat) :
    (s.setDraws draws').ct = s.ct := rfl
@[simp] theorem State.setDraws_bp (s : State) (draws' : Nat) :
    (s.setDraws draws').bp = s.bp := rfl
@[simp] theorem State.setDraws_startAddr (s : State) (draws' : Nat) :
    (s.setDraws draws').startAddr = s.startAddr := rfl
@[simp] theorem State.setDraws_endAddr (s : State) (draws' : Nat) :
    (s.setDraws draws').endAddr = s.endAddr := rfl
@[simp] theorem State.setDraws_eoscnt (s : State) (draws' : Nat) :
    (s.setDraws draws').eoscnt = s.eoscnt := rfl
@[simp] theorem State.setDraws_rb (s : State) (draws' : Nat) :
    (s.setDraws draws').rb = s.rb := rfl
@[simp] theorem State.setDraws_rct (s : State) (draws' : Nat) :
    (s.setDraws draws').rct = s.rct := rfl
@[simp] theorem State.setDraws_lastff (s : State) (draws' : Nat) :
    (s.setDraws draws').lastff = s.lastff := rfl
@[simp] theorem State.setDraws_cx (s : State) (draws' : Nat) :
    (s.setDraws draws').cx = s.cx := rfl
@[simp] theorem State.setDraws_w (s : State) (draws' : Nat) :
    (s.setDraws draws').w = s.w := rfl
@[simp] theorem State.setDraws_h (s : State) (draws' : Nat) :
    (s.setDraws draws').h = s.h := rfl
@[simp] theorem State.setDraws_orient (s : State) (draws' : Nat) :
    (s.setDraws draws').orient = s.orient := rfl
@[simp] theorem State.setDraws_fp (s : State) (draws' : Nat) :
    (s.setDraws draws').fp = s.fp := rfl
@[simp] theorem State.setDraws_cp (s : State) (draws' : Nat) :
    (s.setDraws draws').cp = s.cp := rfl
@[simp] theorem State.setDraws_cb (s : State) (draws' : Nat) :
    (s.setDraws draws').cb = s.cb := rfl
@[simp] theorem State.setDraws_unspec (s : State) (draws' : Nat) :
    (s.setDraws draws').unspec = s.unspec := rfl
@[simp] theorem State.setDraws_draws (s : State) (draws' : Nat) :
    (s.setDraws draws').draws = draws' := rfl

end Sys2Proof.Machine
end

