-- ==== Sys2Proof/Laws/Abandon.lean ====
section
/-! SUPPORT. The laws of the reset event while a command runs (Machine/Abandon.lean): whatever the command, it is the reset
event and some of the command's writes, so it keeps the canonical form of the memories and differs from the reset event
in CB and CP alone. -/

namespace Sys2Proof.Machine

theorem resetAfterWrites_eq (cbWrites : List (Nat × Byte)) (cpWrites : List (Nat × Word)) (s : State) :
    resetAfterWrites cbWrites cpWrites s =
      { resetEvent s with
        cb := (resetEvent s).cb.writeAll cbWrites, cp := (resetEvent s).cp.writeAll cpWrites } := rfl

@[simp] theorem resetAfterWrites_nil (s : State) : resetAfterWrites [] [] s = resetEvent s := rfl

/-- ALL that abandoning a command can do: the reset event, and writes of a beginning of what it had recorded. -/
theorem abandonCommand_cases (cmd arg : Word) (writes : Nat) (s : State) :
    abandonCommand cmd arg writes s = resetEvent s
      ∨ ∃ i t, decode cmd arg = .ok i ∧ exec i (recordWrites s) = .next t
        ∧ abandonCommand cmd arg writes s =
          resetAfterWrites (t.cb.recorded.take writes) (t.cp.recorded.take writes) s := by
  unfold abandonCommand
  split
  · exact .inl rfl
  · rename_i i hd
    split
    · rename_i t ht
      exact .inr ⟨i, t, hd, ht, rfl⟩
    · exact .inl rfl
    · exact .inl rfl

/-- The same without the command: the reset event and some writes. -/
theorem abandonCommand_eq (cmd arg : Word) (writes : Nat) (s : State) :
    ∃ cbWrites cpWrites, abandonCommand cmd arg writes s = resetAfterWrites cbWrites cpWrites s := by
  rcases abandonCommand_cases cmd arg writes s with h | ⟨_, t, -, -, h⟩
  · exact ⟨[], [], h⟩
  · exact ⟨_, _, h⟩

/-- With no cell written yet the event is the reset event. -/
theorem abandonCommand_zero (cmd arg : Word) (s : State) : abandonCommand cmd arg 0 s = resetEvent s := by
  rcases abandonCommand_cases cmd arg 0 s with h | ⟨_, _, -, -, h⟩ <;> simp [h]

/-- The canonical form of the memories is kept. -/
theorem abandonCommand_memories_wf {s : State} (hb : s.cb.wf = true) (hp : s.cp.wf = true) (cmd arg : Word)
    (writes : Nat) :
    (abandonCommand cmd arg writes s).cb.wf = true ∧ (abandonCommand cmd arg writes s).cp.wf = true
      ∧ (abandonCommand cmd arg writes s).fp.wf = true := by
  obtain ⟨ws, us, h⟩ := abandonCommand_eq cmd arg writes s
  rw [h]
  exact ⟨Memory.wf_writeAll hb ws, Memory.wf_writeAll (Memory.wf_forget hp 0 s.params.maxarea s.draws) us, rfl⟩

end Sys2Proof.Machine
end

