-- ==== Sys2Proof/Laws/Ops.lean ====
section
/-! SUPPORT. What each shared operation of `Machine/Ops.lean` can do: one lemma for each, which the proofs cite instead of
unfolding it. -/

namespace Sys2Proof.Machine

/-! ## Runs -/

@[simp] theorem Run.bind_done {α β : Type} (v : α) (s : State) (f : α → State → Run β) :
    (Run.done v s).bind f = f v s := rfl

@[simp] theorem Run.bind_overflow {α β : Type} (s : State) (f : α → State → Run β) :
    (Run.overflow s : Run α).bind f = .overflow s := rfl

@[simp] theorem Run.all_done {α : Type} (P : State → Prop) (v : α) (s : State) : (Run.done v s).All P ↔ P s :=
  Iff.rfl

@[simp] theorem Run.all_overflow {α : Type} (P : State → Prop) (s : State) :
    (Run.overflow s : Run α).All P ↔ P s := Iff.rfl

/-- A property that the first procedure establishes and the second keeps holds at the end of both. -/
theorem Run.all_bind {α β : Type} {P : State → Prop} {r : Run α} {f : α → State → Run β}
    (hr : r.All P) (hf : ∀ v s, P s → (f v s).All P) : (r.bind f).All P := by
  cases r with
  | done v s => exact hf v s hr
  | overflow s => exact hr

theorem Run.all_imp {α : Type} {P Q : State → Prop} {r : Run α} (h : ∀ s, P s → Q s) (hr : r.All P) : r.All Q := by
  cases r <;> exact h _ hr

/-- A property that every visit keeps holds after all of them. -/
theorem forEach_all {α : Type} {P : State → Prop} {visit : α → State → Run Unit} (xs : List α)
    (h : ∀ x ∈ xs, ∀ s, P s → (visit x s).All P) (s : State) (hs : P s) : (forEach visit xs s).All P := by
  induction xs generalizing s with
  | nil => exact hs
  | cons x xs ih =>
    exact Run.all_bind (h x (List.mem_cons_self ..) s hs)
      fun _ t ht => ih (fun y hy => h y (List.mem_cons_of_mem _ hy)) t ht

/-! ## Refusal and admission -/

/-- A refused command, field by field (R232): the sticky bit and the response, nothing else. -/
theorem refuse_eq (e : ErrorCode) (s : State) :
    refuse e s = { s with errs := s.errs ||| errorBit e, response := some (Response.error e) } := rfl

@[simp] theorem admitted_none (s : State) (run : State → State) : admitted none s run = run s := rfl

@[simp] theorem admitted_some (e : ErrorCode) (s : State) (run : State → State) :
    admitted (some e) s run = refuse e s := rfl

@[simp] theorem orElse_none (c : Option ErrorCode) : orElse none c = c := rfl

@[simp] theorem orElse_some (e : ErrorCode) (c : Option ErrorCode) : orElse (some e) c = some e := rfl

@[simp] theorem require_true (e : ErrorCode) : require true e = none := rfl

@[simp] theorem require_false (e : ErrorCode) : require false e = some e := rfl

theorem require_eq_none {ok : Bool} {e : ErrorCode} : require ok e = none ↔ ok = true := by
  cases ok <;> simp

theorem orElse_eq_none {c d : Option ErrorCode} : orElse c d = none ↔ c = none ∧ d = none := by
  cases c <;> simp

/-- The taking of the fault, field by field (R233). -/
theorem takeFault_eq (s : State) :
    takeFault s = { s with
      mode := .fault, errs := s.errs ||| errorBit .overflow, response := some (Response.error .overflow)
      unspec := unspecifiedByFault s.unspec
      cb := s.cb.forget s.startAddr.toNat s.endAddr.toNat s.draws, draws := s.draws + 1 } := rfl

/-! ## Frames: reflexive, transitive, and kept by the updates they allow -/

theorem DecoderFrame.refl (s : State) : DecoderFrame s s := rfl

theorem DecoderFrame.trans {s t u : State} (h : DecoderFrame s t) (g : DecoderFrame t u) : DecoderFrame s u := by
  unfold DecoderFrame at *
  rw [State.ext_iff] at *
  simp_all

theorem DecoderFrame.setA {s t : State} (a : BitVec 16) (h : DecoderFrame s t) : DecoderFrame s (t.setA a) :=
  h.trans rfl

theorem DecoderFrame.setC {s t : State} (c : Word) (h : DecoderFrame s t) : DecoderFrame s (t.setC c) :=
  h.trans rfl

theorem DecoderFrame.setCt {s t : State} (n : BitVec 4) (h : DecoderFrame s t) : DecoderFrame s (t.setCt n) :=
  h.trans rfl

theorem DecoderFrame.setBp {s t : State} (b : Int) (h : DecoderFrame s t) : DecoderFrame s (t.setBp b) :=
  h.trans rfl

theorem DecoderFrame.setEoscnt {s t : State} (n : Word) (h : DecoderFrame s t) : DecoderFrame s (t.setEoscnt n) :=
  h.trans rfl

theorem DecoderFrame.setCx {s t : State} (x : Vector Context 19) (h : DecoderFrame s t) : DecoderFrame s (t.setCx x) :=
  h.trans rfl

theorem EncoderFrame.refl (s : State) : EncoderFrame s s := rfl

theorem EncoderFrame.trans {s t u : State} (h : EncoderFrame s t) (g : EncoderFrame t u) : EncoderFrame s u := by
  unfold EncoderFrame at *
  rw [State.ext_iff] at *
  simp_all

theorem EncoderFrame.setA {s t : State} (a : BitVec 16) (h : EncoderFrame s t) : EncoderFrame s (t.setA a) :=
  h.trans rfl

theorem EncoderFrame.setC {s t : State} (c : Word) (h : EncoderFrame s t) : EncoderFrame s (t.setC c) :=
  h.trans rfl

theorem EncoderFrame.setCt {s t : State} (n : BitVec 4) (h : EncoderFrame s t) : EncoderFrame s (t.setCt n) :=
  h.trans rfl

theorem EncoderFrame.setBp {s t : State} (b : Int) (h : EncoderFrame s t) : EncoderFrame s (t.setBp b) :=
  h.trans rfl

theorem EncoderFrame.setCx {s t : State} (x : Vector Context 19) (h : EncoderFrame s t) : EncoderFrame s (t.setCx x) :=
  h.trans rfl

theorem EncoderFrame.setCb {s t : State} (m : Memory 8) (h : EncoderFrame s t) : EncoderFrame s (t.setCb m) :=
  h.trans rfl

theorem RawDecoderFrame.refl (s : State) : RawDecoderFrame s s := rfl

theorem RawDecoderFrame.trans {s t u : State} (h : RawDecoderFrame s t) (g : RawDecoderFrame t u) : RawDecoderFrame s u := by
  unfold RawDecoderFrame at *
  rw [State.ext_iff] at *
  simp_all

theorem RawDecoderFrame.setRaw {s t : State} (b : Byte) (n : BitVec 4) (h : RawDecoderFrame s t) : RawDecoderFrame s (t.setRaw b n) :=
  h.trans rfl

theorem RawDecoderFrame.setBp {s t : State} (b : Int) (h : RawDecoderFrame s t) : RawDecoderFrame s (t.setBp b) :=
  h.trans rfl

theorem RawEncoderFrame.refl (s : State) : RawEncoderFrame s s := rfl

theorem RawEncoderFrame.trans {s t u : State} (h : RawEncoderFrame s t) (g : RawEncoderFrame t u) : RawEncoderFrame s u := by
  unfold RawEncoderFrame at *
  rw [State.ext_iff] at *
  simp_all

theorem RawEncoderFrame.setRaw {s t : State} (b : Byte) (n : BitVec 4) (h : RawEncoderFrame s t) : RawEncoderFrame s (t.setRaw b n) :=
  h.trans rfl

theorem RawEncoderFrame.setLastff {s t : State} (f : Bool) (h : RawEncoderFrame s t) : RawEncoderFrame s (t.setLastff f) :=
  h.trans rfl

theorem RawEncoderFrame.setBp {s t : State} (b : Int) (h : RawEncoderFrame s t) : RawEncoderFrame s (t.setBp b) :=
  h.trans rfl

theorem RawEncoderFrame.setCb {s t : State} (m : Memory 8) (h : RawEncoderFrame s t) : RawEncoderFrame s (t.setCb m) :=
  h.trans rfl

/-! ## MQ decoder -/

/-- BYTEIN does one of three things (R90): a marker, a stuffed byte, or an ordinary byte. -/
theorem byteIn_cases (s : State) :
    (fetchByte s s.bp = 0xFF ∧ 0x8F < fetchByte s (s.bp + 1) ∧
      byteIn s = ((s.setC (s.c + 0xFF00)).setCt 8).setEoscnt (countMarker s.eoscnt)) ∨
    (fetchByte s s.bp = 0xFF ∧ ¬ 0x8F < fetchByte s (s.bp + 1) ∧
      byteIn s = ((s.setBp (s.bp + 1)).setC (s.c + (fetchByte s (s.bp + 1)).setWidth 32 <<< 9)).setCt 7) ∨
    (fetchByte s s.bp ≠ 0xFF ∧
      byteIn s = ((s.setBp (s.bp + 1)).setC (s.c + (fetchByte s (s.bp + 1)).setWidth 32 <<< 8)).setCt 8) := by
  unfold byteIn
  by_cases h : fetchByte s s.bp = 0xFF
  · by_cases h2 : 0x8F < fetchByte s (s.bp + 1)
    · exact .inl ⟨h, h2, by rw [if_pos h, if_pos h2]⟩
    · exact .inr (.inl ⟨h, h2, by rw [if_pos h, if_neg h2]⟩)
  · exact .inr (.inr ⟨h, by rw [if_neg h]⟩)

theorem byteIn_frame (s : State) : DecoderFrame s (byteIn s) := by
  rcases byteIn_cases s with ⟨_, _, h⟩ | ⟨_, _, h⟩ | ⟨_, h⟩ <;> rw [h]
  · exact ((DecoderFrame.refl s).setC _ |>.setCt _).setEoscnt _
  · exact ((DecoderFrame.refl s).setBp _ |>.setC _).setCt _
  · exact ((DecoderFrame.refl s).setBp _ |>.setC _).setCt _

@[simp] theorem byteIn_a (s : State) : (byteIn s).a = s.a := by
  rcases byteIn_cases s with ⟨_, _, h⟩ | ⟨_, _, h⟩ | ⟨_, h⟩ <;> simp [h]

@[simp] theorem byteIn_cx (s : State) : (byteIn s).cx = s.cx := by
  rcases byteIn_cases s with ⟨_, _, h⟩ | ⟨_, _, h⟩ | ⟨_, h⟩ <;> simp [h]

@[simp] theorem shiftUp_a (s : State) : (shiftUp s).a = s.a <<< 1 := rfl

@[simp] theorem shiftUp_c (s : State) : (shiftUp s).c = s.c <<< 1 := rfl

@[simp] theorem shiftUp_ct (s : State) : (shiftUp s).ct = s.ct - 1 := rfl

@[simp] theorem shiftUp_cx (s : State) : (shiftUp s).cx = s.cx := rfl

theorem shiftUp_decoderFrame (s : State) : DecoderFrame s (shiftUp s) :=
  ((DecoderFrame.refl s).setA _ |>.setC _).setCt _

theorem shiftUp_encoderFrame (s : State) : EncoderFrame s (shiftUp s) :=
  ((EncoderFrame.refl s).setA _ |>.setC _).setCt _

theorem decoderRound_frame (s : State) : DecoderFrame s (decoderRound s) := by
  unfold decoderRound
  split
  · exact (byteIn_frame s).trans (shiftUp_decoderFrame _)
  · exact shiftUp_decoderFrame s

@[simp] theorem decoderRound_cx (s : State) : (decoderRound s).cx = s.cx := by
  unfold decoderRound
  split <;> simp

@[simp] theorem decoderRound_a (s : State) : (decoderRound s).a = s.a <<< 1 := by
  unfold decoderRound
  split <;> simp

theorem renormDecoder_frame (n : Nat) (s : State) : DecoderFrame s (renormDecoder n s) := by
  induction n generalizing s with
  | zero => exact .refl s
  | succ n ih =>
    rw [renormDecoder]
    split
    · exact (decoderRound_frame s).trans (ih _)
    · exact decoderRound_frame s

@[simp] theorem renormDecoder_cx (n : Nat) (s : State) : (renormDecoder n s).cx = s.cx := by
  induction n generalizing s with
  | zero => rfl
  | succ n ih =>
    rw [renormDecoder]
    split
    · rw [ih, decoderRound_cx]
    · exact decoderRound_cx s

theorem toNat_shiftLeft_one (a : BitVec 16) (h : a.toNat < 2 ^ 15) : (a <<< 1).toNat = a.toNat * 2 := by
  rw [BitVec.toNat_shiftLeft, Nat.shiftLeft_eq]
  omega

/-- RENORMD shifts A up (R91): at least one place, and until it is at least 0x8000. -/
theorem renormDecoder_a (n : Nat) (s : State) (hlt : s.a.toNat < 2 ^ 15) (hn : 2 ^ 15 ≤ s.a.toNat * 2 ^ n) :
    ∃ m, 1 ≤ m ∧ m ≤ n ∧ (renormDecoder n s).a.toNat = s.a.toNat * 2 ^ m ∧ 2 ^ 15 ≤ (renormDecoder n s).a.toNat := by
  induction n generalizing s with
  | zero => omega
  | succ n ih =>
    have ha : (decoderRound s).a.toNat = s.a.toNat * 2 := by rw [decoderRound_a, toNat_shiftLeft_one _ hlt]
    rw [renormDecoder]
    split
    · rename_i h
      have h' : (decoderRound s).a.toNat < 2 ^ 15 := BitVec.lt_def.1 h
      obtain ⟨m, h1, h2, h3, h4⟩ := ih _ h' (by rw [ha, Nat.mul_assoc, ← Nat.pow_succ']; exact hn)
      exact ⟨m + 1, by omega, by omega, by rw [h3, ha, Nat.pow_succ]; ring, h4⟩
    · rename_i h
      have h' : ¬ (decoderRound s).a.toNat < 2 ^ 15 := fun hh => h (BitVec.lt_def.2 hh)
      exact ⟨1, le_refl _, by omega, by rw [ha]; ring, by omega⟩

/-! ## The context multiplexer -/

theorem mpsTransition_decoderFrame (k : Label) (s : State) : DecoderFrame s (mpsTransition k s) :=
  (DecoderFrame.refl s).setCx _

theorem lpsTransition_decoderFrame (k : Label) (s : State) : DecoderFrame s (lpsTransition k s) :=
  (DecoderFrame.refl s).setCx _

theorem mpsTransition_encoderFrame (k : Label) (s : State) : EncoderFrame s (mpsTransition k s) :=
  (EncoderFrame.refl s).setCx _

theorem lpsTransition_encoderFrame (k : Label) (s : State) : EncoderFrame s (lpsTransition k s) :=
  (EncoderFrame.refl s).setCx _

@[simp] theorem mpsTransition_a (k : Label) (s : State) : (mpsTransition k s).a = s.a := rfl

@[simp] theorem lpsTransition_a (k : Label) (s : State) : (lpsTransition k s).a = s.a := rfl

theorem mpsExchange_frame (k : Label) (q : BitVec 16) (s : State) : DecoderFrame s (mpsExchange k q s).2 := by
  unfold mpsExchange
  split
  · exact lpsTransition_decoderFrame k s
  · exact mpsTransition_decoderFrame k s

@[simp] theorem mpsExchange_a (k : Label) (q : BitVec 16) (s : State) : (mpsExchange k q s).2.a = s.a := by
  unfold mpsExchange
  split <;> rfl

theorem lpsExchange_frame (k : Label) (q : BitVec 16) (s : State) : DecoderFrame s (lpsExchange k q s).2 := by
  unfold lpsExchange
  split
  · exact (mpsTransition_decoderFrame k s).setA _
  · exact (lpsTransition_decoderFrame k s).setA _

@[simp] theorem lpsExchange_a (k : Label) (q : BitVec 16) (s : State) : (lpsExchange k q s).2.a = q := by
  unfold lpsExchange
  split <;> rfl

/-- A decision writes what R93 lists and nothing else. -/
theorem decodeDecision_frame (k : Label) (s : State) : DecoderFrame s (decodeDecision k s).2 := by
  unfold decodeDecision
  dsimp only
  split
  · exact ((DecoderFrame.refl s).setA _).trans ((lpsExchange_frame k _ _).trans (renormDecoder_frame _ _))
  · split
    · exact (((DecoderFrame.refl s).setA _).setC _).trans ((mpsExchange_frame k _ _).trans (renormDecoder_frame _ _))
    · exact ((DecoderFrame.refl s).setA _).setC _

/-! ## MQ encoder -/

/-- A store is made below END, and overflows at or beyond it (R57). -/
theorem storeByte_cases (address : Int) (v : Byte) (s : State) :
    (address < s.endAddr.toNat ∧
      storeByte address v s = .done () (s.setCb (s.cb.write address.toNat v))) ∨
    (s.endAddr.toNat ≤ address ∧ storeByte address v s = .overflow s) := by
  unfold storeByte
  by_cases h : address < s.endAddr.toNat
  · exact .inl ⟨h, if_pos h⟩
  · exact .inr ⟨by omega, if_neg h⟩

theorem storeByte_frame (address : Int) (v : Byte) (s : State) : (storeByte address v s).All (EncoderFrame s) := by
  rcases storeByte_cases address v s with ⟨_, h⟩ | ⟨_, h⟩ <;> rw [h]
  · exact (EncoderFrame.refl s).setCb _
  · exact EncoderFrame.refl s

theorem storeByte_rawFrame (address : Int) (v : Byte) (s : State) :
    (storeByte address v s).All (RawEncoderFrame s) := by
  rcases storeByte_cases address v s with ⟨_, h⟩ | ⟨_, h⟩ <;> rw [h]
  · exact (RawEncoderFrame.refl s).setCb _
  · exact RawEncoderFrame.refl s

/-- `put` moves BP to the next byte and stores there, or overflows with nothing done (R57, R116). -/
theorem putByte_cases (v : Word) (s : State) :
    (s.bp + 1 < s.endAddr.toNat ∧
      putByte v s = .done () ((s.setCb (s.cb.write (s.bp + 1).toNat (v.setWidth 8))).setBp (s.bp + 1))) ∨
    (s.endAddr.toNat ≤ s.bp + 1 ∧ putByte v s = .overflow s) := by
  unfold putByte
  rcases storeByte_cases (s.bp + 1) (v.setWidth 8) s with ⟨h, e⟩ | ⟨h, e⟩
  · exact .inl ⟨h, by rw [e, Run.bind_done]⟩
  · exact .inr ⟨h, by rw [e, Run.bind_overflow]⟩

theorem putByte_frame (v : Word) (s : State) : (putByte v s).All (EncoderFrame s) := by
  rcases putByte_cases v s with ⟨_, h⟩ | ⟨_, h⟩ <;> rw [h]
  · exact ((EncoderFrame.refl s).setCb _).setBp _
  · exact EncoderFrame.refl s

theorem putStuffed_frame (s : State) : (putStuffed s).All (EncoderFrame s) :=
  Run.all_bind (putByte_frame _ s) fun _ _ h => (h.setC _).setCt _

theorem putPlain_frame (s : State) : (putPlain s).All (EncoderFrame s) :=
  Run.all_bind (putByte_frame _ s) fun _ _ h => (h.setC _).setCt _

theorem carryIntoLast_frame (s : State) : (carryIntoLast s).All (EncoderFrame s) := by
  unfold carryIntoLast
  split
  · exact EncoderFrame.refl s
  · exact storeByte_frame _ _ s

theorem byteOut_frame (s : State) : (byteOut s).All (EncoderFrame s) := by
  unfold byteOut
  dsimp only
  split
  · exact putStuffed_frame s
  · split
    · exact putPlain_frame s
    · refine Run.all_bind (carryIntoLast_frame s) fun _ t h => ?_
      split
      · exact Run.all_imp (fun _ g => (h.setC _).trans g) (putStuffed_frame _)
      · exact Run.all_imp (fun _ g => h.trans g) (putPlain_frame _)

theorem encoderRound_frame (s : State) : (encoderRound s).All (EncoderFrame s) := by
  unfold encoderRound
  split
  · exact Run.all_imp (fun _ g => (shiftUp_encoderFrame s).trans g) (byteOut_frame _)
  · exact shiftUp_encoderFrame s

theorem renormEncoder_frame (n : Nat) (s : State) : (renormEncoder n s).All (EncoderFrame s) := by
  induction n generalizing s with
  | zero => exact EncoderFrame.refl s
  | succ n ih =>
    rw [renormEncoder]
    refine Run.all_bind (encoderRound_frame s) fun _ t h => ?_
    split
    · exact Run.all_imp (fun _ g => h.trans g) (ih t)
    · exact h

theorem codeMps_frame (k : Label) (s : State) : (codeMps k s).All (EncoderFrame s) := by
  unfold codeMps
  dsimp only
  split
  · refine Run.all_imp (fun _ g => EncoderFrame.trans ?_ g) (renormEncoder_frame _ _)
    split
    · exact ((((EncoderFrame.refl s).setA _).setA _)).setCx _
    · exact ((((EncoderFrame.refl s).setA _).setC _)).setCx _
  · exact ((EncoderFrame.refl s).setA _).setC _

theorem codeLps_frame (k : Label) (s : State) : (codeLps k s).All (EncoderFrame s) := by
  unfold codeLps
  dsimp only
  refine Run.all_imp (fun _ g => EncoderFrame.trans ?_ g) (renormEncoder_frame _ _)
  split
  · exact ((((EncoderFrame.refl s).setA _).setC _)).setCx _
  · exact ((((EncoderFrame.refl s).setA _).setA _)).setCx _

/-- A decision writes what R112 lists and nothing else, also where it overflows. -/
theorem encodeDecision_frame (k : Label) (d : Bool) (s : State) : (encodeDecision k d s).All (EncoderFrame s) := by
  unfold encodeDecision
  split
  · exact codeMps_frame k s
  · exact codeLps_frame k s

theorem setBits_frame (s : State) : EncoderFrame s (setBits s) := by
  unfold setBits
  dsimp only
  split <;> exact (EncoderFrame.refl s).setC _

theorem shiftOut_frame (s : State) : EncoderFrame s (shiftOut s) := (EncoderFrame.refl s).setC _

theorem flushEncoder_frame (s : State) : (flushEncoder s).All (EncoderFrame s) := by
  unfold flushEncoder
  refine Run.all_bind (Run.all_imp (fun _ g => ((setBits_frame s).trans (shiftOut_frame _)).trans g) (byteOut_frame _)) fun _ t h => ?_
  refine Run.all_bind (Run.all_imp (fun _ g => (h.trans (shiftOut_frame _)).trans g) (byteOut_frame _)) fun _ u g => ?_
  split
  · exact g
  · exact EncoderFrame.setBp _ g

/-! ## Raw sub-coder -/

theorem rawRefill_frame (s : State) : RawDecoderFrame s (rawRefill s) := by
  unfold rawRefill
  dsimp only
  split
  · split
    · exact (RawDecoderFrame.refl s).setRaw _ _
    · exact ((RawDecoderFrame.refl s).setRaw _ _).setBp _
  · exact ((RawDecoderFrame.refl s).setRaw _ _).setBp _

/-- A raw bit read writes RB, RCT and BP and nothing else (R132). -/
theorem rawDecodeBit_frame (s : State) : RawDecoderFrame s (rawDecodeBit s).2 := by
  unfold rawDecodeBit
  dsimp only
  split
  · exact (rawRefill_frame s).setRaw _ _
  · exact (RawDecoderFrame.refl s).setRaw _ _

/-- A raw bit written writes RB, RCT, LASTFF, BP and CB and nothing else (R134). -/
theorem rawEncodeBit_frame (d : Bool) (s : State) : (rawEncodeBit d s).All (RawEncoderFrame s) := by
  unfold rawEncodeBit
  dsimp only
  split
  · refine Run.all_bind (Run.all_imp (fun _ g => ((RawEncoderFrame.refl s).setRaw _ _).trans g)
      (storeByte_rawFrame _ _ _)) fun _ t h => ?_
    exact ((RawEncoderFrame.setLastff _ h).setRaw _ _).setBp _
  · exact (RawEncoderFrame.refl s).setRaw _ _

theorem rawFlush_frame (s : State) : (rawFlush s).All (RawEncoderFrame s) := by
  have padded : ∀ rb : Byte, Run.All (RawEncoderFrame s)
      ((storeByte s.bp rb (s.setRaw rb 0)).bind fun _ t => .done () (t.setBp (s.bp + 1))) := fun _ =>
    Run.all_bind (Run.all_imp (fun _ g => ((RawEncoderFrame.refl s).setRaw _ _).trans g) (storeByte_rawFrame _ _ _))
      fun _ _ h => RawEncoderFrame.setBp _ h
  unfold rawFlush
  dsimp only
  refine Run.all_bind (P := RawEncoderFrame s) ?_ fun _ t h => (RawEncoderFrame.setRaw _ _ h).setLastff _
  split
  · split
    · exact padded _
    · exact (RawEncoderFrame.refl s).setBp _
  · split
    · exact padded _
    · exact RawEncoderFrame.refl s

end Sys2Proof.Machine
end

