-- ==== Sys2Proof/Laws/Passes.lean ====
section
/-! SUPPORT. The induction over a pass, packaged once: a property that every write of a visit keeps holds at the end of
each of the three passes, and at the point where a pass overflows. -/

namespace Sys2Proof.Machine

/-- A property of the states of a pass over a `w` by `h` code-block that each thing a visit does keeps: a decision of
the coder, and a write to the flag cell or the coefficient cell of a coefficient (R160, R161, R163 to R165). -/
structure PassKeeps (w h : Nat) (P : State → Prop) : Prop where
  size : ∀ s, P s → s.w = w ∧ s.h = h
  label : ∀ k v s, isArithmetic s = true → P s → (codeLabel k v s).All P
  raw : ∀ v s, isArithmetic s = false → P s → (codeRaw v s).All P
  significant : ∀ x y neg s, x < w → y < h → P s → P (markSignificant x y neg s)
  visited : ∀ x y s, x < w → y < h → P s → P (markVisited x y s)
  refined : ∀ x y s, x < w → y < h → P s → P (markRefined x y s)
  magnitude : ∀ x y p b s, x < w → y < h → isDecoding s = true → P s → P (orMagBit x y p b s)
  sign : ∀ x y neg s, x < w → y < h → isDecoding s = true → P s → P (setNegative x y neg s)

/-! ## Which coefficients a pass visits -/

theorem mem_stripeRows {h k j y : Nat} (hy : y ∈ stripeRows h k j) : y < h := by
  simp only [stripeRows, List.mem_filter, decide_eq_true_eq] at hy
  exact hy.2

theorem mem_scanColumns {w h : Nat} {col : Nat × Nat} (hc : col ∈ scanColumns w h) :
    col.1 < stripeCount h ∧ col.2 < w := by
  simp only [scanColumns, List.mem_flatMap, List.mem_range, List.mem_map] at hc
  obtain ⟨k, hk, x, hx, rfl⟩ := hc
  exact ⟨hk, hx⟩

theorem mem_scanOrder {w h : Nat} {xy : Nat × Nat} (hxy : xy ∈ scanOrder w h) : xy.1 < w ∧ xy.2 < h := by
  simp only [scanOrder, List.mem_flatMap, List.mem_map] at hxy
  obtain ⟨col, hc, y, hy, rfl⟩ := hxy
  exact ⟨(mem_scanColumns hc).2, mem_stripeRows hy⟩

/-! ## The visits -/

section

variable {w h : Nat} {P : State → Prop}

theorem PassKeeps.symbol (c : PassKeeps w h P) (k : Label) (v : Bool) (s : State) (hs : P s) :
    (codeSymbol k v s).All P := by
  unfold codeSymbol
  split
  · rename_i ha
    exact c.label k v s ha hs
  · rename_i ha
    exact c.raw v s (Bool.eq_false_iff.2 ha) hs

theorem PassKeeps.codeSign (c : PassKeeps w h P) (x y : Nat) (s : State) (hs : P s) :
    (codeSign x y s).All P := by
  unfold Machine.codeSign
  split
  · rename_i ha
    exact Run.all_bind (c.label _ _ s ha hs) fun _ _ ht => ht
  · rename_i ha
    exact c.raw _ s (Bool.eq_false_iff.2 ha) hs

@[simp] theorem isDecoding_markSignificant (x y : Nat) (neg : Bool) (s : State) :
    isDecoding (markSignificant x y neg s) = isDecoding s := rfl

@[simp] theorem isDecoding_orMagBit (x y p : Nat) (b : Bool) (s : State) :
    isDecoding (orMagBit x y p b s) = isDecoding s := rfl

theorem PassKeeps.signify (c : PassKeeps w h P) (x y p : Nat) (s : State) (hx : x < w) (hy : y < h) (hs : P s) :
    (signify x y p s).All P := by
  unfold Machine.signify
  refine Run.all_bind (c.codeSign x y s hs) fun neg t ht => ?_
  have hm := c.significant x y neg t hx hy ht
  split
  · rename_i hd
    exact c.sign x y neg _ hx hy (by simpa using hd) (c.magnitude x y p true _ hx hy (by simpa using hd) hm)
  · exact hm

theorem PassKeeps.codeSignificance (c : PassKeeps w h P) (x y p : Nat) (s : State) (hx : x < w) (hy : y < h)
    (hs : P s) : (codeSignificance x y p s).All P := by
  unfold Machine.codeSignificance
  refine Run.all_bind (c.symbol _ _ s hs) fun b t ht => ?_
  split
  · exact c.signify x y p t hx hy ht
  · exact ht

theorem PassKeeps.visitSignificance (c : PassKeeps w h P) (p : Nat) (xy : Nat × Nat) (s : State) (hx : xy.1 < w)
    (hy : xy.2 < h) (hs : P s) : (visitSignificance p xy s).All P := by
  unfold Machine.visitSignificance
  split
  · exact Run.all_bind (c.codeSignificance xy.1 xy.2 p s hx hy hs) fun _ t ht => c.visited xy.1 xy.2 t hx hy ht
  · exact hs

theorem PassKeeps.visitRefinement (c : PassKeeps w h P) (p : Nat) (xy : Nat × Nat) (s : State) (hx : xy.1 < w)
    (hy : xy.2 < h) (hs : P s) : (visitRefinement p xy s).All P := by
  unfold Machine.visitRefinement
  split
  · refine Run.all_bind (c.symbol _ _ s hs) fun b t ht => ?_
    refine c.refined xy.1 xy.2 _ hx hy ?_
    split
    · rename_i hd
      exact c.magnitude xy.1 xy.2 p b t hx hy hd ht
    · exact ht
  · exact hs

theorem PassKeeps.visitCleanup (c : PassKeeps w h P) (p x y : Nat) (s : State) (hx : x < w) (hy : y < h)
    (hs : P s) : (visitCleanup p x y s).All P := by
  unfold Machine.visitCleanup
  split
  · exact c.codeSignificance x y p s hx hy hs
  · exact hs

theorem PassKeeps.cleanRows (c : PassKeeps w h P) (p k x j : Nat) (s : State) (hx : x < w) (hs : P s) :
    (cleanRows p k x j s).All P :=
  forEach_all _ (fun y hy t ht => c.visitCleanup p x y t hx ((c.size s hs).2 ▸ mem_stripeRows hy) ht) s hs

theorem PassKeeps.visitColumn (c : PassKeeps w h P) (arithmetic : ∀ s, P s → isArithmetic s = true) (p : Nat)
    (col : Nat × Nat) (s : State) (hx : col.2 < w) (hs : P s) : (visitColumn p col s).All P := by
  unfold Machine.visitColumn
  dsimp only
  split
  · rename_i hr
    have hk : 4 * col.1 + 3 < h := by
      have : s.h = h := (c.size s hs).2
      simp only [runEligible, Bool.and_eq_true, decide_eq_true_eq] at hr
      omega
    refine Run.all_bind (c.label _ _ s (arithmetic s hs) hs) fun a t ht => ?_
    split
    · refine Run.all_bind (c.label _ _ t (arithmetic t ht) ht) fun r1 t1 ht1 => ?_
      refine Run.all_bind (c.label _ _ t1 (arithmetic t1 ht1) ht1) fun r0 t0 ht0 => ?_
      have hr1 : r1.toNat ≤ 1 := Bool.toNat_le r1
      have hr0 : r0.toNat ≤ 1 := Bool.toNat_le r0
      exact Run.all_bind (c.signify _ _ p t0 hx (by omega) ht0) fun _ u hu => c.cleanRows p _ _ _ u hx hu
    · exact ht
  · exact c.cleanRows p _ _ 0 s hx hs

/-! ## The passes -/

/-- What every visit of SIGPASS keeps, SIGPASS keeps (R163). -/
theorem PassKeeps.significancePass (c : PassKeeps w h P) (p : Nat) (s : State) (hs : P s) :
    (significancePass p s).All P :=
  forEach_all _ (fun xy hxy t ht =>
    c.visitSignificance p xy t ((c.size s hs).1 ▸ (mem_scanOrder hxy).1) ((c.size s hs).2 ▸ (mem_scanOrder hxy).2) ht)
    s hs

/-- What every visit of REFPASS keeps, REFPASS keeps (R164). -/
theorem PassKeeps.refinementPass (c : PassKeeps w h P) (p : Nat) (s : State) (hs : P s) :
    (refinementPass p s).All P :=
  forEach_all _ (fun xy hxy t ht =>
    c.visitRefinement p xy t ((c.size s hs).1 ▸ (mem_scanOrder hxy).1) ((c.size s hs).2 ▸ (mem_scanOrder hxy).2) ht)
    s hs

/-- What every visit of CLNPASS and the clearing of the VIS bits keep, CLNPASS keeps (R165, R166). -/
theorem PassKeeps.cleanupPass (c : PassKeeps w h P) (arithmetic : ∀ s, P s → isArithmetic s = true)
    (clear : ∀ s, P s → P (clearVisited s)) (p : Nat) (s : State) (hs : P s) : (cleanupPass p s).All P :=
  Run.all_bind
    (forEach_all _ (fun col hc t ht => c.visitColumn arithmetic p col t ((c.size s hs).1 ▸ (mem_scanColumns hc).2) ht) s hs)
    fun _ t ht => clear t ht

end

/-! ## What a pass writes -/

/-- A decision in an arithmetic mode is a decision of the MQ coder (R160). -/
theorem codeLabel_frame (k : Label) (v : Bool) (s : State) :
    (codeLabel k v s).All fun t => if s.mode = .dec then DecoderFrame s t else EncoderFrame s t := by
  unfold codeLabel
  split
  · exact decodeDecision_frame k s
  · exact Run.all_bind (encodeDecision_frame k v s) fun _ _ h => h

/-- A decision in a raw mode is a bit of the raw sub-coder (R160). -/
theorem codeRaw_frame (v : Bool) (s : State) :
    (codeRaw v s).All fun t => if s.mode = .rawdec then RawDecoderFrame s t else RawEncoderFrame s t := by
  unfold codeRaw
  split
  · exact rawDecodeBit_frame s
  · exact Run.all_bind (rawEncodeBit_frame v s) fun _ _ h => h

theorem PassFrame.mode {s t : State} (h : PassFrame s t) : t.mode = s.mode ∧ t.w = s.w ∧ t.h = s.h := by
  unfold PassFrame CoderFrame DecoderFrame EncoderFrame RawDecoderFrame RawEncoderFrame at h
  cases hm : s.mode <;> simp_all [State.ext_iff]

theorem PassFrame.refl (s : State) : PassFrame s s := by
  refine ⟨?_, fun _ => rfl⟩
  unfold CoderFrame
  split <;> rfl

theorem PassFrame.setFp {s t : State} (f : Cells 4) (h : PassFrame s t) : PassFrame s (t.setFp f) := h

theorem PassFrame.setCp {s t : State} (m : Memory 32) (hd : isDecoding t = true) (h : PassFrame s t) :
    PassFrame s (t.setCp m) := by
  refine ⟨h.1, fun he => ?_⟩
  rw [isDecoding, h.mode.1] at hd
  rcases he with he | he <;> simp [he] at hd

/-- What the coder of the mode does after a part of a pass, the pass does (R160). -/
theorem PassFrame.coder {s t u : State} (h : PassFrame s t) (g : CoderFrame t u) : PassFrame s u := by
  have hm := h.mode.1
  unfold PassFrame CoderFrame DecoderFrame EncoderFrame RawDecoderFrame RawEncoderFrame at *
  rw [hm] at g
  cases hs : s.mode <;> simp_all [State.ext_iff]

theorem codeLabel_coderFrame (k : Label) (v : Bool) (s : State) (h : isArithmetic s = true) :
    (codeLabel k v s).All (CoderFrame s) := by
  refine Run.all_imp (fun t ht => ?_) (codeLabel_frame k v s)
  unfold CoderFrame
  rcases (by simpa [isArithmetic] using h : s.mode = .dec ∨ s.mode = .enc) with hm | hm <;> simpa [hm] using ht

theorem codeRaw_coderFrame (v : Bool) (s : State) (hi : s.mode ≠ .idle) (hf : s.mode ≠ .fault)
    (h : isArithmetic s = false) : (codeRaw v s).All (CoderFrame s) := by
  refine Run.all_imp (fun t ht => ?_) (codeRaw_frame v s)
  unfold CoderFrame
  cases hm : s.mode <;> simp_all [isArithmetic]

/-- A pass writes the flag plane, CP in decode direction, and what the sub-coder of its mode writes: this is a frame
that each of its parts keeps. -/
theorem passFrame_keeps (s : State) (hi : s.mode ≠ .idle) (hf : s.mode ≠ .fault) :
    PassKeeps s.w s.h (PassFrame s) where
  size _ h := h.mode.2
  label k v t ha h := Run.all_imp (fun _ g => h.coder g) (codeLabel_coderFrame k v t ha)
  raw v t ha h :=
    Run.all_imp (fun _ g => h.coder g)
      (codeRaw_coderFrame v t (h.mode.1 ▸ hi) (h.mode.1 ▸ hf) ha)
  significant _ _ _ _ _ _ h := h.setFp _
  visited _ _ _ _ _ h := h.setFp _
  refined _ _ _ _ _ h := h.setFp _
  magnitude _ _ _ _ _ _ _ hd h := h.setCp _ hd
  sign _ _ _ _ _ _ hd h := h.setCp _ hd

/-- SIGPASS writes nothing but what its rule lists, also where it overflows (R163). -/
theorem significancePass_frame (p : Nat) (s : State) (hi : s.mode ≠ .idle) (hf : s.mode ≠ .fault) :
    (significancePass p s).All (PassFrame s) :=
  (passFrame_keeps s hi hf).significancePass p s (.refl s)

/-- REFPASS writes nothing but what its rule lists, also where it overflows (R164). -/
theorem refinementPass_frame (p : Nat) (s : State) (hi : s.mode ≠ .idle) (hf : s.mode ≠ .fault) :
    (refinementPass p s).All (PassFrame s) :=
  (passFrame_keeps s hi hf).refinementPass p s (.refl s)

/-- CLNPASS writes nothing but what its rule lists, also where it overflows (R165). -/
theorem cleanupPass_frame (p : Nat) (s : State) (hm : s.mode = .dec ∨ s.mode = .enc) :
    (cleanupPass p s).All (PassFrame s) := by
  refine (passFrame_keeps s ?_ ?_).cleanupPass (fun t h => ?_) (fun t h => h.setFp _) p s (.refl s)
  · rcases hm with h | h <;> simp [h]
  · rcases hm with h | h <;> simp [h]
  · rcases hm with hm | hm <;> simp [isArithmetic, h.mode.1, hm]

end Sys2Proof.Machine
end

