-- ==== Sys2Proof/Laws/Exec.lean ====
section
/-! SUPPORT. What each command can do, said once: it is refused, it faults, or it ends as its rule says. Every command
ends in a next state. -/

namespace Sys2Proof.Machine

/-- A command that is admitted or refused (R231, R232). -/
theorem admitted_cases (check : Option ErrorCode) (s : State) (run : State → State) :
    (∃ e, check = some e ∧ admitted check s run = refuse e s) ∨ (check = none ∧ admitted check s run = run s) := by
  cases check with
  | some e => exact .inl ⟨e, rfl, rfl⟩
  | none => exact .inr ⟨rfl, rfl⟩

/-- A command that codes ends with its last writes, or takes the fault (R233). -/
theorem finish_cases {α : Type} (r : Run α) (last : α → State → State) :
    (∃ v s, r = .done v s ∧ finish r last = last v s) ∨ (∃ s, r = .overflow s ∧ finish r last = takeFault s) := by
  cases r with
  | done v s => exact .inl ⟨v, s, rfl, rfl⟩
  | overflow s => exact .inr ⟨s, rfl, rfl⟩

theorem require_eq_some {ok : Bool} {e e' : ErrorCode} : require ok e = some e' ↔ ok = false ∧ e = e' := by
  cases ok <;> simp

theorem orElse_eq_some {c d : Option ErrorCode} {e : ErrorCode} :
    orElse c d = some e ↔ c = some e ∨ (c = none ∧ d = some e) := by
  cases c <;> simp

theorem requireMode_eq_none {modes : List Mode} {s : State} : requireMode modes s = none ↔ s.mode ∈ modes := by
  simp [requireMode, require_eq_none]

theorem requireMode_eq_some {modes : List Mode} {s : State} {e : ErrorCode} :
    requireMode modes s = some e ↔ s.mode ∉ modes ∧ e = .mode := by
  rw [requireMode, require_eq_some, eq_comm (a := ErrorCode.mode)]
  simp

theorem requireNotFault_eq_none {s : State} : requireNotFault s = none ↔ s.mode ≠ .fault := by
  simp [requireNotFault, require_eq_none]

theorem requireNotFault_eq_some {s : State} {e : ErrorCode} :
    requireNotFault s = some e ↔ s.mode = .fault ∧ e = .mode := by
  rw [requireNotFault, require_eq_some, eq_comm (a := ErrorCode.mode)]
  simp

/-- The window of SEGBASE and SEGLEN is admitted where its length is not negative and it lies in CB (R42). -/
theorem windowCheck_eq_none {s : State} : windowCheck s = none ↔ WindowAdmitted s := by
  simp [windowCheck, WindowAdmitted, orElse_eq_none, require_eq_none, BitVec.msb_eq_toInt]

/-- Each INIT command starts its sub-coder, or is refused (R92, R110, R131, R133). -/
theorem execInit_cases (start : State → State) (s : State) :
    (s.mode ≠ .fault ∧ WindowAdmitted s ∧
      admitted (initCheck s) s (fun s => (start s).answer Response.ok) = (start s).answer Response.ok) ∨
    (∃ e, e ≠ .overflow ∧ admitted (initCheck s) s (fun s => (start s).answer Response.ok) = refuse e s) := by
  cases hc : initCheck s with
  | none =>
    rw [initCheck, orElse_eq_none, requireNotFault_eq_none, windowCheck_eq_none] at hc
    exact .inl ⟨hc.1, hc.2, rfl⟩
  | some e =>
    refine .inr ⟨e, ?_, rfl⟩
    rw [initCheck, windowCheck] at hc
    rintro rfl
    simp [orElse_eq_some, require_eq_some, require_eq_none, requireNotFault_eq_some] at hc

/-- A pass is admitted in one of its modes, for a plane up to 29, with a geometry loaded (R167). -/
theorem passCheck_eq_none {modes : List Mode} {p : Nat} {s : State} :
    passCheck modes p s = none ↔ s.mode ∈ modes ∧ p ≤ Config.maxPlane ∧ s.geomv = true := by
  simp [passCheck, orElse_eq_none, require_eq_none, requireMode_eq_none]

theorem passCheck_ne_overflow {modes : List Mode} {p : Nat} {s : State} :
    passCheck modes p s ≠ some .overflow := by
  simp [passCheck, orElse_eq_some, require_eq_some, requireMode_eq_some]

/-- Every command, in every state, ends in a next state (R60). -/
theorem exec_next (i : Instr) (s : State) : ∃ t, exec i s = .next t := by
  cases i <;> simp only [exec]
  case wrreg ra v =>
    unfold execWrreg
    split <;> exact ⟨_, rfl⟩
  case rdreg ra =>
    unfold execRdreg
    split <;> exact ⟨_, rfl⟩
  all_goals exact ⟨_, rfl⟩

/-- What command `i` can do in state `s`: be refused with nothing done, or end as its rule says, in the fault where
`finish` says so. -/
def CommandResult (i : Instr) (s t : State) : Prop :=
  (∃ e, e ≠ .overflow ∧ t = refuse e s) ∨
  (match i with
  | .nop => t = s.answer Response.ok
  | .cxreset => s.mode ≠ .fault ∧ t = (s.setCx initialContexts).answer Response.ok
  | .clrstat => t = (if s.mode = .fault then leaveFault (clearSticky s) else clearSticky s).answer Response.ok
  | .wrreg ra v => (ra = 4 ∧ t = (s.setSegbase v).answer Response.ok) ∨ (ra = 5
      ∧ t = (s.setSeglen v).answer Response.ok)
  | .rdreg _ => ∃ d v, t = (s.setDraws d).answer (Response.okValue v)
  | .initdec => s.mode ≠ .fault ∧ WindowAdmitted s ∧ t = (startDecoder s).answer Response.ok
  | .decode cx => s.mode = .dec ∧ ∃ k, labelOf cx = some k
      ∧ t = (decodeDecision k s).2.answer (Response.decision (decodeDecision k s).1)
  | .finishdec => (s.mode = .dec ∨ s.mode = .rawdec) ∧ t = s.answer Response.ok
  | .termchk => (s.mode = .dec ∨ s.mode = .rawdec)
      ∧ ((∃ v, t = (s.setWslack true).answer (Response.warning .slack v))
        ∨ (∃ v, t = (s.setWmark true).answer (Response.warning .markers v)) ∨ t = s.answer Response.ok)
  | .initenc => s.mode ≠ .fault ∧ WindowAdmitted s ∧ t = (startEncoder s).answer Response.ok
  | .encode cx d => s.mode = .enc ∧ ∃ k, labelOf cx = some k
      ∧ t = finish (encodeDecision k d s) fun _ t => t.answer Response.ok
  | .flushenc => s.mode = .enc
      ∧ t = finish (flushEncoder s) fun _ t => (t.setMode .idle).answer (Response.okValue (numBytes t))
  | .rawinitdec => s.mode ≠ .fault ∧ WindowAdmitted s ∧ t = (startRawDecoder s).answer Response.ok
  | .rawdec => s.mode = .rawdec ∧ t = (rawDecodeBit s).2.answer (Response.decision (rawDecodeBit s).1)
  | .rawinitenc => s.mode ≠ .fault ∧ WindowAdmitted s ∧ t = (startRawEncoder s).answer Response.ok
  | .rawenc d => s.mode = .rawenc ∧ t = finish (rawEncodeBit d s) fun _ t => t.answer Response.ok
  | .rawflush => s.mode = .rawenc
      ∧ t = finish (rawFlush s) fun _ t => (t.setMode .idle).answer (Response.okValue (numBytes t))
  | .cbinit wm1 hm1 o c => s.mode ≠ .fault ∧ (wm1 + 1) * (hm1 + 1) ≤ s.params.maxarea
      ∧ t = (loadGeometry wm1 hm1 o c s).answer Response.ok
  | .sigpass p => (s.mode ≠ .idle ∧ s.mode ≠ .fault) ∧ p ≤ 29 ∧ s.geomv = true
      ∧ t = finish (significancePass p s) fun _ t => t.answer Response.ok
  | .refpass p => (s.mode ≠ .idle ∧ s.mode ≠ .fault) ∧ p ≤ 29 ∧ s.geomv = true
      ∧ t = finish (refinementPass p s) fun _ t => t.answer Response.ok
  | .clnpass p => (s.mode = .dec ∨ s.mode = .enc) ∧ p ≤ 29 ∧ s.geomv = true
      ∧ t = finish (cleanupPass p s) fun _ t => t.answer Response.ok)

/-- THE INVERSION OF `exec`: the next state is one that `CommandResult` allows. -/
theorem exec_cases (i : Instr) (s t : State) (h : exec i s = .next t) : CommandResult i s t := by
  unfold CommandResult
  cases i <;> simp only [exec] at h
  case nop => right; simpa [execNop, eq_comm] using h
  case cxreset =>
    unfold execCxreset at h
    rcases admitted_cases (requireNotFault s) s fun s => (s.setCx initialContexts).answer Response.ok with ⟨e, he, h2⟩ | ⟨he, h2⟩
    · rw [h2] at h
      left; refine ⟨e, ?_, by simpa [eq_comm] using h⟩
      rw [requireNotFault_eq_some] at he; simp [he.2]
    · rw [h2] at h; right
      exact ⟨requireNotFault_eq_none.1 he, by simpa [eq_comm] using h⟩
  case clrstat => right; simpa [execClrstat, eq_comm] using h
  case wrreg ra v =>
    unfold execWrreg at h
    by_cases h4 : ra = 4
    · subst h4; right; left; exact ⟨rfl, by simpa [portReg, eq_comm] using h⟩
    · by_cases h5 : ra = 5
      · subst h5; right; right; exact ⟨rfl, by simpa [portReg, eq_comm] using h⟩
      · left; refine ⟨.illegal, by decide, ?_⟩
        split at h
        · rename_i hh; exfalso; revert hh; unfold portReg; split <;> first | contradiction | skip
          all_goals (try (split_ifs <;> simp))
          all_goals simp
        · rename_i hh; exfalso; revert hh; unfold portReg; split <;> first | contradiction | skip
          all_goals (try (split_ifs <;> simp))
          all_goals simp
        · simpa [eq_comm] using h
  case rdreg ra =>
    unfold execRdreg at h
    split at h
    · right
      dsimp only at h
      split at h
      · exact ⟨_, _, by simpa [eq_comm] using h⟩
      · exact ⟨s.draws, _, by have : s.setDraws s.draws = s := rfl
                              rw [this]; simpa [eq_comm] using h⟩
    · left; exact ⟨.illegal, by decide, by simpa [eq_comm] using h⟩
  case initdec =>
    unfold execInitdec at h
    rcases execInit_cases startDecoder s with ⟨a, b, c⟩ | ⟨e, a, b⟩
    · rw [c] at h; right; exact ⟨a, b, by simpa [eq_comm] using h⟩
    · rw [b] at h; left; exact ⟨e, a, by simpa [eq_comm] using h⟩
  case initenc =>
    unfold execInitenc at h
    rcases execInit_cases startEncoder s with ⟨a, b, c⟩ | ⟨e, a, b⟩
    · rw [c] at h; right; exact ⟨a, b, by simpa [eq_comm] using h⟩
    · rw [b] at h; left; exact ⟨e, a, by simpa [eq_comm] using h⟩
  case rawinitdec =>
    unfold execRawinitdec at h
    rcases execInit_cases startRawDecoder s with ⟨a, b, c⟩ | ⟨e, a, b⟩
    · rw [c] at h; right; exact ⟨a, b, by simpa [eq_comm] using h⟩
    · rw [b] at h; left; exact ⟨e, a, by simpa [eq_comm] using h⟩
  case rawinitenc =>
    unfold execRawinitenc at h
    rcases execInit_cases startRawEncoder s with ⟨a, b, c⟩ | ⟨e, a, b⟩
    · rw [c] at h; right; exact ⟨a, b, by simpa [eq_comm] using h⟩
    · rw [b] at h; left; exact ⟨e, a, by simpa [eq_comm] using h⟩
  case decode cx =>
    unfold execDecode at h
    rcases admitted_cases (requireMode [.dec] s) s _ with ⟨e, he, h2⟩ | ⟨he, h2⟩
    · rw [h2] at h
      left; refine ⟨e, ?_, by simpa [eq_comm] using h⟩
      rw [requireMode_eq_some] at he; simp [he.2]
    · rw [h2] at h
      have hm := requireMode_eq_none.1 he
      cases hl : labelOf cx with
      | none => left; refine ⟨.label, by decide, ?_⟩; simpa [hl, eq_comm] using h
      | some k => right; exact ⟨by simpa using hm, k, hl, by simpa [hl, eq_comm] using h⟩
  case encode cx d =>
    unfold execEncode at h
    rcases admitted_cases (requireMode [.enc] s) s _ with ⟨e, he, h2⟩ | ⟨he, h2⟩
    · rw [h2] at h
      left; refine ⟨e, ?_, by simpa [eq_comm] using h⟩
      rw [requireMode_eq_some] at he; simp [he.2]
    · rw [h2] at h
      have hm := requireMode_eq_none.1 he
      cases hl : labelOf cx with
      | none => left; refine ⟨.label, by decide, ?_⟩; simpa [hl, eq_comm] using h
      | some k => right; exact ⟨by simpa using hm, k, hl, by simpa [hl, eq_comm] using h⟩
  case finishdec =>
    unfold execFinishdec at h
    rcases admitted_cases (requireMode [.dec, .rawdec] s) s _ with ⟨e, he, h2⟩ | ⟨he, h2⟩
    · rw [h2] at h
      left; refine ⟨e, ?_, by simpa [eq_comm] using h⟩
      rw [requireMode_eq_some] at he; simp [he.2]
    · rw [h2] at h; right
      exact ⟨by simpa using requireMode_eq_none.1 he, by simpa [eq_comm] using h⟩
  case termchk =>
    unfold execTermchk at h
    rcases admitted_cases (requireMode [.dec, .rawdec] s) s _ with ⟨e, he, h2⟩ | ⟨he, h2⟩
    · rw [h2] at h
      left; refine ⟨e, ?_, by simpa [eq_comm] using h⟩
      rw [requireMode_eq_some] at he; simp [he.2]
    · rw [h2] at h; right
      refine ⟨by simpa using requireMode_eq_none.1 he, ?_⟩
      split_ifs at h
      · left; exact ⟨_, by simpa [eq_comm] using h⟩
      · right; left; exact ⟨_, by simpa [eq_comm] using h⟩
      · right; right; simpa [eq_comm] using h
  case flushenc =>
    unfold execFlushenc at h
    rcases admitted_cases (requireMode [.enc] s) s _ with ⟨e, he, h2⟩ | ⟨he, h2⟩
    · rw [h2] at h
      left; refine ⟨e, ?_, by simpa [eq_comm] using h⟩
      rw [requireMode_eq_some] at he; simp [he.2]
    · rw [h2] at h; right
      exact ⟨by simpa using requireMode_eq_none.1 he, by simpa [eq_comm] using h⟩
  case rawdec =>
    unfold execRawdec at h
    rcases admitted_cases (requireMode [.rawdec] s) s _ with ⟨e, he, h2⟩ | ⟨he, h2⟩
    · rw [h2] at h
      left; refine ⟨e, ?_, by simpa [eq_comm] using h⟩
      rw [requireMode_eq_some] at he; simp [he.2]
    · rw [h2] at h; right
      exact ⟨by simpa using requireMode_eq_none.1 he, by simpa [eq_comm] using h⟩
  case rawenc d =>
    unfold execRawenc at h
    rcases admitted_cases (requireMode [.rawenc] s) s _ with ⟨e, he, h2⟩ | ⟨he, h2⟩
    · rw [h2] at h
      left; refine ⟨e, ?_, by simpa [eq_comm] using h⟩
      rw [requireMode_eq_some] at he; simp [he.2]
    · rw [h2] at h; right
      exact ⟨by simpa using requireMode_eq_none.1 he, by simpa [eq_comm] using h⟩
  case rawflush =>
    unfold execRawflush at h
    rcases admitted_cases (requireMode [.rawenc] s) s _ with ⟨e, he, h2⟩ | ⟨he, h2⟩
    · rw [h2] at h
      left; refine ⟨e, ?_, by simpa [eq_comm] using h⟩
      rw [requireMode_eq_some] at he; simp [he.2]
    · rw [h2] at h; right
      exact ⟨by simpa using requireMode_eq_none.1 he, by simpa [eq_comm] using h⟩
  case cbinit w hh o c =>
    unfold execCbinit at h
    rcases admitted_cases (orElse (requireNotFault s) (areaCheck w hh s)) s _ with ⟨e, he, h2⟩ | ⟨he, h2⟩
    · rw [h2] at h
      left; refine ⟨e, ?_, by simpa [eq_comm] using h⟩
      rw [orElse_eq_some, requireNotFault_eq_some, areaCheck, require_eq_some] at he
      rintro rfl; simp at he
    · rw [h2] at h; right
      rw [orElse_eq_none, requireNotFault_eq_none, areaCheck, require_eq_none] at he
      exact ⟨he.1, by simpa using he.2, by simpa [eq_comm] using h⟩
  case sigpass p =>
    unfold execSigpass at h
    rcases admitted_cases (passCheck [.dec, .enc, .rawdec, .rawenc] p s) s _ with ⟨e, he, h2⟩ | ⟨he, h2⟩
    · rw [h2] at h
      left; exact ⟨e, fun ee => passCheck_ne_overflow (ee ▸ he), by simpa [eq_comm] using h⟩
    · rw [h2] at h; right
      rw [passCheck_eq_none] at he
      exact ⟨by cases hm : s.mode <;> simp [hm] at he ⊢, he.2.1, he.2.2, by simpa [eq_comm] using h⟩
  case refpass p =>
    unfold execRefpass at h
    rcases admitted_cases (passCheck [.dec, .enc, .rawdec, .rawenc] p s) s _ with ⟨e, he, h2⟩ | ⟨he, h2⟩
    · rw [h2] at h
      left; exact ⟨e, fun ee => passCheck_ne_overflow (ee ▸ he), by simpa [eq_comm] using h⟩
    · rw [h2] at h; right
      rw [passCheck_eq_none] at he
      exact ⟨by cases hm : s.mode <;> simp [hm] at he ⊢, he.2.1, he.2.2, by simpa [eq_comm] using h⟩
  case clnpass p =>
    unfold execClnpass at h
    rcases admitted_cases (passCheck [.dec, .enc] p s) s _ with ⟨e, he, h2⟩ | ⟨he, h2⟩
    · rw [h2] at h
      left; exact ⟨e, fun ee => passCheck_ne_overflow (ee ▸ he), by simpa [eq_comm] using h⟩
    · rw [h2] at h; right
      rw [passCheck_eq_none] at he
      exact ⟨by cases hm : s.mode <;> simp [hm] at he ⊢, he.2.1, he.2.2, by simpa [eq_comm] using h⟩

end Sys2Proof.Machine
end

