-- ==== Sys2Proof/Laws/PerInstr.lean ====
section
/-! SUPPORT. A statement about each instruction as syntax, one lemma per constructor of `Instr`: the word the encoder
writes for it matches the row of R64 that has its mnemonic. -/

namespace Sys2Proof.Laws

/-- R64: the command word of a well-formed instruction matches its own row of the opcode map. -/
def EncodeMatchesTable.Statement (i : Instr) : Prop :=
  i.wf = true → ∃ r ∈ opcodeTable, r.mnemonic = mnemonicOf i ∧ r.matches (encode i).1 = true

/-- The mask of CBINIT's row keeps the top nine bits. -/
theorem and_top_nine (x : Word) : x &&& 0xFF800000#32 = (x >>> 23) <<< 23 := by
  ext k hk
  interval_cases k <;> simp

theorem EncodeMatchesTable.nop : EncodeMatchesTable.Statement .nop := fun _ => by decide
theorem EncodeMatchesTable.cxreset : EncodeMatchesTable.Statement .cxreset := fun _ => by decide
theorem EncodeMatchesTable.clrstat : EncodeMatchesTable.Statement .clrstat := fun _ => by decide

theorem EncodeMatchesTable.wrreg (ra : Nat) (value : Word) : EncodeMatchesTable.Statement (.wrreg ra value) := fun h =>
  ⟨⟨"WRREG", 0x03000000, 0xFFFFFF00⟩, by decide, rfl,
    (by decide +kernel : ∀ a : Fin (2 ^ 8), (commandWord 0x03 a &&& 0xFFFFFF00 == 0x03000000) = true)
      ⟨ra, of_decide_eq_true h⟩⟩

theorem EncodeMatchesTable.rdreg (ra : Nat) : EncodeMatchesTable.Statement (.rdreg ra) := fun h =>
  ⟨⟨"RDREG", 0x04000000, 0xFFFFFF00⟩, by decide, rfl,
    (by decide +kernel : ∀ a : Fin (2 ^ 8), (commandWord 0x04 a &&& 0xFFFFFF00 == 0x04000000) = true)
      ⟨ra, of_decide_eq_true h⟩⟩

theorem EncodeMatchesTable.initdec : EncodeMatchesTable.Statement .initdec := fun _ => by decide

theorem EncodeMatchesTable.decode (cx : Nat) : EncodeMatchesTable.Statement (.decode cx) := fun h =>
  ⟨⟨"DECODE", 0x11000000, 0xFFFFFFE0⟩, by decide, rfl,
    (by decide +kernel : ∀ a : Fin (2 ^ 5), (commandWord 0x11 a &&& 0xFFFFFFE0 == 0x11000000) = true)
      ⟨cx, of_decide_eq_true h⟩⟩

theorem EncodeMatchesTable.finishdec : EncodeMatchesTable.Statement .finishdec := fun _ => by decide
theorem EncodeMatchesTable.termchk : EncodeMatchesTable.Statement .termchk := fun _ => by decide
theorem EncodeMatchesTable.initenc : EncodeMatchesTable.Statement .initenc := fun _ => by decide

theorem EncodeMatchesTable.encode (cx : Nat) (d : Bool) : EncodeMatchesTable.Statement (.encode cx d) := fun h =>
  ⟨⟨"ENCODE", 0x21000000, 0xFFFFFEE0⟩, by decide, rfl,
    (by decide +kernel : ∀ (b : Bool) (a : Fin (2 ^ 5)),
      (commandWord 0x21 (b.toNat * 2 ^ 8 + a) &&& 0xFFFFFEE0 == 0x21000000) = true) d ⟨cx, of_decide_eq_true h⟩⟩

theorem EncodeMatchesTable.flushenc : EncodeMatchesTable.Statement .flushenc := fun _ => by decide
theorem EncodeMatchesTable.rawinitdec : EncodeMatchesTable.Statement .rawinitdec := fun _ => by decide
theorem EncodeMatchesTable.rawdec : EncodeMatchesTable.Statement .rawdec := fun _ => by decide
theorem EncodeMatchesTable.rawinitenc : EncodeMatchesTable.Statement .rawinitenc := fun _ => by decide

theorem EncodeMatchesTable.rawenc (d : Bool) : EncodeMatchesTable.Statement (.rawenc d) := fun _ => by
  cases d <;> decide

theorem EncodeMatchesTable.rawflush : EncodeMatchesTable.Statement .rawflush := fun _ => by decide

theorem EncodeMatchesTable.cbinit (wm1 hm1 : Nat) (orient : Orientation) (clr : Bool) :
    EncodeMatchesTable.Statement (.cbinit wm1 hm1 orient clr) := fun h => by
  refine ⟨⟨"CBINIT", 0x40000000, 0xFF800000⟩, by decide, rfl, ?_⟩
  simp only [Instr.wf, Bool.and_eq_true, decide_eq_true_eq] at h
  have hc : clr.toNat ≤ 1 := Bool.toNat_le clr
  have ho : orientCode orient ≤ 3 := by cases orient <;> decide
  change ((commandWord 0x40 (clr.toNat * 2 ^ 22 + orientCode orient * 2 ^ 20 + hm1 * 2 ^ 10 + wm1) &&& 0xFF800000#32)
    == 0x40000000#32) = true
  rw [and_top_nine, beq_iff_eq, commandWord]
  apply BitVec.eq_of_toNat_eq
  simp only [BitVec.toNat_shiftLeft, BitVec.toNat_ushiftRight, BitVec.toNat_ofNat, Nat.shiftRight_eq_div_pow,
    Nat.shiftLeft_eq]
  omega

theorem EncodeMatchesTable.sigpass (p : Nat) : EncodeMatchesTable.Statement (.sigpass p) := fun h =>
  ⟨⟨"SIGPASS", 0x41000000, 0xFFFFFFE0⟩, by decide, rfl,
    (by decide +kernel : ∀ a : Fin (2 ^ 5), (commandWord 0x41 a &&& 0xFFFFFFE0 == 0x41000000) = true)
      ⟨p, of_decide_eq_true h⟩⟩

theorem EncodeMatchesTable.refpass (p : Nat) : EncodeMatchesTable.Statement (.refpass p) := fun h =>
  ⟨⟨"REFPASS", 0x42000000, 0xFFFFFFE0⟩, by decide, rfl,
    (by decide +kernel : ∀ a : Fin (2 ^ 5), (commandWord 0x42 a &&& 0xFFFFFFE0 == 0x42000000) = true)
      ⟨p, of_decide_eq_true h⟩⟩

theorem EncodeMatchesTable.clnpass (p : Nat) : EncodeMatchesTable.Statement (.clnpass p) := fun h =>
  ⟨⟨"CLNPASS", 0x43000000, 0xFFFFFFE0⟩, by decide, rfl,
    (by decide +kernel : ∀ a : Fin (2 ^ 5), (commandWord 0x43 a &&& 0xFFFFFFE0 == 0x43000000) = true)
      ⟨p, of_decide_eq_true h⟩⟩

end Sys2Proof.Laws
end

