-- ==== Sys2Proof/Tests/Slice0.lean ====
section
/-! SUPPORT. Tests: what `WellFormed` refuses, words written out from the encodings of the spec, one-step vectors of
spec/95_test_vectors.md and of the worked examples of the rules, and for each statement of
Certificates/Slice0/Obligations.lean a state and operands that meet its hypotheses. -/

namespace Sys2Proof.Tests

open Sys2Proof Sys2Proof.Machine

set_option Elab.async false

/-! ## Helpers -/

/-- The state after a command. -/
def after (i : Instr) (s : State) : State :=
  match exec i s with
  | .next t => t
  | .fault _ => s
  | .refused _ => s

/-- The state after a step. -/
def stepped (s : State) : State :=
  match step s with
  | .next t => t
  | .fault _ => s
  | .refused _ => s

/-- The response to a command. -/
def reply (i : Instr) (s : State) : Option Response := (after i s).response

/-- The coder's registers A, C, CT and BP. -/
def coder (s : State) : BitVec 16 × Word × BitVec 4 × Int := (s.a, s.c, s.ct, s.bp)

/-- A small block after reset: 64 bytes of CB, at most 16 coefficients. -/
def small : State := State.resetWith { cbsize := 64, maxarea := 16, guardBytes := 2 }

/-- `small` with bytes in CB from address 0 and a segment of `n` bytes set up. -/
def segment (bytes : List Byte) (n : Nat) : State :=
  { placeBytes 0 bytes small with seglen := BitVec.ofNat 32 n }

/-- The first four bytes of vector V1. -/
def v1 : List Byte := [0x84, 0xC7, 0x3B, 0xFC]

/-- The decoder at the start of V1's first four bytes. -/
def decoding : State := after .initdec (segment v1 4)

/-- The encoder at its start, with a window of 40 bytes. -/
def encoding : State := after .initenc (segment [] 40)

/-- The raw decoder over `FF 60`. -/
def rawDecoding : State := after .rawinitdec (segment [0xFF, 0x60] 2)

/-- The raw encoder at its start, with a window of 16 bytes. -/
def rawEncoding : State := after .rawinitenc (segment [] 16)

/-- A state in FAULT, as an encoder without room leaves it. -/
def faulted : State := after .flushenc (after .initenc (segment [] 1))

/-- `s` with the geometry 3 by 4, HL, loaded. -/
def scanned (s : State) : State := after (.cbinit 2 3 .hl true) s

/-! ## Well-formedness: an ill-formed term for each check -/

theorem test_wf_refuses_wrreg_address_256 : Instr.wf (.wrreg 256 0) = false := by decide
theorem test_wf_refuses_rdreg_address_256 : Instr.wf (.rdreg 256) = false := by decide
theorem test_wf_refuses_decode_label_32 : Instr.wf (.decode 32) = false := by decide
theorem test_wf_refuses_encode_label_32 : Instr.wf (.encode 32 true) = false := by decide
theorem test_wf_refuses_cbinit_width_1025 : Instr.wf (.cbinit 1024 0 .ll true) = false := by decide
theorem test_wf_refuses_cbinit_height_1025 : Instr.wf (.cbinit 0 1024 .ll true) = false := by decide
theorem test_wf_refuses_sigpass_plane_32 : Instr.wf (.sigpass 32) = false := by decide
theorem test_wf_refuses_refpass_plane_32 : Instr.wf (.refpass 32) = false := by decide
theorem test_wf_refuses_clnpass_plane_32 : Instr.wf (.clnpass 32) = false := by decide

/-! ## Assembler -/

/-- R68's example. -/
theorem test_assemble_encode : assembleWords "ENCODE ZC1, 1 ; an example" = some [(0x21000101, 0)] := by decide +kernel

/-- Line 4 of program F. -/
theorem test_assemble_minus_one : assembleWords "WRREG SEGLEN, −1" = some [(0x03000005, 0xFFFFFFFF)] := by
  decide +kernel

/-- R66's examples with names, and pseudo-commands of R69. -/
theorem test_assemble_lines :
    assembleWords "CBINIT 3, 5, HL, 1" = some [(0x40501002, 0)] ∧ assembleWords "RDREG CX[18]" = some [(0x04000032, 0)]
      ∧ assembleWords "WRREG SEGLEN, 28" = some [(0x03000005, 0x1C)] ∧ assembleWords "DECODE UNI" = some [(0x11000012, 0)]
      ∧ assembleWords "DECSEG 0x10, 4" = some [(0x03000004, 0x10), (0x03000005, 4), (0x10000000, 0)]
      ∧ assembleWords "PASS 1, 7" = some [(0x42000007, 0)] ∧ assembleWords "DECODE 32" = none
      ∧ assembleWords "DECODE 25" = some [(0x11000019, 0)]
      ∧ assembleWords "" = some [] := by decide +kernel

/-! ## Decoding: a word for every constructor (R64, R66, V15) -/

theorem test_decode_housekeeping :
    decode 0x00000000 0 = .ok .nop ∧ decode 0x01000000 0 = .ok .cxreset ∧ decode 0x02000000 0 = .ok .clrstat
      ∧ decode 0x03000005 0x0000001C = .ok (.wrreg 0x05 28) ∧ decode 0x04000009 0 = .ok (.rdreg 0x09) := by decide

theorem test_decode_mq_decoder :
    decode 0x10000000 0 = .ok .initdec ∧ decode 0x11000012 0 = .ok (.decode 18)
      ∧ decode 0x12000000 0 = .ok .finishdec ∧ decode 0x13000000 0 = .ok .termchk := by decide

theorem test_decode_mq_encoder :
    decode 0x20000000 0 = .ok .initenc ∧ decode 0x21000011 0 = .ok (.encode 17 false)
      ∧ decode 0x21000101 0 = .ok (.encode 1 true) ∧ decode 0x22000000 0 = .ok .flushenc := by decide

theorem test_decode_raw :
    decode 0x30000000 0 = .ok .rawinitdec ∧ decode 0x31000000 0 = .ok .rawdec
      ∧ decode 0x38000000 0 = .ok .rawinitenc ∧ decode 0x39000001 0 = .ok (.rawenc true)
      ∧ decode 0x39000000 0 = .ok (.rawenc false) ∧ decode 0x3A000000 0 = .ok .rawflush := by decide

/-- `CBINIT 3, 5, HL, 1`; `CBINIT 65, 64, LL, 1`; the passes. -/
theorem test_decode_scanner :
    decode 0x40501002 0 = .ok (.cbinit 2 4 .hl true) ∧ decode 0x4040FC40 0 = .ok (.cbinit 64 63 .ll true)
      ∧ decode 0x4100001E 0 = .ok (.sigpass 30) ∧ decode 0x42000000 0 = .ok (.refpass 0)
      ∧ decode 0x43000002 0 = .ok (.clnpass 2) := by decide

/-- The illegal words of V14 and V15. -/
theorem test_decode_refuses_illegal_words :
    decode 0xFFFFFFFF 0 = .error .unknownOpcode ∧ decode 0x05000000 0 = .error .unknownOpcode
      ∧ decode 0x00000001 0 = .error .reservedBit ∧ decode 0x10000001 0 = .error .reservedBit
      ∧ decode 0x21000031 0 = .error .reservedBit ∧ decode 0x21000211 0 = .error .reservedBit
      ∧ decode 0x39000002 0 = .error .reservedBit ∧ decode 0x40D01002 0 = .error .reservedBit
      ∧ decode 0x41000020 0 = .error .reservedBit := by decide

theorem test_decode_ignores_arg : decode 0x11000012 0xFFFFFFFF = .ok (.decode 18) := by decide

theorem test_decodeTableWord_takes_arg_from_the_high_bits :
    decodeTableWord 64 0x0000001C03000005 = some (.wrreg 0x05 28) ∧ decodeTableWord 32 0x03000005 = some (.wrreg 0x05 0)
      ∧ decodeTableWord 32 0x05000000 = none := by decide

theorem test_opcode_table_rows_are_21 : opcodeTable.length = 21 := by decide

/-! ## The step -/

theorem test_step_runs_the_placed_word :
    stepped (State.reset.withFetchWord 32 0x04000032) = after (.rdreg 0x32) State.reset := by decide +kernel

theorem test_step_idle : step small = .next small := by rfl

/-! ## Housekeeping and contexts: worked examples of R86, R191 to R193, and V16 -/

theorem test_nop_answers_in_fault : reply .nop faulted = some ⟨0, 0⟩ ∧ (after .nop faulted).mode = .fault := by
  decide +kernel

theorem test_cxreset_refused_in_fault : reply .cxreset faulted = some ⟨2, 0⟩ := by decide +kernel

theorem test_cxreset_restores_context_1 : (after .cxreset (after (.decode 1) decoding)).cx[1] = ⟨0, false⟩ := by
  decide +kernel

/-- R191's example: STATUS reads 0x00008007 after an overflow, and 0 after CLRSTAT. -/
theorem test_clrstat_leaves_fault :
    reply (.rdreg 0) faulted = some ⟨0, 0x00008007⟩ ∧ reply (.rdreg 0) (after .clrstat faulted) = some ⟨0, 0⟩ := by
  decide +kernel

theorem test_clrstat_keeps_the_coder : coder (after .clrstat decoding) = coder decoding := by decide +kernel

/-- R193's example: a negative SEGLEN is stored, and INITDEC refuses it with ERR_LENGTH. -/
theorem test_wrreg_stores_a_negative_length :
    reply .initdec (after (.wrreg 0x05 0xFFFFFFFF) small) = some ⟨3, 0⟩ := by decide +kernel

theorem test_wrreg_of_a_is_refused : reply (.wrreg 0x08 7) small = some ⟨1, 0⟩ := by decide +kernel

/-- V16: images after reset. -/
theorem test_rdreg_after_reset :
    reply (.rdreg 0x20) small = some ⟨0, 4⟩ ∧ reply (.rdreg 0x31) small = some ⟨0, 3⟩
      ∧ reply (.rdreg 0x32) small = some ⟨0, 0x2E⟩ ∧ reply (.rdreg 0x40) small = some ⟨0, 0x10415601⟩
      ∧ reply (.rdreg 0x4D) small = some ⟨0, 0x055D1601⟩ ∧ reply (.rdreg 0x6E) small = some ⟨0, 0x0BAE5601⟩ := by
  decide +kernel

theorem test_rdreg_of_unmapped_is_refused : reply (.rdreg 0x01) small = some ⟨1, 0⟩ := by decide +kernel

/-! ## MQ decoder: R92, R93, R99, V2, V3, V7 -/

theorem test_initdec_ordinary : coder decoding = (0x8000, 0x42638000, 1, 1) ∧ decoding.eoscnt = 0 := by decide +kernel

/-- V2: FF 8F 00, the largest stuffed byte. -/
theorem test_initdec_stuffed :
    coder (after .initdec (segment [0xFF, 0x8F, 0x00] 3)) = (0x8000, 0x800F0000, 0, 1) := by decide +kernel

/-- V3, decisions 1 and 2 under label 1. -/
theorem test_decode_first_decision :
    coder (after (.decode 1) decoding) = (0xAC02, 0x84C70000, 0, 1) ∧ reply (.decode 1) decoding = some ⟨0, 0⟩ := by
  decide +kernel

theorem test_decode_second_decision_takes_a_byte :
    coder (after (.decode 1) (after (.decode 1) decoding)) = (0xF002, 0xA18C7600, 7, 2) := by decide +kernel

theorem test_finishdec_changes_nothing : coder (after .finishdec decoding) = coder decoding := by decide +kernel

/-- V7: 3 bytes short gives SLACK with VAL 1; 2 bytes short gives none. -/
theorem test_termchk_slack :
    reply .termchk decoding = some ⟨0x20, 1⟩
      ∧ reply .termchk (after .initdec (segment v1 3)) = some ⟨0, 0⟩ := by decide +kernel

theorem test_termchk_markers :
    reply .termchk { decoding with bp := 4, eoscnt := 3 } = some ⟨0x40, 3⟩
      ∧ reply .termchk { decoding with bp := 4, eoscnt := 2 } = some ⟨0, 0⟩ := by decide +kernel

/-! ## MQ encoder: R110, R112, R118, V1, V5, V6 -/

theorem test_initenc_starts_at_phantom : coder encoding = (0x8000, 0, 12, -1) := by decide +kernel

/-- R112's example: two decisions 0 under label 1. -/
theorem test_encode_two_decisions :
    coder (after (.encode 1 false) encoding) = (0xAC02, 0, 11, -1)
      ∧ coder (after (.encode 1 false) (after (.encode 1 false) encoding)) = (0xF002, 0x00006802, 10, -1) := by
  decide +kernel

/-- V5: the single decision 1 goes the LPS way and switches the MPS. -/
theorem test_encode_lps_switches :
    coder (after (.encode 1 true) encoding) = (0xA7FC, 0x00015804, 10, -1)
      ∧ (after (.encode 1 true) encoding).cx[1] = ⟨1, true⟩ := by decide +kernel

/-- V5: the empty segment encodes as FF 7F. -/
theorem test_flushenc_of_nothing :
    reply .flushenc encoding = some ⟨0, 2⟩ ∧ (after .flushenc encoding).cb.cells = [(0, 0xFF), (1, 0x7F)] := by
  decide +kernel

/-- V6: the flush carries into the byte B8 that was already put. -/
theorem test_flushenc_carries :
    reply .flushenc { encoding with a := 0x9803, c := 0x00082939, ct := 8, bp := 0, cb := ⟨[(0, 0xB8)], [], none⟩ }
        = some ⟨0, 2⟩
      ∧ ((after .flushenc
          { encoding with a := 0x9803, c := 0x00082939, ct := 8, bp := 0, cb := ⟨[(0, 0xB8)], [], none⟩ }).cb.read 0) = 0xB9 := by
  decide +kernel

/-! ## Raw sub-coder: R131 to R135, V8, V9 -/

theorem test_rawinitdec : rawDecoding.bp = 0 ∧ rawDecoding.rct = 0 ∧ rawDecoding.mode = .rawdec := by decide +kernel

theorem test_rawdec_first_bit :
    reply .rawdec rawDecoding = some ⟨0x10, 0⟩ ∧ (after .rawdec rawDecoding).rct = 7 := by decide +kernel

/-- R132's example: the byte after FF has 7 bits. -/
theorem test_rawdec_stuffed_byte :
    (after .rawdec { rawDecoding with rb := 0xFF, rct := 0, bp := 1 }).rct = 6
      ∧ reply .rawdec { rawDecoding with rb := 0xFF, rct := 0, bp := 1 } = some ⟨0x10, 0⟩ := by decide +kernel

theorem test_rawinitenc_rawst : reply (.rdreg 0x10) rawEncoding = some ⟨0, 0x0800⟩ := by decide +kernel

/-- V8: the eighth bit 1 writes FF and leaves 7 bits for the next byte. -/
theorem test_rawenc_writes_ff :
    (after (.rawenc true) { rawEncoding with rb := 0xFE, rct := 1 }).cb.read 0 = 0xFF
      ∧ (after (.rawenc true) { rawEncoding with rb := 0xFE, rct := 1 }).rct = 7 := by decide +kernel

/-- V8: 1 0 1 1 0 leaves B0 with 3 bits free, padded to B2. -/
theorem test_rawflush_pads :
    reply .rawflush { rawEncoding with rb := 0xB0, rct := 3 } = some ⟨0, 1⟩
      ∧ (after .rawflush { rawEncoding with rb := 0xB0, rct := 3 }).cb.read 0 = 0xB2 := by decide +kernel

/-- V8: a final FF is dropped. -/
theorem test_rawflush_drops_ff :
    reply .rawflush { rawEncoding with rct := 7, lastff := true, bp := 1, cb := ⟨[(0, 0xFF)], [], none⟩ } = some ⟨0, 0⟩ := by
  decide +kernel

/-! ## Scanner: R150, R162, R163 to R165, V11, V13, V14 -/

theorem test_scan_order_3_by_5 :
    scanOrder 3 5 = [(0, 0), (0, 1), (0, 2), (0, 3), (1, 0), (1, 1), (1, 2), (1, 3), (2, 0), (2, 1), (2, 2), (2, 3),
      (0, 4), (1, 4), (2, 4)] := by decide

/-- V11, some rows. -/
theorem test_zc_labels :
    zcLabel .ll 0 1 1 = 3 ∧ zcLabel .hl 0 1 1 = 6 ∧ zcLabel .hh 0 1 1 = 4 ∧ zcLabel .lh 2 0 0 = 8
      ∧ zcLabel .hl 2 0 0 = 4 ∧ zcLabel .hh 0 0 3 = 8 := by decide

/-- R162's example: GEOM reads 0x00101002. -/
theorem test_cbinit_geometry :
    reply (.rdreg 0x11) (after (.cbinit 2 4 .hl true) small) = some ⟨0, 0x00101002⟩ := by decide +kernel

theorem test_cbinit_refuses_an_area_beyond_maxarea : reply (.cbinit 3 4 .ll true) small = some ⟨7, 0⟩ := by
  decide +kernel

/-- A coefficient whose left neighbour is significant is coded and visited, and is then significant where its bit is. -/
theorem test_sigpass_codes_the_neighbour :
    flagCell (after (.sigpass 1) (markSignificant 0 0 false (after (.cbinit 1 0 .ll true) encoding))) 2 1 = 0b0100
      ∧ flagCell (after (.sigpass 1) (orMagBit 1 0 1 true
          (markSignificant 0 0 false (after (.cbinit 1 0 .ll true) encoding)))) 2 1 = 0b0101 := by decide +kernel

theorem test_sigpass_refuses_plane_30 : reply (.sigpass 30) (scanned decoding) = some ⟨6, 0⟩ := by decide +kernel

theorem test_refpass_marks_refined :
    flagCell (after (.refpass 0) (markSignificant 0 0 true (after (.cbinit 0 0 .ll true) encoding))) 1 1 = 0b1011 := by
  decide +kernel

theorem test_refpass_needs_a_geometry : reply (.refpass 0) decoding = some ⟨7, 0⟩ := by decide +kernel

/-- A column of four with bit 0 of its row 2 set, negative: run-length mode makes that row significant. -/
theorem test_clnpass_run_length :
    flagCell (after (.clnpass 0) { after (.cbinit 0 3 .ll false) encoding with cp := ⟨[(2, 0x80000001)], [], none⟩ }) 1 3
      = 0b0011 := by decide +kernel

theorem test_clnpass_refused_in_raw_mode : reply (.clnpass 0) (scanned rawDecoding) = some ⟨2, 0⟩ := by decide +kernel

/-! ## Witnesses: states and operands that meet the hypotheses of the statements -/

/-- `s` with one host action to come. -/
def given (a : HostAction) (s : State) : State := { s with inbox := [a] }

/-- The command `CXRESET`, as the host issues it. -/
def cxresetWord : HostAction := .command 0x01000000 0

theorem witness_DecodeOfEncodeIsTheInstruction :
    Instr.wf (.cbinit 1023 1023 .hh true) = true ∧ Instr.wf (.wrreg 255 0xFFFFFFFF) = true
      ∧ Instr.wf (.encode 31 true) = true := by decide

theorem witness_DecodedWordEncodesBack :
    decode 0x030000FF 0xFFFFFFFF = .ok (.wrreg 255 0xFFFFFFFF) ∧ decode 0x407FFFFF 1 = .ok (.cbinit 1023 1023 .hh true) := by
  decide

theorem witness_WordIsTheCommandWhoseRowItMatches :
    (∃ r ∈ opcodeTable, r.matches 0x2100011F = true) ∧ ∀ r ∈ opcodeTable, r.matches 0x21000120 = false := by decide

theorem witness_StepRunsTheDecodedCommand :
    (given cxresetWord small).inbox = cxresetWord :: [] ∧ decode 0x01000000 0 = .ok .cxreset
      ∧ Instr.wf (.clnpass 31) = true := ⟨rfl, by decide, by decide⟩

theorem witness_IllegalWordOnlyRaisesErrIllegal :
    (given (.command 0x44000000 0) small).inbox = .command 0x44000000 0 :: []
      ∧ ∀ r ∈ opcodeTable, 0x44000000 &&& r.mask ≠ r.pattern := ⟨rfl, by decide⟩

theorem witness_StepsThatRunNoCommand :
    small.inbox = [] ∧ 63 < small.params.cbsize ∧ ¬ 64 < small.params.cbsize ∧ 15 < small.params.maxarea
      ∧ ¬ 16 < small.params.maxarea
      ∧ (given (.writeCb 63 1) small).inbox = [.writeCb 63 1] ∧ (given (.writeCb 64 1) small).inbox = [.writeCb 64 1]
      ∧ (given (.writeCp 15 1) small).inbox = [.writeCp 15 1] ∧ (given (.writeCp 16 1) small).inbox = [.writeCp 16 1]
      ∧ (given .resetEvent small).inbox = [.resetEvent] := by decide

/-- R260: a raw encoder abandoned after it has stored the byte it completes, and a CBINIT abandoned on its way. -/
theorem witness_StepsThatRunNoCommand_abandoned :
    (given (.resetDuring 0x39000001 0 1) { rawEncoding with rct := 1 }).inbox = .resetDuring 0x39000001 0 1 :: []
      ∧ decode 0x39000001 0 = .ok (.rawenc true) ∧ rawEncoding.mode = .rawenc ∧ { rawEncoding with rct := 1 }.rct = 1
      ∧ 0 ≤ rawEncoding.bp ∧ rawEncoding.bp < rawEncoding.endAddr.toNat
      ∧ decode 0x40400403 0 = .ok (.cbinit 3 1 .ll true) ∧ (3 + 1) * (1 + 1) ≤ small.params.maxarea
      ∧ small.mode ≠ .fault ∧ decoding.mode ≠ .enc ∧ decoding.mode ≠ .rawenc := by decide +kernel

/-- R260 on a raw encoder: the completed byte stays, and the registers are those of reset. -/
theorem test_reset_while_rawenc_keeps_the_stored_byte :
    let t := stepped (given (.resetDuring 0x39000001 0 1) { rawEncoding with rct := 1, rb := 0x40 })
    t.cb.read 0 = 0x41 ∧ t.mode = .idle ∧ t.rb = 0 ∧ t.response = none := by decide +kernel

/-- A legal state in the middle of a decode, with a geometry, and a CXRESET to come. -/
def legal : State := given cxresetWord (after (.cbinit 2 3 .hl true) decoding)

theorem legal_memories : MemoriesCanonical legal := by
  unfold MemoriesCanonical
  decide +kernel

theorem legal_contexts : ContextsInTable legal ∧ UniformContextFixed legal := by
  unfold ContextsInTable UniformContextFixed
  decide +kernel

theorem legal_geometry : GeometryLegal legal := by
  unfold GeometryLegal
  decide +kernel

theorem legal_halo : HaloClear legal := ⟨by decide +kernel, fun _ _ _ _ _ => rfl⟩

theorem legal_coder : CoderBounds legal := by
  unfold CoderBounds WindowLegal DecoderBounds EncoderBounds RawDecoderBounds RawEncoderBounds
  decide +kernel

theorem encoding_coder : CoderBounds encoding := by
  unfold CoderBounds WindowLegal DecoderBounds EncoderBounds RawDecoderBounds RawEncoderBounds
  decide +kernel

theorem rawEncoding_coder : CoderBounds rawEncoding := by
  unfold CoderBounds WindowLegal DecoderBounds EncoderBounds RawDecoderBounds RawEncoderBounds
  decide +kernel

theorem encoding_bounds : EncoderBounds encoding := encoding_coder.2.2.1

theorem rawEncoding_bounds : RawEncoderBounds rawEncoding := rawEncoding_coder.2.2.2.2

theorem witness_StepKeepsMemoriesCanonical : MemoriesCanonical legal ∧ step legal = .next (stepped legal) :=
  ⟨legal_memories, rfl⟩

theorem witness_StepKeepsCoderBounds : CoderBounds legal ∧ step legal = .next (stepped legal) := ⟨legal_coder, rfl⟩

theorem witness_StepKeepsContextsInTable :
    ContextsInTable legal ∧ UniformContextFixed legal ∧ step legal = .next (stepped legal) :=
  ⟨legal_contexts.1, legal_contexts.2, rfl⟩

theorem witness_StepKeepsHaloClear : GeometryLegal legal ∧ HaloClear legal ∧ step legal = .next (stepped legal) :=
  ⟨legal_geometry, legal_halo, rfl⟩

theorem witness_ResetStateIsLegal :
    Params.wf { cbsize := 0, maxarea := 1, guardBytes := 0 } = true
      ∧ Params.wf { cbsize := 2 ^ 31, maxarea := 2 ^ 20, guardBytes := 2 } = true := by decide

/-- The clauses of EveryCommandIsAnswered on the fields of a response: an error, a decision, a warning, a value. -/
theorem witness_EveryCommandIsAnswered :
    reply (.decode 0) small = some ⟨2, 0⟩ ∧ reply .rawdec rawDecoding = some ⟨0x10, 0⟩
      ∧ reply .termchk decoding = some ⟨0x20, 1⟩ := by decide +kernel

theorem witness_RefusedCommandChangesOneStickyBit :
    exec (.decode 0) small = .next (after (.decode 0) small) ∧ AnswersError (after (.decode 0) small) .mode
      ∧ ErrorCode.mode ≠ .overflow := ⟨rfl, by unfold AnswersError; decide +kernel, by decide⟩

theorem witness_ChecksComeInTheListedOrder :
    decoding.mode = .dec ∧ encoding.mode = .enc ∧ rawDecoding.mode = .rawdec ∧ rawEncoding.mode = .rawenc
      ∧ small.mode = .idle ∧ faulted.mode = .fault
      ∧ { small with seglen := 0x80000000 }.seglen.toInt < 0
      ∧ small.params.cbsize < { small with seglen := 65 }.segbase.toNat + { small with seglen := 65 }.seglen.toNat
      ∧ 0 ≤ { small with seglen := 65 }.seglen.toInt ∧ Instr.initdec ∈ initCommands
      ∧ decoding.geomv = false ∧ small.params.maxarea < (16 + 1) * (0 + 1) := by decide +kernel

theorem witness_OnlyEncoderOverflowEntersFault :
    CoderBounds (after .initenc (segment [] 1)) ∧ exec .flushenc (after .initenc (segment [] 1)) = .next faulted
      ∧ (after .initenc (segment [] 1)).mode ≠ .fault ∧ faulted.mode = .fault := by
  refine ⟨?_, rfl, by decide +kernel, by decide +kernel⟩
  unfold CoderBounds WindowLegal DecoderBounds EncoderBounds RawDecoderBounds RawEncoderBounds
  decide +kernel

/-- MODE changes into and out of FAULT, into DEC, and to IDLE by a flush; the sticky bits and GEOMV change. -/
theorem witness_StatusFieldsChangeOnlyAsListed :
    (after .clrstat faulted).mode ≠ faulted.mode ∧ decoding.mode ≠ (segment v1 4).mode
      ∧ (after .flushenc encoding).mode ≠ encoding.mode ∧ (after .termchk decoding).wslack ≠ decoding.wslack
      ∧ (scanned small).geomv ≠ small.geomv
      ∧ (after .clrstat (after .flushenc (scanned (after .initenc (segment [] 1))))).geomv
          ≠ (after .flushenc (scanned (after .initenc (segment [] 1)))).geomv := by decide +kernel

theorem witness_OnlyListedCommandsWriteContexts :
    (after (.decode 1) decoding).cx ≠ decoding.cx
      ∧ exec (.decode 1) decoding = .next (after (.decode 1) decoding) ∧ rawDecoding.mode = .rawdec
      ∧ exec .rawdec rawDecoding = .next (after .rawdec rawDecoding) :=
  ⟨by decide +kernel, rfl, by decide +kernel, rfl⟩

theorem witness_NoCommandWritesOutsideTheWindow :
    CoderBounds encoding ∧ exec .flushenc encoding = .next (after .flushenc encoding) := ⟨encoding_coder, rfl⟩

/-- Another CB, equal to that of `decoding` in its segment of four bytes and different behind it. -/
theorem witness_DecodersNeverReadOutsideTheSegment :
    CoderBounds (after (.cbinit 2 3 .hl true) decoding) ∧ decoding.mode = .dec
      ∧ (∀ a : Nat, decoding.startAddr.toNat ≤ a → a < decoding.endAddr.toNat →
          (decoding.cb.write 4 0x55).read a = decoding.cb.read a)
      ∧ (∀ a : Nat, decoding.segbase.toNat ≤ a → a < decoding.segbase.toNat + decoding.seglen.toNat →
          (decoding.cb.write 4 0x55).read a = decoding.cb.read a)
      ∧ (decoding.cb.write 4 0x55).read 4 ≠ decoding.cb.read 4 := by
  refine ⟨?_, by decide +kernel, fun a _ h => ?_, fun a _ h => ?_, by decide +kernel⟩
  · unfold CoderBounds WindowLegal DecoderBounds EncoderBounds RawDecoderBounds RawEncoderBounds
    decide +kernel
  · rw [Memory.read_write, if_neg]
    have : decoding.endAddr.toNat = 4 := by decide +kernel
    omega
  · rw [Memory.read_write, if_neg]
    have : decoding.segbase.toNat + decoding.seglen.toNat = 4 := by decide +kernel
    omega

theorem witness_NopFinishdecClrstatResults :
    decoding.mode = .dec ∧ rawDecoding.mode = .rawdec ∧ small.mode ≠ .fault ∧ faulted.mode = .fault := by decide +kernel

theorem witness_CxresetLoadsInitialContexts : encoding.mode ≠ .fault := by decide +kernel

theorem witness_WrregWritesSegbaseOrSeglen : (0x06 : Nat) ≠ 0x04 ∧ (0x06 : Nat) ≠ 0x05 := by decide

theorem witness_RdregAnswersTheRegister :
    portReg 0x11 = some .geom ∧ portReg 0x32 = some (.cx 18) ∧ portReg 0x6E = some (.cmt 46)
      ∧ isUnspecified .geom small.unspec = true ∧ isUnspecified (.cx 18) small.unspec = false
      ∧ portReg 0x07 = none ∧ portReg 0x12 = none ∧ portReg 0x33 = none ∧ portReg 0x3F = none
      ∧ portReg 0x6F = none ∧ portReg 0x10 = some .rawst ∧ rawDecoding.unspec.raw = false
      ∧ rawDecoding.unspec.lastff = true := by decide +kernel

theorem witness_RegisterImagesAsLaidOut : 1 ≤ small.w ∧ small.w ≤ 1024 ∧ 1 ≤ small.h ∧ small.h ≤ 1024 := by decide

theorem witness_ContextModelTableFacts : (0 : BitVec 6) ≤ 46 ∧ (46 : BitVec 6) ≤ 46 ∧ small.cx[labelUNI].i = 46 := by
  decide

theorem witness_TransitionsWriteTheSelectedContext : labelZC0 ≠ labelUNI := by decide

/-- The three cases of BYTEIN: FF 90, FF 8F, and an ordinary byte. -/
theorem witness_ByteInTakesMarkerStuffedOrOrdinaryByte :
    fetchByte { segment [0xFF, 0x90] 2 with endAddr := 2 } 0 = 0xFF
      ∧ 0x8F < fetchByte { segment [0xFF, 0x90] 2 with endAddr := 2 } 1
      ∧ fetchByte { segment [0xFF, 0x8F] 2 with endAddr := 2 } 1 ≤ 0x8F
      ∧ fetchByte { segment [0xFE] 1 with endAddr := 1 } 0 ≠ 0xFF := by decide +kernel

/-- One round for A = 0x4000, fifteen for A = 1; the encoder ends too. -/
theorem witness_RenormalizationShiftsUntilNormalized :
    (1 ≤ 0x4000 ∧ 0x4000 * 2 ^ (1 - 1) < 2 ^ 15 ∧ 2 ^ 15 ≤ 0x4000 * 2 ^ 1)
      ∧ (1 ≤ 1 ∧ 1 * 2 ^ (15 - 1) < 2 ^ 15 ∧ 2 ^ 15 ≤ 1 * 2 ^ 15)
      ∧ (match renormEncoder maxShifts { encoding with a := 1 } with
          | .done _ t => t.a == 0x8000
          | .overflow _ => false) = true := by decide +kernel

/-- The three cases of INITDEC, and a window that ends exactly at CBSIZE. -/
theorem witness_InitdecLoadsTheSegment :
    (segment v1 64).params.wf = true ∧ (segment v1 64).mode ≠ .fault ∧ WindowAdmitted (segment v1 64)
      ∧ segmentByte (segment v1 64) 0 ≠ 0xFF
      ∧ segmentByte (segment [0xFF, 0x8F] 2) 0 = 0xFF ∧ segmentByte (segment [0xFF, 0x8F] 2) 1 ≤ 0x8F
      ∧ WindowAdmitted (segment [0xFF, 0x8F] 2) ∧ WindowAdmitted (segment [0xFF] 0)
      ∧ segmentByte (segment [] 0) 0 = 0xFF ∧ 0x8F < segmentByte (segment [] 0) 1 := by
  unfold WindowAdmitted
  decide +kernel

/-- A path without and a path with renormalization. -/
theorem witness_DecodeFollowsTheFourPaths :
    decoding.mode = .dec ∧ (18 : Nat) < 19
      ∧ decoding.c.extractLsb' 16 16 < (cmtRow decoding.cx[1].i).qe
      ∧ ¬ ({ decoding with a := 0xF002 }.c.extractLsb' 16 16 < (cmtRow decoding.cx[labelZC0].i).qe)
      ∧ 0x8000 ≤ { decoding with a := 0xF002 }.a - (cmtRow decoding.cx[labelZC0].i).qe
      ∧ decoding.a - (cmtRow decoding.cx[labelZC0].i).qe < 0x8000 := by decide +kernel

theorem witness_ConditionalExchangesAsStated :
    (cmtRow small.cx[labelZC0].i).qe = 0x0521 ∧ { small with a := 0x0520 }.a < 0x0521
      ∧ (0x0521 : BitVec 16) ≤ { small with a := 0x0521 }.a := by decide +kernel

theorem witness_TermchkReportsAtMostOneWarning :
    decoding.mode = .dec ∧ decoding.bp + 2 < decoding.endAddr.toNat
      ∧ (decoding.endAddr.toNat : Int) ≤ { decoding with bp := 2 }.bp + 2
      ∧ 2 < { decoding with eoscnt := 3 }.eoscnt.toNat ∧ { decoding with eoscnt := 2 }.eoscnt.toNat ≤ 2 := by
  decide +kernel

theorem witness_EncoderAndRawInitsLoadTheWindow :
    (segment [] 64).mode ≠ .fault ∧ WindowAdmitted (segment [] 64) := by
  unfold WindowAdmitted
  decide +kernel

/-- The paths of ENCODE: an MPS with and without renormalization, and an LPS. -/
theorem witness_EncodeCodesOneDecision :
    encoding.mode = .enc ∧ EncoderBounds encoding ∧ encoding.bp + 2 < encoding.endAddr.toNat
      ∧ encoding.cx[labelZC0].mps = false ∧ encoding.a - (cmtRow encoding.cx[labelZC0].i).qe < 0x8000
      ∧ 0x8000 ≤ { encoding with a := 0xFFFF }.a - (cmtRow encoding.cx[labelZC0].i).qe :=
  ⟨by decide +kernel, encoding_bounds, by decide +kernel, by decide +kernel, by decide +kernel, by decide +kernel⟩

/-- The arms of BYTEOUT: at the phantom byte, after FF, after FE with a carry, after another byte with a carry. -/
theorem witness_ByteOutMovesOneByte :
    (encoding.startAddr.toNat : Int) - 1 ≤ encoding.bp ∧ encoding.bp + 1 < encoding.endAddr.toNat
      ∧ encoding.bp = (encoding.startAddr.toNat : Int) - 1 ∧ encoding.c.toNat < 2 ^ 27
      ∧ lastByte { encoding with bp := 0, cb := ⟨[(0, 0xFF)], [], none⟩ } = 0xFF
      ∧ lastByte { encoding with bp := 0, cb := ⟨[(0, 0xFE)], [], none⟩ } = 0xFE
      ∧ 2 ^ 27 ≤ { encoding with c := 0x08000000 }.c.toNat := by decide +kernel

/-- Both outcomes of SETBITS' comparison. -/
theorem witness_SetBitsStaysInTheInterval :
    0x8000 ≤ encoding.a ∧ encoding.c.toNat < 2 ^ 28
      ∧ encoding.c.toNat + encoding.a.toNat ≤ (encoding.c ||| 0x0000FFFF).toNat
      ∧ ({ encoding with c := 0x8000 }.c ||| 0x0000FFFF).toNat
          < { encoding with c := 0x8000 }.c.toNat + { encoding with a := 0x8000 }.a.toNat := by decide +kernel

theorem witness_FlushencEndsTheSegment :
    encoding.mode = .enc ∧ EncoderBounds encoding ∧ encoding.bp + 2 < encoding.endAddr.toNat :=
  ⟨by decide +kernel, encoding_bounds, by decide +kernel⟩

theorem witness_EncoderMirrorsTheDecoder :
    decoding.a = encoding.a ∧ decoding.cx = encoding.cx
      ∧ (match encodeDecision 1 (decodeDecision 1 decoding).1 encoding with
          | .done _ u => u.a == 0xAC02
          | .overflow _ => false) = true := by decide +kernel

theorem witness_SegmentPseudoCommandsOpenTheSegment :
    small.mode ≠ .fault ∧ WindowAdmitted { small with segbase := 2, seglen := 4 } := by
  unfold WindowAdmitted
  decide +kernel

theorem witness_WindowOfTheStatedCapacityNeverFaults :
    (segment [] 7).params.wf = true ∧ (segment [] 7).mode ≠ .fault ∧ WindowAdmitted (segment [] 7)
      ∧ 15 * [((1 : Label), true), (18, false)].length / 7 + 3 ≤ (segment [] 7).seglen.toNat := by
  unfold WindowAdmitted
  decide +kernel

/-- The cases of RAWDEC: bits left, a marker, a stuffed byte, an ordinary byte. -/
theorem witness_RawdecDeliversTheNextBit :
    rawDecoding.mode = .rawdec ∧ { rawDecoding with rct := 8 }.rct ≠ 0 ∧ rawDecoding.rct = 0 ∧ rawDecoding.rb ≠ 0xFF
      ∧ 0x8F < fetchByte rawDecoding rawDecoding.bp
      ∧ fetchByte { rawDecoding with bp := 1, rb := 0xFF } 1 ≤ 0x8F := by decide +kernel

theorem witness_RawencAppendsOneBit :
    rawEncoding.mode = .rawenc ∧ RawEncoderBounds rawEncoding ∧ rawEncoding.rct ≠ 1
      ∧ RawEncoderBounds { rawEncoding with rct := 1 }
      ∧ { rawEncoding with rct := 1 }.bp < { rawEncoding with rct := 1 }.endAddr.toNat := by
  refine ⟨by decide +kernel, rawEncoding_bounds, by decide +kernel, ?_, by decide +kernel⟩
  unfold RawEncoderBounds
  decide +kernel

/-- Bits that wait, none that wait, and a final FF. -/
theorem witness_RawflushEndsTheSegment :
    rawEncoding.mode = .rawenc ∧ RawEncoderBounds rawEncoding ∧ rawEncoding.lastff = false ∧ rawEncoding.rct = 8
      ∧ RawEncoderBounds { rawEncoding with rct := 3 }
      ∧ { rawEncoding with rct := 3 }.bp < { rawEncoding with rct := 3 }.endAddr.toNat
      ∧ RawEncoderBounds { rawEncoding with rct := 7, lastff := true, bp := 1 } := by
  refine ⟨by decide +kernel, rawEncoding_bounds, by decide +kernel, by decide +kernel, ?_, by decide +kernel, ?_⟩
  · unfold RawEncoderBounds
    decide +kernel
  · unfold RawEncoderBounds
    decide +kernel

/-- The encoder with a byte due after two shifts, `n` bytes short of the end of its window, ZC0 in row `i`. -/
def nearEnd (i : BitVec 6) (n : Int) : State :=
  { encoding with ct := 2, bp := 39 - n, cx := encoding.cx.set 0 ⟨i, false⟩ }

theorem nearEnd_bounds : EncoderBounds (nearEnd 45 0) ∧ EncoderBounds (nearEnd 45 1) ∧ EncoderBounds (nearEnd 4 1) := by
  unfold EncoderBounds
  decide +kernel

/-- An MPS that needs no shift. -/
theorem nearEnd_wide : EncoderBounds { nearEnd 4 1 with a := 0xC000 }
    ∧ 0x8000 ≤ { nearEnd 4 1 with a := 0xC000 }.a - 0x0521 := by
  unfold EncoderBounds
  decide +kernel

/-- ENCODE under ZC0: an MPS that shifts once and puts no byte; an LPS of 5 shifts whose byte has room; an LPS of 15
shifts whose first or second byte has none. -/
theorem witness_EncodersFaultAtTheEndOfTheWindow_encode :
    (cmtRow 4).qe = 0x0521 ∧ (cmtRow 45).qe = 0x0001 ∧ (nearEnd 4 1).mode = .enc ∧ (nearEnd 4 1).a = 0x8000
      ∧ (0x8000 - 0x0521) * 2 ^ (1 - 1) < 2 ^ 15 ∧ 2 ^ 15 ≤ (0x8000 - 0x0521) * 2 ^ 1 ∧ 1 < (nearEnd 4 1).ct.toNat
      ∧ (0x0521 : Nat) * 2 ^ (5 - 1) < 2 ^ 15 ∧ 2 ^ 15 ≤ 0x0521 * 2 ^ 5 ∧ (nearEnd 4 1).ct.toNat ≤ 5
      ∧ (nearEnd 4 1).bp + 1 < (nearEnd 4 1).endAddr.toNat ∧ (after (.encode 0 true) (nearEnd 4 1)).mode = .enc
      ∧ (0x0001 : Nat) * 2 ^ (15 - 1) < 2 ^ 15 ∧ 2 ^ 15 ≤ 0x0001 * 2 ^ 15
      ∧ ((nearEnd 45 0).endAddr.toNat : Int) ≤ (nearEnd 45 0).bp + 1
      ∧ ((nearEnd 45 1).endAddr.toNat : Int) ≤ (nearEnd 45 1).bp + 2
      ∧ (after (.encode 0 true) (nearEnd 45 0)).mode = .fault ∧ (after (.encode 0 true) (nearEnd 45 1)).mode = .fault := by
  decide +kernel

/-- The passes: raw visits at the end of the window, and a SIGPASS that makes one. -/
theorem witness_EncodersFaultAtTheEndOfTheWindow_passes :
    let s := markSignificant 0 0 true (scanned { rawEncoding with rct := 1, bp := 16 })
    s.mode = .rawenc ∧ s.geomv = true ∧ s.rct = 1 ∧ (s.endAddr.toNat : Int) ≤ s.bp ∧ isVisited s 0 1 = false
      ∧ isSignificant s 0 1 = false ∧ 0 < neighbours s 0 1 ∧ isVisited s 0 0 = false ∧ isSignificant s 0 0 = true
      ∧ (after (.sigpass 0) s).mode = .fault ∧ (scanned encoding).mode = .enc ∧ (scanned encoding).geomv = true := by
  decide +kernel

theorem witness_EncodersFaultAtTheEndOfTheWindow :
    rawEncoding.mode = .rawenc ∧ { rawEncoding with rct := 1, bp := 16 }.rct = 1
      ∧ (rawEncoding.endAddr.toNat : Int) ≤ { rawEncoding with rct := 1, bp := 16 }.bp
      ∧ { rawEncoding with rct := 3, bp := 16 }.rct ≠ 8 ∧ encoding.mode = .enc
      ∧ (encoding.endAddr.toNat : Int) ≤ { encoding with bp := 38 }.bp + 2 := by decide +kernel

theorem witness_RawRoundTripReturnsTheBits :
    (segment [] 2).params.wf = true ∧ (segment [] 2).mode ≠ .fault ∧ WindowAdmitted (segment [] 2)
      ∧ (List.replicate 14 true).length ≤ 7 * (segment [] 2).seglen.toNat := by
  unfold WindowAdmitted
  decide +kernel

theorem witness_ZeroAndSignCodingLabelTables :
    (2 : Nat) ≤ 2 ∧ (4 : Nat) ≤ 4 ∧ Orientation.lh = .lh ∧ encoding.mode = .enc ∧ decoding.mode = .dec := by
  decide +kernel

theorem witness_DerivedLabelsAreOfTheirFamily :
    isRefined { small with fp := [(4, 0b1001)] } 0 0 = true ∧ isRefined small 0 0 = false
      ∧ neighbours small 0 0 = 0 ∧ 0 < neighbours { small with fp := [(0, 1)] } 0 0 := by decide +kernel

theorem witness_CbinitLoadsTheGeometry : small.mode ≠ .fault ∧ (15 + 1) * (0 + 1) ≤ small.params.maxarea := by decide

theorem witness_DecodingPassesComplete :
    (scanned decoding).geomv = true ∧ (scanned decoding).mode = .dec ∧ (scanned rawDecoding).mode = .rawdec
      ∧ (scanned rawDecoding).geomv = true := by decide +kernel

/-- A geometry of one coefficient in the encoders' windows. -/
theorem witness_EncodingPassesCompleteWithRoom :
    CoderBounds (after (.cbinit 0 0 .ll false) encoding) ∧ (after (.cbinit 0 0 .ll false) encoding).geomv = true
      ∧ (after (.cbinit 0 0 .ll false) encoding).mode = .enc
      ∧ (after (.cbinit 0 0 .ll false) encoding).bp + 2 * (2 * 1 * 1 + 3 * 1 * ((1 + 3) / 4)) < 40
      ∧ CoderBounds (after (.cbinit 0 0 .ll false) rawEncoding)
      ∧ (after (.cbinit 0 0 .ll false) rawEncoding).mode = .rawenc
      ∧ (after (.cbinit 0 0 .ll false) rawEncoding).bp + 2 * 1 * 1 ≤ 16 := by
  refine ⟨?_, by decide +kernel, by decide +kernel, by decide +kernel, ?_, by decide +kernel, by decide +kernel⟩
  · unfold CoderBounds WindowLegal DecoderBounds EncoderBounds RawDecoderBounds RawEncoderBounds
    decide +kernel
  · unfold CoderBounds WindowLegal DecoderBounds EncoderBounds RawDecoderBounds RawEncoderBounds
    decide +kernel

/-- A sign decoded in DEC, and one encoded raw. -/
theorem witness_SignifyMarksTheCoefficient :
    (match codeSign 2 3 (scanned decoding) with
      | .done _ u => u.mode == .dec
      | .overflow _ => false) = true
      ∧ (match codeSign 0 0 (scanned rawEncoding) with
        | .done neg _ => neg == false
        | .overflow _ => false) = true
      ∧ 2 < (scanned decoding).w ∧ (scanned rawEncoding).mode = .rawenc ∧ (scanned rawDecoding).mode = .rawdec := by
  decide +kernel

theorem answers_of_ok {t : State} (h : t.response = some ⟨0, 0⟩) : AnswersWithoutError t := ⟨_, h, by decide⟩

/-- A visit that refines, in each mode; a visited and an insignificant coefficient. -/
theorem witness_RefpassRefinesExactlyTheSignificant_visit :
    isSignificant (markSignificant 2 3 true (scanned encoding)) 2 3 = true
      ∧ isVisited (markSignificant 2 3 true (scanned encoding)) 2 3 = false ∧ (scanned encoding).mode = .enc
      ∧ (scanned rawEncoding).mode = .rawenc ∧ (scanned decoding).mode = .dec ∧ (scanned rawDecoding).mode = .rawdec
      ∧ isVisited (markVisited 2 3 (scanned encoding)) 2 3 = true ∧ (scanned encoding).geomv = true := by decide +kernel

/-- A refinement pass over a significant and an insignificant coefficient. -/
theorem witness_RefpassRefinesExactlyTheSignificant :
    AnswersWithoutError (after (.refpass 0) (markSignificant 2 3 true (scanned decoding)))
      ∧ (2 : Nat) < (scanned decoding).w ∧ (3 : Nat) < (scanned decoding).h
      ∧ isSignificant (markSignificant 2 3 true (scanned decoding)) 2 3 = true
      ∧ isSignificant (markSignificant 2 3 true (scanned decoding)) 0 0 = false :=
  ⟨answers_of_ok (by decide +kernel), by decide +kernel, by decide +kernel, by decide +kernel, by decide +kernel⟩

/-- Visits of SIGPASS: one that codes, and one for each reason not to. -/
theorem witness_SigpassCodesInsignificantNeighbours_visit :
    let s := markSignificant 0 0 true (scanned encoding)
    isSignificant s 0 1 = false ∧ isVisited s 0 1 = false ∧ 0 < neighbours s 0 1 ∧ isSignificant s 0 0 = true
      ∧ isVisited (markVisited 0 1 s) 0 1 = true ∧ neighbours s 2 3 = 0 ∧ s.mode = .enc ∧ s.geomv = true := by
  decide +kernel

/-- A significance pass over a significant coefficient, one it codes, and one it leaves, in both directions. -/
theorem witness_SigpassCodesInsignificantNeighbours :
    AnswersWithoutError (after (.sigpass 0) (markSignificant 0 0 true (scanned decoding)))
      ∧ AnswersWithoutError (after (.sigpass 0) (markSignificant 0 0 true (scanned encoding)))
      ∧ isVisited (after (.sigpass 0) (markSignificant 0 0 true (scanned encoding))) 0 1 = true
      ∧ isVisited (after (.sigpass 0) (markSignificant 0 0 true (scanned encoding))) 2 3 = false
      ∧ isSignificant (markSignificant 0 0 true (scanned encoding)) 0 0 = true :=
  ⟨answers_of_ok (by decide +kernel), answers_of_ok (by decide +kernel), by decide +kernel, by decide +kernel,
    by decide +kernel⟩

theorem witness_ClnpassCodesTheRest :
    (markVisited 1 0 (scanned decoding)).fp.wf = true
      ∧ AnswersWithoutError (after (.clnpass 0) (markVisited 1 0 (scanned decoding)))
      ∧ AnswersWithoutError (after (.clnpass 29) (scanned encoding))
      ∧ isVisited (markVisited 1 0 (scanned decoding)) 1 0 = true
      ∧ isVisited (markVisited 1 0 (scanned decoding)) 0 0 = false :=
  ⟨by decide +kernel, answers_of_ok (by decide +kernel), answers_of_ok (by decide +kernel), by decide +kernel,
    by decide +kernel⟩

/-- Visits of CLNPASS, and a column that is not eligible. -/
theorem witness_ClnpassCodesTheRest_visit :
    let s := markSignificant 0 0 true (scanned encoding)
    isSignificant s 2 3 = false ∧ isVisited s 2 3 = false ∧ isSignificant s 0 0 = true
      ∧ isVisited (markVisited 2 3 s) 2 3 = true ∧ runEligible 0 0 s = false ∧ s.geomv = true ∧ s.mode = .enc := by
  decide +kernel

theorem scanned_encoding_insignificant (x y : Nat) : isSignificant (scanned encoding) x y = false := by
  have h : (scanned encoding).fp = [] := by decide +kernel
  simp [isSignificant, flagOf, flagCell, h, Cells.read]

theorem witness_PassesWithNothingSignificantChangeNothing :
    (scanned encoding).mode ≠ .idle ∧ (scanned encoding).mode ≠ .fault ∧ (scanned encoding).geomv = true
      ∧ HaloClear (scanned encoding)
      ∧ ∀ x y : Nat, x < (scanned encoding).w → y < (scanned encoding).h → isSignificant (scanned encoding) x y = false :=
  ⟨by decide +kernel, by decide +kernel, by decide +kernel, ⟨by decide +kernel, fun _ _ _ _ _ => rfl⟩,
    fun x y _ _ => scanned_encoding_insignificant x y⟩

/-- Eligible columns in ENC: one of zeros, and one whose rows 2 and 3 have bit 0. -/
theorem witness_EligibleColumnIsRunLengthCoded_encode :
    let s := { scanned encoding with cp := ((scanned encoding).cp.write 8 1).write 11 1 }
    s.mode = .enc ∧ runEligible 0 1 s = true ∧ runEligible 0 2 s = true
      ∧ (∀ j : Nat, j < 4 → magBit s 1 (4 * 0 + j) 0 = false)
      ∧ magBit s 2 (4 * 0 + 2) 0 = true ∧ magBit s 2 (4 * 0 + 3) 0 = true
      ∧ ∀ j : Nat, j < 2 → magBit s 2 (4 * 0 + j) 0 = false := by decide +kernel

/-- An eligible column whose AGG decision is 0 and one whose AGG decision is 1. -/
theorem witness_EligibleColumnIsRunLengthCoded :
    (scanned decoding).mode = .dec ∧ runEligible 0 2 (scanned decoding) = true
      ∧ (decodeDecision 17 (scanned decoding)).1 = false
      ∧ (decodeDecision 17 { scanned decoding with c := 0 }).1 = true := by decide +kernel

/-- A descriptor of one coefficient that keeps the contract, with `planes` planes. -/
def descriptor (planes : Int) (corrupted : Bool) : CodeBlock where
  x0 := 5
  y0 := 7
  x1 := 6
  y1 := 8
  numBitplanes := planes
  roiShift := 0
  bypass := false
  resetContexts := false
  orient := .ll
  corrupted := corrupted
  chunks := [⟨[0x12, 0xFF], 1⟩, ⟨[0x34], 1⟩]
  segments := [⟨2, 1⟩]
  checkTermination := true
  coefficientPlane := []
  destination := some [⟨true, 7⟩, ⟨true, 9⟩]
  sink := none

theorem witness_RejectedCodeBlocksLeaveTheBlock :
    contractKept (descriptor 31 false) 0 small.params = true ∧ contractKept (descriptor 31 false) 61 small.params = false
      ∧ (descriptor 1 true).corrupted = true ∧ 31 ≤ (descriptor 31 false).roiShift + (descriptor 31 false).numBitplanes
      ∧ (descriptor 30 false).roiShift + (descriptor 30 false).numBitplanes ≤ 30 := by decide +kernel

/-- S6: 30 planes decode; the plane goes to the caller's buffer. -/
theorem test_decodeCodeBlock_of_30_planes :
    let o := decodeCodeBlock (descriptor 30 false) 0 small
    o.result = .decoded ∧ o.coefficientPlane.length = 1 ∧ o.sink = none
      ∧ o.destination = some (o.coefficientPlane ++ [⟨true, 9⟩]) := by decide +kernel

/-- R217: the plane given is loaded into CP, and stays there. -/
theorem test_encodeCodeBlock_loads_the_plane :
    readPlane (encodeCodeBlock ⟨1, false, false, 16⟩ [⟨true, 1⟩] 1 1 .ll 0 small).2 = [⟨true, 1⟩] := by decide +kernel

theorem witness_PassesFollowTheCanonicalCycle : (1 : Nat) ≤ 5 ∧ (12 : Nat) < 3 * 5 - 2 := by decide

end Sys2Proof.Tests
end

/-! ## Runs with two ends -/

namespace Sys2Proof.Machine

/-- `P` holds where the run ends, and `Q` where it overflows. `Run.All` asks the same of both ends; the bounds of a coder's
registers hold at the first only, since an overflow stops the coder in the middle of a round (R233). -/
def Run.Ends {α : Type} (P Q : State → Prop) : Run α → Prop
  | .done _ s => P s
  | .overflow s => Q s

@[simp] theorem Run.ends_done {α : Type} (P Q : State → Prop) (v : α) (s : State) : (Run.done v s).Ends P Q ↔ P s :=
  Iff.rfl

@[simp] theorem Run.ends_overflow {α : Type} (P Q : State → Prop) (s : State) :
    (Run.overflow s : Run α).Ends P Q ↔ Q s := Iff.rfl

theorem Run.ends_bind {α β : Type} {P P' Q : State → Prop} {r : Run α} {f : α → State → Run β}
    (hr : r.Ends P Q) (hf : ∀ v s, P s → (f v s).Ends P' Q) : (r.bind f).Ends P' Q := by
  cases r with
  | done v s => exact hf v s hr
  | overflow s => exact hr

theorem Run.Ends.imp {α : Type} {P P' Q Q' : State → Prop} {r : Run α} (hr : r.Ends P Q) (hP : ∀ s, P s → P' s)
    (hQ : ∀ s, Q s → Q' s) : r.Ends P' Q' := by
  cases r with
  | done v s => exact hP s hr
  | overflow s => exact hQ s hr

/-- What holds at both ends may be added to what holds at the first. -/
theorem Run.Ends.and_all {α : Type} {P Q R : State → Prop} {r : Run α} (hr : r.Ends P Q) (ha : r.All R) :
    r.Ends (fun s => P s ∧ R s) Q := by
  cases r with
  | done v s => exact ⟨hr, ha⟩
  | overflow s => exact hr

theorem Run.All.ends {α : Type} {P : State → Prop} {r : Run α} (h : r.All P) : r.Ends P P := by
  cases r <;> exact h

theorem Run.all_and {α : Type} {P Q : State → Prop} {r : Run α} (hp : r.All P) (hq : r.All Q) :
    r.All fun s => P s ∧ Q s := by
  cases r <;> exact ⟨hp, hq⟩

/-- A command that codes ends in `Q` if its procedure keeps `P`, and its last writes and the fault lead from `P` to `Q`. -/
theorem finish_of_all {α : Type} {P Q : State → Prop} {r : Run α} {last : α → State → State} (hr : r.All P)
    (hl : ∀ v t, P t → Q (last v t)) (hf : ∀ t, P t → Q (takeFault t)) : Q (finish r last) := by
  cases r with
  | done v t => exact hl v t hr
  | overflow t => exact hf t hr

theorem forEach_ends {α : Type} {P Q : State → Prop} {visit : α → State → Run Unit} (xs : List α)
    (h : ∀ x ∈ xs, ∀ s, P s → (visit x s).Ends P Q) (s : State) (hs : P s) : (forEach visit xs s).Ends P Q := by
  induction xs generalizing s with
  | nil => exact hs
  | cons x xs ih =>
    exact Run.ends_bind (h x (List.mem_cons_self ..) s hs)
      fun _ t ht => ih (fun y hy => h y (List.mem_cons_of_mem _ hy)) t ht

/-! ## A pass whose states keep `P` until it ends, or overflow in `Q` -/

/-- `PassKeeps` for a property `P` that an overflow may break: there `Q` holds instead. -/
structure PassEnds (w h : Nat) (P Q : State → Prop) : Prop where
  size : ∀ s, P s → s.w = w ∧ s.h = h
  label : ∀ k v s, isArithmetic s = true → P s → (codeLabel k v s).Ends P Q
  raw : ∀ v s, isArithmetic s = false → P s → (codeRaw v s).Ends P Q
  significant : ∀ x y neg s, x < w → y < h → P s → P (markSignificant x y neg s)
  visited : ∀ x y s, x < w → y < h → P s → P (markVisited x y s)
  refined : ∀ x y s, x < w → y < h → P s → P (markRefined x y s)
  magnitude : ∀ x y p b s, x < w → y < h → isDecoding s = true → P s → P (orMagBit x y p b s)
  sign : ∀ x y neg s, x < w → y < h → isDecoding s = true → P s → P (setNegative x y neg s)

section

variable {w h : Nat} {P Q : State → Prop}

theorem PassEnds.symbol (c : PassEnds w h P Q) (k : Label) (v : Bool) (s : State) (hs : P s) :
    (codeSymbol k v s).Ends P Q := by
  unfold codeSymbol
  split
  case isTrue ha => exact c.label k v s ha hs
  case isFalse ha => exact c.raw v s (Bool.eq_false_iff.2 ha) hs

theorem PassEnds.codeSign (c : PassEnds w h P Q) (x y : Nat) (s : State) (hs : P s) : (codeSign x y s).Ends P Q := by
  unfold Machine.codeSign
  split
  case isTrue ha => exact Run.ends_bind (c.label _ _ s ha hs) fun _ _ ht => ht
  case isFalse ha => exact c.raw _ s (Bool.eq_false_iff.2 ha) hs

theorem PassEnds.signify (c : PassEnds w h P Q) (x y p : Nat) (s : State) (hx : x < w) (hy : y < h) (hs : P s) :
    (signify x y p s).Ends P Q := by
  unfold Machine.signify
  refine Run.ends_bind (c.codeSign x y s hs) fun neg t ht => ?_
  have hm := c.significant x y neg t hx hy ht
  split
  case isTrue hd => exact c.sign x y neg _ hx hy hd (c.magnitude x y p true _ hx hy hd hm)
  case isFalse => exact hm

theorem PassEnds.codeSignificance (c : PassEnds w h P Q) (x y p : Nat) (s : State) (hx : x < w) (hy : y < h)
    (hs : P s) : (codeSignificance x y p s).Ends P Q := by
  unfold Machine.codeSignificance
  refine Run.ends_bind (c.symbol _ _ s hs) fun b t ht => ?_
  split
  case isTrue => exact c.signify x y p t hx hy ht
  case isFalse => exact ht

theorem PassEnds.visitSignificance (c : PassEnds w h P Q) (p : Nat) (xy : Nat × Nat) (s : State) (hx : xy.1 < w)
    (hy : xy.2 < h) (hs : P s) : (visitSignificance p xy s).Ends P Q := by
  unfold Machine.visitSignificance
  split
  case isTrue =>
    exact Run.ends_bind (c.codeSignificance xy.1 xy.2 p s hx hy hs) fun _ t ht => c.visited xy.1 xy.2 t hx hy ht
  case isFalse => exact hs

theorem PassEnds.visitRefinement (c : PassEnds w h P Q) (p : Nat) (xy : Nat × Nat) (s : State) (hx : xy.1 < w)
    (hy : xy.2 < h) (hs : P s) : (visitRefinement p xy s).Ends P Q := by
  unfold Machine.visitRefinement
  split
  case isTrue =>
    refine Run.ends_bind (c.symbol _ _ s hs) fun b t ht => c.refined xy.1 xy.2 _ hx hy ?_
    split
    case isTrue hd => exact c.magnitude xy.1 xy.2 p b t hx hy hd ht
    case isFalse => exact ht
  case isFalse => exact hs

theorem PassEnds.cleanRows (c : PassEnds w h P Q) (p k x j : Nat) (s : State) (hx : x < w) (hs : P s) :
    (cleanRows p k x j s).Ends P Q := by
  refine forEach_ends _ (fun y hy t ht => ?_) s hs
  unfold visitCleanup
  split
  case isTrue => exact c.codeSignificance x y p t hx ((c.size s hs).2 ▸ mem_stripeRows hy) ht
  case isFalse => exact ht

theorem PassEnds.visitColumn (c : PassEnds w h P Q) (arithmetic : ∀ s, P s → isArithmetic s = true) (p : Nat)
    (col : Nat × Nat) (s : State) (hx : col.2 < w) (hs : P s) : (visitColumn p col s).Ends P Q := by
  have coded : ∀ k v t, P t → (codeLabel k v t).Ends P Q := fun k v t ht => c.label k v t (arithmetic t ht) ht
  unfold Machine.visitColumn
  dsimp only
  split
  case isTrue hr =>
    have hk : 4 * col.1 + 3 < h := by
      simp only [runEligible, Bool.and_eq_true, decide_eq_true_eq, (c.size s hs).2] at hr
      exact hr.1
    refine Run.ends_bind (coded _ _ s hs) fun a t ht => ?_
    split
    case isTrue =>
      refine Run.ends_bind (coded _ _ t ht) fun r1 t1 ht1 => Run.ends_bind (coded _ _ t1 ht1) fun r0 t0 ht0 => ?_
      have hr1 : r1.toNat ≤ 1 := Bool.toNat_le r1
      have hr0 : r0.toNat ≤ 1 := Bool.toNat_le r0
      exact Run.ends_bind (c.signify _ _ p t0 hx (by omega) ht0) fun _ u hu => c.cleanRows p _ _ _ u hx hu
    case isFalse => exact ht
  case isFalse => exact c.cleanRows p _ _ 0 s hx hs

theorem PassEnds.significancePass (c : PassEnds w h P Q) (p : Nat) (s : State) (hs : P s) :
    (significancePass p s).Ends P Q := by
  obtain ⟨rfl, rfl⟩ := c.size s hs
  exact forEach_ends _ (fun xy hxy t => c.visitSignificance p xy t (mem_scanOrder hxy).1 (mem_scanOrder hxy).2) s hs

theorem PassEnds.refinementPass (c : PassEnds w h P Q) (p : Nat) (s : State) (hs : P s) :
    (refinementPass p s).Ends P Q := by
  obtain ⟨rfl, rfl⟩ := c.size s hs
  exact forEach_ends _ (fun xy hxy t => c.visitRefinement p xy t (mem_scanOrder hxy).1 (mem_scanOrder hxy).2) s hs

theorem PassEnds.cleanupPass (c : PassEnds w h P Q) (arithmetic : ∀ s, P s → isArithmetic s = true)
    (clear : ∀ s, P s → P (clearVisited s)) (p : Nat) (s : State) (hs : P s) : (cleanupPass p s).Ends P Q := by
  obtain ⟨rfl, rfl⟩ := c.size s hs
  exact Run.ends_bind
    (forEach_ends _ (fun col hc t => c.visitColumn arithmetic p col t (mem_scanColumns hc).2) s hs)
    fun _ t ht => clear t ht

end

/-- The states of a pass that began in state `s` and that have the property `P`. -/
def DuringPass (P : State → Prop) (s t : State) : Prop := P t ∧ PassFrame s t

/-- CLNPASS runs in the arithmetic modes alone, and to its end in the mode it began in (R167). -/
theorem isArithmetic_of_passFrame {s t : State} (hm : s.mode = .dec ∨ s.mode = .enc) (h : PassFrame s t) :
    isArithmetic t = true := by
  simpa [isArithmetic, h.mode.1] using hm

theorem PassEnds.cleanup {P Q : State → Prop} {s : State} (c : PassEnds s.w s.h (DuringPass P s) Q)
    (hm : s.mode = .dec ∨ s.mode = .enc) (clear : ∀ t, P t → P (clearVisited t)) (p : Nat) (hs : P s) :
    (Machine.cleanupPass p s).Ends (DuringPass P s) Q :=
  c.cleanupPass (fun _ h => isArithmetic_of_passFrame hm h.2) (fun t h => ⟨clear t h.1, h.2.setFp _⟩) p s ⟨hs, .refl s⟩

theorem PassKeeps.cleanup {P : State → Prop} {s : State} (c : PassKeeps s.w s.h (DuringPass P s))
    (hm : s.mode = .dec ∨ s.mode = .enc) (clear : ∀ t, P t → P (clearVisited t)) (p : Nat) (hs : P s) :
    (Machine.cleanupPass p s).All (DuringPass P s) :=
  c.cleanupPass (fun _ h => isArithmetic_of_passFrame hm h.2) (fun t h => ⟨clear t h.1, h.2.setFp _⟩) p s ⟨hs, .refl s⟩

theorem ne_idle_ne_fault {m : Mode} (hm : m = .dec ∨ m = .enc) : m ≠ .idle ∧ m ≠ .fault := by
  rcases hm with rfl | rfl <;> decide

/-! ## What no coder writes -/

/-- Only what one or another of the four coders writes differs: the union of the frames of the coders. -/
def CodingFrame (s t : State) : Prop :=
  t = { s with
    a := t.a, c := t.c, ct := t.ct, bp := t.bp, eoscnt := t.eoscnt, rb := t.rb, rct := t.rct, lastff := t.lastff
    cx := t.cx, cb := t.cb }

theorem DecoderFrame.coding {s t : State} (h : DecoderFrame s t) : CodingFrame s t := by
  unfold DecoderFrame at h
  rw [CodingFrame, h]

theorem EncoderFrame.coding {s t : State} (h : EncoderFrame s t) : CodingFrame s t := by
  unfold EncoderFrame at h
  rw [CodingFrame, h]

theorem RawDecoderFrame.coding {s t : State} (h : RawDecoderFrame s t) : CodingFrame s t := by
  unfold RawDecoderFrame at h
  rw [CodingFrame, h]

theorem RawEncoderFrame.coding {s t : State} (h : RawEncoderFrame s t) : CodingFrame s t := by
  unfold RawEncoderFrame at h
  rw [CodingFrame, h]

theorem CoderFrame.coding {s t : State} (h : CoderFrame s t) : CodingFrame s t := by
  unfold CoderFrame at h
  split at h
  · exact DecoderFrame.coding h
  · exact EncoderFrame.coding h
  · exact RawDecoderFrame.coding h
  · exact RawEncoderFrame.coding h
  · rw [CodingFrame, h]
  · rw [CodingFrame, h]

/-- A pass writes FP and CP besides. -/
theorem PassFrame.coding {s t : State} (h : PassFrame s t) : CodingFrame s { t with fp := s.fp, cp := s.cp } :=
  CoderFrame.coding h.1

/-! ## What every step keeps -/

/-- A property of the state that each thing a step can do keeps: a decoded command, the refusal of an illegal word, the
host's writes, and the reset event. -/
structure StepKeeps (P : State → Prop) : Prop where
  inbox : ∀ s rest, P s → P (s.setInbox rest)
  command : ∀ s cmd arg i t, decode cmd arg = .ok i → exec i s = .next t → P s → P t
  illegal : ∀ s, P s → P (illegalCommand s)
  cb : ∀ s m, P s → P (s.setCb m)
  cp : ∀ s m, P s → P (s.setCp m)
  reset : ∀ s, P s → P (resetEvent s)

theorem StepKeeps.abandonCommand {P : State → Prop} (c : StepKeeps P) (cmd arg : Word) (writes : Nat) (s : State)
    (hs : P s) : P (abandonCommand cmd arg writes s) := by
  obtain ⟨ws, us, h⟩ := abandonCommand_eq cmd arg writes s
  rw [h]
  exact c.cp _ _ (c.cb _ _ (c.reset s hs))

/-- What each action of the host keeps, a step keeps. -/
theorem StepKeeps.step {P : State → Prop} (c : StepKeeps P) {s t : State} (hs : P s) (h : step s = .next t) : P t := by
  unfold Machine.step at h
  split at h
  · cases h; exact hs
  · rename_i cmd arg rest _
    split at h
    · exact c.command _ cmd arg _ t ‹_› h (c.inbox s rest hs)
    · cases h; exact c.illegal _ (c.inbox s rest hs)
  · unfold hostWriteCb at h
    split at h <;> cases h
    exact c.cb _ _ (c.inbox s _ hs)
  · unfold hostWriteCp at h
    split at h <;> cases h
    exact c.cp _ _ (c.inbox s _ hs)
  · cases h; exact c.reset _ (c.inbox s _ hs)
  · cases h; exact c.abandonCommand _ _ _ _ (c.inbox s _ hs)

end Sys2Proof.Machine

/-! ## The rows of CMT that the multiplexer can deliver -/

namespace Sys2Proof.Machine

/-- Whatever the index, the row delivered is one of the table's: the stand-in for the indices 47 to 63 is the last one. -/
theorem cmtRow_mem (i : BitVec 6) : cmtRow i ∈ cmtTable := by
  rw [cmtRow, List.getD_eq_getElem?_getD]
  cases h : cmtTable[i.toNat]? with
  | none => decide
  | some r => exact List.mem_of_getElem? h

/-- R87: a probability QE is positive and well below half of the interval. -/
theorem cmtRow_qe_range (i : BitVec 6) : 1 ≤ (cmtRow i).qe.toNat ∧ (cmtRow i).qe.toNat ≤ 0x5601 :=
  (by decide : ∀ r ∈ cmtTable, 1 ≤ r.qe.toNat ∧ r.qe.toNat ≤ 0x5601) _ (cmtRow_mem i)

theorem selectedRow_qe_range (k : Label) (s : State) :
    1 ≤ (selectedRow k s).qe.toNat ∧ (selectedRow k s).qe.toNat ≤ 0x5601 := cmtRow_qe_range _

/-- A is at least 0x8000 before a decision (R13), so subtracting QE does not wrap. -/
theorem toNat_sub_qe (k : Label) (s : State) (ha : 0x8000 ≤ s.a) :
    (s.a - (selectedRow k s).qe).toNat = s.a.toNat - (selectedRow k s).qe.toNat := by
  have hq := selectedRow_qe_range k s
  have ha' : 0x8000 ≤ s.a.toNat := ha
  rw [BitVec.toNat_sub_of_le]
  rw [BitVec.le_def]
  omega

/-! ## The coder's bounds, mode by mode -/

/-- CT and BP of the MQ decoder (R15, R16): what `DecoderBounds` says besides A. -/
def DecoderCursor (s : State) : Prop :=
  s.ct ≤ 8 ∧ (s.startAddr.toNat : Int) ≤ s.bp ∧ s.bp ≤ s.endAddr.toNat

/-- CT, BP and the bounds on `(C + A) * 2^CT` of the MQ encoder (R15, R16, R120): what `EncoderBounds` says besides A, and
what holds also while A is being renormalized. -/
def EncoderCursor (s : State) : Prop :=
  1 ≤ s.ct.toNat ∧ s.ct ≤ 12
    ∧ (s.c.toNat + s.a.toNat) * 2 ^ s.ct.toNat < 2 ^ 27 + 2 ^ 24
    ∧ (s.bp = (s.startAddr.toNat : Int) - 1 → (s.c.toNat + s.a.toNat) * 2 ^ s.ct.toNat ≤ 2 ^ 27)
    ∧ (s.startAddr.toNat : Int) - 1 ≤ s.bp ∧ s.bp < s.endAddr.toNat

/-- RB, RCT and BP of the raw decoder. -/
def RawDecoderCursor (s : State) : Prop :=
  s.rct ≤ 8 ∧ (s.startAddr.toNat : Int) ≤ s.bp ∧ s.bp ≤ (s.endAddr.toNat : Int) + 1
    ∧ (s.bp = (s.endAddr.toNat : Int) + 1 → s.rb = 0xFF)

/-- RCT, LASTFF and BP of the raw encoder. -/
def RawEncoderCursor (s : State) : Prop :=
  1 ≤ s.rct.toNat ∧ s.rct ≤ 8 ∧ (s.startAddr.toNat : Int) ≤ s.bp ∧ s.bp ≤ s.endAddr.toNat
    ∧ (s.lastff = true → s.rct ≤ 7 ∧ (s.startAddr.toNat : Int) < s.bp)

theorem coderBounds_iff_dec {s : State} (hm : s.mode = .dec) :
    CoderBounds s ↔ WindowLegal s ∧ 0x8000 ≤ s.a ∧ DecoderCursor s := by
  simp [CoderBounds, DecoderBounds, EncoderBounds, RawDecoderBounds, RawEncoderBounds, hm, DecoderCursor]

theorem coderBounds_iff_enc {s : State} (hm : s.mode = .enc) :
    CoderBounds s ↔ WindowLegal s ∧ 0x8000 ≤ s.a ∧ EncoderCursor s := by
  simp [CoderBounds, DecoderBounds, EncoderBounds, RawDecoderBounds, RawEncoderBounds, hm, EncoderCursor]

theorem coderBounds_iff_rawdec {s : State} (hm : s.mode = .rawdec) :
    CoderBounds s ↔ WindowLegal s ∧ RawDecoderCursor s := by
  simp [CoderBounds, DecoderBounds, EncoderBounds, RawDecoderBounds, RawEncoderBounds, hm, RawDecoderCursor]

theorem coderBounds_iff_rawenc {s : State} (hm : s.mode = .rawenc) :
    CoderBounds s ↔ WindowLegal s ∧ RawEncoderCursor s := by
  simp [CoderBounds, DecoderBounds, EncoderBounds, RawDecoderBounds, RawEncoderBounds, hm, RawEncoderCursor]

/-- Without a segment the window is all there is to say. -/
theorem coderBounds_iff_window {s : State} (hm : s.mode = .idle ∨ s.mode = .fault) : CoderBounds s ↔ WindowLegal s := by
  rcases hm with hm | hm <;>
    simp [CoderBounds, DecoderBounds, EncoderBounds, RawDecoderBounds, RawEncoderBounds, hm]

/-! ## The window -/

theorem WindowLegal.of_eq {s t : State} (hs : WindowLegal s) (hp : t.params = s.params)
    (hst : t.startAddr = s.startAddr) (hen : t.endAddr = s.endAddr) : WindowLegal t := by
  rwa [WindowLegal, hp, hst, hen]

theorem CodingFrame.mode {s t : State} (h : CodingFrame s t) : t.mode = s.mode := by
  unfold CodingFrame at h
  rw [h]

/-- No coder writes START or END. -/
theorem WindowLegal.of_coding {s t : State} (hs : WindowLegal s) (h : CodingFrame s t) : WindowLegal t := by
  unfold CodingFrame at h
  rw [h]
  exact hs

/-! ## MQ decoder -/

/-- At and beyond END the decoder fetches 0xFF (R43). -/
theorem fetchByte_of_end_le {s : State} {address : Int} (h : (s.endAddr.toNat : Int) ≤ address) :
    fetchByte s address = 0xFF := if_neg (by omega)

theorem lt_end_of_fetchByte_ne {s : State} {address : Int} (h : fetchByte s address ≠ 0xFF) :
    address < s.endAddr.toNat := by
  by_contra hle
  exact h (fetchByte_of_end_le (by omega))

/-- BYTEIN keeps BP in the window, since it moves BP only past a byte that is no marker, and none such is fetched at or
beyond END; it leaves CT at 7 or 8. -/
theorem byteIn_cursor {s : State} (hst : (s.startAddr.toNat : Int) ≤ s.bp) (hen : s.bp ≤ s.endAddr.toNat) :
    DecoderCursor (byteIn s) ∧ 7 ≤ (byteIn s).ct := by
  rcases byteIn_cases s with ⟨-, -, h⟩ | ⟨-, hnext, h⟩ | ⟨hcur, h⟩ <;> rw [h]
  · simp [DecoderCursor, hst, hen]
  · have hlt : s.bp + 1 < s.endAddr.toNat := lt_end_of_fetchByte_ne fun hff => hnext (by rw [hff]; decide)
    simp [DecoderCursor]
    omega
  · have hlt := lt_end_of_fetchByte_ne hcur
    simp [DecoderCursor]
    omega

theorem decoderRound_cursor {s : State} (h : DecoderCursor s) : DecoderCursor (decoderRound s) := by
  have counted : ∀ t : State, DecoderCursor t → t.ct ≠ 0 → DecoderCursor (shiftUp t) := fun t ⟨hct, hbp⟩ h0 =>
    ⟨show t.ct - 1 ≤ 8 by bv_omega, hbp⟩
  unfold decoderRound
  split
  case isTrue =>
    obtain ⟨-, hst, hen⟩ := h
    obtain ⟨hc, hct⟩ := byteIn_cursor hst hen
    exact counted _ hc (by bv_omega)
  case isFalse h0 => exact counted s h h0

theorem renormDecoder_cursor (n : Nat) {s : State} (h : DecoderCursor s) : DecoderCursor (renormDecoder n s) := by
  induction n generalizing s with
  | zero => exact h
  | succ n ih =>
    rw [renormDecoder]
    split
    · exact ih (decoderRound_cursor h)
    · exact decoderRound_cursor h

/-- After at most 15 shifts of an A that is not 0 the top bit of A is set again (R91). -/
theorem le_renormDecoder_a {s : State} (hpos : 1 ≤ s.a.toNat) (hlt : s.a.toNat < 2 ^ 15) :
    0x8000 ≤ (renormDecoder maxShifts s).a := by
  obtain ⟨-, -, -, -, h⟩ := renormDecoder_a maxShifts s hlt (by unfold maxShifts; omega)
  exact h

theorem lpsExchange_cursor {k : Label} {q : BitVec 16} {s : State} (h : DecoderCursor s) :
    DecoderCursor (lpsExchange k q s).2 := by
  unfold lpsExchange
  split <;> exact h

theorem mpsExchange_cursor {k : Label} {q : BitVec 16} {s : State} (h : DecoderCursor s) :
    DecoderCursor (mpsExchange k q s).2 := by
  unfold mpsExchange
  split <;> exact h

/-- A decision leaves A renormalized and the cursor in its bounds (R96). -/
theorem decodeDecision_bounds (k : Label) {s : State} (ha : 0x8000 ≤ s.a) (hc : DecoderCursor s) :
    0x8000 ≤ (decodeDecision k s).2.a ∧ DecoderCursor (decodeDecision k s).2 := by
  obtain ⟨hq1, hq2⟩ := selectedRow_qe_range k s
  have hsub := toNat_sub_qe k s ha
  have ha' : 0x8000 ≤ s.a.toNat := ha
  unfold decodeDecision
  dsimp only
  split
  case isTrue =>
    refine ⟨le_renormDecoder_a ?_ ?_, renormDecoder_cursor _ (lpsExchange_cursor hc)⟩ <;> rw [lpsExchange_a] <;> omega
  case isFalse =>
    split
    case isTrue hlt =>
      have hlt' : (s.a - (selectedRow k s).qe).toNat < 2 ^ 15 := hlt
      refine ⟨le_renormDecoder_a ?_ ?_, renormDecoder_cursor _ (mpsExchange_cursor hc)⟩ <;>
        simp only [mpsExchange_a, State.setC_a, State.setA_a] <;> omega
    case isFalse hge => exact ⟨BitVec.not_lt.1 hge, hc⟩

theorem decodeDecision_coderBounds (k : Label) {s : State} (hm : s.mode = .dec) (hs : CoderBounds s) :
    CoderBounds (decodeDecision k s).2 := by
  have hf := (decodeDecision_frame k s).coding
  obtain ⟨hw, ha, hc⟩ := (coderBounds_iff_dec hm).1 hs
  exact (coderBounds_iff_dec (hf.mode.trans hm)).2 ⟨hw.of_coding hf, decodeDecision_bounds k ha hc⟩

/-! ## MQ encoder -/

/-- What BYTEOUT can end in (R116): it overflows with BP where it was, or it moves BP one byte on and leaves in C what is
below the byte that moved out, 20 bits of it with CT = 7 or 19 bits with CT = 8. -/
def ByteOutResult (s : State) (r : Run Unit) : Prop :=
  (∃ m c, r = .overflow ((s.setCb m).setC c)) ∨
  (s.bp + 1 < s.endAddr.toNat ∧ ∃ m c n, (n = 7 ∧ c.toNat < 2 ^ 20 ∨ n = 8 ∧ c.toNat < 2 ^ 19) ∧
    r = .done () ((((s.setCb m).setBp (s.bp + 1)).setC c).setCt n))

theorem putStuffed_result (s : State) (m : Memory 8) (c : Word) :
    ByteOutResult s (putStuffed ((s.setCb m).setC c)) := by
  have low20 : (c &&& 0x000FFFFF).toNat < 2 ^ 20 := by
    rw [BitVec.toNat_and]
    exact Nat.lt_succ_of_le Nat.and_le_right
  unfold putStuffed
  rw [State.setC_c]
  rcases putByte_cases (c >>> 20) ((s.setCb m).setC c) with ⟨hlt, h⟩ | ⟨-, h⟩ <;> rw [h]
  · exact .inr ⟨hlt, _, _, 7, .inl ⟨rfl, low20⟩, rfl⟩
  · exact .inl ⟨m, c, rfl⟩

theorem putPlain_result (s : State) (m : Memory 8) : ByteOutResult s (putPlain (s.setCb m)) := by
  have low19 : (s.c &&& 0x0007FFFF).toNat < 2 ^ 19 := by
    rw [BitVec.toNat_and]
    exact Nat.lt_succ_of_le Nat.and_le_right
  unfold putPlain
  rw [State.setCb_c]
  rcases putByte_cases (s.c >>> 19) (s.setCb m) with ⟨hlt, h⟩ | ⟨-, h⟩ <;> rw [h]
  · exact .inr ⟨hlt, _, _, 8, .inr ⟨rfl, low19⟩, rfl⟩
  · exact .inl ⟨m, s.c, rfl⟩

/-- The carry writes CB alone, if anything. -/
theorem carryIntoLast_cases (s : State) :
    (∃ m, carryIntoLast s = .done () (s.setCb m)) ∨ carryIntoLast s = .overflow s := by
  unfold carryIntoLast
  split
  case isTrue => exact .inl ⟨s.cb, rfl⟩
  case isFalse =>
    rcases storeByte_cases s.bp (lastByte s + 1) s with ⟨-, h⟩ | ⟨-, h⟩
    · exact .inl ⟨_, h⟩
    · exact .inr h

theorem byteOut_result (s : State) : ByteOutResult s (byteOut s) := by
  unfold byteOut
  dsimp only
  split
  case isTrue => exact putStuffed_result s s.cb s.c
  case isFalse =>
    split
    case isTrue => exact putPlain_result s s.cb
    case isFalse =>
      rcases carryIntoLast_cases s with ⟨m, h⟩ | h <;> rw [h]
      · rw [Run.bind_done]
        split
        case isTrue => exact putStuffed_result s m _
        case isFalse => exact putPlain_result s m
      · exact .inl ⟨s.cb, s.c, rfl⟩

/-- The shift does not change `(C + A) * 2^CT` (the "Reason" of R120). -/
theorem shiftUp_product {s : State} (hct : 1 ≤ s.ct.toNat) (ha : s.a.toNat < 2 ^ 15) (hc : s.c.toNat < 2 ^ 31) :
    ((shiftUp s).c.toNat + (shiftUp s).a.toNat) * 2 ^ (shiftUp s).ct.toNat
      = (s.c.toNat + s.a.toNat) * 2 ^ s.ct.toNat := by
  have hc' : (shiftUp s).c.toNat = s.c.toNat * 2 := by
    rw [shiftUp_c, BitVec.toNat_shiftLeft, Nat.shiftLeft_eq]; omega
  have ha' : (shiftUp s).a.toNat = s.a.toNat * 2 := by rw [shiftUp_a, toNat_shiftLeft_one _ ha]
  have hct' : s.ct.toNat = (shiftUp s).ct.toNat + 1 := by rw [shiftUp_ct]; bv_omega
  rw [hc', ha', hct', Nat.pow_succ]
  ring

/-- BYTEOUT establishes the bounds of R120, since what it leaves in C is below the byte that moved out, and takes BP off the
phantom byte. -/
theorem byteOut_ends {s : State} (hw : WindowLegal s) (hst : (s.startAddr.toNat : Int) - 1 ≤ s.bp) :
    (byteOut s).Ends (fun t => WindowLegal t ∧ EncoderCursor t ∧ t.a = s.a) WindowLegal := by
  have ha := s.a.isLt
  rcases byteOut_result s with ⟨m, c, h⟩ | ⟨hlt, m, c, n, hn, h⟩ <;> rw [h]
  · exact hw
  · refine ⟨hw, ?_, rfl⟩
    rcases hn with ⟨rfl, hc⟩ | ⟨rfl, hc⟩ <;> simp [EncoderCursor] <;> omega

theorem EncoderCursor.c_lt {s : State} (h : EncoderCursor s) : s.c.toNat < 2 ^ 28 := by
  obtain ⟨-, -, hv, -⟩ := h
  have := Nat.le_mul_of_pos_right (s.c.toNat + s.a.toNat) (Nat.two_pow_pos s.ct.toNat)
  omega

/-- One round of RENORME keeps the bounds, and the window where it overflows. -/
theorem encoderRound_ends {s : State} (hw : WindowLegal s) (hc : EncoderCursor s) (ha : s.a.toNat < 2 ^ 15) :
    (encoderRound s).Ends (fun t => WindowLegal t ∧ EncoderCursor t ∧ t.a.toNat = s.a.toNat * 2) WindowLegal := by
  have hclt := hc.c_lt
  obtain ⟨hct1, hct, hv, hph, hst, hen⟩ := hc
  have hprod := shiftUp_product hct1 ha (by omega)
  have ha' : (shiftUp s).a.toNat = s.a.toNat * 2 := by rw [shiftUp_a, toNat_shiftLeft_one _ ha]
  have hw' := hw.of_coding (shiftUp_encoderFrame s).coding
  unfold encoderRound
  split
  case isTrue => exact (byteOut_ends hw' hst).imp (fun t ⟨hwt, hct, hat⟩ => ⟨hwt, hct, hat ▸ ha'⟩) fun _ h => h
  case isFalse h0 =>
    refine ⟨hw', ⟨?_, ?_, by rwa [hprod], by rwa [hprod], hst, hen⟩, ha'⟩
    · exact Nat.one_le_iff_ne_zero.2 fun h => h0 (BitVec.eq_of_toNat_eq h)
    · rw [shiftUp_ct] at h0 ⊢
      bv_omega

/-- RENORME keeps the bounds and ends with the top bit of A set (R115, R120). -/
theorem renormEncoder_ends (n : Nat) {s : State} (hw : WindowLegal s) (hc : EncoderCursor s) (ha : s.a.toNat < 2 ^ 15)
    (hn : 2 ^ 15 ≤ s.a.toNat * 2 ^ n) :
    (renormEncoder n s).Ends (fun t => WindowLegal t ∧ 0x8000 ≤ t.a ∧ EncoderCursor t) WindowLegal := by
  induction n generalizing s with
  | zero => omega
  | succ n ih =>
    rw [renormEncoder]
    refine Run.ends_bind (encoderRound_ends hw hc ha) fun _ t ⟨hwt, hct, hat⟩ => ?_
    split
    case isTrue hlt => exact ih hwt hct hlt (by rw [hat, Nat.mul_assoc, ← Nat.pow_succ']; exact hn)
    case isFalse hge => exact ⟨hwt, BitVec.not_lt.1 hge, hct⟩

/-- The bounds are kept where the interval becomes a part of itself: `C + A` does not grow. -/
theorem EncoderCursor.of_sum_le {s t : State} (h : EncoderCursor s) (hct : t.ct = s.ct) (hbp : t.bp = s.bp)
    (hst : t.startAddr = s.startAddr) (hen : t.endAddr = s.endAddr)
    (hsum : t.c.toNat + t.a.toNat ≤ s.c.toNat + s.a.toNat) : EncoderCursor t := by
  have hv := Nat.mul_le_mul_right (2 ^ s.ct.toNat) hsum
  obtain ⟨h1, h2, h3, h4, h5⟩ := h
  rw [EncoderCursor, hct, hbp, hst, hen]
  exact ⟨h1, h2, by omega, fun h => by have := h4 h; omega, h5⟩

/-- The upper part of the interval, `[C + QE, C + A)`: the sum `C + A` is the same. -/
theorem upper_part_sum (k : Label) {s : State} (ha : 0x8000 ≤ s.a) (hc : s.c.toNat < 2 ^ 28) :
    (s.c + (selectedRow k s).qe.setWidth 32).toNat + (s.a - (selectedRow k s).qe).toNat = s.c.toNat + s.a.toNat := by
  obtain ⟨-, hq⟩ := selectedRow_qe_range k s
  have ha' : 0x8000 ≤ s.a.toNat := ha
  rw [toNat_sub_qe k s ha, BitVec.toNat_add, BitVec.toNat_setWidth]
  omega

theorem codeMps_ends (k : Label) {s : State} (hw : WindowLegal s) (ha : 0x8000 ≤ s.a) (hc : EncoderCursor s) :
    (codeMps k s).Ends (fun t => WindowLegal t ∧ 0x8000 ≤ t.a ∧ EncoderCursor t) WindowLegal := by
  obtain ⟨hq1, hq2⟩ := selectedRow_qe_range k s
  have hsub := toNat_sub_qe k s ha
  have hupper := upper_part_sum k ha hc.c_lt
  have ha' : 0x8000 ≤ s.a.toNat := ha
  unfold codeMps
  dsimp only
  split
  case isTrue hlt =>
    have hlt' : (s.a - (selectedRow k s).qe).toNat < 2 ^ 15 := hlt
    split
    case isTrue =>
      refine renormEncoder_ends _ hw (hc.of_sum_le rfl rfl rfl rfl ?_) ?_ ?_ <;>
        simp only [mpsTransition_a, State.setA_a, maxShifts]
      · show s.c.toNat + (selectedRow k s).qe.toNat ≤ _
        omega
      · omega
      · omega
    case isFalse =>
      refine renormEncoder_ends _ hw (hc.of_sum_le rfl rfl rfl rfl hupper.le) ?_ ?_ <;>
        simp only [mpsTransition_a, State.setC_a, State.setA_a, maxShifts] <;> omega
  case isFalse hge => exact ⟨hw, BitVec.not_lt.1 hge, hc.of_sum_le rfl rfl rfl rfl hupper.le⟩

theorem codeLps_ends (k : Label) {s : State} (hw : WindowLegal s) (ha : 0x8000 ≤ s.a) (hc : EncoderCursor s) :
    (codeLps k s).Ends (fun t => WindowLegal t ∧ 0x8000 ≤ t.a ∧ EncoderCursor t) WindowLegal := by
  obtain ⟨hq1, hq2⟩ := selectedRow_qe_range k s
  have hsub := toNat_sub_qe k s ha
  have hupper := upper_part_sum k ha hc.c_lt
  have ha' : 0x8000 ≤ s.a.toNat := ha
  unfold codeLps
  dsimp only
  split
  case isTrue hlt =>
    have hlt' : (s.a - (selectedRow k s).qe).toNat < (selectedRow k s).qe.toNat := hlt
    refine renormEncoder_ends _ hw (hc.of_sum_le rfl rfl rfl rfl hupper.le) ?_ ?_ <;>
      simp only [lpsTransition_a, State.setC_a, State.setA_a, maxShifts] <;> omega
  case isFalse =>
    refine renormEncoder_ends _ hw (hc.of_sum_le rfl rfl rfl rfl ?_) ?_ ?_ <;>
      simp only [lpsTransition_a, State.setA_a, maxShifts]
    · show s.c.toNat + (selectedRow k s).qe.toNat ≤ _
      omega
    · omega
    · omega

theorem encodeDecision_coderBounds (k : Label) (d : Bool) {s : State} (hm : s.mode = .enc) (hs : CoderBounds s) :
    (encodeDecision k d s).Ends CoderBounds WindowLegal := by
  obtain ⟨hw, ha, hc⟩ := (coderBounds_iff_enc hm).1 hs
  have ends : (encodeDecision k d s).Ends (fun t => WindowLegal t ∧ 0x8000 ≤ t.a ∧ EncoderCursor t) WindowLegal := by
    unfold encodeDecision
    split
    · exact codeMps_ends k hw ha hc
    · exact codeLps_ends k hw ha hc
  exact (ends.and_all (encodeDecision_frame k d s)).imp
    (fun _ ⟨hb, hf⟩ => (coderBounds_iff_enc (hf.coding.mode.trans hm)).2 hb) fun _ h => h

/-! ## Raw sub-coder -/

/-- The refill leaves RCT at 7 or 8, and passes END only with RB = 0xFF, after which it fetches no more bytes (R132). -/
theorem rawRefill_cursor {s : State} (h : RawDecoderCursor s) : RawDecoderCursor (rawRefill s) ∧ 7 ≤ (rawRefill s).rct := by
  obtain ⟨-, hst, hen, hff⟩ := h
  unfold rawRefill
  dsimp only
  split
  case isTrue hrb =>
    split
    case isTrue => simp [RawDecoderCursor, hst, hen]
    case isFalse hnext =>
      have hlt : s.bp < s.endAddr.toNat := lt_end_of_fetchByte_ne fun hff => hnext (by rw [hff]; decide)
      simp [RawDecoderCursor]
      omega
  case isFalse hrb =>
    have hle : s.bp ≤ s.endAddr.toNat := by
      by_contra hgt
      exact hrb (hff (by omega))
    refine ⟨⟨by simp, ?_, ?_, fun hbp => ?_⟩, by simp⟩
    · show (s.startAddr.toNat : Int) ≤ s.bp + 1
      omega
    · show s.bp + 1 ≤ (s.endAddr.toNat : Int) + 1
      omega
    · exact fetchByte_of_end_le (by simpa using hbp.ge)

theorem rawDecodeBit_coderBounds {s : State} (hm : s.mode = .rawdec) (hs : CoderBounds s) :
    CoderBounds (rawDecodeBit s).2 := by
  have counted : ∀ t : State, RawDecoderCursor t → t.rct ≠ 0 → RawDecoderCursor (t.setRaw t.rb (t.rct - 1)) :=
    fun t ⟨hrct, hbp⟩ h0 => ⟨show t.rct - 1 ≤ 8 by bv_omega, hbp⟩
  obtain ⟨hw, hc⟩ := (coderBounds_iff_rawdec hm).1 hs
  unfold rawDecodeBit
  dsimp only
  split
  case isTrue =>
    obtain ⟨hr, hrct⟩ := rawRefill_cursor hc
    have hf := (rawRefill_frame s).coding
    have hwr : WindowLegal (rawRefill s) := hw.of_coding hf
    exact (coderBounds_iff_rawdec (by exact hf.mode.trans hm)).2 ⟨hwr, counted _ hr (by bv_omega)⟩
  case isFalse h0 => exact (coderBounds_iff_rawdec (by exact hm)).2 ⟨hw, counted s hc h0⟩

/-- ALL that RAWENC can do (R134): it packs the bit, or it stores the full byte and goes on to the next one, or that store
overflows. -/
theorem rawEncodeBit_cases (d : Bool) (s : State) :
    (∃ b n, rawEncodeBit d s = .overflow (s.setRaw b n)) ∨
    (s.bp < s.endAddr.toNat ∧ ∃ m f, rawEncodeBit d s =
      .done () ((((s.setCb m).setLastff f).setRaw 0 (if f then 7 else 8)).setBp (s.bp + 1))) ∨
    (s.rct - 1 ≠ 0 ∧ ∃ b, rawEncodeBit d s = .done () (s.setRaw b (s.rct - 1))) := by
  unfold rawEncodeBit
  dsimp only
  generalize s.rb ||| (BitVec.ofBool d).setWidth 8 <<< (s.rct - 1).toNat = b
  split
  case isTrue =>
    rcases storeByte_cases s.bp b (s.setRaw b (s.rct - 1)) with ⟨hlt, h⟩ | ⟨-, h⟩ <;> rw [h]
    · refine .inr (.inl ⟨hlt, s.cb.write s.bp.toNat b, b == 0xFF, ?_⟩)
      simp only [beq_iff_eq]
      rfl
    · exact .inl ⟨_, _, rfl⟩
  case isFalse h0 => exact .inr (.inr ⟨h0, b, rfl⟩)

theorem rawEncodeBit_coderBounds (d : Bool) {s : State} (hm : s.mode = .rawenc) (hs : CoderBounds s) :
    (rawEncodeBit d s).Ends CoderBounds WindowLegal := by
  obtain ⟨hw, hrct1, hrct, hst, hen, hff⟩ := (coderBounds_iff_rawenc hm).1 hs
  rcases rawEncodeBit_cases d s with ⟨b, n, h⟩ | ⟨hlt, m, f, h⟩ | ⟨h0, b, h⟩ <;> rw [h]
  · exact hw
  · refine (coderBounds_iff_rawenc (by exact hm)).2 ⟨hw, ?_⟩
    cases f <;> simp [RawEncoderCursor] <;> omega
  · refine (coderBounds_iff_rawenc (by exact hm)).2 ⟨hw, ?_⟩
    have h0' : (s.rct - 1).toNat ≠ 0 := fun h => h0 (BitVec.eq_of_toNat_eq h)
    refine ⟨Nat.one_le_iff_ne_zero.2 h0', show s.rct - 1 ≤ 8 by bv_omega, hst, hen, fun hl => ?_⟩
    obtain ⟨h7, hbp⟩ := hff hl
    exact ⟨show s.rct - 1 ≤ 7 by bv_omega, hbp⟩

end Sys2Proof.Machine

/-! ## The bounds through the commands -/

namespace Sys2Proof.Machine

/-- CBINIT writes the geometry, FP, CP and GEOMV, and the mark of the geometry (R162). -/
theorem loadGeometry_eq (wm1 hm1 : Nat) (o : Orientation) (clr : Bool) (s : State) :
    ∃ u m, loadGeometry wm1 hm1 o clr s =
      ((((s.setGeometry (wm1 + 1) (hm1 + 1) o).setFp []).setUnspec u).setCp m).setGeomv true := by
  cases clr
  · exact ⟨{ s.unspec with geom := false }, s.cp, rfl⟩
  · exact ⟨{ s.unspec with geom := false }, s.cp.zeroRange 0 ((wm1 + 1) * (hm1 + 1)), rfl⟩

/-! ### Passes -/

theorem codeLabel_coderBounds (k : Label) (v : Bool) {s : State} (ha : isArithmetic s = true) (hs : CoderBounds s) :
    (codeLabel k v s).Ends CoderBounds WindowLegal := by
  unfold codeLabel
  split
  case isTrue hm => exact decodeDecision_coderBounds k hm hs
  case isFalse hm =>
    have he : s.mode = .enc := (by simpa [isArithmetic] using ha : s.mode = .dec ∨ s.mode = .enc).resolve_left hm
    exact Run.ends_bind (encodeDecision_coderBounds k v he hs) fun _ _ h => h

theorem codeRaw_coderBounds (v : Bool) {s : State} (hm : s.mode = .rawdec ∨ s.mode = .rawenc) (hs : CoderBounds s) :
    (codeRaw v s).Ends CoderBounds WindowLegal := by
  unfold codeRaw
  split
  case isTrue hd => exact rawDecodeBit_coderBounds hd hs
  case isFalse hd => exact Run.ends_bind (rawEncodeBit_coderBounds v (hm.resolve_left hd) hs) fun _ _ h => h

theorem passBounds_ends (s : State) (hi : s.mode ≠ .idle) (hf : s.mode ≠ .fault) :
    PassEnds s.w s.h (DuringPass CoderBounds s) WindowLegal where
  size _ h := h.2.mode.2
  label k v t ha h :=
    (codeLabel_coderBounds k v ha h.1).and_all ((passFrame_keeps s hi hf).label k v t ha h.2)
  raw v t ha h := by
    obtain ⟨hb, hframe⟩ := h
    have hm : t.mode = .rawdec ∨ t.mode = .rawenc := by
      rw [← hframe.mode.1] at hi hf
      cases hm : t.mode <;> simp_all [isArithmetic]
    exact (codeRaw_coderBounds v hm hb).and_all ((passFrame_keeps s hi hf).raw v t ha hframe)
  significant _ _ _ _ _ _ h := ⟨h.1, h.2.setFp _⟩
  visited _ _ _ _ _ h := ⟨h.1, h.2.setFp _⟩
  refined _ _ _ _ _ h := ⟨h.1, h.2.setFp _⟩
  magnitude _ _ _ _ _ _ _ hd h := ⟨h.1, h.2.setCp _ hd⟩
  sign _ _ _ _ _ _ hd h := ⟨h.1, h.2.setCp _ hd⟩

/-! ### Segments -/

/-- Only what an INIT command writes differs (R92, R110, R131, R133). -/
def SegmentFrame (s t : State) : Prop :=
  t = { s with
    mode := t.mode, a := t.a, c := t.c, ct := t.ct, bp := t.bp, startAddr := t.startAddr, endAddr := t.endAddr
    eoscnt := t.eoscnt, rb := t.rb, rct := t.rct, lastff := t.lastff, unspec := t.unspec }

theorem startDecoder_frame (s : State) : SegmentFrame s (startDecoder s) := by
  have framed : ∀ u v m, SegmentFrame s u → DecoderFrame u v → v.cx = u.cx →
      SegmentFrame s (((((v.setC (v.c <<< 7)).setCt (v.ct - 7)).setA 0x8000).setMode .dec).setUnspec m) := by
    intro u v m hu hv hcx
    unfold SegmentFrame DecoderFrame at *
    rw [State.ext_iff] at *
    simp_all
  have hopened : ∀ c : Word, SegmentFrame s (((loadWindow s.segbase.toNat s).setEoscnt 0).setC c) := fun c => by
    unfold SegmentFrame
    apply State.ext <;> simp [loadWindow]
  exact framed _ _ _ (hopened _) (byteIn_frame _) (byteIn_cx _)

theorem startEncoder_frame (s : State) : SegmentFrame s (startEncoder s) := by
  unfold SegmentFrame
  apply State.ext <;> simp [startEncoder, loadWindow]

theorem startRawDecoder_frame (s : State) : SegmentFrame s (startRawDecoder s) := by
  unfold SegmentFrame
  apply State.ext <;> simp [startRawDecoder, loadWindow]

theorem startRawEncoder_frame (s : State) : SegmentFrame s (startRawEncoder s) := by
  unfold SegmentFrame
  apply State.ext <;> simp [startRawEncoder, loadWindow]

/-- An admitted window lies in CB, so adding SEGLEN to SEGBASE does not wrap (R17, R42). -/
theorem loadWindow_windowLegal (bp : Int) {s : State} (hs : WindowLegal s) (ha : WindowAdmitted s) :
    WindowLegal (loadWindow bp s) := by
  obtain ⟨hwf, -, -⟩ := hs
  obtain ⟨-, hend⟩ := ha
  have hcb : s.params.cbsize ≤ 2 ^ 31 := by
    simp only [Params.wf, Bool.and_eq_true, decide_eq_true_eq] at hwf
    exact hwf.1.1
  have hsum : (s.segbase + s.seglen).toNat = s.segbase.toNat + s.seglen.toNat := by
    rw [BitVec.toNat_add]; omega
  refine ⟨hwf, ?_, ?_⟩
  · show s.segbase.toNat ≤ (s.segbase + s.seglen).toNat
    omega
  · show (s.segbase + s.seglen).toNat ≤ s.params.cbsize
    omega

/-- The first byte-in of a segment leaves CT at 7 or 8, and INITDEC makes 7 of those shifts at once (R92). -/
theorem primed_coderBounds {u : State} (hw : WindowLegal u) (hbp : u.bp = u.startAddr.toNat) (m : Unspecified) :
    CoderBounds ((((((byteIn u).setC ((byteIn u).c <<< 7)).setCt ((byteIn u).ct - 7)).setA 0x8000).setMode .dec).setUnspec
      m) := by
  have hle : u.startAddr.toNat ≤ u.endAddr.toNat := hw.2.1
  obtain ⟨⟨hct8, hcur⟩, hct7⟩ := byteIn_cursor (s := u) (by omega) (by omega)
  have hwin := hw.of_coding (byteIn_frame u).coding
  refine (coderBounds_iff_dec (by simp)).2 ⟨hwin.of_eq (by simp) (by simp) (by simp), by simp, ?_⟩
  exact ⟨by rw [State.setUnspec_ct, State.setMode_ct, State.setA_ct, State.setCt_ct]; bv_omega, by simpa using hcur⟩

theorem startDecoder_coderBounds {s : State} (hs : WindowLegal s) (ha : WindowAdmitted s) :
    CoderBounds (startDecoder s) := by
  have hopened : WindowLegal (loadWindow s.segbase.toNat s) := loadWindow_windowLegal _ hs ha
  unfold startDecoder
  dsimp only
  generalize (fetchByte _ _).setWidth 32 <<< 16 = c
  refine primed_coderBounds ?_ ?_ _
  · exact hopened
  · rfl

/-- INITENC (R110): `(C + A) * 2^CT` starts at 2^27 with BP at the phantom byte. -/
theorem startEncoder_coderBounds {s : State} (hs : WindowLegal s) (ha : WindowAdmitted s) :
    CoderBounds (startEncoder s) := by
  have hw := loadWindow_windowLegal ((s.segbase.toNat : Int) - 1) hs ha
  have hle : s.segbase.toNat ≤ (s.segbase + s.seglen).toNat := hw.2.1
  have hwin : WindowLegal (startEncoder s) :=
    hw.of_eq (by simp [startEncoder]) (by simp [startEncoder]) (by simp [startEncoder])
  refine (coderBounds_iff_enc (by rfl)).2 ⟨hwin, ?_⟩
  simp [startEncoder, loadWindow, EncoderCursor] at hle ⊢
  omega

theorem startRawDecoder_coderBounds {s : State} (hs : WindowLegal s) (ha : WindowAdmitted s) :
    CoderBounds (startRawDecoder s) := by
  have hw := loadWindow_windowLegal s.segbase.toNat hs ha
  have hle : s.segbase.toNat ≤ (s.segbase + s.seglen).toNat := hw.2.1
  refine (coderBounds_iff_rawdec (by rfl)).2 ⟨hw, ?_⟩
  simp [startRawDecoder, loadWindow, RawDecoderCursor] at hle ⊢
  omega

theorem startRawEncoder_coderBounds {s : State} (hs : WindowLegal s) (ha : WindowAdmitted s) :
    CoderBounds (startRawEncoder s) := by
  have hw := loadWindow_windowLegal s.segbase.toNat hs ha
  have hle : s.segbase.toNat ≤ (s.segbase + s.seglen).toNat := hw.2.1
  refine (coderBounds_iff_rawenc (by rfl)).2 ⟨hw, ?_⟩
  simp [startRawEncoder, loadWindow, RawEncoderCursor] at hle ⊢
  omega

/-! ### Ends of a command, and the reset values -/

theorem toResetValues_coderBounds {s : State} (hp : s.params.wf = true) : CoderBounds (toResetValues s) :=
  (coderBounds_iff_window (.inl (by rfl))).2 ⟨hp, Nat.le_refl _, Nat.zero_le _⟩

/-- A command that codes keeps the bounds if its procedure and its last writes do; in the fault only the window matters. -/
theorem coderBounds_finish {α : Type} {P : State → Prop} {r : Run α} {last : α → State → State}
    (hr : r.Ends P WindowLegal) (hl : ∀ v t, P t → CoderBounds (last v t)) : CoderBounds (finish r last) := by
  cases r with
  | done v t => exact hl v t hr
  | overflow t => exact (coderBounds_iff_window (.inr (by rfl))).2 hr

section

variable {s : State} (hs : CoderBounds s)

include hs

theorem CoderBounds.answer (r : Response) : CoderBounds (s.answer r) := hs

theorem CoderBounds.setGeometry (w h : Nat) (o : Orientation) : CoderBounds (s.setGeometry w h o) := hs

theorem CoderBounds.setFp (f : Cells 4) : CoderBounds (s.setFp f) := hs

theorem CoderBounds.setUnspec (u : Unspecified) : CoderBounds (s.setUnspec u) := hs

theorem CoderBounds.setCp (m : Memory 32) : CoderBounds (s.setCp m) := hs

theorem CoderBounds.setGeomv (g : Bool) : CoderBounds (s.setGeomv g) := hs

end

/-- Every command keeps the bounds of the coder's registers. -/
theorem exec_coderBounds {i : Instr} {s t : State} (h : exec i s = .next t) (hs : CoderBounds s) : CoderBounds t := by
  have hw : WindowLegal s := hs.1
  have idle : ∀ (u : State) (r : Response), WindowLegal u → CoderBounds ((u.setMode .idle).answer r) := fun _ _ hu =>
    (coderBounds_iff_window (.inl (by rfl))).2 hu
  rcases exec_cases i s t h with ⟨e, -, rfl⟩ | hr
  · exact hs
  cases i
  case nop => exact hr ▸ hs
  case cxreset => exact hr.2 ▸ hs
  case clrstat =>
    dsimp only at hr
    rw [hr]
    split
    · exact CoderBounds.answer (toResetValues_coderBounds (s := clearSticky s) hw.1) _
    · exact hs
  case wrreg => rcases hr with ⟨-, rfl⟩ | ⟨-, rfl⟩ <;> exact hs
  case rdreg => obtain ⟨d, v, rfl⟩ := hr; exact hs
  case initdec => obtain ⟨-, ha, rfl⟩ := hr; exact (startDecoder_coderBounds hw ha).answer _
  case decode => obtain ⟨hm, k, -, rfl⟩ := hr; exact (decodeDecision_coderBounds k hm hs).answer _
  case finishdec => obtain ⟨-, rfl⟩ := hr; exact hs
  case termchk => rcases hr with ⟨-, ⟨v, rfl⟩ | ⟨v, rfl⟩ | rfl⟩ <;> exact hs
  case initenc => obtain ⟨-, ha, rfl⟩ := hr; exact (startEncoder_coderBounds hw ha).answer _
  case encode =>
    obtain ⟨hm, k, -, rfl⟩ := hr
    exact coderBounds_finish (encodeDecision_coderBounds k _ hm hs) fun _ _ h => h
  case flushenc =>
    obtain ⟨-, rfl⟩ := hr
    exact coderBounds_finish (Run.all_imp (fun _ h => hw.of_coding h.coding) (flushEncoder_frame s)).ends
      fun _ u hu => idle u _ hu
  case rawinitdec => obtain ⟨-, ha, rfl⟩ := hr; exact (startRawDecoder_coderBounds hw ha).answer _
  case rawdec => obtain ⟨hm, rfl⟩ := hr; exact (rawDecodeBit_coderBounds hm hs).answer _
  case rawinitenc => obtain ⟨-, ha, rfl⟩ := hr; exact (startRawEncoder_coderBounds hw ha).answer _
  case rawenc =>
    obtain ⟨hm, rfl⟩ := hr
    exact coderBounds_finish (rawEncodeBit_coderBounds _ hm hs) fun _ _ h => h
  case rawflush =>
    obtain ⟨-, rfl⟩ := hr
    exact coderBounds_finish (Run.all_imp (fun _ h => hw.of_coding h.coding) (rawFlush_frame s)).ends
      fun _ u hu => idle u _ hu
  case cbinit wm1 hm1 o clr =>
    obtain ⟨-, -, rfl⟩ := hr
    obtain ⟨u, m, h⟩ := loadGeometry_eq wm1 hm1 o clr s
    rw [h]
    exact (((((hs.setGeometry _ _ _).setFp _).setUnspec _).setCp _).setGeomv _).answer _
  case sigpass p =>
    obtain ⟨⟨hi, hf⟩, -, -, rfl⟩ := hr
    exact coderBounds_finish ((passBounds_ends s hi hf).significancePass p s ⟨hs, .refl s⟩) fun _ _ h => h.1
  case refpass p =>
    obtain ⟨⟨hi, hf⟩, -, -, rfl⟩ := hr
    exact coderBounds_finish ((passBounds_ends s hi hf).refinementPass p s ⟨hs, .refl s⟩) fun _ _ h => h.1
  case clnpass p =>
    obtain ⟨hm, -, -, rfl⟩ := hr
    obtain ⟨hi, hf⟩ := ne_idle_ne_fault hm
    exact coderBounds_finish ((passBounds_ends s hi hf).cleanup hm (fun _ h => h) p hs) fun _ _ h => h.1

theorem stepKeeps_coderBounds : StepKeeps CoderBounds where
  inbox _ _ h := h
  command _ _ _ _ _ _ he h := exec_coderBounds he h
  illegal _ h := h
  cb _ _ h := h
  cp _ _ h := h
  reset s h := by
    have hreset : CoderBounds (toResetValues s) := toResetValues_coderBounds h.1.1
    exact hreset

/-- Settles O9: each command keeps the bounds (`exec_coderBounds`), by the bounds of each coding procedure where it ends,
and so does everything else that a step can do. -/
theorem stepKeepsCoderBounds : Obligations.StepKeepsCoderBounds :=
  fun _ _ hs h => stepKeeps_coderBounds.step hs h

end Sys2Proof.Machine

/-! ## Contexts -/

namespace Sys2Proof.Machine

/-- Every context is in the table and UNI is in its fixed state: what O10 asks of `s` and of the next state. -/
def ContextsLegal (s : State) : Prop := ContextsInTable s ∧ UniformContextFixed s

theorem ContextsLegal.of_cx {s t : State} (hs : ContextsLegal s) (h : t.cx = s.cx) : ContextsLegal t := by
  rwa [ContextsLegal, ContextsInTable, UniformContextFixed, h]

/-- R87: the successors of a row are rows. -/
theorem cmtRow_next_le (i : BitVec 6) : (cmtRow i).nmps ≤ 46 ∧ (cmtRow i).nlps ≤ 46 :=
  (by decide : ∀ r ∈ cmtTable, r.nmps ≤ 46 ∧ r.nlps ≤ 46) _ (cmtRow_mem i)

/-- R87: row 46 is its own successor and never switches. -/
theorem selectedRow_uniform {s : State} (h : UniformContextFixed s) :
    selectedRow labelUNI s = ⟨0x5601, 46, 46, false⟩ := by
  rw [selectedRow, h]
  rfl

/-- One context may be replaced by any other that is in the table, UNI only by itself. -/
theorem setCx_contexts {k : Label} {v : Context} {s : State} (hs : ContextsLegal s) (hv : v.i ≤ 46)
    (huni : k = labelUNI → v = ⟨46, false⟩) : ContextsLegal (s.setCx (s.cx.set k v)) := by
  have hget : ∀ j : Label, (s.cx.set k v)[j] = if k = j then v else s.cx[j] := fun j => by
    simp only [Fin.getElem_fin, Vector.getElem_set, Fin.ext_iff]
  obtain ⟨hall, hfixed⟩ := hs
  refine ⟨fun j => ?_, ?_⟩
  · rw [State.setCx_cx, hget]
    split
    case isTrue => exact hv
    case isFalse => exact hall j
  · rw [UniformContextFixed, State.setCx_cx, hget]
    split
    case isTrue h => exact huni h
    case isFalse => exact hfixed

theorem mpsTransition_contexts (k : Label) {s : State} (hs : ContextsLegal s) : ContextsLegal (mpsTransition k s) := by
  refine setCx_contexts hs (cmtRow_next_le _).1 ?_
  rintro rfl
  rw [selectedRow_uniform hs.2, hs.2]

theorem lpsTransition_contexts (k : Label) {s : State} (hs : ContextsLegal s) : ContextsLegal (lpsTransition k s) := by
  refine setCx_contexts hs (cmtRow_next_le _).2 ?_
  rintro rfl
  rw [selectedRow_uniform hs.2, hs.2]
  rfl

theorem initialContexts_legal : (∀ k : Label, initialContexts[k].i ≤ 46) ∧ initialContexts[labelUNI] = ⟨46, false⟩ := by
  decide

theorem contextsLegal_of_initial {s : State} (h : s.cx = initialContexts) : ContextsLegal s := by
  rw [ContextsLegal, ContextsInTable, UniformContextFixed, h]
  exact initialContexts_legal

theorem resetWith_cx (p : Params) : (State.resetWith p).cx = initialContexts := rfl

/-! ### The coders write contexts by the two transitions alone -/

theorem decodeDecision_contexts (k : Label) {s : State} (hs : ContextsLegal s) :
    ContextsLegal (decodeDecision k s).2 := by
  unfold decodeDecision
  dsimp only
  split
  case isTrue =>
    refine ContextsLegal.of_cx ?_ (renormDecoder_cx _ _)
    unfold lpsExchange
    split
    · exact mpsTransition_contexts k (s := s.setA _) hs
    · exact lpsTransition_contexts k (s := s.setA _) hs
  case isFalse =>
    split
    case isTrue =>
      refine ContextsLegal.of_cx ?_ (renormDecoder_cx _ _)
      unfold mpsExchange
      split
      · exact lpsTransition_contexts k (s := (s.setA _).setC _) hs
      · exact mpsTransition_contexts k (s := (s.setA _).setC _) hs
    case isFalse => exact hs.of_cx (by simp)

theorem byteOut_cx (s : State) : (byteOut s).All fun t => t.cx = s.cx := by
  rcases byteOut_result s with ⟨m, c, h⟩ | ⟨-, m, c, n, -, h⟩ <;> rw [h] <;> simp

theorem encoderRound_cx (s : State) : (encoderRound s).All fun t => t.cx = s.cx := by
  unfold encoderRound
  split
  · exact byteOut_cx (shiftUp s)
  · exact shiftUp_cx s

theorem renormEncoder_cx (n : Nat) (s : State) : (renormEncoder n s).All fun t => t.cx = s.cx := by
  induction n generalizing s with
  | zero => exact rfl
  | succ n ih =>
    rw [renormEncoder]
    refine Run.all_bind (encoderRound_cx s) fun _ t ht => ?_
    split
    · exact Run.all_imp (fun _ h => h.trans ht) (ih t)
    · exact ht

theorem renormEncoder_contexts (n : Nat) {s : State} (hs : ContextsLegal s) : (renormEncoder n s).All ContextsLegal :=
  Run.all_imp (fun _ h => hs.of_cx h) (renormEncoder_cx n s)

theorem encodeDecision_contexts (k : Label) (d : Bool) {s : State} (hs : ContextsLegal s) :
    (encodeDecision k d s).All ContextsLegal := by
  unfold encodeDecision
  split
  case isTrue =>
    unfold codeMps
    dsimp only
    split
    case isTrue =>
      refine renormEncoder_contexts _ (mpsTransition_contexts k (hs.of_cx ?_))
      split <;> simp
    case isFalse => exact hs.of_cx (by simp)
  case isFalse =>
    unfold codeLps
    dsimp only
    refine renormEncoder_contexts _ (lpsTransition_contexts k (hs.of_cx ?_))
    split <;> simp

theorem flushEncoder_cx (s : State) : (flushEncoder s).All fun t => t.cx = s.cx := by
  have hset : (setBits s).cx = s.cx := by
    unfold setBits
    dsimp only
    split <;> simp
  unfold flushEncoder
  refine Run.all_bind (Run.all_imp (fun t h => h.trans hset) (byteOut_cx (shiftOut (setBits s)))) fun _ t ht => ?_
  refine Run.all_bind (Run.all_imp (fun u h => h.trans ht) (byteOut_cx (shiftOut t))) fun _ u hu => ?_
  split <;> exact hu

theorem RawDecoderFrame.cx {s t : State} (h : RawDecoderFrame s t) : t.cx = s.cx := by
  unfold RawDecoderFrame at h
  rw [h]

theorem RawEncoderFrame.cx {s t : State} (h : RawEncoderFrame s t) : t.cx = s.cx := by
  unfold RawEncoderFrame at h
  rw [h]

theorem codeLabel_contexts (k : Label) (v : Bool) {s : State} (hs : ContextsLegal s) :
    (codeLabel k v s).All ContextsLegal := by
  unfold codeLabel
  split
  · exact decodeDecision_contexts k hs
  · exact Run.all_bind (encodeDecision_contexts k v hs) fun _ _ h => h

theorem codeRaw_contexts (v : Bool) {s : State} (hs : ContextsLegal s) : (codeRaw v s).All ContextsLegal := by
  unfold codeRaw
  split
  · exact hs.of_cx (rawDecodeBit_frame s).cx
  · exact Run.all_bind (Run.all_imp (fun _ h => hs.of_cx h.cx) (rawEncodeBit_frame v s)) fun _ _ h => h

/-- Only the decisions of a pass write contexts. -/
theorem passContexts_keeps (s : State) (hi : s.mode ≠ .idle) (hf : s.mode ≠ .fault) :
    PassKeeps s.w s.h (DuringPass ContextsLegal s) where
  size _ h := h.2.mode.2
  label k v t ha h := Run.all_and (codeLabel_contexts k v h.1) ((passFrame_keeps s hi hf).label k v t ha h.2)
  raw v t ha h := Run.all_and (codeRaw_contexts v h.1) ((passFrame_keeps s hi hf).raw v t ha h.2)
  significant _ _ _ _ _ _ h := ⟨h.1, h.2.setFp _⟩
  visited _ _ _ _ _ h := ⟨h.1, h.2.setFp _⟩
  refined _ _ _ _ _ h := ⟨h.1, h.2.setFp _⟩
  magnitude _ _ _ _ _ _ _ hd h := ⟨h.1, h.2.setCp _ hd⟩
  sign _ _ _ _ _ _ hd h := ⟨h.1, h.2.setCp _ hd⟩

/-! ### Commands and the step -/

theorem SegmentFrame.cx {s t : State} (h : SegmentFrame s t) : t.cx = s.cx := by
  unfold SegmentFrame at h
  rw [h]

theorem contexts_finish_ok {α : Type} {P : State → Prop} {r : Run α} (hr : r.All P) (hP : ∀ t, P t → ContextsLegal t) :
    ContextsLegal (finish r fun _ t => t.answer Response.ok) :=
  finish_of_all hr (fun _ t ht => (hP t ht).of_cx rfl) fun t ht => (hP t ht).of_cx rfl

/-- Every command keeps the contexts legal. -/
theorem exec_contexts {i : Instr} {s t : State} (h : exec i s = .next t) (hs : ContextsLegal s) : ContextsLegal t := by
  rcases exec_cases i s t h with ⟨e, -, rfl⟩ | hr
  · exact hs
  cases i
  case nop => exact hr ▸ hs
  case cxreset => obtain ⟨-, rfl⟩ := hr; exact contextsLegal_of_initial rfl
  case clrstat =>
    dsimp only at hr
    rw [hr]
    split
    · exact contextsLegal_of_initial rfl
    · exact hs
  case wrreg => rcases hr with ⟨-, rfl⟩ | ⟨-, rfl⟩ <;> exact hs
  case rdreg => obtain ⟨d, v, rfl⟩ := hr; exact hs
  case initdec => obtain ⟨-, -, rfl⟩ := hr; exact hs.of_cx (startDecoder_frame s).cx
  case decode => obtain ⟨-, k, -, rfl⟩ := hr; exact (decodeDecision_contexts k hs).of_cx rfl
  case finishdec => obtain ⟨-, rfl⟩ := hr; exact hs
  case termchk => rcases hr with ⟨-, ⟨v, rfl⟩ | ⟨v, rfl⟩ | rfl⟩ <;> exact hs
  case initenc => obtain ⟨-, -, rfl⟩ := hr; exact hs.of_cx (startEncoder_frame s).cx
  case encode => obtain ⟨-, k, -, rfl⟩ := hr; exact contexts_finish_ok (encodeDecision_contexts k _ hs) fun _ h => h
  case flushenc =>
    obtain ⟨-, rfl⟩ := hr
    exact finish_of_all (flushEncoder_cx s) (fun _ _ hu => hs.of_cx hu) fun _ hu => hs.of_cx hu
  case rawinitdec => obtain ⟨-, -, rfl⟩ := hr; exact hs.of_cx (startRawDecoder_frame s).cx
  case rawdec => obtain ⟨-, rfl⟩ := hr; exact hs.of_cx (rawDecodeBit_frame s).cx
  case rawinitenc => obtain ⟨-, -, rfl⟩ := hr; exact hs.of_cx (startRawEncoder_frame s).cx
  case rawenc => obtain ⟨-, rfl⟩ := hr; exact contexts_finish_ok (rawEncodeBit_frame _ s) fun _ h => hs.of_cx h.cx
  case rawflush =>
    obtain ⟨-, rfl⟩ := hr
    exact finish_of_all (rawFlush_frame s) (fun _ _ hu => hs.of_cx hu.cx) fun _ hu => hs.of_cx hu.cx
  case cbinit wm1 hm1 o clr =>
    obtain ⟨-, -, rfl⟩ := hr
    obtain ⟨u, m, h⟩ := loadGeometry_eq wm1 hm1 o clr s
    rw [h]
    exact hs.of_cx (by simp [State.answer])
  case sigpass p =>
    obtain ⟨⟨hi, hf⟩, -, -, rfl⟩ := hr
    exact contexts_finish_ok ((passContexts_keeps s hi hf).significancePass p s ⟨hs, .refl s⟩) fun _ h => h.1
  case refpass p =>
    obtain ⟨⟨hi, hf⟩, -, -, rfl⟩ := hr
    exact contexts_finish_ok ((passContexts_keeps s hi hf).refinementPass p s ⟨hs, .refl s⟩) fun _ h => h.1
  case clnpass p =>
    obtain ⟨hm, -, -, rfl⟩ := hr
    obtain ⟨hi, hf⟩ := ne_idle_ne_fault hm
    exact contexts_finish_ok ((passContexts_keeps s hi hf).cleanup hm (fun _ h => h) p hs) fun _ h => h.1

theorem stepKeeps_contexts : StepKeeps ContextsLegal where
  inbox _ _ h := h
  command _ _ _ _ _ _ he h := exec_contexts he h
  illegal _ h := h
  cb _ _ h := h
  cp _ _ h := h
  reset _ _ := contextsLegal_of_initial rfl

/-- Settles O10: contexts are written by the two transitions of R85, which lead from rows of CMT to rows of CMT and leave
row 46 where it is, and by CXRESET and the reset values. -/
theorem stepKeepsContextsInTable : Obligations.StepKeepsContextsInTable :=
  fun _ _ hall huni h => stepKeeps_contexts.step ⟨hall, huni⟩ h

end Sys2Proof.Machine

/-! ## Operands of decoded commands -/

namespace Sys2Proof

theorem field_lt (w : Word) (hi lo : Nat) : field w hi lo < 2 ^ (hi + 1 - lo) := Nat.mod_lt _ (Nat.two_pow_pos _)

theorem eq_of_checked_eq_ok {b : Bool} {i j : Instr} (h : checked b i = .ok j) : j = i := by
  cases b <;> cases h
  rfl

/-- A decoded command is well formed: each operand is read from its field (R62). -/
theorem decode_wf {cmd arg : Word} {i : Instr} (h : decode cmd arg = .ok i) : i.wf = true := by
  have f5 := field_lt cmd 4 0
  have f8 := field_lt cmd 7 0
  have f10 := field_lt cmd 9 0
  have f20 := field_lt cmd 19 10
  unfold decode at h
  split at h
  case h_22 => cases h
  all_goals obtain rfl := eq_of_checked_eq_ok h
  all_goals simp only [Instr.wf, Bool.and_eq_true, decide_eq_true_eq]
  all_goals omega

end Sys2Proof

/-! ## The flag plane -/

namespace Sys2Proof.Machine

theorem Cells.find?_eq_none {width : Nat} {m : Cells width} {a : Nat} (h : ∀ e ∈ m, e.1 ≠ a) : m.find? a = none := by
  induction m with
  | nil => rfl
  | cons e m ih =>
    obtain ⟨b, v⟩ := e
    rw [Cells.find?_cons, if_neg (Ne.symm (h _ (List.mem_cons_self ..)))]
    exact ih fun e he => h e (List.mem_cons_of_mem _ he)

/-- The list of a plane whose cells all lose the bits outside `mask`. -/
def Cells.masked (mask : BitVec 4) (m : Cells 4) : Cells 4 :=
  m.filterMap fun e => if e.2 &&& mask = 0 then none else some (e.1, e.2 &&& mask)

theorem clearVisited_eq (s : State) : clearVisited s = s.setFp (s.fp.masked 0b1011#4) := rfl

theorem Cells.mem_masked {mask : BitVec 4} {m : Cells 4} {e : Nat × BitVec 4} :
    e ∈ m.masked mask ↔ ∃ f ∈ m, e = (f.1, f.2 &&& mask) ∧ f.2 &&& mask ≠ 0 := by
  simp only [Cells.masked, List.mem_filterMap]
  constructor
  · rintro ⟨f, hf, h⟩
    split at h <;> cases h
    exact ⟨f, hf, rfl, ‹_›⟩
  · rintro ⟨f, hf, rfl, h⟩
    exact ⟨f, hf, if_neg h⟩

theorem Cells.wf_masked {mask : BitVec 4} {m : Cells 4} (h : m.wf = true) : (m.masked mask).wf = true := by
  rw [Cells.wf_iff] at h ⊢
  obtain ⟨hrising, hne⟩ := h
  refine ⟨List.Pairwise.filterMap _ (fun e f hef e' he f' hf => ?_) hrising, fun e he => ?_⟩
  · split at he <;> cases he
    split at hf <;> cases hf
    exact hef
  · obtain ⟨f, -, rfl, hf⟩ := Cells.mem_masked.1 he
    exact hf

theorem Cells.masked_cons (mask : BitVec 4) (b : Nat) (v : BitVec 4) (m : Cells 4) :
    Cells.masked mask ((b, v) :: m) =
      if v &&& mask = 0 then Cells.masked mask m else (b, v &&& mask) :: Cells.masked mask m := by
  unfold Cells.masked
  rw [List.filterMap_cons]
  split_ifs <;> rfl

/-- Every cell of a canonical plane loses the bits outside the mask. -/
theorem Cells.read_masked (mask : BitVec 4) {m : Cells 4} (h : m.wf = true) (a : Nat) :
    (m.masked mask).read a = m.read a &&& mask := by
  replace h := ((Cells.wf_iff m).1 h).1
  unfold Cells.read
  induction m with
  | nil => exact BitVec.zero_and.symm
  | cons e m ih =>
    obtain ⟨b, v⟩ := e
    obtain ⟨hb, hm⟩ := List.pairwise_cons.1 h
    rw [Cells.masked_cons, Cells.find?_cons]
    by_cases hab : a = b
    · rw [if_pos hab]
      have hrest : (Cells.masked mask m).find? a = none := Cells.find?_eq_none fun e he => by
        obtain ⟨f, hf, rfl, -⟩ := Cells.mem_masked.1 he
        exact hab ▸ (hb f hf).ne'
      split
      case isTrue hv => rw [hrest]; exact hv.symm
      case isFalse hv => rw [Cells.find?_cons, if_pos hab]; rfl
    · rw [if_neg hab, ← ih hm]
      split
      case isTrue => rfl
      case isFalse => rw [Cells.find?_cons, if_neg hab]

/-- The cells of the plane stand at different places of the list. -/
theorem flagIndex_inj {w xf yf xf' yf' : Nat} (hx : xf < w + 2) (hx' : xf' < w + 2)
    (h : flagIndex w xf yf = flagIndex w xf' yf') : xf = xf' ∧ yf = yf' := by
  unfold flagIndex at h
  have hmod := congrArg (· % (w + 2)) h
  have hdiv := congrArg (· / (w + 2)) h
  simp only [Nat.mul_add_mod', Nat.mod_eq_of_lt hx, Nat.mod_eq_of_lt hx'] at hmod
  subst hmod
  exact ⟨rfl, Nat.eq_of_mul_eq_mul_right (by omega : 0 < w + 2) (by omega)⟩

/-- A write of the cell of a coefficient inside the code-block leaves the halo alone. -/
theorem setFlagCell_halo {s : State} {x y : Nat} (v : BitVec 4) (hx : x < s.w) (hy : y < s.h) (hs : HaloClear s) :
    HaloClear (setFlagCell s x y v) := by
  obtain ⟨hwf, hclear⟩ := hs
  refine ⟨Cells.wf_write hwf _ v, fun xf yf hxf hyf hhalo => ?_⟩
  have hxf' : xf ≤ s.w + 1 := hxf
  have hhalo' : xf = 0 ∨ xf = s.w + 1 ∨ yf = 0 ∨ yf = s.h + 1 := hhalo
  have hne : flagIndex s.w xf yf ≠ flagIndex s.w (x + 1) (y + 1) := fun he => by
    have := flagIndex_inj (by omega) (by omega) he
    omega
  show ((s.fp.write _ v).read (flagIndex s.w xf yf)) = 0
  rw [Cells.read_write, if_neg hne]
  exact hclear xf yf hxf hyf hhalo

theorem clearVisited_halo {s : State} (hs : HaloClear s) : HaloClear (clearVisited s) := by
  obtain ⟨hwf, hclear⟩ := hs
  rw [clearVisited_eq]
  refine ⟨Cells.wf_masked hwf, fun xf yf hxf hyf hhalo => ?_⟩
  have hcell : s.fp.read (flagIndex s.w xf yf) = 0 := hclear xf yf hxf hyf hhalo
  show (s.fp.masked 0b1011#4).read (flagIndex s.w xf yf) = 0
  rw [Cells.read_masked _ hwf, hcell]
  rfl

theorem haloClear_of_fp_nil {s : State} (h : s.fp = []) : HaloClear s := by
  refine ⟨by rw [h]; rfl, fun xf yf _ _ _ => ?_⟩
  rw [flagCell, h]
  rfl

/-! ### Passes -/

/-- What the invariants of the scanner's planes read: the parameters, the size of the code-block and FP. -/
def SamePlane (s t : State) : Prop := t.params = s.params ∧ t.w = s.w ∧ t.h = s.h ∧ t.fp = s.fp

theorem HaloClear.of_same {s t : State} (hs : HaloClear s) (h : SamePlane s t) : HaloClear t := by
  obtain ⟨-, hw, hh, hfp⟩ := h
  simpa only [HaloClear, flagCell, hw, hh, hfp] using hs

theorem GeometryLegal.of_eq {s t : State} (hs : GeometryLegal s) (hp : t.params = s.params) (hw : t.w = s.w)
    (hh : t.h = s.h) : GeometryLegal t := by
  rwa [GeometryLegal, hp, hw, hh]

theorem CodingFrame.samePlane {s t : State} (h : CodingFrame s t) : SamePlane s t := by
  unfold CodingFrame at h
  rw [h]
  exact ⟨rfl, rfl, rfl, rfl⟩

theorem codeLabel_samePlane (k : Label) (v : Bool) (s : State) : (codeLabel k v s).All (SamePlane s) := by
  refine Run.all_imp (fun t h => ?_) (codeLabel_frame k v s)
  split at h
  · exact h.coding.samePlane
  · exact h.coding.samePlane

theorem codeRaw_samePlane (v : Bool) (s : State) : (codeRaw v s).All (SamePlane s) := by
  refine Run.all_imp (fun t h => ?_) (codeRaw_frame v s)
  split at h
  · exact h.coding.samePlane
  · exact h.coding.samePlane

/-- A visit writes flag cells inside the code-block alone (R163 to R165). -/
theorem passHalo_keeps (s : State) (hi : s.mode ≠ .idle) (hf : s.mode ≠ .fault) :
    PassKeeps s.w s.h (DuringPass HaloClear s) where
  size _ h := h.2.mode.2
  label k v t ha h :=
    Run.all_and (Run.all_imp (fun _ g => h.1.of_same g) (codeLabel_samePlane k v t))
      ((passFrame_keeps s hi hf).label k v t ha h.2)
  raw v t ha h :=
    Run.all_and (Run.all_imp (fun _ g => h.1.of_same g) (codeRaw_samePlane v t))
      ((passFrame_keeps s hi hf).raw v t ha h.2)
  significant _ _ _ _ hx hy h := ⟨setFlagCell_halo _ (h.2.mode.2.1 ▸ hx) (h.2.mode.2.2 ▸ hy) h.1, h.2.setFp _⟩
  visited _ _ _ hx hy h := ⟨setFlagCell_halo _ (h.2.mode.2.1 ▸ hx) (h.2.mode.2.2 ▸ hy) h.1, h.2.setFp _⟩
  refined _ _ _ hx hy h := ⟨setFlagCell_halo _ (h.2.mode.2.1 ▸ hx) (h.2.mode.2.2 ▸ hy) h.1, h.2.setFp _⟩
  magnitude _ _ _ _ _ _ _ hd h := ⟨h.1, h.2.setCp _ hd⟩
  sign _ _ _ _ _ _ hd h := ⟨h.1, h.2.setCp _ hd⟩

/-! ### Commands and the step -/

/-- What O11 asks of `s` and of the next state. -/
def PlaneLegal (s : State) : Prop := GeometryLegal s ∧ HaloClear s

theorem PlaneLegal.of_same {s t : State} (hs : PlaneLegal s) (h : SamePlane s t) : PlaneLegal t :=
  ⟨hs.1.of_eq h.1 h.2.1 h.2.2.1, hs.2.of_same h⟩

theorem PlaneLegal.of_pass {s t : State} (hs : PlaneLegal s) (h : DuringPass HaloClear s t) : PlaneLegal t := by
  obtain ⟨hhalo, hf⟩ := h
  obtain ⟨hp, hw, hh, -⟩ := hf.coding.samePlane
  exact ⟨hs.1.of_eq hp hw hh, hhalo⟩

/-- The reset values are a code-block of one coefficient with an empty plane. -/
theorem toResetValues_planeLegal {s : State} (hp : s.params.wf = true) : PlaneLegal (toResetValues s) := by
  have harea : 1 ≤ s.params.maxarea := by
    simp only [Params.wf, Bool.and_eq_true, decide_eq_true_eq] at hp
    exact hp.1.2
  exact ⟨⟨hp, Nat.le_refl 1, Nat.le_of_ble_eq_true rfl, Nat.le_refl 1, Nat.le_of_ble_eq_true rfl, harea⟩,
    haloClear_of_fp_nil rfl⟩

/-- CBINIT clears FP, and the operands of a decoded command give at most 1024 columns and rows (R62, R162). -/
theorem loadGeometry_planeLegal {wm1 hm1 : Nat} {o : Orientation} {clr : Bool} {s : State} (hp : s.params.wf = true)
    (hi : (Instr.cbinit wm1 hm1 o clr).wf = true) (ha : (wm1 + 1) * (hm1 + 1) ≤ s.params.maxarea) :
    PlaneLegal (loadGeometry wm1 hm1 o clr s) := by
  obtain ⟨u, m, h⟩ := loadGeometry_eq wm1 hm1 o clr s
  obtain ⟨hw, hh⟩ : wm1 < 2 ^ 10 ∧ hm1 < 2 ^ 10 := by simpa [Instr.wf] using hi
  rw [h]
  refine ⟨?_, haloClear_of_fp_nil (by simp)⟩
  simp only [GeometryLegal, Config.maxSide, State.setGeomv_params, State.setGeomv_w, State.setGeomv_h, State.setCp_params,
    State.setCp_w, State.setCp_h, State.setUnspec_params, State.setUnspec_w, State.setUnspec_h, State.setFp_params,
    State.setFp_w, State.setFp_h, State.setGeometry_params, State.setGeometry_w, State.setGeometry_h]
  exact ⟨hp, by omega, by omega, by omega, by omega, ha⟩

theorem SegmentFrame.samePlane {s t : State} (h : SegmentFrame s t) : SamePlane s t := by
  unfold SegmentFrame at h
  rw [h]
  exact ⟨rfl, rfl, rfl, rfl⟩

theorem PlaneLegal.answer {s : State} (hs : PlaneLegal s) (r : Response) : PlaneLegal (s.answer r) := hs

theorem PlaneLegal.takeFault {s : State} (hs : PlaneLegal s) : PlaneLegal (takeFault s) :=
  hs.of_same ⟨rfl, rfl, rfl, rfl⟩

theorem planeLegal_finish {α : Type} {P : State → Prop} {r : Run α} {last : α → State → State} (hr : r.All P)
    (hP : ∀ t, P t → PlaneLegal t) (hl : ∀ v t, PlaneLegal t → PlaneLegal (last v t)) : PlaneLegal (finish r last) :=
  finish_of_all hr (fun v t ht => hl v t (hP t ht)) fun t ht => (hP t ht).takeFault

/-- Every decoded command keeps a legal geometry and a clear halo. -/
theorem exec_planeLegal {i : Instr} {s t : State} (hi : i.wf = true) (h : exec i s = .next t) (hs : PlaneLegal s) :
    PlaneLegal t := by
  have hp : s.params.wf = true := hs.1.1
  rcases exec_cases i s t h with ⟨e, -, rfl⟩ | hr
  · exact hs
  cases i
  case nop => exact hr ▸ hs
  case cxreset => exact hr.2 ▸ hs
  case clrstat =>
    dsimp only at hr
    rw [hr]
    split
    · exact PlaneLegal.answer (toResetValues_planeLegal (s := clearSticky s) hp) _
    · exact hs
  case wrreg => rcases hr with ⟨-, rfl⟩ | ⟨-, rfl⟩ <;> exact hs
  case rdreg => obtain ⟨d, v, rfl⟩ := hr; exact hs
  case initdec => obtain ⟨-, -, rfl⟩ := hr; exact (hs.of_same (startDecoder_frame s).samePlane).answer _
  case decode => obtain ⟨-, k, -, rfl⟩ := hr; exact (hs.of_same (decodeDecision_frame k s).coding.samePlane).answer _
  case finishdec => obtain ⟨-, rfl⟩ := hr; exact hs
  case termchk => rcases hr with ⟨-, ⟨v, rfl⟩ | ⟨v, rfl⟩ | rfl⟩ <;> exact hs
  case initenc => obtain ⟨-, -, rfl⟩ := hr; exact (hs.of_same (startEncoder_frame s).samePlane).answer _
  case encode =>
    obtain ⟨-, k, -, rfl⟩ := hr
    exact planeLegal_finish (encodeDecision_frame k _ s) (fun _ h => hs.of_same h.coding.samePlane) fun _ _ h => h
  case flushenc =>
    obtain ⟨-, rfl⟩ := hr
    exact planeLegal_finish (flushEncoder_frame s) (fun _ h => hs.of_same h.coding.samePlane) fun _ _ h => h
  case rawinitdec => obtain ⟨-, -, rfl⟩ := hr; exact (hs.of_same (startRawDecoder_frame s).samePlane).answer _
  case rawdec => obtain ⟨-, rfl⟩ := hr; exact (hs.of_same (rawDecodeBit_frame s).coding.samePlane).answer _
  case rawinitenc => obtain ⟨-, -, rfl⟩ := hr; exact (hs.of_same (startRawEncoder_frame s).samePlane).answer _
  case rawenc =>
    obtain ⟨-, rfl⟩ := hr
    exact planeLegal_finish (rawEncodeBit_frame _ s) (fun _ h => hs.of_same h.coding.samePlane) fun _ _ h => h
  case rawflush =>
    obtain ⟨-, rfl⟩ := hr
    exact planeLegal_finish (rawFlush_frame s) (fun _ h => hs.of_same h.coding.samePlane) fun _ _ h => h
  case cbinit => obtain ⟨-, ha, rfl⟩ := hr; exact (loadGeometry_planeLegal hp hi ha).answer _
  case sigpass p =>
    obtain ⟨⟨hi, hf⟩, -, -, rfl⟩ := hr
    exact planeLegal_finish ((passHalo_keeps s hi hf).significancePass p s ⟨hs.2, .refl s⟩)
      (fun _ h => hs.of_pass h) fun _ _ h => h
  case refpass p =>
    obtain ⟨⟨hi, hf⟩, -, -, rfl⟩ := hr
    exact planeLegal_finish ((passHalo_keeps s hi hf).refinementPass p s ⟨hs.2, .refl s⟩)
      (fun _ h => hs.of_pass h) fun _ _ h => h
  case clnpass p =>
    obtain ⟨hm, -, -, rfl⟩ := hr
    obtain ⟨hi, hf⟩ := ne_idle_ne_fault hm
    exact planeLegal_finish ((passHalo_keeps s hi hf).cleanup hm (fun _ h => clearVisited_halo h) p hs.2)
      (fun _ h => hs.of_pass h) fun _ _ h => h

theorem stepKeeps_planeLegal : StepKeeps PlaneLegal where
  inbox _ _ h := h
  command _ _ _ _ _ hd he h := exec_planeLegal (decode_wf hd) he h
  illegal _ h := h
  cb _ _ h := h
  cp _ _ h := h
  reset _ h := (toResetValues_planeLegal h.1.1).of_same ⟨rfl, rfl, rfl, rfl⟩

/-- Settles O11: a pass writes the flag cells of coefficients alone, and everything else that writes the geometry clears
FP. -/
theorem stepKeepsHaloClear : Obligations.StepKeepsHaloClear :=
  fun _ _ hgeom hhalo h => stepKeeps_planeLegal.step ⟨hgeom, hhalo⟩ h

/-! ## The state after reset -/

theorem resetWith_legal {p : Params} (hp : p.wf = true) : Legal (State.resetWith p) := by
  obtain ⟨hall, huni⟩ := contextsLegal_of_initial (resetWith_cx p)
  obtain ⟨hgeom, hhalo⟩ : PlaneLegal (toResetValues (State.resetWith p)) := toResetValues_planeLegal hp
  have hcoder : CoderBounds (toResetValues (State.resetWith p)) := toResetValues_coderBounds hp
  exact ⟨State.resetWith_memories_wf p, hall, huni, hgeom, hhalo, hcoder⟩

/-- Settles O12. -/
theorem resetStateIsLegal : Obligations.ResetStateIsLegal :=
  ⟨fun _ hp => resetWith_legal hp, resetWith_legal (by decide)⟩

end Sys2Proof.Machine

/-! ## The fields of STATUS -/

namespace Sys2Proof.Machine

/-- The fields of STATUS but MODE are the same. -/
def FlagsKept (s t : State) : Prop :=
  t.errs = s.errs ∧ t.wslack = s.wslack ∧ t.wmark = s.wmark ∧ t.geomv = s.geomv

/-- The fields of STATUS are the same. -/
def StatusKept (s t : State) : Prop := t.mode = s.mode ∧ FlagsKept s t

theorem CodingFrame.status {s t : State} (h : CodingFrame s t) : StatusKept s t := by
  unfold CodingFrame at h
  rw [h]
  exact ⟨rfl, rfl, rfl, rfl, rfl⟩

theorem SegmentFrame.flags {s t : State} (h : SegmentFrame s t) : FlagsKept s t := by
  unfold SegmentFrame at h
  rw [h]
  exact ⟨rfl, rfl, rfl, rfl⟩

/-- The listed changes of MODE (R19). -/
def ModeChangeListed (i : Instr) (s t : State) : Prop :=
  (s.mode ≠ .fault ∧ (
      (i = .initdec ∧ t.mode = .dec) ∨ (i = .initenc ∧ t.mode = .enc) ∨ (i = .rawinitdec ∧ t.mode = .rawdec)
        ∨ (i = .rawinitenc ∧ t.mode = .rawenc) ∨ (i = .flushenc ∧ t.mode = .idle)
        ∨ (i = .rawflush ∧ t.mode = .idle) ∨ (AnswersError t .overflow ∧ t.mode = .fault)))
    ∨ (s.mode = .fault ∧ i = .clrstat ∧ t.mode = .idle)

/-- What O17 says of a command that leads from `s` to `t` (R19, R27, R236, R237). -/
def StatusChangesListed (i : Instr) (s t : State) : Prop :=
  (t.mode ≠ s.mode → ModeChangeListed i s t)
    ∧ (i ≠ .clrstat →
      s.errs &&& t.errs = s.errs ∧ (s.wslack = true → t.wslack = true) ∧ (s.wmark = true → t.wmark = true))
    ∧ (t.wslack ≠ s.wslack ∨ t.wmark ≠ s.wmark → i = .clrstat ∨ i = .termchk)
    ∧ (t.geomv ≠ s.geomv → (t.geomv = true ∧ ∃ wm1 hm1 o clr, i = .cbinit wm1 hm1 o clr)
      ∨ (t.geomv = false ∧ s.mode = .fault ∧ i = .clrstat))

theorem and_or_self (a b : BitVec 8) : a &&& (a ||| b) = a := by
  ext k
  simp +contextual

/-- The other fields are kept, and MODE changes as listed. -/
theorem statusChangesListed_of_flags {i : Instr} {s t : State} (h : FlagsKept s t)
    (hm : t.mode ≠ s.mode → ModeChangeListed i s t) : StatusChangesListed i s t := by
  obtain ⟨he, hs, hk, hg⟩ := h
  refine ⟨hm, fun _ => ⟨by rw [he, BitVec.and_self], hs ▸ id, hk ▸ id⟩, fun h => ?_, fun h => absurd hg h⟩
  exact h.elim (absurd hs) (absurd hk)

theorem statusChangesListed_of_kept {i : Instr} {s t : State} (h : StatusKept s t) : StatusChangesListed i s t :=
  statusChangesListed_of_flags h.2 fun hm => absurd h.1 hm

/-- A refusal sets one sticky bit (R232). -/
theorem statusChangesListed_refuse (i : Instr) (e : ErrorCode) (s : State) : StatusChangesListed i s (refuse e s) :=
  ⟨fun h => absurd rfl h, fun _ => ⟨and_or_self _ _, id, id⟩, fun h => h.elim (absurd rfl) (absurd rfl),
    fun h => absurd rfl h⟩

/-- The fault sets one sticky bit and MODE, and answers ERR_OVERFLOW (R233). -/
theorem statusChangesListed_takeFault {i : Instr} {s t : State} (hf : s.mode ≠ .fault) (h : StatusKept s t) :
    StatusChangesListed i s (takeFault t) := by
  obtain ⟨-, he, hs, hk, hg⟩ := h
  refine ⟨fun _ => .inl ⟨hf, by simp [takeFault_eq, AnswersError]⟩, fun _ => ⟨?_, ?_, ?_⟩, fun h => ?_,
    fun h => absurd hg h⟩
  · rw [takeFault_eq, he]
    exact and_or_self _ _
  · exact fun h => hs.trans h
  · exact fun h => hk.trans h
  · exact h.elim (absurd hs) (absurd hk)

/-- A command that codes keeps STATUS until its last writes or the fault. -/
theorem statusChangesListed_finish {α : Type} {i : Instr} {s : State} {F : State → Prop} {r : Run α}
    {last : α → State → State} (hf : s.mode ≠ .fault) (hr : r.All F) (hF : ∀ t, F t → StatusKept s t)
    (hl : ∀ v t, StatusKept s t → StatusChangesListed i s (last v t)) : StatusChangesListed i s (finish r last) :=
  finish_of_all hr (fun v t ht => hl v t (hF t ht)) fun t ht => statusChangesListed_takeFault hf (hF t ht)

theorem StatusKept.answer {s t : State} (h : StatusKept s t) (r : Response) : StatusKept s (t.answer r) := h

theorem startDecoder_mode (s : State) : (startDecoder s).mode = .dec := by simp [startDecoder]

theorem FlagsKept.answer {s t : State} (h : FlagsKept s t) (r : Response) : FlagsKept s (t.answer r) := h

theorem statusChangesListed_clrstat (s : State) : StatusChangesListed .clrstat s
    ((if s.mode = .fault then leaveFault (clearSticky s) else clearSticky s).answer Response.ok) := by
  refine ⟨fun hm => ?_, fun h => absurd rfl h, fun _ => .inl rfl, fun hg => ?_⟩
  · split at hm
    case isTrue hf => exact .inr ⟨hf, rfl, by rw [if_pos hf]; rfl⟩
    case isFalse hf => exact absurd rfl hm
  · split at hg
    case isTrue hf => exact .inr ⟨by rw [if_pos hf]; rfl, hf, rfl⟩
    case isFalse hf => exact absurd rfl hg

/-- The fields of STATUS change as listed, command by command. -/
theorem exec_statusChangesListed {i : Instr} {s t : State} (h : exec i s = .next t) : StatusChangesListed i s t := by
  have kept : StatusKept s s := ⟨rfl, rfl, rfl, rfl, rfl⟩
  rcases exec_cases i s t h with ⟨e, -, rfl⟩ | hr
  · exact statusChangesListed_refuse i e s
  cases i
  case nop => exact statusChangesListed_of_kept (hr ▸ kept)
  case cxreset => exact statusChangesListed_of_kept (hr.2 ▸ kept)
  case clrstat => exact hr ▸ statusChangesListed_clrstat s
  case wrreg => rcases hr with ⟨-, rfl⟩ | ⟨-, rfl⟩ <;> exact statusChangesListed_of_kept kept
  case rdreg => obtain ⟨d, v, rfl⟩ := hr; exact statusChangesListed_of_kept kept
  case initdec =>
    obtain ⟨hf, -, rfl⟩ := hr
    exact statusChangesListed_of_flags ((startDecoder_frame s).flags.answer _)
      fun _ => .inl ⟨hf, .inl ⟨rfl, startDecoder_mode s⟩⟩
  case decode =>
    obtain ⟨-, k, -, rfl⟩ := hr
    exact statusChangesListed_of_kept ((decodeDecision_frame k s).coding.status.answer _)
  case finishdec => exact statusChangesListed_of_kept (hr.2 ▸ kept)
  case termchk =>
    rcases hr with ⟨-, ⟨v, rfl⟩ | ⟨v, rfl⟩ | rfl⟩
    · exact ⟨fun h => absurd rfl h, fun _ => ⟨BitVec.and_self, fun _ => rfl, id⟩, fun _ => .inr rfl,
        fun h => absurd rfl h⟩
    · exact ⟨fun h => absurd rfl h, fun _ => ⟨BitVec.and_self, id, fun _ => rfl⟩, fun _ => .inr rfl,
        fun h => absurd rfl h⟩
    · exact statusChangesListed_of_kept kept
  case initenc =>
    obtain ⟨hf, -, rfl⟩ := hr
    exact statusChangesListed_of_flags ((startEncoder_frame s).flags.answer _)
      fun _ => .inl ⟨hf, .inr (.inl ⟨rfl, rfl⟩)⟩
  case encode =>
    obtain ⟨hm, k, -, rfl⟩ := hr
    exact statusChangesListed_finish (by simp [hm]) (encodeDecision_frame k _ s) (fun _ g => g.coding.status)
      fun _ _ g => statusChangesListed_of_kept (g.answer _)
  case flushenc =>
    obtain ⟨hm, rfl⟩ := hr
    have hf : s.mode ≠ .fault := by simp [hm]
    exact statusChangesListed_finish hf (flushEncoder_frame s) (fun _ g => g.coding.status) fun _ _ g =>
      statusChangesListed_of_flags (by exact g.2) fun _ => .inl ⟨hf, by simp [State.answer]⟩
  case rawinitdec =>
    obtain ⟨hf, -, rfl⟩ := hr
    exact statusChangesListed_of_flags ((startRawDecoder_frame s).flags.answer _)
      fun _ => .inl ⟨hf, .inr (.inr (.inl ⟨rfl, rfl⟩))⟩
  case rawdec =>
    obtain ⟨-, rfl⟩ := hr
    exact statusChangesListed_of_kept ((rawDecodeBit_frame s).coding.status.answer _)
  case rawinitenc =>
    obtain ⟨hf, -, rfl⟩ := hr
    exact statusChangesListed_of_flags ((startRawEncoder_frame s).flags.answer _)
      fun _ => .inl ⟨hf, .inr (.inr (.inr (.inl ⟨rfl, rfl⟩)))⟩
  case rawenc =>
    obtain ⟨hm, rfl⟩ := hr
    exact statusChangesListed_finish (by simp [hm]) (rawEncodeBit_frame _ s) (fun _ g => g.coding.status)
      fun _ _ g => statusChangesListed_of_kept (g.answer _)
  case rawflush =>
    obtain ⟨hm, rfl⟩ := hr
    have hf : s.mode ≠ .fault := by simp [hm]
    exact statusChangesListed_finish hf (rawFlush_frame s) (fun _ g => g.coding.status) fun _ _ g =>
      statusChangesListed_of_flags (by exact g.2) fun _ => .inl ⟨hf, by simp [State.answer]⟩
  case cbinit wm1 hm1 o clr =>
    obtain ⟨-, -, rfl⟩ := hr
    obtain ⟨u, m, h⟩ := loadGeometry_eq wm1 hm1 o clr s
    rw [h]
    simp [StatusChangesListed, State.answer]
  case sigpass p =>
    obtain ⟨⟨hi, hf⟩, -, -, rfl⟩ := hr
    exact statusChangesListed_finish hf (significancePass_frame p s hi hf) (fun _ g => g.coding.status)
      fun _ _ g => statusChangesListed_of_kept (g.answer _)
  case refpass p =>
    obtain ⟨⟨hi, hf⟩, -, -, rfl⟩ := hr
    exact statusChangesListed_finish hf (refinementPass_frame p s hi hf) (fun _ g => g.coding.status)
      fun _ _ g => statusChangesListed_of_kept (g.answer _)
  case clnpass p =>
    obtain ⟨hm, -, -, rfl⟩ := hr
    have hf : s.mode ≠ .fault := by rcases hm with hm | hm <;> simp [hm]
    exact statusChangesListed_finish hf (cleanupPass_frame p s hm) (fun _ g => g.coding.status)
      fun _ _ g => statusChangesListed_of_kept (g.answer _)

/-- Settles O17: the coding procedures keep every field of STATUS; a refusal and the fault add one sticky bit, and the
other changes are those of the INIT commands, the flushes, TERMCHK, CBINIT and CLRSTAT. -/
theorem statusFieldsChangeOnlyAsListed : Obligations.StatusFieldsChangeOnlyAsListed :=
  fun _ _ _ h => exec_statusChangesListed h

/-! ## Register images -/

/-- Two fields side by side: the upper one, shifted to bit `k`, is above all bits of the lower one. -/
theorem toNat_or_shiftLeft {a b : Word} {k : Nat} (ha : a.toNat < 2 ^ k) (hb : 2 ^ k * b.toNat < 2 ^ 32) :
    (a ||| b <<< k).toNat = a.toNat + 2 ^ k * b.toNat := by
  rw [BitVec.toNat_or, BitVec.toNat_shiftLeft, Nat.shiftLeft_eq, Nat.mul_comm b.toNat, Nat.mod_eq_of_lt hb, Nat.or_comm,
    ← Nat.two_pow_add_eq_or_of_lt ha, Nat.add_comm]

theorem toNat_setWidth_word {n : Nat} (x : BitVec n) (hn : n ≤ 32) : (x.setWidth 32).toNat = x.toNat := by
  rw [BitVec.toNat_setWidth, Nat.mod_eq_of_lt]
  exact x.isLt.trans_le (Nat.pow_le_pow_right (by decide) hn)

theorem toNat_flag (b : Bool) : ((BitVec.ofBool b).setWidth 32).toNat = b.toNat := by
  cases b <;> rfl

/-- STATUS (R27). -/
theorem statusWord_toNat (s : State) : (statusWord s).toNat =
    (modeNumber s.mode).toNat + 2 ^ 3 * s.geomv.toNat + 2 ^ 8 * s.errs.toNat + 2 ^ 16 * s.wslack.toNat
      + 2 ^ 17 * s.wmark.toNat := by
  have hm := (modeNumber s.mode).isLt
  have he := s.errs.isLt
  have hg := Bool.toNat_le s.geomv
  have hs := Bool.toNat_le s.wslack
  have hk := Bool.toNat_le s.wmark
  have fm := toNat_setWidth_word (modeNumber s.mode) (by decide)
  have fe := toNat_setWidth_word s.errs (by decide)
  have fg := toNat_flag s.geomv
  have fs := toNat_flag s.wslack
  have fk := toNat_flag s.wmark
  have h3 := toNat_or_shiftLeft (k := 3) (a := (modeNumber s.mode).setWidth 32)
    (b := (BitVec.ofBool s.geomv).setWidth 32) (by omega) (by omega)
  have h8 := toNat_or_shiftLeft (k := 8) (b := s.errs.setWidth 32) (by rw [h3]; omega) (by omega)
  have h16 := toNat_or_shiftLeft (k := 16) (b := (BitVec.ofBool s.wslack).setWidth 32) (by rw [h8]; omega) (by omega)
  have h17 := toNat_or_shiftLeft (k := 17) (b := (BitVec.ofBool s.wmark).setWidth 32) (by rw [h16]; omega) (by omega)
  rw [statusWord, h17, h16, h8, h3, fm, fg, fe, fs, fk]

/-- RAWST (R29). -/
theorem rawImage_toNat (rb : Byte) (rct : BitVec 4) (lastff : Bool) :
    (rawImage rb rct lastff).toNat = rb.toNat + 2 ^ 8 * rct.toNat + 2 ^ 12 * lastff.toNat := by
  have hb := rb.isLt
  have hc := rct.isLt
  have hl := Bool.toNat_le lastff
  have fb := toNat_setWidth_word rb (by decide)
  have fc := toNat_setWidth_word rct (by decide)
  have fl := toNat_flag lastff
  have h8 := toNat_or_shiftLeft (k := 8) (a := rb.setWidth 32) (b := rct.setWidth 32) (by omega) (by omega)
  have h12 := toNat_or_shiftLeft (k := 12) (b := (BitVec.ofBool lastff).setWidth 32) (by rw [h8]; omega) (by omega)
  rw [rawImage, h12, h8, fb, fc, fl]

theorem orientNumber_eq_orientCode (o : Orientation) : orientNumber o = orientCode o := by cases o <;> rfl

theorem orientCode_le (o : Orientation) : orientCode o ≤ 3 := by cases o <;> decide

/-- GEOM (R24, R29): W - 1 and H - 1 fit ten bits for the sides that R24 allows. -/
theorem geomImage_toNat {w h : Nat} (o : Orientation) (hw : w ≤ 1024) (hh : h ≤ 1024) :
    (geomImage w h o).toNat = (w - 1) + 2 ^ 10 * (h - 1) + 2 ^ 20 * orientCode o := by
  have ho := orientCode_le o
  have number : ∀ n : Nat, n < 2 ^ 10 → (BitVec.ofNat 32 n).toNat = n := fun n hn => by
    rw [BitVec.toNat_ofNat]; omega
  have fw := number (w - 1) (by omega)
  have fh := number (h - 1) (by omega)
  have fo := number (orientCode o) (by omega)
  have h10 := toNat_or_shiftLeft (k := 10) (a := BitVec.ofNat 32 (w - 1)) (b := BitVec.ofNat 32 (h - 1)) (by omega)
    (by omega)
  have h20 := toNat_or_shiftLeft (k := 20) (b := BitVec.ofNat 32 (orientCode o)) (by rw [h10]; omega) (by omega)
  rw [geomImage, orientNumber_eq_orientCode, h20, h10, fw, fh, fo]

/-- CX[k] (R29). -/
theorem contextImage_toNat (x : Context) : (contextImage x).toNat = x.i.toNat + 2 ^ 8 * x.mps.toNat := by
  have hi := x.i.isLt
  have hm := Bool.toNat_le x.mps
  have fi := toNat_setWidth_word x.i (by decide)
  have fm := toNat_flag x.mps
  rw [contextImage, toNat_or_shiftLeft (by omega) (by omega), fi, fm]

/-- CMT[i] (R81). -/
theorem cmtImage_toNat (r : CmtRow) : (cmtImage r).toNat =
    r.qe.toNat + 2 ^ 16 * r.nmps.toNat + 2 ^ 22 * r.nlps.toNat + 2 ^ 28 * r.switch.toNat := by
  have hq := r.qe.isLt
  have hn := r.nmps.isLt
  have hl := r.nlps.isLt
  have hs := Bool.toNat_le r.switch
  have fq := toNat_setWidth_word r.qe (by decide)
  have fn := toNat_setWidth_word r.nmps (by decide)
  have fl := toNat_setWidth_word r.nlps (by decide)
  have fs := toNat_flag r.switch
  have h16 := toNat_or_shiftLeft (k := 16) (a := r.qe.setWidth 32) (b := r.nmps.setWidth 32) (by omega) (by omega)
  have h22 := toNat_or_shiftLeft (k := 22) (b := r.nlps.setWidth 32) (by rw [h16]; omega) (by omega)
  have h28 := toNat_or_shiftLeft (k := 28) (b := (BitVec.ofBool r.switch).setWidth 32) (by rw [h22]; omega) (by omega)
  rw [cmtImage, h28, h22, h16, fq, fn, fl, fs]

/-- BP and NUMBYTES are integers, taken modulo 2^32 (R16, R29). -/
theorem ofInt_word_toNat (z : Int) : ((BitVec.ofInt 32 z).toNat : Int) = z % 2 ^ 32 := by
  rw [BitVec.toNat_ofInt]
  omega

/-- Settles O25, image by image. -/
theorem registerImagesAsLaidOut : Obligations.RegisterImagesAsLaidOut :=
  ⟨rfl, rfl, rfl, rfl, rfl, rfl, rfl, rfl, rfl, rfl, fun s =>
    ⟨statusWord_toNat s, ofInt_word_toNat s.bp, ofInt_word_toNat (s.bp - s.startAddr.toNat),
      toNat_setWidth_word s.a (by decide), rfl, toNat_setWidth_word s.ct (by decide), rawImage_toNat s.rb s.rct s.lastff,
      fun _ hw _ hh => geomImage_toNat s.orient hw hh, fun k => contextImage_toNat s.cx[k],
      fun i => cmtImage_toNat (cmtRow (BitVec.ofNat 6 i))⟩⟩

end Sys2Proof.Machine

/-! ## What the encoders write to CB -/

namespace Sys2Proof.Machine

@[simp] theorem finish_done {α : Type} (v : α) (t : State) (last : α → State → State) :
    finish (.done v t) last = last v t := rfl

/-- A property that the encoders keep: it stands while CB stays and BP does not move down, and through a store at or beyond
BP; the phantom byte at BP is stored to by no encoder (R111), and the raw encoder has none. -/
structure StoreKeeps (P : State → Prop) : Prop where
  regs : ∀ s t, CodingFrame s t → t.cb = s.cb → s.bp ≤ t.bp → P s → P t
  planes : ∀ s f, P s → P (s.setFp f)
  store : ∀ (s : State) (address : Int) (v : Byte), s.bp ≤ address → address < s.endAddr.toNat →
    s.bp < address ∨ s.mode = .rawenc ∨ atPhantom s = false → P s → P (s.setCb (s.cb.write address.toNat v))

section

variable {P : State → Prop}

theorem StoreKeeps.storeByte (c : StoreKeeps P) {address : Int} (v : Byte) {s : State} (hle : s.bp ≤ address)
    (hph : s.bp < address ∨ s.mode = .rawenc ∨ atPhantom s = false) (hs : P s) :
    (storeByte address v s).All P := by
  rcases storeByte_cases address v s with ⟨hlt, h⟩ | ⟨-, h⟩ <;> rw [h]
  · exact c.store s address v hle hlt hph hs
  · exact hs

/-- Registers other than BP are free. -/
theorem StoreKeeps.of_regs (c : StoreKeeps P) {s t : State} (hs : P s) (hf : CodingFrame s t) (hcb : t.cb = s.cb)
    (hbp : t.bp = s.bp) : P t := c.regs s t hf hcb hbp.ge hs

theorem StoreKeeps.putByte (c : StoreKeeps P) (v : Word) {s : State} (hs : P s) : (putByte v s).All P := by
  rcases putByte_cases v s with ⟨hlt, h⟩ | ⟨-, h⟩ <;> rw [h]
  · exact c.regs _ _ rfl rfl (by simp) (c.store s (s.bp + 1) (v.setWidth 8) (by omega) hlt (.inl (by omega)) hs)
  · exact hs

theorem StoreKeeps.putStuffed (c : StoreKeeps P) {s : State} (hs : P s) : (putStuffed s).All P :=
  Run.all_bind (c.putByte _ hs) fun _ _ ht => c.of_regs ht rfl rfl rfl

theorem StoreKeeps.putPlain (c : StoreKeeps P) {s : State} (hs : P s) : (putPlain s).All P :=
  Run.all_bind (c.putByte _ hs) fun _ _ ht => c.of_regs ht rfl rfl rfl

theorem StoreKeeps.carryIntoLast (c : StoreKeeps P) {s : State} (hs : P s) : (carryIntoLast s).All P := by
  unfold Machine.carryIntoLast
  split
  case isTrue => exact hs
  case isFalse hph => exact c.storeByte _ le_rfl (.inr (.inr (Bool.eq_false_iff.2 hph))) hs

theorem StoreKeeps.byteOut (c : StoreKeeps P) {s : State} (hs : P s) : (byteOut s).All P := by
  unfold Machine.byteOut
  dsimp only
  split
  case isTrue => exact c.putStuffed hs
  case isFalse =>
    split
    case isTrue => exact c.putPlain hs
    case isFalse =>
      refine Run.all_bind (c.carryIntoLast hs) fun _ t ht => ?_
      split
      case isTrue => exact c.putStuffed (c.of_regs ht rfl rfl rfl)
      case isFalse => exact c.putPlain ht

theorem StoreKeeps.encoderRound (c : StoreKeeps P) {s : State} (hs : P s) : (encoderRound s).All P := by
  have hshift : P (shiftUp s) := c.of_regs hs (shiftUp_encoderFrame s).coding rfl rfl
  unfold Machine.encoderRound
  split
  case isTrue => exact c.byteOut hshift
  case isFalse => exact hshift

theorem StoreKeeps.renormEncoder (c : StoreKeeps P) (n : Nat) {s : State} (hs : P s) : (renormEncoder n s).All P := by
  induction n generalizing s with
  | zero => exact hs
  | succ n ih =>
    rw [Machine.renormEncoder]
    refine Run.all_bind (c.encoderRound hs) fun _ t ht => ?_
    split
    case isTrue => exact ih ht
    case isFalse => exact ht

theorem StoreKeeps.encodeDecision (c : StoreKeeps P) (k : Label) (d : Bool) {s : State} (hs : P s) :
    (encodeDecision k d s).All P := by
  have regs : ∀ t, CodingFrame s t → t.cb = s.cb → t.bp = s.bp → P t := fun t => c.of_regs hs
  unfold Machine.encodeDecision
  split
  case isTrue =>
    unfold codeMps
    dsimp only
    split
    case isTrue => refine c.renormEncoder _ (regs _ ?_ ?_ ?_) <;> split <;> rfl
    case isFalse => exact regs _ rfl rfl rfl
  case isFalse =>
    unfold codeLps
    dsimp only
    refine c.renormEncoder _ (regs _ ?_ ?_ ?_) <;> split <;> rfl

theorem setBits_bp (s : State) : (setBits s).bp = s.bp := by
  unfold setBits
  dsimp only
  split <;> rfl

theorem setBits_cb (s : State) : (setBits s).cb = s.cb := by
  unfold setBits
  dsimp only
  split <;> rfl

theorem StoreKeeps.flushEncoder (c : StoreKeeps P) {s : State} (hs : P s) : (flushEncoder s).All P := by
  have hset : P (setBits s) := c.of_regs hs (setBits_frame s).coding (setBits_cb s) (setBits_bp s)
  have shifted : ∀ t, P t → P (shiftOut t) := fun t ht => c.of_regs ht (shiftOut_frame t).coding rfl rfl
  refine Run.all_bind (c.byteOut (shifted _ hset)) fun _ t ht => Run.all_bind (c.byteOut (shifted _ ht)) fun _ u hu => ?_
  split
  case isTrue => exact hu
  case isFalse => exact c.regs u _ rfl rfl (by simp) hu

/-- RB with the bit of RAWENC in its place (R134). -/
def rawPacked (d : Bool) (s : State) : Byte := s.rb ||| (BitVec.ofBool d).setWidth 8 <<< (s.rct - 1).toNat

/-- RAWENC of a bit that does not fill the byte (R134). -/
theorem rawEncodeBit_pack (d : Bool) {s : State} (h : s.rct ≠ 1) :
    rawEncodeBit d s = .done () (s.setRaw (rawPacked d s) (s.rct - 1)) := if_neg (by bv_omega)

/-- RAWENC of the last bit of a byte is the store of that byte, and the start of the next one (R134). -/
theorem rawEncodeBit_full (d : Bool) {s : State} (h : s.rct = 1) :
    rawEncodeBit d s = (storeByte s.bp (rawPacked d s) (s.setRaw (rawPacked d s) 0)).bind fun _ t =>
      .done () (((t.setLastff (rawPacked d s == 0xFF)).setRaw 0 (if rawPacked d s = 0xFF then 7 else 8)).setBp
        (s.bp + 1)) := by
  have h0 : s.rct - 1 = 0 := by rw [h]; rfl
  rw [← h0]
  exact if_pos h0

/-- A store of the raw encoder at BP, after which BP moves on. -/
theorem StoreKeeps.rawStore (c : StoreKeeps P) (b : Byte) {s : State} (hm : s.mode = .rawenc) (hs : P s)
    {last : State → State} (hl : ∀ t, CodingFrame t (last t) ∧ (last t).cb = t.cb ∧ (last t).bp = s.bp + 1) :
    ((Machine.storeByte s.bp b (s.setRaw b 0)).bind fun _ t => .done () (last t)).All P := by
  have hraw : P (s.setRaw b 0) := c.of_regs hs rfl rfl rfl
  rcases storeByte_cases s.bp b (s.setRaw b 0) with ⟨hlt, h⟩ | ⟨-, h⟩ <;> rw [h]
  · obtain ⟨hf, hcb, hbp⟩ := hl ((s.setRaw b 0).setCb (s.cb.write s.bp.toNat b))
    refine c.regs _ _ hf hcb ?_ (c.store _ s.bp b le_rfl hlt (.inr (.inl hm)) hraw)
    exact hbp ▸ Int.le_add_one le_rfl
  · exact hraw

theorem StoreKeeps.rawEncodeBit (c : StoreKeeps P) (d : Bool) {s : State} (hm : s.mode = .rawenc) (hs : P s) :
    (rawEncodeBit d s).All P := by
  by_cases h1 : s.rct = 1
  · rw [rawEncodeBit_full d h1]
    exact c.rawStore _ hm hs fun _ => ⟨rfl, rfl, rfl⟩
  · rw [rawEncodeBit_pack d h1]
    exact c.of_regs hs rfl rfl rfl

/-- RAWFLUSH with bits that wait is the store of the padded byte (R135). -/
theorem rawFlush_padded {s : State} (h : s.rct ≠ if s.lastff then 7 else 8) :
    rawFlush s = (storeByte s.bp (padByte s.rct.toNat false s.rb) (s.setRaw (padByte s.rct.toNat false s.rb) 0)).bind
      fun _ t => .done () (((t.setBp (s.bp + 1)).setRaw 0 8).setLastff false) := by
  unfold rawFlush
  dsimp only
  rw [if_pos h]
  cases storeByte s.bp (padByte s.rct.toNat false s.rb) (s.setRaw (padByte s.rct.toNat false s.rb) 0) <;> rfl

/-- RAWFLUSH without bits that wait stores nothing, and drops a final 0xFF (R135). -/
theorem rawFlush_empty {s : State} (h : s.rct = if s.lastff then 7 else 8) :
    ∃ bp, rawFlush s = .done () (((s.setBp bp).setRaw 0 8).setLastff false) := by
  unfold rawFlush
  dsimp only
  rw [if_neg (not_not.2 h)]
  split
  · exact ⟨s.bp - 1, rfl⟩
  · exact ⟨s.bp, rfl⟩

theorem StoreKeeps.rawFlush (c : StoreKeeps P) {s : State} (h : s.rct ≠ if s.lastff then 7 else 8)
    (hm : s.mode = .rawenc) (hs : P s) : (rawFlush s).All P := by
  rw [rawFlush_padded h]
  exact c.rawStore _ hm hs fun _ => ⟨rfl, rfl, rfl⟩

/-! ### Passes -/

theorem isDecoding_of_encoding {s : State} (hm : s.mode = .enc ∨ s.mode = .rawenc) : isDecoding s = false := by
  rcases hm with h | h <;> simp [isDecoding, h]

/-- In encode direction a pass keeps what its coder keeps, since it writes FP besides and nothing else (R163 to R165). -/
theorem StoreKeeps.pass (c : StoreKeeps P) (s : State) (hm : s.mode = .enc ∨ s.mode = .rawenc) :
    PassKeeps s.w s.h (DuringPass P s) := by
  have hi : s.mode ≠ .idle := by rcases hm with h | h <;> simp [h]
  have hf : s.mode ≠ .fault := by rcases hm with h | h <;> simp [h]
  have encoding : ∀ t, PassFrame s t → t.mode = .enc ∨ t.mode = .rawenc := fun t h => by rwa [h.mode.1]
  have noCp : ∀ t, isDecoding t = true → ¬ PassFrame s t := fun t hd h => by
    rw [isDecoding_of_encoding (encoding t h)] at hd
    exact Bool.false_ne_true hd
  refine ⟨fun _ h => h.2.mode.2, fun k v t ha h => ?_, fun v t ha h => ?_, fun _ _ _ _ _ _ h => ?_,
    fun _ _ _ _ _ h => ?_, fun _ _ _ _ _ h => ?_, fun _ _ _ _ t _ _ hd h => absurd h.2 (noCp t hd),
    fun _ _ _ t _ _ hd h => absurd h.2 (noCp t hd)⟩
  · refine Run.all_and ?_ ((passFrame_keeps s hi hf).label k v t ha h.2)
    have hd : t.mode ≠ .dec := by rcases encoding t h.2 with h | h <;> simp [h]
    rw [codeLabel, if_neg hd]
    exact Run.all_bind (c.encodeDecision k v h.1) fun _ _ h => h
  · refine Run.all_and ?_ ((passFrame_keeps s hi hf).raw v t ha h.2)
    have he : t.mode = .rawenc := (encoding t h.2).resolve_left fun he => by simp [isArithmetic, he] at ha
    rw [codeRaw, if_neg (by simp [he])]
    exact Run.all_bind (c.rawEncodeBit v he h.1) fun _ _ h => h
  all_goals exact ⟨c.planes _ _ h.1, h.2.setFp _⟩

end

/-! ### Commands -/

/-- The CB of `t` is what the stores of an encoder that runs from `s` leave, or what the fault then leaves of it (R233). -/
def CbStored (s t : State) : Prop :=
  ∀ P, StoreKeeps P → P s → ∃ u, P u ∧ (t.cb = u.cb ∨ t.cb = u.cb.forget u.startAddr.toNat u.endAddr.toNat u.draws)

theorem cbStored_finish {α : Type} {s : State} {r : Run α} {last : α → State → State}
    (hr : ∀ P, StoreKeeps P → P s → r.All P) (hl : ∀ v t, (last v t).cb = t.cb) : CbStored s (finish r last) :=
  fun P c hs => by
    have := hr P c hs
    cases r with
    | done v u => exact ⟨u, this, .inl (hl v u)⟩
    | overflow u => exact ⟨u, this, .inr rfl⟩

/-- A pass in decode direction leaves CB alone (R41). -/
theorem PassFrame.cb {s t : State} (h : PassFrame s t) (hm : s.mode = .dec ∨ s.mode = .rawdec) : t.cb = s.cb := by
  have hf := h.1
  unfold CoderFrame DecoderFrame RawDecoderFrame at hf
  rcases hm with hm | hm <;> rw [hm, State.ext_iff] at hf <;> simp_all

theorem DecoderFrame.cb {s t : State} (h : DecoderFrame s t) : t.cb = s.cb := by
  unfold DecoderFrame at h
  rw [h]

theorem RawDecoderFrame.cb {s t : State} (h : RawDecoderFrame s t) : t.cb = s.cb := by
  unfold RawDecoderFrame at h
  rw [h]

theorem SegmentFrame.cb {s t : State} (h : SegmentFrame s t) : t.cb = s.cb := by
  unfold SegmentFrame at h
  rw [h]

/-- In decode direction no coder overflows, so a pass runs to its end (R163 to R165). -/
theorem passDecoding_ends (s : State) (hm : s.mode = .dec ∨ s.mode = .rawdec) :
    PassEnds s.w s.h (PassFrame s) fun _ => False := by
  have hi : s.mode ≠ .idle := by rcases hm with h | h <;> simp [h]
  have hf : s.mode ≠ .fault := by rcases hm with h | h <;> simp [h]
  have keeps := passFrame_keeps s hi hf
  have decoding : ∀ t, PassFrame s t → t.mode = .dec ∨ t.mode = .rawdec := fun t h => by rwa [h.mode.1]
  refine ⟨keeps.size, fun k v t ha h => ?_, fun v t ha h => ?_, keeps.significant, keeps.visited, keeps.refined,
    keeps.magnitude, keeps.sign⟩
  · have hd : t.mode = .dec := (decoding t h).resolve_right fun hd => by simp [isArithmetic, hd] at ha
    have hall := keeps.label k v t ha h
    rw [codeLabel, if_pos hd] at hall ⊢
    exact hall
  · have hd : t.mode = .rawdec := (decoding t h).resolve_left fun hd => by simp [isArithmetic, hd] at ha
    have hall := keeps.raw v t ha h
    rw [codeRaw, if_pos hd] at hall ⊢
    exact hall

/-- A pass ends with the CB it began with, or with what an encoder stored. -/
theorem passCb_cases {s : State} {r : Run Unit} (hi : s.mode ≠ .idle) (hf : s.mode ≠ .fault)
    (hdec : s.mode = .dec ∨ s.mode = .rawdec → r.Ends (PassFrame s) fun _ => False)
    (henc : s.mode = .enc ∨ s.mode = .rawenc → ∀ P, StoreKeeps P → P s → r.All (DuringPass P s)) :
    (finish r fun _ t => t.answer Response.ok).cb = s.cb
      ∨ (s.mode = .enc ∨ s.mode = .rawenc) ∧ CbStored s (finish r fun _ t => t.answer Response.ok) := by
  by_cases hm : s.mode = .enc ∨ s.mode = .rawenc
  · exact .inr ⟨hm, cbStored_finish (fun P c hs => Run.all_imp (fun _ h => h.1) (henc hm P c hs)) fun _ _ => rfl⟩
  · have hm' : s.mode = .dec ∨ s.mode = .rawdec := by cases h : s.mode <;> simp_all
    have hends := hdec hm'
    cases r with
    | done _ t => exact .inl (hends.cb hm')
    | overflow t => exact hends.elim

/-- ALL that a command can do to CB: nothing, or in an encoding mode the stores of the encoder (R41, R57). -/
theorem exec_cb_cases {i : Instr} {s t : State} (h : exec i s = .next t) :
    t.cb = s.cb ∨ (s.mode = .enc ∨ s.mode = .rawenc) ∧ CbStored s t := by
  rcases exec_cases i s t h with ⟨e, -, rfl⟩ | hr
  · exact .inl rfl
  cases i
  case nop => exact .inl (hr ▸ rfl)
  case cxreset => exact .inl (hr.2 ▸ rfl)
  case clrstat =>
    dsimp only at hr
    rw [hr]
    split <;> exact .inl rfl
  case wrreg => rcases hr with ⟨-, rfl⟩ | ⟨-, rfl⟩ <;> exact .inl rfl
  case rdreg => obtain ⟨d, v, rfl⟩ := hr; exact .inl rfl
  case initdec => obtain ⟨-, -, rfl⟩ := hr; exact .inl (startDecoder_frame s).cb
  case decode => obtain ⟨-, k, -, rfl⟩ := hr; exact .inl (decodeDecision_frame k s).cb
  case finishdec => exact .inl (hr.2 ▸ rfl)
  case termchk => rcases hr with ⟨-, ⟨v, rfl⟩ | ⟨v, rfl⟩ | rfl⟩ <;> exact .inl rfl
  case initenc => obtain ⟨-, -, rfl⟩ := hr; exact .inl (startEncoder_frame s).cb
  case encode =>
    obtain ⟨hm, k, -, rfl⟩ := hr
    exact .inr ⟨.inl hm, cbStored_finish (fun P c hs => c.encodeDecision k _ hs) fun _ _ => rfl⟩
  case flushenc =>
    obtain ⟨hm, rfl⟩ := hr
    exact .inr ⟨.inl hm, cbStored_finish (fun P c hs => c.flushEncoder hs) fun _ _ => rfl⟩
  case rawinitdec => obtain ⟨-, -, rfl⟩ := hr; exact .inl (startRawDecoder_frame s).cb
  case rawdec => obtain ⟨-, rfl⟩ := hr; exact .inl (rawDecodeBit_frame s).cb
  case rawinitenc => obtain ⟨-, -, rfl⟩ := hr; exact .inl (startRawEncoder_frame s).cb
  case rawenc =>
    obtain ⟨hm, rfl⟩ := hr
    exact .inr ⟨.inr hm, cbStored_finish (fun P c hs => c.rawEncodeBit _ hm hs) fun _ _ => rfl⟩
  case rawflush =>
    obtain ⟨hm, rfl⟩ := hr
    by_cases hfull : s.rct = if s.lastff then 7 else 8
    · obtain ⟨bp, h⟩ := rawFlush_empty hfull
      simp [h, State.answer]
    · exact .inr ⟨.inr hm, cbStored_finish (fun P c hs => c.rawFlush hfull hm hs) fun _ _ => rfl⟩
  case cbinit wm1 hm1 o clr =>
    obtain ⟨-, -, rfl⟩ := hr
    obtain ⟨u, m, h⟩ := loadGeometry_eq wm1 hm1 o clr s
    simp [h, State.answer]
  case sigpass p =>
    obtain ⟨⟨hi, hf⟩, -, -, rfl⟩ := hr
    exact passCb_cases hi hf (fun hm => (passDecoding_ends s hm).significancePass p s (.refl s))
      fun hm P c hs => (c.pass s hm).significancePass p s ⟨hs, .refl s⟩
  case refpass p =>
    obtain ⟨⟨hi, hf⟩, -, -, rfl⟩ := hr
    exact passCb_cases hi hf (fun hm => (passDecoding_ends s hm).refinementPass p s (.refl s))
      fun hm P c hs => (c.pass s hm).refinementPass p s ⟨hs, .refl s⟩
  case clnpass p =>
    obtain ⟨hm, -, -, rfl⟩ := hr
    obtain ⟨hi, hf⟩ := ne_idle_ne_fault hm
    exact passCb_cases hi hf
      (fun hd => (passDecoding_ends s hd).cleanupPass (fun _ h => isArithmetic_of_passFrame hm h) (fun _ h => h.setFp _) p
        s (.refl s))
      fun he P c hs => (c.pass s he).cleanup hm (fun _ h => c.planes _ _ h) p hs

end Sys2Proof.Machine
/-! ## Every step keeps the canonical form -/

namespace Sys2Proof.Machine

/-- CP and FP stand in their canonical form. -/
def PlanesCanonical (s : State) : Prop := s.cp.wf = true ∧ s.fp.wf = true

theorem memoriesCanonical_iff {s : State} : MemoriesCanonical s ↔ s.cb.wf = true ∧ PlanesCanonical s := Iff.rfl

theorem PlanesCanonical.of_eq {s t : State} (hs : PlanesCanonical s) (hcp : t.cp = s.cp) (hfp : t.fp = s.fp) :
    PlanesCanonical t := by rwa [PlanesCanonical, hcp, hfp]

theorem PlanesCanonical.answer {s : State} (hs : PlanesCanonical s) (r : Response) : PlanesCanonical (s.answer r) := hs

/-- No coder writes CP or FP. -/
theorem PlanesCanonical.of_coding {s t : State} (hs : PlanesCanonical s) (h : CodingFrame s t) : PlanesCanonical t := by
  unfold CodingFrame at h
  rw [h]
  exact hs

theorem CoderFrame.planes {s t : State} (h : CoderFrame s t) (hs : PlanesCanonical s) : PlanesCanonical t :=
  hs.of_coding h.coding

theorem codeLabel_planes (k : Label) (v : Bool) {s : State} (ha : isArithmetic s = true) (hs : PlanesCanonical s) :
    (codeLabel k v s).All PlanesCanonical :=
  Run.all_imp (fun _ h => h.planes hs) (codeLabel_coderFrame k v s ha)

/-- A visit writes FP and CP cell by cell, and each such write keeps the canonical form. -/
theorem passPlanes_keeps (s : State) (hi : s.mode ≠ .idle) (hf : s.mode ≠ .fault) :
    PassKeeps s.w s.h (DuringPass PlanesCanonical s) where
  size _ h := h.2.mode.2
  label k v t ha h := Run.all_and (codeLabel_planes k v ha h.1) ((passFrame_keeps s hi hf).label k v t ha h.2)
  raw v t ha h :=
    Run.all_and
      (Run.all_imp (fun _ g => g.planes h.1) (codeRaw_coderFrame v t (h.2.mode.1 ▸ hi) (h.2.mode.1 ▸ hf) ha))
      ((passFrame_keeps s hi hf).raw v t ha h.2)
  significant _ _ _ _ _ _ h := ⟨⟨h.1.1, Cells.wf_write h.1.2 _ _⟩, h.2.setFp _⟩
  visited _ _ _ _ _ h := ⟨⟨h.1.1, Cells.wf_write h.1.2 _ _⟩, h.2.setFp _⟩
  refined _ _ _ _ _ h := ⟨⟨h.1.1, Cells.wf_write h.1.2 _ _⟩, h.2.setFp _⟩
  magnitude _ _ _ _ _ _ _ hd h := ⟨⟨Memory.wf_write h.1.1 _ _, h.1.2⟩, h.2.setCp _ hd⟩
  sign _ _ _ _ _ _ hd h := ⟨⟨Memory.wf_write h.1.1 _ _, h.1.2⟩, h.2.setCp _ hd⟩

theorem clearVisited_planes {s : State} (h : PlanesCanonical s) : PlanesCanonical (clearVisited s) :=
  ⟨h.1, Cells.wf_masked h.2⟩

theorem SegmentFrame.planes {s t : State} (h : SegmentFrame s t) (hs : PlanesCanonical s) : PlanesCanonical t := by
  unfold SegmentFrame at h
  rw [h]
  exact hs

/-- CBINIT leaves FP with nothing listed, and CP as it was or with a range cleared (R162). -/
theorem loadGeometry_planes {s : State} (hs : PlanesCanonical s) (wm1 hm1 : Nat) (o : Orientation) (clr : Bool) :
    PlanesCanonical (loadGeometry wm1 hm1 o clr s) := by
  cases clr
  · exact ⟨hs.1, rfl⟩
  · exact ⟨Memory.wf_zeroRange hs.1 0 _, rfl⟩

theorem planes_finish {α : Type} {P : State → Prop} {r : Run α} {last : α → State → State} (hr : r.All P)
    (hP : ∀ t, P t → PlanesCanonical t) (hl : ∀ v t, PlanesCanonical t → PlanesCanonical (last v t)) :
    PlanesCanonical (finish r last) :=
  finish_of_all hr (fun v t ht => hl v t (hP t ht)) fun t ht => (hP t ht).of_eq rfl rfl

theorem exec_planesCanonical {i : Instr} {s t : State} (h : exec i s = .next t) (hs : PlanesCanonical s) :
    PlanesCanonical t := by
  rcases exec_cases i s t h with ⟨e, -, rfl⟩ | hr
  · exact hs
  cases i
  case nop => exact hr ▸ hs
  case cxreset => exact hr.2 ▸ hs
  case clrstat =>
    dsimp only at hr
    rw [hr]
    split
    · exact ⟨hs.1, rfl⟩
    · exact hs
  case wrreg => rcases hr with ⟨-, rfl⟩ | ⟨-, rfl⟩ <;> exact hs
  case rdreg => obtain ⟨d, v, rfl⟩ := hr; exact hs
  case initdec => obtain ⟨-, -, rfl⟩ := hr; exact (startDecoder_frame s).planes hs
  case decode => obtain ⟨-, k, -, rfl⟩ := hr; exact (hs.of_coding (decodeDecision_frame k s).coding).answer _
  case finishdec => obtain ⟨-, rfl⟩ := hr; exact hs
  case termchk => rcases hr with ⟨-, ⟨v, rfl⟩ | ⟨v, rfl⟩ | rfl⟩ <;> exact hs
  case initenc => obtain ⟨-, -, rfl⟩ := hr; exact (startEncoder_frame s).planes hs
  case encode =>
    obtain ⟨-, k, -, rfl⟩ := hr
    exact planes_finish (encodeDecision_frame k _ s) (fun _ h => hs.of_coding h.coding) fun _ _ h => h
  case flushenc =>
    obtain ⟨-, rfl⟩ := hr
    exact planes_finish (flushEncoder_frame s) (fun _ h => hs.of_coding h.coding) fun _ _ h => h
  case rawinitdec => obtain ⟨-, -, rfl⟩ := hr; exact (startRawDecoder_frame s).planes hs
  case rawdec => obtain ⟨-, rfl⟩ := hr; exact (hs.of_coding (rawDecodeBit_frame s).coding).answer _
  case rawinitenc => obtain ⟨-, -, rfl⟩ := hr; exact (startRawEncoder_frame s).planes hs
  case rawenc =>
    obtain ⟨-, rfl⟩ := hr
    exact planes_finish (rawEncodeBit_frame _ s) (fun _ h => hs.of_coding h.coding) fun _ _ h => h
  case rawflush =>
    obtain ⟨-, rfl⟩ := hr
    exact planes_finish (rawFlush_frame s) (fun _ h => hs.of_coding h.coding) fun _ _ h => h
  case cbinit wm1 hm1 o clr => obtain ⟨-, -, rfl⟩ := hr; exact loadGeometry_planes hs wm1 hm1 o clr
  case sigpass p =>
    obtain ⟨⟨hi, hf⟩, -, -, rfl⟩ := hr
    exact planes_finish ((passPlanes_keeps s hi hf).significancePass p s ⟨hs, .refl s⟩) (fun _ h => h.1) fun _ _ h => h
  case refpass p =>
    obtain ⟨⟨hi, hf⟩, -, -, rfl⟩ := hr
    exact planes_finish ((passPlanes_keeps s hi hf).refinementPass p s ⟨hs, .refl s⟩) (fun _ h => h.1) fun _ _ h => h
  case clnpass p =>
    obtain ⟨hm, -, -, rfl⟩ := hr
    obtain ⟨hi, hf⟩ := ne_idle_ne_fault hm
    exact planes_finish ((passPlanes_keeps s hi hf).cleanup hm (fun _ h => clearVisited_planes h) p hs) (fun _ h => h.1)
      fun _ _ h => h

theorem storeKeeps_cbCanonical : StoreKeeps fun s => s.cb.wf = true where
  regs _ _ _ hcb _ h := by rwa [hcb]
  planes _ _ h := h
  store _ _ _ _ _ _ h := Memory.wf_write h _ _

theorem CbStored.wf {s t : State} (h : CbStored s t) (hs : s.cb.wf = true) : t.cb.wf = true := by
  obtain ⟨u, hu, h | h⟩ := h _ storeKeeps_cbCanonical hs <;> rw [h]
  · exact hu
  · exact Memory.wf_forget hu _ _ _

theorem exec_memoriesCanonical {i : Instr} {s t : State} (h : exec i s = .next t) (hs : MemoriesCanonical s) :
    MemoriesCanonical t := by
  obtain ⟨hcb, hplanes⟩ := memoriesCanonical_iff.1 hs
  refine memoriesCanonical_iff.2 ⟨?_, exec_planesCanonical h hplanes⟩
  rcases exec_cb_cases h with hsame | ⟨-, hstored⟩
  · rwa [hsame]
  · exact hstored.wf hcb

theorem resetEvent_memoriesCanonical {s : State} (hs : MemoriesCanonical s) : MemoriesCanonical (resetEvent s) :=
  ⟨hs.1, Memory.wf_forget hs.2.1 0 s.params.maxarea s.draws, rfl⟩

/-- Settles O8: whatever the next action of the host is, it writes CB, CP and FP by operations of the memories that keep the
canonical form. -/
theorem stepKeepsMemoriesCanonical : Obligations.StepKeepsMemoriesCanonical := by
  intro s t hs h
  unfold step at h
  split at h
  · cases h; exact hs
  · rename_i rest _
    have hs' : MemoriesCanonical (s.setInbox rest) := hs
    split at h
    · exact exec_memoriesCanonical h hs'
    · cases h; exact hs'
  · unfold hostWriteCb at h
    split at h <;> cases h
    exact ⟨Memory.wf_write hs.1 _ _, hs.2⟩
  · unfold hostWriteCp at h
    split at h <;> cases h
    exact ⟨hs.1, Memory.wf_write hs.2.1 _ _, hs.2.2⟩
  · rename_i rest _
    have hs' : MemoriesCanonical (s.setInbox rest) := hs
    cases h
    exact resetEvent_memoriesCanonical hs'
  · rename_i rest _
    cases h
    exact abandonCommand_memories_wf (s := s.setInbox rest) hs.1 hs.2.1 _ _ _

/-! ## No byte outside the window is written -/

/-- What an encoder that runs from `s` keeps: the window, BP not below the byte that it may still change, and every byte
outside the window. -/
def WindowStores (s t : State) : Prop :=
  t.startAddr = s.startAddr ∧ t.endAddr = s.endAddr ∧ (s.startAddr.toNat : Int) - 1 ≤ t.bp
    ∧ (t.mode = .rawenc → (s.startAddr.toNat : Int) ≤ t.bp) ∧ BytesOutsideWindowKept s t

theorem CodingFrame.window {s t : State} (h : CodingFrame s t) : t.startAddr = s.startAddr ∧ t.endAddr = s.endAddr := by
  unfold CodingFrame at h
  rw [h]
  exact ⟨rfl, rfl⟩

theorem BytesOutsideWindowKept.of_cb {s t u : State} (h : BytesOutsideWindowKept s t) (hcb : u.cb = t.cb) :
    BytesOutsideWindowKept s u := fun a ha => hcb ▸ h a ha

theorem BytesOutsideWindowKept.write {s t u : State} (h : BytesOutsideWindowKept s t) {address : Int} {v : Byte}
    (hlo : s.startAddr.toNat ≤ address) (hhi : address < s.endAddr.toNat)
    (hcb : u.cb = t.cb.write address.toNat v) : BytesOutsideWindowKept s u := fun a ha => by
  rw [hcb, Memory.read_write, if_neg (by omega), h a ha]

theorem storeKeeps_windowStores (s : State) : StoreKeeps (WindowStores s) where
  regs t u hf hcb hbp h := by
    obtain ⟨hst, hen, hlo, hraw, hkept⟩ := h
    obtain ⟨hst', hen'⟩ := hf.window
    refine ⟨hst'.trans hst, hen'.trans hen, hlo.trans hbp, fun hm => ?_, hkept.of_cb hcb⟩
    exact (hraw (hf.mode ▸ hm)).trans hbp
  planes _ _ h := h
  store t address v hle hlt hph h := by
    obtain ⟨hst, hen, hlo, hraw, hkept⟩ := h
    refine ⟨hst, hen, hlo, hraw, hkept.write ?_ (hen ▸ hlt) rfl⟩
    rcases hph with hup | hm | hph
    · omega
    · exact (hraw hm).trans hle
    · have hne : t.bp ≠ (s.startAddr.toNat : Int) - 1 := by simpa [atPhantom, hst] using hph
      omega

theorem windowStores_self {s : State} (hs : CoderBounds s) (hm : s.mode = .enc ∨ s.mode = .rawenc) : WindowStores s s := by
  rcases hm with hm | hm
  · obtain ⟨-, -, -, -, -, -, hlo, -⟩ := (coderBounds_iff_enc hm).1 hs
    exact ⟨rfl, rfl, hlo, fun h => by simp [hm] at h, fun _ _ => rfl⟩
  · obtain ⟨-, -, -, hlo, -⟩ := (coderBounds_iff_rawenc hm).1 hs
    exact ⟨rfl, rfl, by omega, fun _ => hlo, fun _ _ => rfl⟩

/-- Settles O19: an encoder stores at BP or above it, from START on and below END, and the fault forgets the window alone. -/
theorem noCommandWritesOutsideTheWindow : Obligations.NoCommandWritesOutsideTheWindow := by
  intro s t i hs h
  rcases exec_cb_cases h with hsame | ⟨hm, hstored⟩
  · exact fun a _ => by rw [hsame]
  · obtain ⟨u, ⟨hst, hen, -, -, hkept⟩, hcb⟩ := hstored _ (storeKeeps_windowStores s) (windowStores_self hs hm)
    rcases hcb with hcb | hcb
    · exact hkept.of_cb hcb
    · intro a ha
      rw [hcb, Memory.read_forget, hst, hen, if_neg (by omega), hkept a ha]

end Sys2Proof.Machine

/-! ## What the decoders read of CB -/

namespace Sys2Proof.Machine

/-- The memory holds the same bytes as CB in the segment that runs. -/
def AgreesInWindow (m : Memory 8) (s : State) : Prop :=
  ∀ a : Nat, s.startAddr.toNat ≤ a → a < s.endAddr.toNat → m.read a = s.cb.read a

section

variable {m : Memory 8} {s : State}

theorem AgreesInWindow.of_eq {t : State} (h : AgreesInWindow m s) (hst : t.startAddr = s.startAddr)
    (hen : t.endAddr = s.endAddr) (hcb : t.cb = s.cb) : AgreesInWindow m t := by
  rwa [AgreesInWindow, hst, hen, hcb]

theorem AgreesInWindow.of_decoder {t : State} (h : AgreesInWindow m s) (hf : DecoderFrame s t) : AgreesInWindow m t :=
  h.of_eq hf.coding.window.1 hf.coding.window.2 hf.cb

theorem AgreesInWindow.of_rawDecoder {t : State} (h : AgreesInWindow m s) (hf : RawDecoderFrame s t) :
    AgreesInWindow m t := h.of_eq hf.coding.window.1 hf.coding.window.2 hf.cb

/-! ### MQ decoder -/

/-- `fetch` reads CB in the window alone: at and beyond END it does not look at it (R43). -/
theorem fetchByte_setCb {address : Int} (h : AgreesInWindow m s) (hst : s.startAddr.toNat ≤ address) :
    fetchByte (s.setCb m) address = fetchByte s address := by
  unfold fetchByte
  rw [State.setCb_endAddr, State.setCb_cb]
  split
  case isTrue hlt => exact h address.toNat (by omega) (by omega)
  case isFalse => rfl

theorem byteIn_setCb (h : AgreesInWindow m s) (hst : s.startAddr.toNat ≤ s.bp) :
    byteIn (s.setCb m) = (byteIn s).setCb m := by
  have hcur : fetchByte (s.setCb m) s.bp = fetchByte s s.bp := fetchByte_setCb h hst
  have hnext : fetchByte (s.setCb m) (s.bp + 1) = fetchByte s (s.bp + 1) := fetchByte_setCb h (by omega)
  unfold byteIn
  dsimp only [State.setCb_bp, State.setCb_c, State.setCb_eoscnt]
  rw [hcur, hnext]
  split_ifs <;> rfl

theorem decoderRound_setCb (h : AgreesInWindow m s) (hst : s.startAddr.toNat ≤ s.bp) :
    decoderRound (s.setCb m) = (decoderRound s).setCb m := by
  unfold decoderRound
  rw [State.setCb_ct, byteIn_setCb h hst]
  split <;> rfl

theorem renormDecoder_setCb (n : Nat) (h : AgreesInWindow m s) (hc : DecoderCursor s) :
    renormDecoder n (s.setCb m) = (renormDecoder n s).setCb m := by
  induction n generalizing s with
  | zero => rfl
  | succ n ih =>
    rw [renormDecoder, renormDecoder, decoderRound_setCb h hc.2.1, State.setCb_a]
    split
    · exact ih (h.of_decoder (decoderRound_frame s)) (decoderRound_cursor hc)
    · rfl

theorem lpsExchange_setCb (k : Label) (q : BitVec 16) :
    lpsExchange k q (s.setCb m) = ((lpsExchange k q s).1, (lpsExchange k q s).2.setCb m) := by
  unfold lpsExchange
  rw [State.setCb_a]
  split <;> rfl

theorem mpsExchange_setCb (k : Label) (q : BitVec 16) :
    mpsExchange k q (s.setCb m) = ((mpsExchange k q s).1, (mpsExchange k q s).2.setCb m) := by
  unfold mpsExchange
  rw [State.setCb_a]
  split <;> rfl

theorem decodeDecision_setCb (k : Label) (h : AgreesInWindow m s) (hc : DecoderCursor s) :
    decodeDecision k (s.setCb m) = ((decodeDecision k s).1, (decodeDecision k s).2.setCb m) := by
  have renormed : ∀ t, DecoderFrame s t → DecoderCursor t →
      renormDecoder maxShifts (t.setCb m) = (renormDecoder maxShifts t).setCb m :=
    fun t hf => renormDecoder_setCb maxShifts (h.of_decoder hf)
  have hsel : selectedRow k (s.setCb m) = selectedRow k s := rfl
  have hred : ∀ a, (s.setCb m).setA a = (s.setA a).setCb m := fun _ => rfl
  have hup : ∀ a c, ((s.setA a).setCb m).setC c = ((s.setA a).setC c).setCb m := fun _ _ => rfl
  unfold decodeDecision
  dsimp only
  rw [hsel, State.setCb_c, State.setCb_a, hred, hup, State.setCb_a]
  split
  case isTrue =>
    rw [lpsExchange_setCb]
    exact congrArg (Prod.mk _) (renormed _ (lpsExchange_frame k _ (s.setA _)) (lpsExchange_cursor hc))
  case isFalse =>
    split
    case isTrue =>
      rw [mpsExchange_setCb]
      exact congrArg (Prod.mk _) (renormed _ (mpsExchange_frame k _ ((s.setA _).setC _)) (mpsExchange_cursor hc))
    case isFalse => rfl

/-! ### Raw decoder -/

theorem rawRefill_setCb (h : AgreesInWindow m s) (hst : s.startAddr.toNat ≤ s.bp) :
    rawRefill (s.setCb m) = (rawRefill s).setCb m := by
  have hnext : fetchByte (s.setCb m) s.bp = fetchByte s s.bp := fetchByte_setCb h hst
  unfold rawRefill
  dsimp only
  rw [State.setCb_bp, State.setCb_rb, hnext]
  split_ifs <;> rfl

theorem rawDecodeBit_setCb (h : AgreesInWindow m s) (hst : s.startAddr.toNat ≤ s.bp) :
    rawDecodeBit (s.setCb m) = ((rawDecodeBit s).1, (rawDecodeBit s).2.setCb m) := by
  unfold rawDecodeBit
  rw [State.setCb_rct, rawRefill_setCb h hst]
  split <;> rfl

end

/-! ### Two runs that differ in CB -/

/-- `r'` ends as `r` does, in a state that differs from that of `r` in CB alone; `P` holds where `r` ends. -/
def Run.EndsOver {α : Type} (P : State → Prop) (m : Memory 8) (r r' : Run α) : Prop :=
  ∃ v t, r = .done v t ∧ r' = .done v (t.setCb m) ∧ P t

theorem Run.endsOver_done {α : Type} {P : State → Prop} {m : Memory 8} {v : α} {s : State} (hs : P s) :
    (Run.done v s).EndsOver P m (.done v (s.setCb m)) := ⟨v, s, rfl, rfl, hs⟩

theorem Run.endsOver_bind {α β : Type} {P P' : State → Prop} {m : Memory 8} {r r' : Run α} {f g : α → State → Run β}
    (hr : r.EndsOver P m r') (hf : ∀ v t, P t → (f v t).EndsOver P' m (g v (t.setCb m))) :
    (r.bind f).EndsOver P' m (r'.bind g) := by
  obtain ⟨v, t, rfl, rfl, ht⟩ := hr
  exact hf v t ht

theorem forEach_endsOver {α : Type} {P : State → Prop} {m : Memory 8} {visit : α → State → Run Unit} (xs : List α)
    (h : ∀ x s, P s → (visit x s).EndsOver P m (visit x (s.setCb m))) {s : State} (hs : P s) :
    (forEach visit xs s).EndsOver P m (forEach visit xs (s.setCb m)) := by
  induction xs generalizing s with
  | nil => exact Run.endsOver_done hs
  | cons x xs ih => exact Run.endsOver_bind (h x s hs) fun _ t ht => ih ht

/-- The states of a decoder in mode `d`, over which the memory agrees with CB in the segment. -/
def DecodingOver (m : Memory 8) (d : Mode) (s : State) : Prop := s.mode = d ∧ CoderBounds s ∧ AgreesInWindow m s

section

variable {m : Memory 8} {d : Mode} {s : State}

theorem DecodingOver.setFp (h : DecodingOver m d s) (f : Cells 4) : DecodingOver m d (s.setFp f) := h

theorem DecodingOver.setCp (h : DecodingOver m d s) (c : Memory 32) : DecodingOver m d (s.setCp c) := h

theorem codeLabel_endsOver (k : Label) (v : Bool) (h : DecodingOver m .dec s) :
    (codeLabel k v s).EndsOver (DecodingOver m .dec) m (codeLabel k v (s.setCb m)) := by
  obtain ⟨hm, hb, ha⟩ := h
  obtain ⟨-, -, hc⟩ := (coderBounds_iff_dec hm).1 hb
  have hf := decodeDecision_frame k s
  rw [codeLabel, codeLabel, if_pos hm, if_pos (by exact hm), decodeDecision_setCb k ha hc]
  exact Run.endsOver_done ⟨hf.coding.mode.trans hm, decodeDecision_coderBounds k hm hb, ha.of_decoder hf⟩

theorem codeRaw_endsOver (v : Bool) (h : DecodingOver m .rawdec s) :
    (codeRaw v s).EndsOver (DecodingOver m .rawdec) m (codeRaw v (s.setCb m)) := by
  obtain ⟨hm, hb, ha⟩ := h
  obtain ⟨-, -, hst, -⟩ := (coderBounds_iff_rawdec hm).1 hb
  have hf := rawDecodeBit_frame s
  rw [codeRaw, codeRaw, if_pos hm, if_pos (by exact hm), rawDecodeBit_setCb ha hst]
  exact Run.endsOver_done ⟨hf.coding.mode.trans hm, rawDecodeBit_coderBounds hm hb, ha.of_rawDecoder hf⟩

theorem isArithmetic_of_decoding (hd : d = .dec ∨ d = .rawdec) (h : DecodingOver m d s) :
    (isArithmetic s = true ∧ d = .dec) ∨ (isArithmetic s = false ∧ d = .rawdec) := by
  rcases hd with rfl | rfl <;> simp [isArithmetic, h.1]

/-- The planes are the same, so the labels and the decisions of the scanner are. -/
theorem codeSymbol_endsOver (hd : d = .dec ∨ d = .rawdec) (k : Label) (v : Bool) (h : DecodingOver m d s) :
    (codeSymbol k v s).EndsOver (DecodingOver m d) m (codeSymbol k v (s.setCb m)) := by
  have hsame : isArithmetic (s.setCb m) = isArithmetic s := rfl
  rw [codeSymbol, codeSymbol, hsame]
  rcases isArithmetic_of_decoding hd h with ⟨ha, rfl⟩ | ⟨ha, rfl⟩ <;> rw [ha]
  · exact codeLabel_endsOver k v h
  · exact codeRaw_endsOver v h

theorem codeSign_endsOver (hd : d = .dec ∨ d = .rawdec) (x y : Nat) (h : DecodingOver m d s) :
    (codeSign x y s).EndsOver (DecodingOver m d) m (codeSign x y (s.setCb m)) := by
  have hsame : isArithmetic (s.setCb m) = isArithmetic s := rfl
  rw [codeSign, codeSign, hsame]
  rcases isArithmetic_of_decoding hd h with ⟨ha, rfl⟩ | ⟨ha, rfl⟩ <;> rw [ha]
  · exact Run.endsOver_bind (codeLabel_endsOver _ _ h) fun _ _ ht => Run.endsOver_done ht
  · exact codeRaw_endsOver _ h

theorem signify_endsOver (hd : d = .dec ∨ d = .rawdec) (x y p : Nat) (h : DecodingOver m d s) :
    (signify x y p s).EndsOver (DecodingOver m d) m (signify x y p (s.setCb m)) := by
  refine Run.endsOver_bind (codeSign_endsOver hd x y h) fun neg t ht => ?_
  have hsame : isDecoding (t.setCb m) = isDecoding t := rfl
  dsimp only
  rw [hsame]
  split
  · exact Run.endsOver_done (((ht.setFp _).setCp _).setCp _)
  · exact Run.endsOver_done (ht.setFp _)

theorem codeSignificance_endsOver (hd : d = .dec ∨ d = .rawdec) (x y p : Nat) (h : DecodingOver m d s) :
    (codeSignificance x y p s).EndsOver (DecodingOver m d) m (codeSignificance x y p (s.setCb m)) := by
  refine Run.endsOver_bind (codeSymbol_endsOver hd _ _ h) fun b t ht => ?_
  split
  · exact signify_endsOver hd x y p ht
  · exact Run.endsOver_done ht

theorem visitSignificance_endsOver (hd : d = .dec ∨ d = .rawdec) (p : Nat) (xy : Nat × Nat) (h : DecodingOver m d s) :
    (visitSignificance p xy s).EndsOver (DecodingOver m d) m (visitSignificance p xy (s.setCb m)) := by
  have hsame : (!isSignificant (s.setCb m) xy.1 xy.2 && !isVisited (s.setCb m) xy.1 xy.2
      && decide (0 < neighbours (s.setCb m) xy.1 xy.2))
      = (!isSignificant s xy.1 xy.2 && !isVisited s xy.1 xy.2 && decide (0 < neighbours s xy.1 xy.2)) := rfl
  rw [visitSignificance, visitSignificance, hsame]
  split
  · exact Run.endsOver_bind (codeSignificance_endsOver hd _ _ p h) fun _ t ht => Run.endsOver_done (ht.setFp _)
  · exact Run.endsOver_done h

theorem visitRefinement_endsOver (hd : d = .dec ∨ d = .rawdec) (p : Nat) (xy : Nat × Nat) (h : DecodingOver m d s) :
    (visitRefinement p xy s).EndsOver (DecodingOver m d) m (visitRefinement p xy (s.setCb m)) := by
  have hsame : (isSignificant (s.setCb m) xy.1 xy.2 && !isVisited (s.setCb m) xy.1 xy.2)
      = (isSignificant s xy.1 xy.2 && !isVisited s xy.1 xy.2) := rfl
  rw [visitRefinement, visitRefinement, hsame]
  split
  · refine Run.endsOver_bind (codeSymbol_endsOver hd _ _ h) fun b t ht => ?_
    have hdec : isDecoding (t.setCb m) = isDecoding t := rfl
    rw [hdec]
    split
    · exact Run.endsOver_done ((ht.setCp _).setFp _)
    · exact Run.endsOver_done (ht.setFp _)
  · exact Run.endsOver_done h

theorem cleanRows_endsOver (p k x j : Nat) (h : DecodingOver m .dec s) :
    (cleanRows p k x j s).EndsOver (DecodingOver m .dec) m (cleanRows p k x j (s.setCb m)) := by
  refine forEach_endsOver _ (fun y t ht => ?_) h
  have hsame : (!isSignificant (t.setCb m) x y && !isVisited (t.setCb m) x y)
      = (!isSignificant t x y && !isVisited t x y) := rfl
  rw [visitCleanup, visitCleanup, hsame]
  split
  · exact codeSignificance_endsOver (.inl rfl) x y p ht
  · exact Run.endsOver_done ht

theorem visitColumn_endsOver (p : Nat) (col : Nat × Nat) (h : DecodingOver m .dec s) :
    (visitColumn p col s).EndsOver (DecodingOver m .dec) m (visitColumn p col (s.setCb m)) := by
  have hsame : runEligible col.1 col.2 (s.setCb m) = runEligible col.1 col.2 s := rfl
  rw [visitColumn, visitColumn]
  dsimp only
  rw [hsame]
  split
  · refine Run.endsOver_bind (codeLabel_endsOver _ _ h) fun a t ht => ?_
    split
    · refine Run.endsOver_bind (codeLabel_endsOver _ _ ht) fun r1 t1 ht1 =>
        Run.endsOver_bind (codeLabel_endsOver _ _ ht1) fun r0 t0 ht0 =>
          Run.endsOver_bind (signify_endsOver (.inl rfl) _ _ p ht0) fun _ u hu => cleanRows_endsOver p _ _ _ hu
    · exact Run.endsOver_done ht
  · exact cleanRows_endsOver p _ _ 0 h

theorem significancePass_endsOver (hd : d = .dec ∨ d = .rawdec) (p : Nat) (h : DecodingOver m d s) :
    (significancePass p s).EndsOver (DecodingOver m d) m (significancePass p (s.setCb m)) :=
  forEach_endsOver _ (fun xy _ => visitSignificance_endsOver hd p xy) h

theorem refinementPass_endsOver (hd : d = .dec ∨ d = .rawdec) (p : Nat) (h : DecodingOver m d s) :
    (refinementPass p s).EndsOver (DecodingOver m d) m (refinementPass p (s.setCb m)) :=
  forEach_endsOver _ (fun xy _ => visitRefinement_endsOver hd p xy) h

theorem cleanupPass_endsOver (p : Nat) (h : DecodingOver m .dec s) :
    (cleanupPass p s).EndsOver (DecodingOver m .dec) m (cleanupPass p (s.setCb m)) :=
  Run.endsOver_bind (forEach_endsOver _ (fun col _ => visitColumn_endsOver p col) h) fun _ _ ht =>
    Run.endsOver_done (ht.setFp _)

end

end Sys2Proof.Machine

/-! ### Commands -/

namespace Sys2Proof.Machine

section

variable {m : Memory 8} {s : State}

/-- The command ends in the same state, but for the memory itself, when CB is replaced by `m`. -/
def IgnoresOutside (m : Memory 8) (i : Instr) (s : State) : Prop :=
  ∃ t, exec i s = .next t ∧ exec i (s.setCb m) = .next (t.setCb m)

/-- An admitted command does, and so does a refused one, since no check looks at CB. -/
theorem admitted_setCb {check : Option ErrorCode} {run : State → State}
    (hr : check = none → run (s.setCb m) = (run s).setCb m) :
    admitted check (s.setCb m) run = (admitted check s run).setCb m := by
  cases check with
  | none => exact hr rfl
  | some e => rfl

theorem ignoresOutside_of_admitted {i : Instr} {check : State → Option ErrorCode} {run : State → State}
    (hi : ∀ s, exec i s = .next (admitted (check s) s run)) (hc : check (s.setCb m) = check s)
    (hr : check s = none → run (s.setCb m) = (run s).setCb m) : IgnoresOutside m i s :=
  ⟨_, hi s, by rw [hi, hc, admitted_setCb hr]⟩

theorem finish_endsOver {P : State → Prop} {r r' : Run Unit} (h : r.EndsOver P m r') :
    (finish r' fun _ t => t.answer Response.ok) = (finish r fun _ t => t.answer Response.ok).setCb m := by
  obtain ⟨v, t, rfl, rfl, -⟩ := h
  rfl

/-- The window that an INIT command loads ends at SEGBASE + SEGLEN, or before it if the sum wraps (R42). -/
theorem loadWindow_agrees
    (h : ∀ a : Nat, s.segbase.toNat ≤ a → a < s.segbase.toNat + s.seglen.toNat → m.read a = s.cb.read a) (bp : Int) :
    AgreesInWindow m (loadWindow bp s) := by
  intro a hst hen
  have hen' : a < (s.segbase + s.seglen).toNat := hen
  rw [BitVec.toNat_add] at hen'
  exact h a hst (hen'.trans_le (Nat.mod_le _ _))

/-- The state in which INITDEC makes its first byte-in (R92). -/
def firstByteLoaded (s : State) : State :=
  ((loadWindow s.segbase.toNat s).setEoscnt 0).setC
    ((fetchByte (loadWindow s.segbase.toNat s) s.segbase.toNat).setWidth 32 <<< 16)

/-- The end of INITDEC after that byte-in (R92). -/
def decoderPrimed (t : State) : State :=
  ((((t.setC (t.c <<< 7)).setCt (t.ct - 7)).setA 0x8000).setMode .dec).setUnspec
    { t.unspec with mq := false, eoscnt := false }

theorem startDecoder_eq (s : State) : startDecoder s = decoderPrimed (byteIn (firstByteLoaded s)) := rfl

/-- INITDEC reads the first two bytes of the window it loads, no byte outside it (R42, R92). -/
theorem startDecoder_setCb
    (h : ∀ a : Nat, s.segbase.toNat ≤ a → a < s.segbase.toNat + s.seglen.toNat → m.read a = s.cb.read a) :
    startDecoder (s.setCb m) = (startDecoder s).setCb m := by
  have hwin := loadWindow_agrees h s.segbase.toNat
  have hfetch : fetchByte ((loadWindow s.segbase.toNat s).setCb m) s.segbase.toNat
      = fetchByte (loadWindow s.segbase.toNat s) s.segbase.toNat := fetchByte_setCb hwin le_rfl
  have hfirst : firstByteLoaded (s.setCb m) = (firstByteLoaded s).setCb m := by
    unfold firstByteLoaded
    rw [← hfetch]
    rfl
  have hfirstWin : AgreesInWindow m (firstByteLoaded s) := hwin.of_eq rfl rfl rfl
  rw [startDecoder_eq, startDecoder_eq, hfirst, byteIn_setCb hfirstWin le_rfl]
  rfl

/-- RDREG: no register holds a byte of CB (R29). -/
theorem readReg_setCb (r : PortReg) (free : Word) : readReg r free (s.setCb m) = readReg r free s := by
  cases r <;> rfl

theorem execRdreg_ignoresOutside (ra : Nat) : IgnoresOutside m (.rdreg ra) s := by
  simp only [IgnoresOutside, exec, execRdreg]
  split
  · refine ⟨_, rfl, ?_⟩
    rw [readReg_setCb, State.setCb_unspec]
    split <;> rfl
  · exact ⟨_, rfl, rfl⟩

theorem execTermchk_ignoresOutside : IgnoresOutside m .termchk s := by
  refine ignoresOutside_of_admitted (fun _ => rfl) rfl fun _ => ?_
  have hslack : slackBytes (s.setCb m) = slackBytes s := rfl
  rw [hslack, State.setCb_eoscnt]
  split_ifs <;> rfl

theorem mode_of_requireMode {md : Mode} (h : requireMode [md] s = none) : s.mode = md :=
  List.mem_singleton.1 (requireMode_eq_none.1 h)

/-- A command of another mode is refused. -/
theorem ignoresOutside_of_mode {i : Instr} {md : Mode} {run : State → State}
    (hi : ∀ s, exec i s = .next (admitted (requireMode [md] s) s run)) (hm : s.mode ≠ md) : IgnoresOutside m i s :=
  ignoresOutside_of_admitted hi rfl fun h => absurd (mode_of_requireMode h) hm

/-- Each command, in a decoding mode. -/
theorem exec_ignoresOutside (i : Instr) (hb : CoderBounds s) (hd : s.mode = .dec ∨ s.mode = .rawdec)
    (hwin : AgreesInWindow m s)
    (hseg : ∀ a : Nat, s.segbase.toNat ≤ a → a < s.segbase.toNat + s.seglen.toNat → m.read a = s.cb.read a) :
    IgnoresOutside m i s := by
  have hover : DecodingOver m s.mode s := ⟨rfl, hb, hwin⟩
  obtain ⟨henc, hrawenc, hfault⟩ : s.mode ≠ .enc ∧ s.mode ≠ .rawenc ∧ s.mode ≠ .fault := by
    rcases hd with h | h <;> simp [h]
  cases i
  case nop => exact ⟨_, rfl, rfl⟩
  case cxreset => exact ignoresOutside_of_admitted (fun _ => rfl) rfl fun _ => rfl
  case clrstat =>
    refine ⟨_, rfl, ?_⟩
    rw [exec, execClrstat, State.setCb_mode, if_neg hfault, if_neg hfault]
    rfl
  case wrreg ra v =>
    simp only [IgnoresOutside, exec, execWrreg]
    split <;> exact ⟨_, rfl, rfl⟩
  case rdreg ra => exact execRdreg_ignoresOutside ra
  case initdec =>
    refine ignoresOutside_of_admitted (fun _ => rfl) rfl fun _ => ?_
    rw [startDecoder_setCb hseg]
    rfl
  case decode cx =>
    refine ignoresOutside_of_admitted (fun _ => rfl) rfl fun h => ?_
    have hm : s.mode = .dec := mode_of_requireMode h
    obtain ⟨-, -, hc⟩ := (coderBounds_iff_dec hm).1 hb
    cases labelOf cx with
    | none => rfl
    | some k => dsimp only; rw [decodeDecision_setCb k hwin hc]; rfl
  case finishdec => exact ignoresOutside_of_admitted (fun _ => rfl) rfl fun _ => rfl
  case termchk => exact execTermchk_ignoresOutside
  case initenc => exact ignoresOutside_of_admitted (fun _ => rfl) rfl fun _ => rfl
  case encode => exact ignoresOutside_of_mode (fun _ => rfl) henc
  case flushenc => exact ignoresOutside_of_mode (fun _ => rfl) henc
  case rawinitdec => exact ignoresOutside_of_admitted (fun _ => rfl) rfl fun _ => rfl
  case rawdec =>
    refine ignoresOutside_of_admitted (fun _ => rfl) rfl fun h => ?_
    have hm : s.mode = .rawdec := mode_of_requireMode h
    obtain ⟨-, -, hst, -⟩ := (coderBounds_iff_rawdec hm).1 hb
    rw [rawDecodeBit_setCb hwin hst]
    rfl
  case rawinitenc => exact ignoresOutside_of_admitted (fun _ => rfl) rfl fun _ => rfl
  case rawenc => exact ignoresOutside_of_mode (fun _ => rfl) hrawenc
  case rawflush => exact ignoresOutside_of_mode (fun _ => rfl) hrawenc
  case cbinit wm1 hm1 o clr =>
    refine ignoresOutside_of_admitted (fun _ => rfl) rfl fun _ => ?_
    cases clr <;> rfl
  case sigpass p =>
    exact ignoresOutside_of_admitted (fun _ => rfl) rfl fun _ => finish_endsOver (significancePass_endsOver hd p hover)
  case refpass p =>
    exact ignoresOutside_of_admitted (fun _ => rfl) rfl fun _ => finish_endsOver (refinementPass_endsOver hd p hover)
  case clnpass p =>
    refine ignoresOutside_of_admitted (fun _ => rfl) rfl fun h => ?_
    obtain ⟨hmodes, -⟩ := passCheck_eq_none.1 h
    have hm : s.mode = .dec := by simpa [henc] using hmodes
    exact finish_endsOver (cleanupPass_endsOver p (hm ▸ hover))

end

/-- Settles O20: in the decoding modes CB is read by `fetch` alone, at addresses from START on, and INITDEC reads in the
window that it loads; so each coding procedure runs in the same way over both memories. -/
theorem decodersNeverReadOutsideTheSegment : Obligations.DecodersNeverReadOutsideTheSegment :=
  fun _ _ i hb hd hwin hseg => exec_ignoresOutside i hb hd hwin hseg

end Sys2Proof.Machine

/-! ## Steps that complete no command -/

namespace Sys2Proof.Machine

theorem step_nil {s : State} (h : s.inbox = []) : step s = .next s := by
  unfold step
  rw [h]

theorem step_writeCb {s : State} {a : Nat} {v : Byte} {rest : List HostAction} (h : s.inbox = .writeCb a v :: rest) :
    step s = hostWriteCb a v (s.setInbox rest) := by
  unfold step
  rw [h]

theorem step_writeCp {s : State} {n : Nat} {v : Word} {rest : List HostAction} (h : s.inbox = .writeCp n v :: rest) :
    step s = hostWriteCp n v (s.setInbox rest) := by
  unfold step
  rw [h]

theorem step_resetEvent {s : State} {rest : List HostAction} (h : s.inbox = .resetEvent :: rest) :
    step s = .next (resetEvent (s.setInbox rest)) := by
  unfold step
  rw [h]

theorem step_resetDuring {s : State} {cmd arg : Word} {n : Nat} {rest : List HostAction}
    (h : s.inbox = .resetDuring cmd arg n :: rest) :
    step s = .next (abandonCommand cmd arg n (s.setInbox rest)) := by
  unfold step
  rw [h]

/-- A command abandoned changes CB and CP at most, beside the reset event (R260). -/
theorem abandonCommand_frame (cmd arg : Word) (n : Nat) (s : State) :
    abandonCommand cmd arg n s =
      { resetEvent s with cb := (abandonCommand cmd arg n s).cb, cp := (abandonCommand cmd arg n s).cp } := by
  obtain ⟨ws, us, h⟩ := abandonCommand_eq cmd arg n s
  rw [h, resetAfterWrites_eq]

theorem abandonCommand_of_exec {cmd arg : Word} {i : Instr} {s t : State} (hd : decode cmd arg = .ok i)
    (ht : exec i (recordWrites s) = .next t) (n : Nat) :
    abandonCommand cmd arg n s = resetAfterWrites (t.cb.recorded.take n) (t.cp.recorded.take n) s := by
  unfold abandonCommand
  rw [hd]
  dsimp only
  rw [ht]

/-- Outside the encoding modes a command writes no byte of CB, so none is kept. -/
theorem abandonCommand_cb {s : State} (he : s.mode ≠ .enc) (hr : s.mode ≠ .rawenc) (cmd arg : Word) (n : Nat) :
    (abandonCommand cmd arg n s).cb = s.cb := by
  rcases abandonCommand_cases cmd arg n s with h | ⟨i, t, -, ht, h⟩ <;> rw [h]
  · rfl
  · have hcb : t.cb = s.cb.record := (exec_cb_cases ht).resolve_right fun hm => hm.1.elim he hr
    rw [hcb, Memory.recorded_record, List.take_nil]
    rfl

/-- RAWENC in its mode is admitted (R134). -/
theorem execRawenc_eq {s : State} (d : Bool) (hm : s.mode = .rawenc) :
    exec (.rawenc d) s = .next (finish (rawEncodeBit d s) fun _ t => t.answer Response.ok) := by
  have hc : requireMode [.rawenc] s = none := requireMode_eq_none.2 (List.mem_singleton.2 hm)
  rw [exec, execRawenc, hc, admitted_none]

/-- RAWENC of the last bit of a byte with room stores that byte (R134). -/
theorem execRawenc_stores {s : State} (d : Bool) (hm : s.mode = .rawenc) (hrct : s.rct = 1)
    (hlt : s.bp < s.endAddr.toNat) :
    ∃ t, exec (.rawenc d) s = .next t ∧ t.cb = s.cb.write s.bp.toNat (rawPacked d s) ∧ t.cp = s.cp := by
  refine ⟨_, execRawenc_eq d hm, ?_⟩
  rcases storeByte_cases s.bp (rawPacked d s) (s.setRaw (rawPacked d s) 0) with ⟨-, h⟩ | ⟨hge, -⟩
  · rw [rawEncodeBit_full d hrct, h]
    simp [State.answer]
  · exact absurd hge (not_le.2 hlt)

theorem rawPacked_last {s : State} (d : Bool) (hrct : s.rct = 1) :
    rawPacked d s = if d then s.rb ||| 1 else s.rb := by
  unfold rawPacked
  rw [hrct]
  cases d
  · exact BitVec.or_zero
  · rfl

theorem abandonCommand_rawenc {s : State} {cmd arg : Word} {d : Bool} {n : Nat} (hd : decode cmd arg = .ok (.rawenc d))
    (hm : s.mode = .rawenc) (hrct : s.rct = 1) (hbp : 0 ≤ s.bp) (hlt : s.bp < s.endAddr.toNat) (hn : 1 ≤ n) (a : Nat) :
    (abandonCommand cmd arg n s).cb.read a =
      if (a : Int) = s.bp then (if d then s.rb ||| 1 else s.rb) else s.cb.read a := by
  obtain ⟨t, ht, hcb, hcp⟩ := execRawenc_stores (s := recordWrites s) d hm hrct hlt
  have hwrites : t.cb.recorded = [(s.bp.toNat, rawPacked d s)] := by
    rw [hcb]
    exact Memory.recorded_write rfl _ _
  have htake : t.cb.recorded.take n = [(s.bp.toNat, rawPacked d s)] := by
    rw [hwrites]
    exact List.take_of_length_le hn
  rw [abandonCommand_of_exec hd ht, resetAfterWrites_eq, htake]
  show (s.cb.write s.bp.toNat (rawPacked d s)).read a = _
  rw [Memory.read_write, rawPacked_last d hrct]
  have hiff : a = s.bp.toNat ↔ (a : Int) = s.bp := by omega
  simp only [hiff]

/-- CBINIT with CLR = 1 clears the cells of CP in rising order (R162). -/
theorem execCbinit_clears {s : State} {wm1 hm1 : Nat} (o : Orientation) (hm : s.mode ≠ .fault)
    (ha : (wm1 + 1) * (hm1 + 1) ≤ s.params.maxarea) :
    ∃ t, exec (.cbinit wm1 hm1 o true) s = .next t ∧ t.cp = s.cp.zeroRange 0 ((wm1 + 1) * (hm1 + 1)) := by
  have hc : orElse (requireNotFault s) (areaCheck wm1 hm1 s) = none :=
    orElse_eq_none.2 ⟨requireNotFault_eq_none.2 hm, require_eq_none.2 (decide_eq_true ha)⟩
  refine ⟨_, rfl, ?_⟩
  rw [hc]
  rfl

theorem abandonCommand_cbinit {s : State} {cmd arg : Word} {wm1 hm1 n k : Nat} {o : Orientation}
    (hd : decode cmd arg = .ok (.cbinit wm1 hm1 o true)) (hm : s.mode ≠ .fault)
    (ha : (wm1 + 1) * (hm1 + 1) ≤ s.params.maxarea) (hkn : k < n) (hk : k < (wm1 + 1) * (hm1 + 1)) :
    (abandonCommand cmd arg n s).cp.read k = 0 := by
  obtain ⟨t, ht, hcp⟩ := execCbinit_clears (s := recordWrites s) o hm ha
  have hwrites : t.cp.recorded = (List.range' 0 ((wm1 + 1) * (hm1 + 1))).map fun a => (a, 0) := by
    rw [hcp]
    exact Memory.recorded_zeroRange rfl _ _
  rw [abandonCommand_of_exec hd ht, resetAfterWrites_eq, hwrites]
  refine Memory.read_writeAll_mem _ ?_ ?_
  · rw [← List.map_take, ← List.range_eq_range', List.take_range]
    exact List.mem_map.2 ⟨k, List.mem_range.2 (lt_min hkn hk), rfl⟩
  · intro w hw _
    obtain ⟨a, -, rfl⟩ := List.mem_map.1 (List.mem_of_mem_take hw)
    rfl

/-- The contexts after reset (R31, R83). -/
theorem initialContexts_getElem : ∀ k : Label, initialContexts[k] =
    if k.val = 18 then ⟨46, false⟩ else if k.val = 17 then ⟨3, false⟩ else if k.val = 0 then ⟨4, false⟩
      else ⟨0, false⟩ := by
  decide

/-- Settles O7, clause by clause: what `step` does with each action of the host but a command that completes. -/
theorem stepsThatRunNoCommand : Obligations.StepsThatRunNoCommand := by
  refine ⟨fun s => step_nil, fun s a v rest h => ?_, fun s n v rest h => ?_, fun s rest h => ?_,
    fun s cmd arg n rest h => ?_⟩
  · rw [step_writeCb h, hostWriteCb, State.setInbox_params]
    split
    · exact ⟨(s.setInbox rest).setCb (s.cb.write a v), rfl, rfl, fun b => Memory.read_write _ _ _ _⟩
    · rfl
  · rw [step_writeCp h, hostWriteCp, State.setInbox_params]
    split
    · exact ⟨(s.setInbox rest).setCp (s.cp.write n v), rfl, rfl, fun b => Memory.read_write _ _ _ _⟩
    · rfl
  · refine ⟨_, step_resetEvent h, rfl, rfl, rfl, rfl, rfl, rfl, rfl, initialContexts_getElem, rfl, rfl, rfl, rfl, rfl⟩
  · refine ⟨_, _, step_resetDuring h, step_resetEvent rfl, abandonCommand_frame _ _ _ _, ?_, ?_, ?_, ?_⟩
    · rintro rfl
      exact abandonCommand_zero _ _ _
    · exact fun he hr => abandonCommand_cb (s := s.setInbox rest) he hr _ _ _
    · exact fun d hd hm hrct hbp hlt hn => abandonCommand_rawenc (s := s.setInbox rest) hd hm hrct hbp hlt hn
    · exact fun wm1 hm1 o hd hm ha k => abandonCommand_cbinit (s := s.setInbox rest) hd hm ha

end Sys2Proof.Machine

/-! ## Faults of the encoders -/

namespace Sys2Proof.Machine

/-! ### Ends of a command that codes -/

theorem requireMode_self {md : Mode} {s : State} (hm : s.mode = md) : requireMode [md] s = none :=
  requireMode_eq_none.2 (List.mem_singleton.2 hm)

theorem execRawflush_eq {s : State} (hm : s.mode = .rawenc) :
    exec .rawflush s =
      .next (finish (rawFlush s) fun _ t => (t.setMode .idle).answer (Response.okValue (numBytes t))) := by
  rw [exec, execRawflush, requireMode_self hm, admitted_none]

theorem execFlushenc_eq {s : State} (hm : s.mode = .enc) :
    exec .flushenc s =
      .next (finish (flushEncoder s) fun _ t => (t.setMode .idle).answer (Response.okValue (numBytes t))) := by
  rw [exec, execFlushenc, requireMode_self hm, admitted_none]

theorem labelOf_of_lt {cx : Nat} (h : cx < 19) : labelOf cx = some ⟨cx, h⟩ := dif_pos h

theorem execEncode_eq {s : State} {cx : Nat} (hcx : cx < 19) (d : Bool) (hm : s.mode = .enc) :
    exec (.encode cx d) s = .next (finish (encodeDecision ⟨cx, hcx⟩ d s) fun _ t => t.answer Response.ok) := by
  rw [exec, execEncode, requireMode_self hm, admitted_none, labelOf_of_lt hcx]

theorem execSigpass_eq {s : State} {p : Nat} (hm : s.mode = .enc ∨ s.mode = .rawenc) (hp : p ≤ 29)
    (hg : s.geomv = true) :
    exec (.sigpass p) s = .next (finish (significancePass p s) fun _ t => t.answer Response.ok) := by
  have hc : passCheck [.dec, .enc, .rawdec, .rawenc] p s = none :=
    passCheck_eq_none.2 ⟨by rcases hm with h | h <;> simp [h], hp, hg⟩
  rw [exec, execSigpass, hc, admitted_none]

theorem execRefpass_eq {s : State} {p : Nat} (hm : s.mode = .enc ∨ s.mode = .rawenc) (hp : p ≤ 29)
    (hg : s.geomv = true) :
    exec (.refpass p) s = .next (finish (refinementPass p s) fun _ t => t.answer Response.ok) := by
  have hc : passCheck [.dec, .enc, .rawdec, .rawenc] p s = none :=
    passCheck_eq_none.2 ⟨by rcases hm with h | h <;> simp [h], hp, hg⟩
  rw [exec, execRefpass, hc, admitted_none]

theorem execClnpass_eq {s : State} {p : Nat} (hm : s.mode = .enc) (hp : p ≤ 29) (hg : s.geomv = true) :
    exec (.clnpass p) s = .next (finish (cleanupPass p s) fun _ t => t.answer Response.ok) := by
  have hc : passCheck [.dec, .enc] p s = none := passCheck_eq_none.2 ⟨by simp [hm], hp, hg⟩
  rw [exec, execClnpass, hc, admitted_none]

section

variable {α : Type} {i : Instr} {s : State} {r : Run α}

/-- An overflow is the fault (R233). -/
theorem faultsOn_of_overflow {last : α → State → State} (h : exec i s = .next (finish r last))
    (hr : ∃ v, r = .overflow v) : FaultsOn i s := by
  obtain ⟨v, rfl⟩ := hr
  exact ⟨_, h, rfl, rfl⟩

theorem completesOn_of_done (h : exec i s = .next (finish r fun _ t => t.answer Response.ok))
    (hr : ∃ v t, r = .done v t) : CompletesOn i s := by
  obtain ⟨v, t, rfl⟩ := hr
  exact ⟨_, h, Response.ok, rfl, rfl⟩

/-- A command that codes and answers without error where it ends faults exactly where it overflows. -/
theorem faultsOn_iff_overflow (h : exec i s = .next (finish r fun _ t => t.answer Response.ok)) :
    FaultsOn i s ↔ ∃ v, r = .overflow v := by
  refine ⟨?_, faultsOn_of_overflow h⟩
  rintro ⟨t, ht, -, he⟩
  cases r with
  | overflow v => exact ⟨v, rfl⟩
  | done v u =>
    obtain rfl : u.answer Response.ok = t := Host.Outcome.next.inj (h.symm.trans ht)
    exact absurd he (by simp [AnswersError, State.answer, Response.ok, Response.okValue, Response.error, errorNumber])

end

/-! ### Raw encoder and flush -/

theorem storeByte_overflow {address : Int} {v : Byte} {s : State} (h : (s.endAddr.toNat : Int) ≤ address) :
    storeByte address v s = .overflow s := if_neg (not_lt.2 h)

theorem rawEncodeBit_overflow (d : Bool) {s : State} (hrct : s.rct = 1) (h : (s.endAddr.toNat : Int) ≤ s.bp) :
    ∃ v, rawEncodeBit d s = .overflow v := by
  rw [rawEncodeBit_full d hrct, storeByte_overflow (by exact h)]
  exact ⟨_, rfl⟩

theorem rawFlush_overflow {s : State} (hrct : s.rct ≠ if s.lastff then 7 else 8)
    (h : (s.endAddr.toNat : Int) ≤ s.bp) : ∃ v, rawFlush s = .overflow v := by
  rw [rawFlush_padded hrct, storeByte_overflow (by exact h)]
  exact ⟨_, rfl⟩

/-- BYTEOUT overflows where the next byte has no room (R57, R116). -/
theorem byteOut_overflow {s : State} (h : (s.endAddr.toNat : Int) ≤ s.bp + 1) : ∃ v, byteOut s = .overflow v := by
  rcases byteOut_result s with ⟨m, c, hr⟩ | ⟨hlt, -⟩
  · exact ⟨_, hr⟩
  · exact absurd hlt (not_lt.2 h)

/-- The second BYTEOUT of the flush is one byte further on (R118). -/
theorem flushEncoder_overflow {s : State} (h : (s.endAddr.toNat : Int) ≤ s.bp + 2) :
    ∃ v, flushEncoder s = .overflow v := by
  have hend : (shiftOut (setBits s)).endAddr = s.endAddr := ((setBits_frame s).trans (shiftOut_frame _)).coding.window.2
  have hbp : (shiftOut (setBits s)).bp = s.bp := setBits_bp s
  have second : ∀ t : State, t.endAddr = s.endAddr → t.bp = s.bp + 1 → ∃ v, byteOut (shiftOut t) = .overflow v :=
    fun t hen' hbp' => byteOut_overflow (by show (t.endAddr.toNat : Int) ≤ t.bp + 1; rw [hen', hbp']; omega)
  unfold flushEncoder
  rcases byteOut_result (shiftOut (setBits s)) with ⟨m, c, hr⟩ | ⟨-, m, c, n, -, hr⟩ <;> rw [hr]
  · exact ⟨_, rfl⟩
  · obtain ⟨v, hv⟩ := second ((((((shiftOut (setBits s)).setCb m).setBp ((shiftOut (setBits s)).bp + 1)).setC c).setCt n))
      (by simp [hend]) (by simp [hbp])
    rw [Run.bind_done, hv]
    exact ⟨v, rfl⟩

/-! ### Passes -/

/-- Visits one after the other overflow exactly where one of them does, those before it done. -/
theorem forEach_overflow_iff {α : Type} {visit : α → State → Run Unit} {xs : List α} {s : State} :
    (∃ v, forEach visit xs s = .overflow v) ↔ ∃ before x after u v, xs = before ++ x :: after
      ∧ forEach visit before s = .done () u ∧ visit x u = .overflow v := by
  induction xs generalizing s with
  | nil => simp [forEach]
  | cons x xs ih =>
    rw [forEach]
    cases hx : visit x s with
    | overflow w =>
      refine ⟨fun _ => ⟨[], x, xs, s, w, rfl, rfl, hx⟩, fun _ => ⟨w, rfl⟩⟩
    | done _ t =>
      rw [Run.bind_done, ih]
      constructor
      · rintro ⟨before, y, after, u, v, rfl, hb, hy⟩
        exact ⟨x :: before, y, after, u, v, rfl, by rw [forEach, hx, Run.bind_done, hb], hy⟩
      · rintro ⟨before, y, after, u, v, hxs, hb, hy⟩
        cases before with
        | nil =>
          obtain ⟨rfl, -⟩ := List.cons.inj hxs
          cases hb
          rw [hx] at hy
          cases hy
        | cons z before =>
          obtain ⟨rfl, hrest⟩ := List.cons.inj hxs
          rw [forEach, hx, Run.bind_done] at hb
          exact ⟨before, y, after, u, v, hrest, hb, hy⟩

theorem cleanupPass_overflow_iff {p : Nat} {s : State} :
    (∃ v, cleanupPass p s = .overflow v) ↔ ∃ v, forEach (visitColumn p) (scanColumns s.w s.h) s = .overflow v := by
  unfold cleanupPass
  cases forEach (visitColumn p) (scanColumns s.w s.h) s <;> simp

theorem codeSymbol_overflow (k : Label) (v : Bool) {s : State} (hm : s.mode = .rawenc) (hrct : s.rct = 1)
    (h : (s.endAddr.toNat : Int) ≤ s.bp) : ∃ u, codeSymbol k v s = .overflow u := by
  obtain ⟨u, hu⟩ := rawEncodeBit_overflow v hrct h
  refine ⟨u, ?_⟩
  rw [codeSymbol, if_neg (by simp [isArithmetic, hm]), codeRaw, if_neg (by simp [hm]), hu, Run.bind_overflow]

theorem visitSignificance_overflow {s : State} {p x y : Nat} (hm : s.mode = .rawenc) (hrct : s.rct = 1)
    (h : (s.endAddr.toNat : Int) ≤ s.bp) (hvis : isVisited s x y = false) (hsig : isSignificant s x y = false)
    (hn : 0 < neighbours s x y) : ∃ v, visitSignificance p (x, y) s = .overflow v := by
  obtain ⟨u, hu⟩ := codeSymbol_overflow (zcLabelOf s x y) (magBit s x y p) hm hrct h
  exact ⟨u, by simp [visitSignificance, codeSignificance, hvis, hsig, hn, hu]⟩

theorem visitRefinement_overflow {s : State} {p x y : Nat} (hm : s.mode = .rawenc) (hrct : s.rct = 1)
    (h : (s.endAddr.toNat : Int) ≤ s.bp) (hvis : isVisited s x y = false) (hsig : isSignificant s x y = true) :
    ∃ v, visitRefinement p (x, y) s = .overflow v := by
  obtain ⟨u, hu⟩ := codeSymbol_overflow (mrLabelOf s x y) (magBit s x y p) hm hrct h
  exact ⟨u, by simp [visitRefinement, hvis, hsig, hu]⟩

end Sys2Proof.Machine

/-! ### The bytes that one renormalization of the encoder puts -/

namespace Sys2Proof.Machine

/-- What BYTEOUT reloads CT with (R116): 7 where the next byte follows a 0xFF, which a carry can have made. -/
def reloadedCt (s : State) : BitVec 4 :=
  if lastByte s = 0xFF ∨ (¬ s.c < 0x08000000 ∧ lastByte s + 1 = 0xFF) then 7 else 8

theorem reloadedCt_cases (s : State) : reloadedCt s = 7 ∨ reloadedCt s = 8 := by
  unfold reloadedCt
  split
  · exact .inl rfl
  · exact .inr rfl

theorem seven_le_reloadedCt (s : State) : 7 ≤ (reloadedCt s).toNat := by
  rcases reloadedCt_cases s with h | h <;> rw [h] <;> decide

theorem putStuffed_of_room {s : State} (h : s.bp + 1 < s.endAddr.toNat) :
    putStuffed s = .done () ((((s.setCb (s.cb.write (s.bp + 1).toNat ((s.c >>> 20).setWidth 8))).setBp (s.bp + 1)).setC
      (s.c &&& 0x000FFFFF)).setCt 7) := by
  rcases putByte_cases (s.c >>> 20) s with ⟨-, hp⟩ | ⟨hge, -⟩
  · rw [putStuffed, hp]
    rfl
  · exact absurd h (not_lt.2 hge)

theorem putPlain_of_room {s : State} (h : s.bp + 1 < s.endAddr.toNat) :
    putPlain s = .done () ((((s.setCb (s.cb.write (s.bp + 1).toNat ((s.c >>> 19).setWidth 8))).setBp (s.bp + 1)).setC
      (s.c &&& 0x0007FFFF)).setCt 8) := by
  rcases putByte_cases (s.c >>> 19) s with ⟨-, hp⟩ | ⟨hge, -⟩
  · rw [putPlain, hp]
    rfl
  · exact absurd h (not_lt.2 hge)

theorem carryIntoLast_of_room {s : State} (h : s.bp + 1 < s.endAddr.toNat) :
    ∃ m, carryIntoLast s = .done () (s.setCb m) := by
  unfold carryIntoLast
  split
  · exact ⟨s.cb, rfl⟩
  · exact ⟨_, if_pos (by omega)⟩

/-- BYTEOUT with room for the next byte puts it after a 0xFF or plainly, the carry made (R116). -/
theorem byteOut_arms {s : State} (h : s.bp + 1 < s.endAddr.toNat) : ∃ m,
    (reloadedCt s = 7 ∧ ∃ c, c.toNat ≤ s.c.toNat ∧ byteOut s = putStuffed ((s.setCb m).setC c))
      ∨ (reloadedCt s = 8 ∧ byteOut s = putPlain (s.setCb m)) := by
  obtain ⟨m, hcarry⟩ := carryIntoLast_of_room h
  have hmask : (s.c &&& 0x07FFFFFF).toNat ≤ s.c.toNat := by rw [BitVec.toNat_and]; exact Nat.and_le_left
  by_cases hff : lastByte s = 0xFF
  · exact ⟨s.cb, .inl ⟨if_pos (.inl hff), s.c, le_rfl, if_pos hff⟩⟩
  by_cases hlt : s.c < 0x08000000
  · exact ⟨s.cb, .inr ⟨if_neg fun h => h.elim hff fun h => h.1 hlt, (if_neg hff).trans (if_pos hlt)⟩⟩
  have harm : byteOut s = if lastByte s + 1 = 0xFF then putStuffed ((s.setCb m).setC (s.c &&& 0x07FFFFFF))
      else putPlain (s.setCb m) := by
    rw [byteOut, if_neg hff, if_neg hlt, hcarry]
    rfl
  by_cases hnext : lastByte s + 1 = 0xFF
  · exact ⟨m, .inl ⟨if_pos (.inr ⟨hlt, hnext⟩), _, hmask, harm.trans (if_pos hnext)⟩⟩
  · exact ⟨m, .inr ⟨if_neg fun h => h.elim hff fun h => hnext h.2, harm.trans (if_neg hnext)⟩⟩

/-- The byte that follows a 0xFF is below 0xFE, so that no byte is stuffed after it in turn (R116, R120). -/
theorem stuffedByte_lt {c : Word} (h : c.toNat < 2 ^ 27 + 2 ^ 24) : ((c >>> 20).setWidth 8 : Byte).toNat < 0xFE := by
  rw [BitVec.toNat_setWidth, BitVec.toNat_ushiftRight, Nat.shiftRight_eq_div_pow]
  omega

/-- BYTEOUT with room: BP moves to the next byte, and CT is reloaded (R116). -/
theorem byteOut_of_room {s : State} (h : s.bp + 1 < s.endAddr.toNat) :
    ∃ m c, byteOut s = .done () ((((s.setCb m).setBp (s.bp + 1)).setC c).setCt (reloadedCt s))
      ∧ (reloadedCt s = 7 → s.c.toNat < 2 ^ 27 + 2 ^ 24 → (m.read (s.bp + 1).toNat).toNat < 0xFE) := by
  obtain ⟨m, ⟨hct, c, hle, ho⟩ | ⟨hct, ho⟩⟩ := byteOut_arms h
  · refine ⟨m.write (s.bp + 1).toNat ((c >>> 20).setWidth 8), c &&& 0x000FFFFF, ?_, fun _ hc => ?_⟩
    · rw [ho, putStuffed_of_room (by exact h), hct]
      rfl
    · rw [Memory.read_write, if_pos rfl]
      exact stuffedByte_lt (hle.trans_lt hc)
  · refine ⟨m.write (s.bp + 1).toNat ((s.c >>> 19).setWidth 8), s.c &&& 0x0007FFFF, ?_, fun h7 _ => ?_⟩
    · rw [ho, putPlain_of_room (by exact h), hct]
      rfl
    · exact absurd (h7.symm.trans hct) (by decide)

/-! ### Rounds -/

/-- `n` shifts take A to 0x8000 or above, and none fewer do (R115). -/
def ShiftsDue (n : Nat) (a : BitVec 16) : Prop := (∀ j < n, a.toNat * 2 ^ j < 2 ^ 15) ∧ 2 ^ 15 ≤ a.toNat * 2 ^ n

theorem ShiftsDue.not_lt {a : BitVec 16} (h : ShiftsDue 0 a) : ¬ a < 0x8000 := by
  have hle : 2 ^ 15 ≤ a.toNat * 2 ^ 0 := h.2
  simp only [BitVec.lt_def]
  show ¬ a.toNat < 32768
  omega

theorem ShiftsDue.succ {n : Nat} {a : BitVec 16} (h : ShiftsDue (n + 1) a) :
    a.toNat < 2 ^ 15 ∧ ShiftsDue n (a <<< 1) := by
  obtain ⟨hlt, hle⟩ := h
  have h0 : a.toNat < 2 ^ 15 := by simpa using hlt 0 (Nat.succ_pos n)
  refine ⟨h0, fun j hj => ?_, ?_⟩ <;> rw [toNat_shiftLeft_one a h0, Nat.mul_assoc, ← Nat.pow_succ']
  · exact hlt (j + 1) (Nat.succ_lt_succ hj)
  · exact hle

theorem ShiftsDue.shifted {n : Nat} (k : Nat) {a : BitVec 16} (h : ShiftsDue (n + k) a) : ShiftsDue n (a <<< k) := by
  induction k generalizing a with
  | zero => simpa using h
  | succ k ih =>
    have := ih h.succ.2
    rwa [← BitVec.shiftLeft_add, Nat.add_comm 1 k] at this

/-- What is left of RENORME after a round (R115): at most `n` rounds more, if A is still below 0x8000. -/
def renormRest (n : Nat) (s : State) : Run Unit := if s.a < 0x8000 then renormEncoder n s else .done () s

theorem renormRest_of_lt {n : Nat} {s : State} (h : s.a < 0x8000) : renormRest n s = renormEncoder n s := if_pos h

theorem renormRest_zero {n : Nat} {s : State} (h : ShiftsDue 0 s.a) : renormRest n s = .done () s := if_neg h.not_lt

theorem renormRest_succ {n k : Nat} {s : State} (h : ShiftsDue (k + 1) s.a) :
    renormRest (n + 1) s = (encoderRound s).bind fun _ t => renormRest n t := if_pos h.succ.1

theorem encoderRound_byteOut {s : State} (h : s.ct.toNat = 1) : encoderRound s = byteOut (shiftUp s) :=
  if_pos (by rw [shiftUp_ct]; bv_omega)

theorem encoderRound_shift {s : State} (h : 1 < s.ct.toNat) : encoderRound s = .done () (shiftUp s) :=
  if_neg (by rw [shiftUp_ct]; bv_omega)

theorem shiftUp_ct_toNat {s : State} (h : 1 ≤ s.ct.toNat) : (shiftUp s).ct.toNat = s.ct.toNat - 1 := by
  rw [shiftUp_ct]
  bv_omega

/-- Fewer shifts than CT counts put no byte. -/
theorem renormRest_done {k n : Nat} {s : State} (hkn : k ≤ n) (hk : ShiftsDue k s.a) (hct : k < s.ct.toNat) :
    ∃ t, renormRest n s = .done () t := by
  induction k generalizing n s with
  | zero => exact ⟨s, renormRest_zero hk⟩
  | succ k ih =>
    obtain ⟨n, rfl⟩ : ∃ n', n = n' + 1 := ⟨n - 1, by omega⟩
    rw [renormRest_succ hk, encoderRound_shift (by omega), Run.bind_done]
    exact ih (by omega) hk.succ.2 (by rw [shiftUp_ct_toNat (by omega)]; omega)

/-- The shift that brings CT to 0 is followed by a byte-out. -/
theorem renormRest_byteOut {ct k n : Nat} {s : State} (hct : s.ct.toNat = ct + 1) (hk : ct + 1 ≤ k) (hkn : k ≤ n)
    (hs : ShiftsDue k s.a) :
    renormRest n s = (byteOut (shiftUp^[ct + 1] s)).bind fun _ t => renormRest (n - (ct + 1)) t := by
  induction ct generalizing k n s with
  | zero =>
    obtain ⟨k, rfl⟩ : ∃ k', k = k' + 1 := ⟨k - 1, by omega⟩
    obtain ⟨n, rfl⟩ : ∃ n', n = n' + 1 := ⟨n - 1, by omega⟩
    rw [renormRest_succ hs, encoderRound_byteOut hct]
    rfl
  | succ ct ih =>
    obtain ⟨k, rfl⟩ : ∃ k', k = k' + 1 := ⟨k - 1, by omega⟩
    obtain ⟨n, rfl⟩ : ∃ n', n = n' + 1 := ⟨n - 1, by omega⟩
    have hct' : (shiftUp s).ct.toNat = ct + 1 := by rw [shiftUp_ct_toNat (by omega)]; omega
    rw [renormRest_succ hs, encoderRound_shift (by omega), Run.bind_done,
      ih hct' (by omega) (by omega) hs.succ.2, ← Function.iterate_succ_apply, Nat.add_sub_add_right]

/-- What shifts alone do: A and C move up, and BP, CB and the window stay. -/
theorem shiftUp_iterate (n : Nat) (s : State) :
    (shiftUp^[n] s).a = s.a <<< n ∧ (shiftUp^[n] s).c = s.c <<< n ∧ (shiftUp^[n] s).bp = s.bp
      ∧ (shiftUp^[n] s).startAddr = s.startAddr ∧ (shiftUp^[n] s).endAddr = s.endAddr ∧ (shiftUp^[n] s).cb = s.cb := by
  induction n with
  | zero => simp
  | succ n ih =>
    obtain ⟨ha, hc, hrest⟩ := ih
    rw [Function.iterate_succ_apply', shiftUp_a, shiftUp_c, ha, hc, BitVec.shiftLeft_add, BitVec.shiftLeft_add]
    exact ⟨rfl, rfl, hrest⟩

/-- BYTEOUT looks at C, BP, START and CB alone to reload CT. -/
theorem reloadedCt_congr {s t : State} (hc : t.c = s.c) (hbp : t.bp = s.bp) (hst : t.startAddr = s.startAddr)
    (hcb : t.cb = s.cb) : reloadedCt t = reloadedCt s := by
  unfold reloadedCt lastByte atPhantom
  rw [hc, hbp, hst, hcb]

theorem lastByte_lt {s : State} (h : (s.cb.read s.bp.toNat).toNat < 0xFE) : (lastByte s).toNat < 0xFE := by
  unfold lastByte
  split
  · decide
  · exact h

theorem reloadedCt_eq_eight {s : State} (h : (lastByte s).toNat < 0xFE) : reloadedCt s = 8 := by
  have hne : lastByte s ≠ 0xFF := fun he => by rw [he] at h; exact absurd h (by decide)
  have hne' : lastByte s + 1 ≠ 0xFF := by bv_omega
  exact if_neg fun h => h.elim hne fun h => hne' h.2

section

variable {k n : Nat} {s : State}

theorem renormRest_overflow (hct : 1 ≤ s.ct.toNat) (hk : s.ct.toNat ≤ k) (hkn : k ≤ n) (hs : ShiftsDue k s.a)
    (h : (s.endAddr.toNat : Int) ≤ s.bp + 1) : ∃ v, renormRest n s = .overflow v := by
  obtain ⟨ct, hct'⟩ : ∃ ct, s.ct.toNat = ct + 1 := ⟨s.ct.toNat - 1, by omega⟩
  obtain ⟨-, -, hbp, -, hen, -⟩ := shiftUp_iterate (ct + 1) s
  obtain ⟨v, hv⟩ : ∃ v, byteOut (shiftUp^[ct + 1] s) = .overflow v := byteOut_overflow (by rwa [hbp, hen])
  exact ⟨v, by rw [renormRest_byteOut hct' (by omega) hkn hs, hv, Run.bind_overflow]⟩

/-- With room for it, the first byte is put, and the renormalization goes on with CT reloaded. -/
theorem renormRest_of_room (hct : 1 ≤ s.ct.toNat) (hk : s.ct.toNat ≤ k) (hkn : k ≤ n) (hs : ShiftsDue k s.a)
    (h : s.bp + 1 < s.endAddr.toNat) :
    ∃ u, renormRest n s = renormRest (n - s.ct.toNat) u ∧ ShiftsDue (k - s.ct.toNat) u.a
      ∧ u.ct = reloadedCt (s.setC (s.c <<< s.ct.toNat)) ∧ u.bp = s.bp + 1 ∧ u.endAddr = s.endAddr
      ∧ (u.ct = 7 → (s.c <<< s.ct.toNat).toNat < 2 ^ 27 + 2 ^ 24 → (lastByte u).toNat < 0xFE) := by
  obtain ⟨ct, hct'⟩ : ∃ ct, s.ct.toNat = ct + 1 := ⟨s.ct.toNat - 1, by omega⟩
  rw [hct'] at hk ⊢
  obtain ⟨ha, hc, hbp, hst, hen, hcb⟩ := shiftUp_iterate (ct + 1) s
  rw [renormRest_byteOut hct' hk hkn hs]
  generalize shiftUp^[ct + 1] s = w at ha hc hbp hst hen hcb
  obtain ⟨m, c, ho, hstuffed⟩ := byteOut_of_room (s := w) (by rwa [hbp, hen])
  have hreload : reloadedCt w = reloadedCt (s.setC (s.c <<< (ct + 1))) := reloadedCt_congr hc hbp hst hcb
  have hdue : ShiftsDue (k - (ct + 1)) w.a := ha ▸ ShiftsDue.shifted (ct + 1) (by rwa [Nat.sub_add_cancel hk])
  rw [ho, Run.bind_done]
  refine ⟨_, rfl, by simpa using hdue, by simp [hreload], by simp [hbp], by simp [hen], fun h7 hlt => lastByte_lt ?_⟩
  simpa using hstuffed (by simpa using h7) (by rwa [hc])

/-- RENORME in a window with room for two bytes ends: a third one would need more than 15 shifts, since no two bytes in a
row are stuffed (R116, R120). -/
theorem renormRest_second (hct : 1 ≤ s.ct.toNat) (hk : s.ct.toNat ≤ k) (hk15 : k ≤ 15) (hkn : k ≤ n)
    (hs : ShiftsDue k s.a) (hc : (s.c <<< s.ct.toNat).toNat < 2 ^ 27 + 2 ^ 24) (h : s.bp + 1 < s.endAddr.toNat)
    (h2 : k < s.ct.toNat + (reloadedCt (s.setC (s.c <<< s.ct.toNat))).toNat ∨ s.bp + 2 < s.endAddr.toNat) :
    ∃ t, renormRest n s = .done () t := by
  obtain ⟨u, hu, hdue, huct, hubp, huen, hlast⟩ := renormRest_of_room hct hk hkn hs h
  rw [hu]
  rw [← huct] at h2
  by_cases hfew : k - s.ct.toNat < u.ct.toNat
  · exact renormRest_done (by omega) hdue hfew
  have hct78 : u.ct = 7 ∨ u.ct = 8 := huct ▸ reloadedCt_cases _
  have hct7 : 7 ≤ u.ct.toNat := huct ▸ seven_le_reloadedCt _
  have hroom : u.bp + 1 < u.endAddr.toNat := by rw [hubp, huen]; omega
  obtain ⟨v, hv, hvdue, hvct, -⟩ := renormRest_of_room (n := n - s.ct.toNat) (by omega) (not_lt.1 hfew) (by omega) hdue hroom
  rw [hv]
  refine renormRest_done (by omega) hvdue ?_
  rcases hct78 with h7 | h8
  · have hv8 : v.ct = 8 := hvct.trans (reloadedCt_eq_eight (hlast h7 hc))
    rw [h7, hv8]
    show k - s.ct.toNat - 7 < 8
    omega
  · have hv7 : 7 ≤ v.ct.toNat := hvct ▸ seven_le_reloadedCt _
    rw [h8]
    show k - s.ct.toNat - 8 < _
    omega

theorem renormRest_secondOverflow (hct : 1 ≤ s.ct.toNat) (hkn : k ≤ n) (hs : ShiftsDue k s.a)
    (h : s.bp + 1 < s.endAddr.toNat)
    (hk : s.ct.toNat + (reloadedCt (s.setC (s.c <<< s.ct.toNat))).toNat ≤ k)
    (h2 : (s.endAddr.toNat : Int) ≤ s.bp + 2) : ∃ v, renormRest n s = .overflow v := by
  obtain ⟨u, hu, hdue, huct, hubp, huen, -⟩ := renormRest_of_room hct (by omega) hkn hs h
  rw [hu]
  rw [← huct] at hk
  have hct7 : 7 ≤ u.ct.toNat := huct ▸ seven_le_reloadedCt _
  exact renormRest_overflow (by omega) (by omega) (by omega) hdue (by rw [hubp, huen]; omega)

end

/-! ### One decision -/

/-- A after the split of the interval (R113, R114): the lower part is QE wide, and the decision takes it where exactly one of
"it is the MPS" and "the upper part is the larger one" holds. -/
def splitA (k : Label) (d : Bool) (s : State) : BitVec 16 :=
  if decide (s.a - (selectedRow k s).qe < (selectedRow k s).qe) = decide (d = s.cx[k].mps) then (selectedRow k s).qe
  else s.a - (selectedRow k s).qe

/-- C after the split of the interval (R113, R114). -/
def splitC (k : Label) (d : Bool) (s : State) : Word :=
  if decide (s.a - (selectedRow k s).qe < (selectedRow k s).qe) = decide (d = s.cx[k].mps) then s.c
  else s.c + (selectedRow k s).qe.setWidth 32

/-- A decision that must renormalize splits the interval, and makes the transition first (R113 to R115). -/
theorem encodeDecision_renorm {k : Label} {d : Bool} {s : State}
    (h : d ≠ s.cx[k].mps ∨ s.a - (selectedRow k s).qe < 0x8000) :
    ∃ x, encodeDecision k d s = renormEncoder maxShifts (((s.setA (splitA k d s)).setC (splitC k d s)).setCx x) := by
  unfold encodeDecision splitA splitC
  by_cases hd : d = s.cx[k].mps
  · have hlt := h.resolve_left (not_not.2 hd)
    rw [if_pos hd, codeMps]
    dsimp only
    rw [State.setA_a, if_pos hlt]
    by_cases hx : s.a - (selectedRow k s).qe < (selectedRow k s).qe
    · simp only [hx, hd, if_true]
      exact ⟨_, rfl⟩
    · simp only [hx, hd, if_false]
      exact ⟨_, rfl⟩
  · rw [if_neg hd, codeLps]
    simp only [State.setA_a]
    by_cases hx : s.a - (selectedRow k s).qe < (selectedRow k s).qe
    · simp only [hx, hd, if_true]
      exact ⟨_, rfl⟩
    · simp only [hx, hd, if_false]
      exact ⟨_, rfl⟩

theorem splitA_pos (k : Label) (d : Bool) {s : State} (ha : 0x8000 ≤ s.a) : 1 ≤ (splitA k d s).toNat := by
  obtain ⟨hq1, hq2⟩ := selectedRow_qe_range k s
  have hsub := toNat_sub_qe k s ha
  have ha' : 0x8000 ≤ s.a.toNat := ha
  unfold splitA
  split <;> omega

/-- The split keeps `C + A` below its bound (R120), and so C, moved up by CT places, too. -/
theorem splitC_shifted_lt (k : Label) (d : Bool) {s : State} (ha : 0x8000 ≤ s.a) (hc : EncoderCursor s) :
    (splitC k d s <<< s.ct.toNat).toNat < 2 ^ 27 + 2 ^ 24 := by
  obtain ⟨-, hq⟩ := selectedRow_qe_range k s
  have ha' : 0x8000 ≤ s.a.toNat := ha
  have hupper := upper_part_sum k ha hc.c_lt
  obtain ⟨-, -, hv, -⟩ := hc
  have hsum : (splitC k d s).toNat ≤ s.c.toNat + s.a.toNat := by
    unfold splitC
    split <;> omega
  have hmul := Nat.mul_le_mul_right (2 ^ s.ct.toNat) hsum
  rw [BitVec.toNat_shiftLeft, Nat.shiftLeft_eq]
  exact (Nat.mod_le _ _).trans_lt (hmul.trans_lt hv)

theorem shiftsDue_of_range {n : Nat} {a : BitVec 16} (hlt : a.toNat * 2 ^ (n - 1) < 2 ^ 15)
    (hle : 2 ^ 15 ≤ a.toNat * 2 ^ n) : ShiftsDue n a :=
  ⟨fun _ hj => (Nat.mul_le_mul_left _ (Nat.pow_le_pow_right two_pos (by omega))).trans_lt hlt, hle⟩

theorem shifts_le_fifteen {n : Nat} {a : BitVec 16} (ha : 1 ≤ a.toNat) (hlt : a.toNat * 2 ^ (n - 1) < 2 ^ 15) :
    n ≤ 15 := by
  have hpow : 2 ^ (n - 1) < 2 ^ 15 := (Nat.le_mul_of_pos_left _ ha).trans_lt hlt
  have := (Nat.pow_lt_pow_iff_right one_lt_two).1 hpow
  omega

/-- How `r` ends after `n` shifts that put the bytes of C from state `s` on: by the bytes that are due and the room for them
(R57, R115). -/
def EndsByRoom (n : Nat) (c : Word) (s : State) (r : Run Unit) : Prop :=
  (n < s.ct.toNat → ∃ v t, r = .done v t)
    ∧ (s.ct.toNat ≤ n → (s.endAddr.toNat : Int) ≤ s.bp + 1 → ∃ v, r = .overflow v)
    ∧ (s.ct.toNat ≤ n → s.bp + 1 < s.endAddr.toNat →
      ∃ u, byteOut (s.setC (c <<< s.ct.toNat)) = .done () u
        ∧ (n < s.ct.toNat + u.ct.toNat ∨ s.bp + 2 < s.endAddr.toNat → ∃ v t, r = .done v t)
        ∧ (s.ct.toNat + u.ct.toNat ≤ n → (s.endAddr.toNat : Int) ≤ s.bp + 2 → ∃ v, r = .overflow v))

theorem renormEncoder_endsByRoom {n : Nat} {a : BitVec 16} {c : Word} (x : Vector Context 19) {s : State}
    (hct : 1 ≤ s.ct.toNat) (hn : 1 ≤ n) (hn15 : n ≤ 15) (ha : ShiftsDue n a)
    (hc : (c <<< s.ct.toNat).toNat < 2 ^ 27 + 2 ^ 24) :
    EndsByRoom n c s (renormEncoder maxShifts (((s.setA a).setC c).setCx x)) := by
  have hlt : a < 0x8000 := by
    have := ha.1 0 hn
    rw [BitVec.lt_def]
    simpa using this
  rw [← renormRest_of_lt (by exact hlt)]
  refine ⟨fun hfew => ?_, fun hk hend => renormRest_overflow hct hk hn15 ha hend, fun hk hroom => ?_⟩
  · obtain ⟨t, ht⟩ := renormRest_done (s := ((s.setA a).setC c).setCx x) hn15 ha hfew
    exact ⟨(), t, ht⟩
  · obtain ⟨m, c', hu, -⟩ := byteOut_of_room (s := s.setC (c <<< s.ct.toNat)) hroom
    have hreload : reloadedCt ((((s.setA a).setC c).setCx x).setC (c <<< s.ct.toNat))
        = reloadedCt (s.setC (c <<< s.ct.toNat)) := reloadedCt_congr rfl rfl rfl rfl
    refine ⟨_, hu, ?_⟩
    rw [State.setCt_ct, ← hreload]
    refine ⟨fun h2 => ?_, fun h2 hend => renormRest_secondOverflow hct hn15 ha hroom h2 hend⟩
    obtain ⟨t, ht⟩ := renormRest_second (s := ((s.setA a).setC c).setCx x) hct hk hn15 hn15 ha hc hroom h2
    exact ⟨(), t, ht⟩

/-- The end of a decision of `n` shifts. -/
theorem encodeDecision_endsByRoom {k : Label} {d : Bool} {s : State} {n : Nat} (ha : 0x8000 ≤ s.a)
    (hc : EncoderCursor s) (h : d ≠ s.cx[k].mps ∨ s.a - (selectedRow k s).qe < 0x8000) (hn : 1 ≤ n)
    (hlt : (splitA k d s).toNat * 2 ^ (n - 1) < 2 ^ 15) (hle : 2 ^ 15 ≤ (splitA k d s).toNat * 2 ^ n) :
    EndsByRoom n (splitC k d s) s (encodeDecision k d s) := by
  obtain ⟨x, hx⟩ := encodeDecision_renorm h
  rw [hx]
  exact renormEncoder_endsByRoom x hc.1 hn (shifts_le_fifteen (splitA_pos k d ha) hlt) (shiftsDue_of_range hlt hle)
    (splitC_shifted_lt k d ha hc)

/-- The MPS without a renormalization puts no byte (R113). -/
theorem encodeDecision_noRenorm {k : Label} {d : Bool} {s : State} (hd : d = s.cx[k].mps)
    (h : 0x8000 ≤ s.a - (selectedRow k s).qe) : ∃ v t, encodeDecision k d s = .done v t := by
  rw [encodeDecision, if_pos hd, codeMps, State.setA_a, if_neg (BitVec.not_lt.2 h)]
  exact ⟨_, _, rfl⟩

/-- Settles O45: the commands fault where their procedures overflow, which `storeByte_overflow` and `byteOut_overflow` say for
one byte, `encodeDecision_endsByRoom` for the bytes of a renormalization, and `forEach_overflow_iff` for a scan. -/
theorem encodersFaultAtTheEndOfTheWindow : Obligations.EncodersFaultAtTheEndOfTheWindow := by
  refine ⟨fun s => ⟨fun d hm hrct h => ?_, fun hm hrct h => ?_, fun hm h => ?_⟩, fun s cx hcx d hm hb => ?_,
    fun s p hp hg => ⟨fun hm => ⟨?_, ?_⟩, fun hm => ?_⟩, fun s p x y hm hrct h hvis => ⟨?_, ?_⟩⟩
  · exact faultsOn_of_overflow (execRawenc_eq d hm) (rawEncodeBit_overflow d hrct h)
  · exact faultsOn_of_overflow (execRawflush_eq hm) (rawFlush_overflow hrct h)
  · exact faultsOn_of_overflow (execFlushenc_eq hm) (flushEncoder_overflow h)
  · obtain ⟨ha, hc⟩ : 0x8000 ≤ s.a ∧ EncoderCursor s := hb hm
    have hexec := execEncode_eq hcx d hm
    refine ⟨fun hd h => completesOn_of_done hexec (encodeDecision_noRenorm hd h), fun n h hn hlt hle => ?_⟩
    obtain ⟨hfew, hfirst, hroom⟩ := encodeDecision_endsByRoom ha hc h hn hlt hle
    refine ⟨fun hk => completesOn_of_done hexec (hfew hk), fun hk hend => faultsOn_of_overflow hexec (hfirst hk hend),
      fun hk h1 => ?_⟩
    obtain ⟨u, hu, hdone, hover⟩ := hroom hk h1
    exact ⟨u, hu, fun h2 => completesOn_of_done hexec (hdone h2),
      fun h2 hend => faultsOn_of_overflow hexec (hover h2 hend)⟩
  · exact (faultsOn_iff_overflow (execSigpass_eq hm hp hg)).trans forEach_overflow_iff
  · exact (faultsOn_iff_overflow (execRefpass_eq hm hp hg)).trans forEach_overflow_iff
  · exact (faultsOn_iff_overflow (execClnpass_eq hm hp hg)).trans (cleanupPass_overflow_iff.trans forEach_overflow_iff)
  · exact visitSignificance_overflow hm hrct h hvis
  · exact visitRefinement_overflow hm hrct h hvis

end Sys2Proof.Machine

/-! ## The fields of a command word -/

namespace Sys2Proof

/-- The bits of a word from bit `lo` to bit `hi`. -/
def fieldMask (hi lo : Nat) : Word := (BitVec.allOnes (hi + 1 - lo)).setWidth 32 <<< lo

theorem field_eq_toNat_extractLsb (w : Word) (hi lo : Nat) : field w hi lo = (w.extractLsb' lo (hi + 1 - lo)).toNat := by
  rw [field, BitVec.extractLsb'_toNat, Nat.shiftRight_eq_div_pow]

theorem and_fieldMask (w : Word) (hi lo : Nat) :
    w &&& fieldMask hi lo = (w.extractLsb' lo (hi + 1 - lo)).setWidth 32 <<< lo := by
  apply BitVec.eq_of_getLsbD_eq
  intro k hk
  by_cases hlo : k < lo
  · simp [fieldMask, hlo]
  · have hsum : lo + (k - lo) = k := by omega
    simp [fieldMask, hlo, hk, hsum, Bool.and_comm]

/-- A word under the mask of a field is the field, in its place. -/
theorem and_fieldMask_toNat (w : Word) {hi lo : Nat} (hlo : lo ≤ hi) (hhi : hi ≤ 31) :
    (w &&& fieldMask hi lo).toNat = field w hi lo * 2 ^ lo := by
  have hlt := field_lt w hi lo
  have hle : field w hi lo * 2 ^ lo < 2 ^ 32 := calc
    field w hi lo * 2 ^ lo < 2 ^ (hi + 1 - lo) * 2 ^ lo := Nat.mul_lt_mul_of_pos_right hlt (Nat.two_pow_pos lo)
    _ = 2 ^ (hi + 1) := by rw [← pow_add]; congr 1; omega
    _ ≤ 2 ^ 32 := Nat.pow_le_pow_right (by decide) (by omega)
  rw [and_fieldMask, BitVec.toNat_shiftLeft, Nat.shiftLeft_eq, BitVec.toNat_setWidth, ← field_eq_toNat_extractLsb,
    Nat.mod_eq_of_lt (a := field w hi lo), Nat.mod_eq_of_lt hle]
  exact lt_of_le_of_lt (Nat.le_mul_of_pos_right _ (Nat.two_pow_pos lo)) hle

/-- A command word is its opcode and its operand bits (R62). -/
theorem commandWord_of_fields {w : Word} {opc n : Nat} (ho : field w 31 24 = opc) (hn : field w 23 0 = n) :
    commandWord opc n = w := by
  have hw := w.isLt
  unfold field at ho hn
  apply BitVec.eq_of_toNat_eq
  rw [commandWord, BitVec.toNat_ofNat]
  omega

theorem commandWord_toNat {opc n : Nat} (ho : opc < 2 ^ 8) (hn : n < 2 ^ 24) :
    (commandWord opc n).toNat = opc * 2 ^ 24 + n := by
  rw [commandWord, BitVec.toNat_ofNat]
  omega

theorem field_commandWord_opcode {opc n : Nat} (ho : opc < 2 ^ 8) (hn : n < 2 ^ 24) :
    field (commandWord opc n) 31 24 = opc := by
  rw [field, commandWord_toNat ho hn]
  omega

/-! ## The formats of R62 -/

theorem checked_eq_ok {b : Bool} {i j : Instr} : checked b i = .ok j ↔ b = true ∧ i = j := by
  cases b <;> simp [checked]

section

variable {w : Word} {i : Instr}

theorem formatZ_eq_ok {j : Instr} : formatZ w i = .ok j ↔ field w 23 0 = 0 ∧ i = j := by
  rw [formatZ, checked_eq_ok, beq_iff_eq]

theorem formatA_eq_ok {f : Nat → Instr} : formatA w f = .ok i ↔ field w 23 8 = 0 ∧ f (field w 7 0) = i := by
  rw [formatA, checked_eq_ok, beq_iff_eq]

theorem formatK_eq_ok {f : Nat → Instr} : formatK w f = .ok i ↔ field w 23 5 = 0 ∧ f (field w 4 0) = i := by
  rw [formatK, checked_eq_ok, beq_iff_eq]

theorem formatE_eq_ok {f : Nat → Bool → Instr} : formatE w f = .ok i ↔
    (field w 7 5 = 0 ∧ field w 23 9 = 0) ∧ f (field w 4 0) (field w 8 8 == 1) = i := by
  rw [formatE, checked_eq_ok, Bool.and_eq_true, beq_iff_eq, beq_iff_eq]

theorem formatB_eq_ok {f : Bool → Instr} : formatB w f = .ok i ↔ field w 23 1 = 0 ∧ f (field w 0 0 == 1) = i := by
  rw [formatB, checked_eq_ok, beq_iff_eq]

theorem formatG_eq_ok {f : Nat → Nat → Orientation → Bool → Instr} : formatG w f = .ok i ↔ field w 23 23 = 0 ∧
    f (field w 9 0) (field w 19 10) (orientOfCode (field w 21 20)) (field w 22 22 == 1) = i := by
  rw [formatG, checked_eq_ok, beq_iff_eq]

end

/-! ## The decoder, opcode by opcode (R64) -/

section

variable {w : Word} (arg : Word)

theorem decode_opcode_nop (h : field w 31 24 = 0x00) : decode w arg = formatZ w .nop := by
  simp only [decode, h]

theorem decode_opcode_cxreset (h : field w 31 24 = 0x01) : decode w arg = formatZ w .cxreset := by
  simp only [decode, h]

theorem decode_opcode_clrstat (h : field w 31 24 = 0x02) : decode w arg = formatZ w .clrstat := by
  simp only [decode, h]

theorem decode_opcode_wrreg (h : field w 31 24 = 0x03) : decode w arg = formatA w (fun ra => .wrreg ra arg) := by
  simp only [decode, h]

theorem decode_opcode_rdreg (h : field w 31 24 = 0x04) : decode w arg = formatA w .rdreg := by
  simp only [decode, h]

theorem decode_opcode_initdec (h : field w 31 24 = 0x10) : decode w arg = formatZ w .initdec := by
  simp only [decode, h]

theorem decode_opcode_decode (h : field w 31 24 = 0x11) : decode w arg = formatK w .decode := by
  simp only [decode, h]

theorem decode_opcode_finishdec (h : field w 31 24 = 0x12) : decode w arg = formatZ w .finishdec := by
  simp only [decode, h]

theorem decode_opcode_termchk (h : field w 31 24 = 0x13) : decode w arg = formatZ w .termchk := by
  simp only [decode, h]

theorem decode_opcode_initenc (h : field w 31 24 = 0x20) : decode w arg = formatZ w .initenc := by
  simp only [decode, h]

theorem decode_opcode_encode (h : field w 31 24 = 0x21) : decode w arg = formatE w .encode := by
  simp only [decode, h]

theorem decode_opcode_flushenc (h : field w 31 24 = 0x22) : decode w arg = formatZ w .flushenc := by
  simp only [decode, h]

theorem decode_opcode_rawinitdec (h : field w 31 24 = 0x30) : decode w arg = formatZ w .rawinitdec := by
  simp only [decode, h]

theorem decode_opcode_rawdec (h : field w 31 24 = 0x31) : decode w arg = formatZ w .rawdec := by
  simp only [decode, h]

theorem decode_opcode_rawinitenc (h : field w 31 24 = 0x38) : decode w arg = formatZ w .rawinitenc := by
  simp only [decode, h]

theorem decode_opcode_rawenc (h : field w 31 24 = 0x39) : decode w arg = formatB w .rawenc := by
  simp only [decode, h]

theorem decode_opcode_rawflush (h : field w 31 24 = 0x3A) : decode w arg = formatZ w .rawflush := by
  simp only [decode, h]

theorem decode_opcode_cbinit (h : field w 31 24 = 0x40) : decode w arg = formatG w .cbinit := by
  simp only [decode, h]

theorem decode_opcode_sigpass (h : field w 31 24 = 0x41) : decode w arg = formatK w .sigpass := by
  simp only [decode, h]

theorem decode_opcode_refpass (h : field w 31 24 = 0x42) : decode w arg = formatK w .refpass := by
  simp only [decode, h]

theorem decode_opcode_clnpass (h : field w 31 24 = 0x43) : decode w arg = formatK w .clnpass := by
  simp only [decode, h]

end

/-! ## From the command to its word and back -/

/-- The command with `arg` for its data, where it is one that reads ARG (R61). -/
def Instr.withArg (arg : Word) : Instr → Instr
  | .wrreg ra _ => .wrreg ra arg
  | i => i

theorem withArg_encode (i : Instr) : i.withArg (encode i).2 = i := by cases i <;> rfl

theorem Instr.withArg_of_ne_wrreg {i : Instr} (h : ∀ ra value, i ≠ .wrreg ra value) (arg : Word) :
    i.withArg arg = i := by
  cases i
  case wrreg ra value => exact absurd rfl (h ra value)
  all_goals rfl

theorem orientOfCode_orientCode (o : Orientation) : orientOfCode (orientCode o) = o := by cases o <;> rfl

theorem orientCode_orientOfCode : ∀ c < 4, orientCode (orientOfCode c) = c := by decide

theorem toNat_beq_one (d : Bool) : (d.toNat == 1) = d := by cases d <;> rfl

theorem beq_one_toNat {n : Nat} (h : n < 2) : (n == 1).toNat = n := by
  interval_cases n <;> rfl

section

variable {opc n : Nat} (ho : opc < 2 ^ 8)

include ho

theorem formatZ_commandWord (i : Instr) : formatZ (commandWord opc 0) i = .ok i := by
  rw [formatZ_eq_ok, field, commandWord_toNat ho (by decide)]
  exact ⟨by omega, rfl⟩

theorem formatA_commandWord (hn : n < 2 ^ 8) (f : Nat → Instr) : formatA (commandWord opc n) f = .ok (f n) := by
  rw [formatA_eq_ok, field, field, commandWord_toNat ho (by omega)]
  exact ⟨by omega, congrArg f (by omega)⟩

theorem formatK_commandWord (hn : n < 2 ^ 5) (f : Nat → Instr) : formatK (commandWord opc n) f = .ok (f n) := by
  rw [formatK_eq_ok, field, field, commandWord_toNat ho (by omega)]
  exact ⟨by omega, congrArg f (by omega)⟩

theorem formatE_commandWord (hn : n < 2 ^ 5) (d : Bool) (f : Nat → Bool → Instr) :
    formatE (commandWord opc (d.toNat * 2 ^ 8 + n)) f = .ok (f n d) := by
  have hd := Bool.toNat_le d
  have hw : (commandWord opc (d.toNat * 2 ^ 8 + n)).toNat = _ := commandWord_toNat ho (by omega)
  have hbit : field (commandWord opc (d.toNat * 2 ^ 8 + n)) 8 8 = d.toNat := by rw [field, hw]; omega
  rw [formatE_eq_ok, hbit, toNat_beq_one]
  simp only [field, hw]
  exact ⟨by omega, congrArg (f · d) (by omega)⟩

theorem formatB_commandWord (d : Bool) (f : Bool → Instr) : formatB (commandWord opc d.toNat) f = .ok (f d) := by
  have hd := Bool.toNat_le d
  have hw : (commandWord opc d.toNat).toNat = _ := commandWord_toNat ho (by omega)
  have hbit : field (commandWord opc d.toNat) 0 0 = d.toNat := by rw [field, hw]; omega
  rw [formatB_eq_ok, hbit, toNat_beq_one, field, hw]
  exact ⟨by omega, rfl⟩

theorem formatG_commandWord {wm1 hm1 : Nat} (hw : wm1 < 2 ^ 10) (hh : hm1 < 2 ^ 10) (o : Orientation) (clr : Bool)
    (f : Nat → Nat → Orientation → Bool → Instr) :
    formatG (commandWord opc (clr.toNat * 2 ^ 22 + orientCode o * 2 ^ 20 + hm1 * 2 ^ 10 + wm1)) f =
      .ok (f wm1 hm1 o clr) := by
  have hc := Bool.toNat_le clr
  have hcode := Machine.orientCode_le o
  generalize hword : commandWord opc _ = word
  have hval : word.toNat = opc * 2 ^ 24 + (clr.toNat * 2 ^ 22 + orientCode o * 2 ^ 20 + hm1 * 2 ^ 10 + wm1) := by
    rw [← hword, commandWord_toNat ho (by omega)]
  have fw : field word 9 0 = wm1 := by rw [field, hval]; omega
  have fh : field word 19 10 = hm1 := by rw [field, hval]; omega
  have fo : field word 21 20 = orientCode o := by rw [field, hval]; omega
  have fc : field word 22 22 = clr.toNat := by rw [field, hval]; omega
  have fr : field word 23 23 = 0 := by rw [field, hval]; omega
  rw [formatG_eq_ok, fw, fh, fo, fc, orientOfCode_orientCode, toNat_beq_one]
  exact ⟨fr, rfl⟩

end

/-- DECODE AFTER ENCODE, for any word ARG: it is the data of WRREG, and every other command ignores it. -/
theorem decode_encode {i : Instr} (h : i.wf = true) (arg : Word) : decode (encode i).1 arg = .ok (i.withArg arg) := by
  have opcode : ∀ {opc n}, opc < 2 ^ 8 → n < 2 ^ 24 → field (commandWord opc n) 31 24 = opc :=
    field_commandWord_opcode
  have opcodeZ : ∀ {opc}, opc < 2 ^ 8 → field (commandWord opc 0) 31 24 = opc := fun h => opcode h (by decide)
  cases i <;> simp only [Instr.wf, Bool.and_eq_true, decide_eq_true_eq] at h
  case nop => exact (decode_opcode_nop arg (opcodeZ (by decide))).trans (formatZ_commandWord (by decide) _)
  case cxreset =>
    exact (decode_opcode_cxreset arg (opcodeZ (by decide))).trans (formatZ_commandWord (by decide) _)
  case clrstat =>
    exact (decode_opcode_clrstat arg (opcodeZ (by decide))).trans (formatZ_commandWord (by decide) _)
  case wrreg =>
    exact (decode_opcode_wrreg arg (opcode (by decide) (by omega))).trans (formatA_commandWord (by decide) h _)
  case rdreg =>
    exact (decode_opcode_rdreg arg (opcode (by decide) (by omega))).trans (formatA_commandWord (by decide) h _)
  case initdec =>
    exact (decode_opcode_initdec arg (opcodeZ (by decide))).trans (formatZ_commandWord (by decide) _)
  case decode =>
    exact (decode_opcode_decode arg (opcode (by decide) (by omega))).trans (formatK_commandWord (by decide) h _)
  case finishdec =>
    exact (decode_opcode_finishdec arg (opcodeZ (by decide))).trans (formatZ_commandWord (by decide) _)
  case termchk =>
    exact (decode_opcode_termchk arg (opcodeZ (by decide))).trans (formatZ_commandWord (by decide) _)
  case initenc =>
    exact (decode_opcode_initenc arg (opcodeZ (by decide))).trans (formatZ_commandWord (by decide) _)
  case encode cx d =>
    have hd := Bool.toNat_le d
    exact (decode_opcode_encode arg (opcode (by decide) (by omega))).trans (formatE_commandWord (by decide) h d _)
  case flushenc =>
    exact (decode_opcode_flushenc arg (opcodeZ (by decide))).trans (formatZ_commandWord (by decide) _)
  case rawinitdec =>
    exact (decode_opcode_rawinitdec arg (opcodeZ (by decide))).trans (formatZ_commandWord (by decide) _)
  case rawdec =>
    exact (decode_opcode_rawdec arg (opcodeZ (by decide))).trans (formatZ_commandWord (by decide) _)
  case rawinitenc =>
    exact (decode_opcode_rawinitenc arg (opcodeZ (by decide))).trans (formatZ_commandWord (by decide) _)
  case rawenc d =>
    have hd := Bool.toNat_le d
    exact (decode_opcode_rawenc arg (opcode (by decide) (by omega))).trans (formatB_commandWord (by decide) d _)
  case rawflush =>
    exact (decode_opcode_rawflush arg (opcodeZ (by decide))).trans (formatZ_commandWord (by decide) _)
  case cbinit wm1 hm1 o clr =>
    have hc := Bool.toNat_le clr
    have ho := Machine.orientCode_le o
    exact (decode_opcode_cbinit arg (opcode (by decide) (by omega))).trans
      (formatG_commandWord (by decide) h.1 h.2 o clr _)
  case sigpass =>
    exact (decode_opcode_sigpass arg (opcode (by decide) (by omega))).trans (formatK_commandWord (by decide) h _)
  case refpass =>
    exact (decode_opcode_refpass arg (opcode (by decide) (by omega))).trans (formatK_commandWord (by decide) h _)
  case clnpass =>
    exact (decode_opcode_clnpass arg (opcode (by decide) (by omega))).trans (formatK_commandWord (by decide) h _)

/-- Settles O1: decoding the word of a well-formed command gives the command with the word ARG for its data, and
`encode` writes that data. -/
theorem decodeOfEncodeIsTheInstruction : Obligations.DecodeOfEncodeIsTheInstruction := fun i h => by
  rw [decode_encode h, withArg_encode]

/-- Where the bits from `k` up are reserved, the operand bits are those below. -/
theorem field_operands {w : Word} {k n : Nat} (hr : field w 23 k = 0) (hn : field w (k - 1) 0 = n) (h1 : 1 ≤ k)
    (h24 : k ≤ 24) : field w 23 0 = n := by
  have hsplit : 2 ^ 24 = 2 ^ k * 2 ^ (23 + 1 - k) := by rw [← pow_add]; congr 1; omega
  rw [field] at hr hn ⊢
  rw [pow_zero, Nat.div_one, Nat.sub_zero] at hn ⊢
  rw [hsplit, Nat.mod_mul, hr, mul_zero, Nat.add_zero, ← hn, Nat.sub_add_cancel h1]

/-- ENCODE AFTER DECODE: the reserved bits of the word are 0, and the operands fill the other bits (R62). The cases are
the rows of `decode` in their order, by format: A, K and P, E, B, G, and last Z; `h_22` is the unlisted opcode. -/
theorem encode_of_decode {cmd arg : Word} {i : Instr} (h : decode cmd arg = .ok i) : (encode i).1 = cmd := by
  unfold decode at h
  split at h
  case h_22 => cases h
  case h_4 | h_5 =>
    obtain ⟨hr, rfl⟩ := formatA_eq_ok.1 h
    exact commandWord_of_fields ‹_› (field_operands hr rfl (by decide) (by decide))
  case h_7 | h_19 | h_20 | h_21 =>
    obtain ⟨hr, rfl⟩ := formatK_eq_ok.1 h
    exact commandWord_of_fields ‹_› (field_operands hr rfl (by decide) (by decide))
  case h_11 =>
    obtain ⟨⟨hr5, hr9⟩, rfl⟩ := formatE_eq_ok.1 h
    refine commandWord_of_fields ‹_› ?_
    rw [beq_one_toNat (field_lt cmd 8 8)]
    unfold field at *
    omega
  case h_16 =>
    obtain ⟨hr, rfl⟩ := formatB_eq_ok.1 h
    exact commandWord_of_fields ‹_› (field_operands hr (beq_one_toNat (field_lt cmd 0 0)).symm (by decide) (by decide))
  case h_18 =>
    obtain ⟨hr, rfl⟩ := formatG_eq_ok.1 h
    refine commandWord_of_fields ‹_› ?_
    rw [beq_one_toNat (field_lt cmd 22 22), orientCode_orientOfCode _ (field_lt cmd 21 20)]
    unfold field at *
    omega
  all_goals
    obtain ⟨hr, rfl⟩ := formatZ_eq_ok.1 h
    exact commandWord_of_fields ‹_› hr

/-- A word that is a command with one word ARG is that command with every other (R61). -/
theorem decode_other {cmd arg : Word} {i : Instr} (h : decode cmd arg = .ok i) (other : Word) :
    decode cmd other = .ok (i.withArg other) := by
  have hdec := decode_encode (decode_wf h) other
  rwa [encode_of_decode h] at hdec

/-- Settles O2: `encode_of_decode` for the word, `decode_other` for ARG. -/
theorem decodedWordEncodesBack : Obligations.DecodedWordEncodesBack := by
  intro cmd arg i h
  refine ⟨decode_wf h, encode_of_decode h, ?_, fun hne other => ?_⟩
  · rintro ra value rfl
    have hsame := (decode_other h arg).symm.trans h
    cases hsame
    exact ⟨rfl, decode_other h⟩
  · rw [decode_other h other, Instr.withArg_of_ne_wrreg hne]

/-! ## The opcode map -/

/-- The encoded word of every well-formed command matches a row with its mnemonic (R64). -/
theorem encodeMatchesTable (i : Instr) : Laws.EncodeMatchesTable.Statement i := by
  cases i
  case nop => exact Laws.EncodeMatchesTable.nop
  case cxreset => exact Laws.EncodeMatchesTable.cxreset
  case clrstat => exact Laws.EncodeMatchesTable.clrstat
  case wrreg ra value => exact Laws.EncodeMatchesTable.wrreg ra value
  case rdreg ra => exact Laws.EncodeMatchesTable.rdreg ra
  case initdec => exact Laws.EncodeMatchesTable.initdec
  case decode cx => exact Laws.EncodeMatchesTable.decode cx
  case finishdec => exact Laws.EncodeMatchesTable.finishdec
  case termchk => exact Laws.EncodeMatchesTable.termchk
  case initenc => exact Laws.EncodeMatchesTable.initenc
  case encode cx d => exact Laws.EncodeMatchesTable.encode cx d
  case flushenc => exact Laws.EncodeMatchesTable.flushenc
  case rawinitdec => exact Laws.EncodeMatchesTable.rawinitdec
  case rawdec => exact Laws.EncodeMatchesTable.rawdec
  case rawinitenc => exact Laws.EncodeMatchesTable.rawinitenc
  case rawenc d => exact Laws.EncodeMatchesTable.rawenc d
  case rawflush => exact Laws.EncodeMatchesTable.rawflush
  case cbinit wm1 hm1 o clr => exact Laws.EncodeMatchesTable.cbinit wm1 hm1 o clr
  case sigpass p => exact Laws.EncodeMatchesTable.sigpass p
  case refpass p => exact Laws.EncodeMatchesTable.refpass p
  case clnpass p => exact Laws.EncodeMatchesTable.clnpass p

theorem decoded_matches_row {cmd arg : Word} {i : Instr} (h : decode cmd arg = .ok i) :
    ∃ r ∈ opcodeTable, r.mnemonic = mnemonicOf i ∧ r.matches cmd = true := by
  have hrow := encodeMatchesTable i (decode_wf h)
  rwa [encode_of_decode h] at hrow

theorem row_eq_of_mnemonic_eq :
    ∀ r ∈ opcodeTable, ∀ q ∈ opcodeTable, r.mnemonic = q.mnemonic → r = q := by
  decide

/-- The opcode and the reserved bits of a word that the mask of its row, which keeps the bits from `k` up, takes to
`match` (R64). -/
theorem fields_of_masked {w : Word} {k opc : Nat} (hk : k ≤ 24) (hopc : opc < 2 ^ 8)
    (h : w &&& fieldMask 31 k = commandWord opc 0) : field w 31 24 = opc ∧ field w 23 k = 0 := by
  have hpow : 2 ^ 24 = 2 ^ (23 + 1 - k) * 2 ^ k := by rw [← pow_add]; congr 1; omega
  have hw : w.toNat < 2 ^ (31 + 1 - k) * 2 ^ k := by
    have hall : 2 ^ (31 + 1 - k) * 2 ^ k = 2 ^ 32 := by rw [← pow_add]; congr 1; omega
    rw [hall]
    exact w.isLt
  have hval := and_fieldMask_toNat w (show k ≤ 31 by omega) (by decide)
  rw [h, commandWord_toNat hopc (by decide), Nat.add_zero, field, Nat.mod_eq_of_lt (Nat.div_lt_of_lt_mul (by linarith)),
    hpow, ← mul_assoc] at hval
  have hquot : w.toNat / 2 ^ k = opc * 2 ^ (23 + 1 - k) := (Nat.eq_of_mul_eq_mul_right (Nat.two_pow_pos k) hval).symm
  constructor
  · have htop : w.toNat / 2 ^ 24 = opc := by
      rw [hpow, mul_comm, ← Nat.div_div_eq_div_mul, hquot, Nat.mul_div_cancel _ (Nat.two_pow_pos _)]
    rw [field, htop, Nat.mod_eq_of_lt hopc]
  · rw [field, hquot, Nat.mul_mod_left]

/-- The mask of ENCODE's row leaves bit 8 and the bits from 4 down free. -/
theorem fields_of_masked_encode {w : Word} (h : w &&& 0xFFFFFEE0 = 0x21000000) :
    field w 31 24 = 0x21 ∧ field w 7 5 = 0 ∧ field w 23 9 = 0 := by
  have hupper : w &&& fieldMask 31 9 = commandWord 0x21 0 := by
    rw [show fieldMask 31 9 = 0xFFFFFEE0 &&& fieldMask 31 9 by decide, ← BitVec.and_assoc, h]
    decide
  have hlower : w &&& fieldMask 7 5 = 0 := by
    rw [show fieldMask 7 5 = 0xFFFFFEE0 &&& fieldMask 7 5 by decide, ← BitVec.and_assoc, h]
    decide
  have hval := and_fieldMask_toNat w (show 5 ≤ 7 by decide) (by decide)
  rw [hlower] at hval
  obtain ⟨hopc, h9⟩ := fields_of_masked (by decide) (by decide) hupper
  exact ⟨hopc, by simpa using hval.symm, h9⟩

/-- A word that matches a row decodes to a command with the row's mnemonic (R64). -/
theorem decode_of_matches {r : OpcodeRow} (hr : r ∈ opcodeTable) {w : Word} (h : r.matches w = true) (arg : Word) :
    ∃ i, decode w arg = .ok i ∧ mnemonicOf i = r.mnemonic := by
  rw [OpcodeRow.matches, beq_iff_eq] at h
  simp only [opcodeTable, List.mem_cons, List.not_mem_nil, or_false] at hr
  rcases hr with rfl | rfl | rfl | rfl | rfl | rfl | rfl | rfl | rfl | rfl | rfl | rfl | rfl | rfl | rfl | rfl |
    rfl | rfl | rfl | rfl | rfl
  · obtain ⟨hopc, hr⟩ := fields_of_masked (k := 0) (opc := 0x00) (by decide) (by decide) h
    exact ⟨_, (decode_opcode_nop arg hopc).trans (formatZ_eq_ok.2 ⟨hr, rfl⟩), rfl⟩
  · obtain ⟨hopc, hr⟩ := fields_of_masked (k := 0) (opc := 0x01) (by decide) (by decide) h
    exact ⟨_, (decode_opcode_cxreset arg hopc).trans (formatZ_eq_ok.2 ⟨hr, rfl⟩), rfl⟩
  · obtain ⟨hopc, hr⟩ := fields_of_masked (k := 0) (opc := 0x02) (by decide) (by decide) h
    exact ⟨_, (decode_opcode_clrstat arg hopc).trans (formatZ_eq_ok.2 ⟨hr, rfl⟩), rfl⟩
  · obtain ⟨hopc, hr⟩ := fields_of_masked (k := 8) (opc := 0x03) (by decide) (by decide) h
    exact ⟨_, (decode_opcode_wrreg arg hopc).trans (formatA_eq_ok.2 ⟨hr, rfl⟩), rfl⟩
  · obtain ⟨hopc, hr⟩ := fields_of_masked (k := 8) (opc := 0x04) (by decide) (by decide) h
    exact ⟨_, (decode_opcode_rdreg arg hopc).trans (formatA_eq_ok.2 ⟨hr, rfl⟩), rfl⟩
  · obtain ⟨hopc, hr⟩ := fields_of_masked (k := 0) (opc := 0x10) (by decide) (by decide) h
    exact ⟨_, (decode_opcode_initdec arg hopc).trans (formatZ_eq_ok.2 ⟨hr, rfl⟩), rfl⟩
  · obtain ⟨hopc, hr⟩ := fields_of_masked (k := 5) (opc := 0x11) (by decide) (by decide) h
    exact ⟨_, (decode_opcode_decode arg hopc).trans (formatK_eq_ok.2 ⟨hr, rfl⟩), rfl⟩
  · obtain ⟨hopc, hr⟩ := fields_of_masked (k := 0) (opc := 0x12) (by decide) (by decide) h
    exact ⟨_, (decode_opcode_finishdec arg hopc).trans (formatZ_eq_ok.2 ⟨hr, rfl⟩), rfl⟩
  · obtain ⟨hopc, hr⟩ := fields_of_masked (k := 0) (opc := 0x13) (by decide) (by decide) h
    exact ⟨_, (decode_opcode_termchk arg hopc).trans (formatZ_eq_ok.2 ⟨hr, rfl⟩), rfl⟩
  · obtain ⟨hopc, hr⟩ := fields_of_masked (k := 0) (opc := 0x20) (by decide) (by decide) h
    exact ⟨_, (decode_opcode_initenc arg hopc).trans (formatZ_eq_ok.2 ⟨hr, rfl⟩), rfl⟩
  · obtain ⟨hopc, h5, h9⟩ := fields_of_masked_encode h
    exact ⟨_, (decode_opcode_encode arg hopc).trans (formatE_eq_ok.2 ⟨⟨h5, h9⟩, rfl⟩), rfl⟩
  · obtain ⟨hopc, hr⟩ := fields_of_masked (k := 0) (opc := 0x22) (by decide) (by decide) h
    exact ⟨_, (decode_opcode_flushenc arg hopc).trans (formatZ_eq_ok.2 ⟨hr, rfl⟩), rfl⟩
  · obtain ⟨hopc, hr⟩ := fields_of_masked (k := 0) (opc := 0x30) (by decide) (by decide) h
    exact ⟨_, (decode_opcode_rawinitdec arg hopc).trans (formatZ_eq_ok.2 ⟨hr, rfl⟩), rfl⟩
  · obtain ⟨hopc, hr⟩ := fields_of_masked (k := 0) (opc := 0x31) (by decide) (by decide) h
    exact ⟨_, (decode_opcode_rawdec arg hopc).trans (formatZ_eq_ok.2 ⟨hr, rfl⟩), rfl⟩
  · obtain ⟨hopc, hr⟩ := fields_of_masked (k := 0) (opc := 0x38) (by decide) (by decide) h
    exact ⟨_, (decode_opcode_rawinitenc arg hopc).trans (formatZ_eq_ok.2 ⟨hr, rfl⟩), rfl⟩
  · obtain ⟨hopc, hr⟩ := fields_of_masked (k := 1) (opc := 0x39) (by decide) (by decide) h
    exact ⟨_, (decode_opcode_rawenc arg hopc).trans (formatB_eq_ok.2 ⟨hr, rfl⟩), rfl⟩
  · obtain ⟨hopc, hr⟩ := fields_of_masked (k := 0) (opc := 0x3A) (by decide) (by decide) h
    exact ⟨_, (decode_opcode_rawflush arg hopc).trans (formatZ_eq_ok.2 ⟨hr, rfl⟩), rfl⟩
  · obtain ⟨hopc, hr⟩ := fields_of_masked (k := 23) (opc := 0x40) (by decide) (by decide) h
    exact ⟨_, (decode_opcode_cbinit arg hopc).trans (formatG_eq_ok.2 ⟨hr, rfl⟩), rfl⟩
  · obtain ⟨hopc, hr⟩ := fields_of_masked (k := 5) (opc := 0x41) (by decide) (by decide) h
    exact ⟨_, (decode_opcode_sigpass arg hopc).trans (formatK_eq_ok.2 ⟨hr, rfl⟩), rfl⟩
  · obtain ⟨hopc, hr⟩ := fields_of_masked (k := 5) (opc := 0x42) (by decide) (by decide) h
    exact ⟨_, (decode_opcode_refpass arg hopc).trans (formatK_eq_ok.2 ⟨hr, rfl⟩), rfl⟩
  · obtain ⟨hopc, hr⟩ := fields_of_masked (k := 5) (opc := 0x43) (by decide) (by decide) h
    exact ⟨_, (decode_opcode_clnpass arg hopc).trans (formatK_eq_ok.2 ⟨hr, rfl⟩), rfl⟩

/-- R64, row by row: the rows of a mnemonic are one, so the row that a decoded word matches is the row of its
command. -/
theorem matches_iff_decode (cmd arg : Word) {r : OpcodeRow} (hr : r ∈ opcodeTable) :
    r.matches cmd = true ↔ ∃ i, decode cmd arg = .ok i ∧ mnemonicOf i = r.mnemonic := by
  refine ⟨fun h => decode_of_matches hr h arg, ?_⟩
  rintro ⟨i, hdec, hname⟩
  obtain ⟨q, hq, hqname, hmatch⟩ := decoded_matches_row hdec
  rwa [row_eq_of_mnemonic_eq r hr q hq (hname.symm.trans hqname.symm)]

/-- No two rows overlap: the command of a word has one mnemonic. -/
theorem row_unique {cmd : Word} {r q : OpcodeRow} (hr : r ∈ opcodeTable) (hq : q ∈ opcodeTable)
    (hrm : r.matches cmd = true) (hqm : q.matches cmd = true) : r = q := by
  obtain ⟨i, hi, hir⟩ := decode_of_matches hr hrm 0
  obtain ⟨j, hj, hjq⟩ := decode_of_matches hq hqm 0
  obtain rfl : i = j := Except.ok.inj (hi.symm.trans hj)
  exact row_eq_of_mnemonic_eq r hr q hq (hir.symm.trans hjq)

/-- R65: the decoder rejects exactly the words that match no row. -/
theorem matches_none_iff (cmd arg : Word) :
    (∀ r ∈ opcodeTable, r.matches cmd = false) ↔ ∃ e, decode cmd arg = .error e := by
  cases hdec : decode cmd arg with
  | ok i =>
    obtain ⟨r, hr, -, hmatch⟩ := decoded_matches_row hdec
    exact ⟨fun h => absurd (h r hr) (by simp [hmatch]), fun ⟨_, he⟩ => nomatch he⟩
  | error e =>
    refine ⟨fun _ => ⟨e, rfl⟩, fun _ r hr => Bool.eq_false_iff.2 fun hmatch => ?_⟩
    obtain ⟨i, hi, -⟩ := decode_of_matches hr hmatch arg
    exact nomatch hdec.symm.trans hi

/-- Settles O3: `matches_iff_decode`, `row_unique` and `matches_none_iff`. -/
theorem wordIsTheCommandWhoseRowItMatches : Obligations.WordIsTheCommandWhoseRowItMatches :=
  ⟨fun cmd arg _ hr => matches_iff_decode cmd arg hr, fun _ _ hr _ hq => row_unique hr hq, matches_none_iff⟩

/-- Settles O4: the decoder evaluated on each word. -/
theorem wordsOfTheSpecDecode : Obligations.WordsOfTheSpecDecode := by
  unfold Obligations.WordsOfTheSpecDecode
  decide

end Sys2Proof

/-! ## A step that takes a command word -/

namespace Sys2Proof.Machine

theorem step_command {s : State} {cmd arg : Word} {rest : List HostAction} {i : Instr}
    (h : s.inbox = .command cmd arg :: rest) (hd : decode cmd arg = .ok i) : step s = exec i (s.setInbox rest) := by
  unfold step
  rw [h]
  simp only [hd]

theorem step_illegal {s : State} {cmd arg : Word} {rest : List HostAction} {e : DecodeError}
    (h : s.inbox = .command cmd arg :: rest) (hd : decode cmd arg = .error e) :
    step s = .next (refuse .illegal (s.setInbox rest)) := by
  unfold step
  rw [h]
  simp only [hd, illegalCommand]

/-- Settles O5: the word of a well-formed command decodes to it (O1), and taking the action issued leaves the state as
it was. -/
theorem stepRunsTheDecodedCommand : Obligations.StepRunsTheDecodedCommand :=
  ⟨fun _ _ _ _ _ => step_command, fun _ i hwf => step_command rfl (decodeOfEncodeIsTheInstruction i hwf)⟩

/-- Settles O6: the decoder rejects the word (O3), and a refusal sets one sticky bit and answers. -/
theorem illegalWordOnlyRaisesErrIllegal : Obligations.IllegalWordOnlyRaisesErrIllegal := by
  intro s cmd arg rest hin hnone
  obtain ⟨e, he⟩ := (matches_none_iff cmd arg).1 fun r hr => beq_eq_false_iff_ne.2 (hnone r hr)
  rw [step_illegal hin he, refuse_eq]
  rfl

end Sys2Proof.Machine

/-! ## Responses -/

namespace Sys2Proof.Machine

/-- The host's coming actions and the parameters are the same. -/
def HostSideKept (s t : State) : Prop := t.inbox = s.inbox ∧ t.params = s.params

theorem CodingFrame.hostSide {s t : State} (h : CodingFrame s t) : HostSideKept s t := by
  unfold CodingFrame at h
  rw [h]
  exact ⟨rfl, rfl⟩

theorem PassFrame.hostSide {s t : State} (h : PassFrame s t) : HostSideKept s t := h.coding.hostSide

theorem SegmentFrame.hostSide {s t : State} (h : SegmentFrame s t) : HostSideKept s t := by
  unfold SegmentFrame at h
  rw [h]
  exact ⟨rfl, rfl⟩

/-- What R70 says of the fields of the response to command `i`. -/
def ResponseFits (i : Instr) (r : Response) : Prop :=
  r.rsp.toNat < 2 ^ 7 ∧ r.err.toNat ≤ 8
    ∧ (r.err ≠ 0 → r.bit = false ∧ r.wkind = 0 ∧ r.val = 0)
    ∧ (r.bit = true → (∃ cx, i = .decode cx) ∨ i = .rawdec)
    ∧ (r.wkind ≠ 0 → i = .termchk)
    ∧ (r.val ≠ 0 → (∃ ra, i = .rdreg ra) ∨ i = .termchk ∨ i = .flushenc ∨ i = .rawflush)

theorem responseFits_error (i : Instr) (e : ErrorCode) : ResponseFits i (Response.error e) := by
  have hbit : (Response.error e).bit = false := by cases e <;> rfl
  have hkind : (Response.error e).wkind = 0 := by cases e <;> rfl
  have hval : (Response.error e).val = 0 := rfl
  exact ⟨by cases e <;> decide, by cases e <;> decide, fun _ => ⟨hbit, hkind, hval⟩,
    fun hb => absurd hb (by simp [hbit]), fun h => absurd hkind h, fun h => absurd hval h⟩

theorem responseFits_okValue {i : Instr} {v : Word}
    (h : v ≠ 0 → (∃ ra, i = .rdreg ra) ∨ i = .termchk ∨ i = .flushenc ∨ i = .rawflush) :
    ResponseFits i (Response.okValue v) := by
  have hbit : (Response.okValue v).bit = false := show (0 : Word).getLsbD 4 = false by decide
  have hkind : (Response.okValue v).wkind = 0 := show (0 : Word).extractLsb' 5 2 = 0 by decide
  exact ⟨Nat.two_pow_pos 7, Nat.zero_le 8, fun he => absurd rfl he, fun hb => absurd hb (by simp [hbit]),
    fun hk => absurd hkind hk, h⟩

theorem responseFits_ok (i : Instr) : ResponseFits i Response.ok := responseFits_okValue fun h => absurd rfl h

theorem responseFits_decision {i : Instr} (d : Bool) (h : (∃ cx, i = .decode cx) ∨ i = .rawdec) :
    ResponseFits i (Response.decision d) := by
  have herr : (Response.decision d).err = 0 := by cases d <;> rfl
  have hkind : (Response.decision d).wkind = 0 := by cases d <;> rfl
  exact ⟨by cases d <;> decide, by rw [herr]; decide, fun he => absurd herr he, fun _ => h, fun hk => absurd hkind hk,
    fun hv => absurd rfl hv⟩

theorem responseFits_warning (k : Warning) (v : Word) : ResponseFits .termchk (Response.warning k v) := by
  have hrsp : (Response.warning k v).rsp = (Response.warning k 0).rsp := rfl
  have herr : (Response.warning k v).err = 0 := by rw [Response.err, hrsp]; cases k <;> decide
  have hbit : (Response.warning k v).bit = false := by rw [Response.bit, hrsp]; cases k <;> decide
  exact ⟨by rw [hrsp]; cases k <;> decide, by rw [herr]; decide, fun he => absurd herr he,
    fun hb => absurd hb (by simp [hbit]), fun _ => rfl, fun _ => .inr (.inl rfl)⟩

/-- The command is answered as R70 says, and the host's side is kept. -/
def AnsweredIn (i : Instr) (s t : State) : Prop := HostSideKept s t ∧ ∃ r, t.response = some r ∧ ResponseFits i r

theorem answeredIn_answer {i : Instr} {s t : State} {r : Response} (h : HostSideKept s t) (hr : ResponseFits i r) :
    AnsweredIn i s (t.answer r) := ⟨h, r, rfl, hr⟩

theorem answeredIn_ok {i : Instr} {s t : State} (h : HostSideKept s t) : AnsweredIn i s (t.answer Response.ok) :=
  answeredIn_answer h (responseFits_ok i)

/-- A command that codes is answered at its end or by the fault. -/
theorem answeredIn_finish {α : Type} {i : Instr} {s : State} {F : State → Prop} {r : Run α} {last : α → State → State}
    (hr : r.All F) (hF : ∀ t, F t → HostSideKept s t) (hl : ∀ v t, HostSideKept s t → AnsweredIn i s (last v t)) :
    AnsweredIn i s (finish r last) :=
  finish_of_all hr (fun v t ht => hl v t (hF t ht)) fun t ht =>
    ⟨hF t ht, Response.error .overflow, rfl, responseFits_error i .overflow⟩

theorem answeredIn_finish_ok {α : Type} {i : Instr} {s : State} {F : State → Prop} {r : Run α} (hr : r.All F)
    (hF : ∀ t, F t → HostSideKept s t) : AnsweredIn i s (finish r fun _ t => t.answer Response.ok) :=
  answeredIn_finish hr hF fun _ _ => answeredIn_ok

theorem loadGeometry_hostSide (wm1 hm1 : Nat) (o : Orientation) (clr : Bool) (s : State) :
    HostSideKept s (loadGeometry wm1 hm1 o clr s) := by
  obtain ⟨u, m, h⟩ := loadGeometry_eq wm1 hm1 o clr s
  rw [h]
  exact ⟨by simp, by simp⟩

theorem leaveFault_hostSide (s : State) : HostSideKept s (leaveFault s) := ⟨rfl, rfl⟩

/-- Every command is answered, command by command. -/
theorem exec_answeredIn {i : Instr} {s t : State} (h : exec i s = .next t) : AnsweredIn i s t := by
  have kept : HostSideKept s s := ⟨rfl, rfl⟩
  rcases exec_cases i s t h with ⟨e, -, rfl⟩ | hr
  · exact answeredIn_answer (t := s.markError e) kept (responseFits_error i e)
  cases i
  case nop => exact hr ▸ answeredIn_ok kept
  case cxreset => exact hr.2 ▸ answeredIn_ok (t := s.setCx _) kept
  case clrstat =>
    dsimp only at hr
    rw [hr]
    refine answeredIn_ok ?_
    split
    · exact leaveFault_hostSide (clearSticky s)
    · exact kept
  case wrreg => rcases hr with ⟨-, rfl⟩ | ⟨-, rfl⟩ <;> exact answeredIn_ok (by exact kept)
  case rdreg ra =>
    obtain ⟨d, v, rfl⟩ := hr
    exact answeredIn_answer (t := s.setDraws d) kept (responseFits_okValue fun _ => .inl ⟨ra, rfl⟩)
  case initdec => obtain ⟨-, -, rfl⟩ := hr; exact answeredIn_ok (startDecoder_frame s).hostSide
  case decode cx =>
    obtain ⟨-, k, -, rfl⟩ := hr
    exact answeredIn_answer (decodeDecision_frame k s).coding.hostSide (responseFits_decision _ (.inl ⟨cx, rfl⟩))
  case finishdec => exact hr.2 ▸ answeredIn_ok kept
  case termchk =>
    rcases hr with ⟨-, ⟨v, rfl⟩ | ⟨v, rfl⟩ | rfl⟩
    · exact answeredIn_answer (t := s.setWslack true) kept (responseFits_warning .slack v)
    · exact answeredIn_answer (t := s.setWmark true) kept (responseFits_warning .markers v)
    · exact answeredIn_ok kept
  case initenc => obtain ⟨-, -, rfl⟩ := hr; exact answeredIn_ok (startEncoder_frame s).hostSide
  case encode =>
    obtain ⟨-, k, -, rfl⟩ := hr
    exact answeredIn_finish_ok (encodeDecision_frame k _ s) fun _ g => g.coding.hostSide
  case flushenc =>
    obtain ⟨-, rfl⟩ := hr
    exact answeredIn_finish (flushEncoder_frame s) (fun _ g => g.coding.hostSide) fun _ t g =>
      answeredIn_answer (t := t.setMode .idle) g (responseFits_okValue fun _ => .inr (.inr (.inl rfl)))
  case rawinitdec => obtain ⟨-, -, rfl⟩ := hr; exact answeredIn_ok (startRawDecoder_frame s).hostSide
  case rawdec =>
    obtain ⟨-, rfl⟩ := hr
    exact answeredIn_answer (rawDecodeBit_frame s).coding.hostSide (responseFits_decision _ (.inr rfl))
  case rawinitenc => obtain ⟨-, -, rfl⟩ := hr; exact answeredIn_ok (startRawEncoder_frame s).hostSide
  case rawenc =>
    obtain ⟨-, rfl⟩ := hr
    exact answeredIn_finish_ok (rawEncodeBit_frame _ s) fun _ g => g.coding.hostSide
  case rawflush =>
    obtain ⟨-, rfl⟩ := hr
    exact answeredIn_finish (rawFlush_frame s) (fun _ g => g.coding.hostSide) fun _ t g =>
      answeredIn_answer (t := t.setMode .idle) g (responseFits_okValue fun _ => .inr (.inr (.inr rfl)))
  case cbinit wm1 hm1 o clr =>
    obtain ⟨-, -, rfl⟩ := hr
    exact answeredIn_ok (loadGeometry_hostSide wm1 hm1 o clr s)
  case sigpass p =>
    obtain ⟨⟨hi, hf⟩, -, -, rfl⟩ := hr
    exact answeredIn_finish_ok (significancePass_frame p s hi hf) fun _ g => g.hostSide
  case refpass p =>
    obtain ⟨⟨hi, hf⟩, -, -, rfl⟩ := hr
    exact answeredIn_finish_ok (refinementPass_frame p s hi hf) fun _ g => g.hostSide
  case clnpass p =>
    obtain ⟨hm, -, -, rfl⟩ := hr
    exact answeredIn_finish_ok (cleanupPass_frame p s hm) fun _ g => g.hostSide

/-- Settles O13: every command ends in a next state, in which `exec_answeredIn` says what the response is. -/
theorem everyCommandIsAnswered : Obligations.EveryCommandIsAnswered := by
  intro i s
  obtain ⟨t, ht⟩ := exec_next i s
  obtain ⟨⟨hin, hparams⟩, r, hr, hfits⟩ := exec_answeredIn ht
  exact ⟨t, r, ht, hr, hin, hparams, hfits⟩

/-! ## Segments opened by a pseudo-command -/

/-- The commands of a list are carried out in order, each answered (R60). -/
theorem issueAll_cons {i : Instr} {rest : List Instr} {s t : State} {r : Response} (h : exec i s = .next t)
    (hr : t.response = some r) :
    issueAll (i :: rest) s = (r :: (issueAll rest t).1, (issueAll rest t).2) := by
  simp [issueAll, h, hr]

/-- An INIT command reads SEGBASE and SEGLEN and writes neither (R42). -/
theorem SegmentFrame.operands {s t : State} (h : SegmentFrame s t) : t.segbase = s.segbase ∧ t.seglen = s.seglen := by
  unfold SegmentFrame at h
  rw [h]
  exact ⟨rfl, rfl⟩

/-- What an INIT command does where it is admitted: it starts its sub-coder in mode `m`. -/
structure OpensSegment (i : Instr) (start : State → State) (m : Mode) : Prop where
  exec_eq : ∀ s, s.mode ≠ .fault → WindowAdmitted s → exec i s = .next ((start s).answer Response.ok)
  frame : ∀ s, SegmentFrame s (start s)
  mode : ∀ s, (start s).mode = m
  window : ∀ s, (start s).startAddr = s.segbase ∧ (start s).endAddr = s.segbase + s.seglen

theorem initCheck_eq_none {s : State} (hf : s.mode ≠ .fault) (hw : WindowAdmitted s) : initCheck s = none :=
  orElse_eq_none.2 ⟨requireNotFault_eq_none.2 hf, windowCheck_eq_none.2 hw⟩

theorem startDecoder_window (s : State) :
    (startDecoder s).startAddr = s.segbase ∧ (startDecoder s).endAddr = s.segbase + s.seglen := by
  have hloaded : (firstByteLoaded s).startAddr = s.segbase ∧ (firstByteLoaded s).endAddr = s.segbase + s.seglen := by
    simp [firstByteLoaded, loadWindow]
  obtain ⟨hstart, hend⟩ := (byteIn_frame (firstByteLoaded s)).coding.window
  rw [startDecoder_eq]
  simp [decoderPrimed, hstart, hend, hloaded]

theorem opensSegment_initdec : OpensSegment .initdec startDecoder .dec where
  exec_eq s hf hw := by rw [exec, execInitdec, initCheck_eq_none hf hw, admitted_none]
  frame := startDecoder_frame
  mode := startDecoder_mode
  window := startDecoder_window

theorem opensSegment_initenc : OpensSegment .initenc startEncoder .enc where
  exec_eq s hf hw := by rw [exec, execInitenc, initCheck_eq_none hf hw, admitted_none]
  frame := startEncoder_frame
  mode _ := rfl
  window _ := ⟨rfl, rfl⟩

theorem opensSegment_rawinitdec : OpensSegment .rawinitdec startRawDecoder .rawdec where
  exec_eq s hf hw := by rw [exec, execRawinitdec, initCheck_eq_none hf hw, admitted_none]
  frame := startRawDecoder_frame
  mode _ := rfl
  window _ := ⟨rfl, rfl⟩

theorem opensSegment_rawinitenc : OpensSegment .rawinitenc startRawEncoder .rawenc where
  exec_eq s hf hw := by rw [exec, execRawinitenc, initCheck_eq_none hf hw, admitted_none]
  frame := startRawEncoder_frame
  mode _ := rfl
  window _ := ⟨rfl, rfl⟩

/-- The state after the two WRREG of a pseudo-command (R69, R193). -/
def operandsWritten (base len : Word) (s : State) : State :=
  (((s.setSegbase base).answer Response.ok).setSeglen len).answer Response.ok

theorem issueAll_segment {i : Instr} {start : State → State} {m : Mode} (c : OpensSegment i start m) {s : State}
    (base len : Word) (hf : s.mode ≠ .fault) (hw : WindowAdmitted { s with segbase := base, seglen := len }) :
    issueAll [.wrreg 0x04 base, .wrreg 0x05 len, i] s =
      ([Response.ok, Response.ok, Response.ok], (start (operandsWritten base len s)).answer Response.ok) := by
  have hinit := c.exec_eq (operandsWritten base len s) hf hw
  rw [issueAll_cons (t := (s.setSegbase base).answer Response.ok) rfl rfl,
    issueAll_cons (t := operandsWritten base len s) rfl rfl, issueAll_cons hinit rfl]
  rfl

/-- What the run of a pseudo-command leaves, for each of the four INIT commands. -/
theorem OpensSegment.run {i : Instr} {start : State → State} {m : Mode} (c : OpensSegment i start m) {s : State}
    {base len : Word} (hf : s.mode ≠ .fault) (hw : WindowAdmitted { s with segbase := base, seglen := len }) :
    let run := issueAll [.wrreg 0x04 base, .wrreg 0x05 len, i] s
    run.1.length = 3 ∧ (∀ r ∈ run.1, r.err = 0) ∧ run.2.mode = m ∧ run.2.startAddr = base
      ∧ run.2.endAddr = base + len ∧ run.2.segbase = base ∧ run.2.seglen = len ∧ run.2.cx = s.cx := by
  have hframe := c.frame (operandsWritten base len s)
  obtain ⟨hstart, hend⟩ := c.window (operandsWritten base len s)
  obtain ⟨hbase, hlen⟩ := hframe.operands
  rw [issueAll_segment c base len hf hw]
  have hok : ∀ r ∈ [Response.ok, Response.ok, Response.ok], r.err = 0 := by decide
  exact ⟨rfl, hok, c.mode _, hstart, hend, hbase, hlen, hframe.cx⟩

/-- Settles O40: each pseudo-command is the two WRREG and its INIT command. -/
theorem segmentPseudoCommandsOpenTheSegment : Obligations.SegmentPseudoCommandsOpenTheSegment := by
  intro s base len hf hw pm hpm
  simp only [List.mem_cons, List.not_mem_nil, or_false] at hpm
  rcases hpm with rfl | rfl | rfl | rfl
  · exact opensSegment_initdec.run hf hw
  · exact opensSegment_initenc.run hf hw
  · exact opensSegment_rawinitdec.run hf hw
  · exact opensSegment_rawinitenc.run hf hw

end Sys2Proof.Machine

/-! ## The Context Model Table and its two transitions -/

namespace Sys2Proof.Machine

theorem mpsTransition_cx_self (k : Label) (s : State) :
    (mpsTransition k s).cx[k] = ⟨(selectedRow k s).nmps, s.cx[k].mps⟩ :=
  Vector.getElem_set_self k.isLt

theorem lpsTransition_cx_self (k : Label) (s : State) :
    (lpsTransition k s).cx[k] = ⟨(selectedRow k s).nlps, s.cx[k].mps != (selectedRow k s).switch⟩ :=
  Vector.getElem_set_self k.isLt

theorem mpsTransition_cx_ne {j k : Label} (h : j ≠ k) (s : State) : (mpsTransition k s).cx[j] = s.cx[j] :=
  Vector.getElem_set_ne k.isLt j.isLt (Fin.val_ne_of_ne h.symm)

theorem lpsTransition_cx_ne {j k : Label} (h : j ≠ k) (s : State) : (lpsTransition k s).cx[j] = s.cx[j] :=
  Vector.getElem_set_ne k.isLt j.isLt (Fin.val_ne_of_ne h.symm)

/-- MPS is inverted where SWITCH is 1 (R85). -/
theorem bne_switch (mps switch : Bool) : (mps != switch) = if switch then !mps else mps := by
  cases switch <;> simp

/-- Settles O27: each transition is one write of the context register file, at the label selected. -/
theorem transitionsWriteTheSelectedContext : Obligations.TransitionsWriteTheSelectedContext := by
  intro k s row
  have hlps : (lpsTransition k s).cx[k] = ⟨row.nlps, if row.switch then !s.cx[k].mps else s.cx[k].mps⟩ :=
    (lpsTransition_cx_self k s).trans (congrArg _ (bne_switch _ _))
  exact ⟨rfl, mpsTransition_cx_self k s, rfl, hlps, fun j hj => ⟨mpsTransition_cx_ne hj s, lpsTransition_cx_ne hj s⟩⟩

/-- R87 (b): SWITCH is 1 in three rows. -/
theorem cmtRow_switch_iff : ∀ i : BitVec 6, (cmtRow i).switch = true ↔ i = 0 ∨ i = 6 ∨ i = 14 := by decide

/-- R87 (c): the three switching rows and row 46 have the largest QE. -/
theorem cmtRow_qe_largest_iff :
    ∀ i : BitVec 6, i ≤ 46 → ((cmtRow i).qe = 0x5601 ↔ i = 0 ∨ i = 6 ∨ i = 14 ∨ i = 46) := by decide

/-- R87 (e): after an MPS the rows 45 and 46 alone stay as they are. -/
theorem cmtRow_nmps_self_iff : ∀ i : BitVec 6, i ≤ 46 → ((cmtRow i).nmps = i ↔ i = 45 ∨ i = 46) := by decide

/-- R87 (d): row 46 is its own successor both ways and never switches. -/
theorem cmtRow_uniform : cmtRow 46 = ⟨0x5601, 46, 46, false⟩ := rfl

/-- A context in state 46 does not adapt, whatever its MPS and whichever label has it. -/
theorem transitions_of_uniform {k : Label} {s : State} (h : s.cx[k].i = 46) :
    (mpsTransition k s).cx[k] = s.cx[k] ∧ (lpsTransition k s).cx[k] = s.cx[k] := by
  have hrow : selectedRow k s = ⟨0x5601, 46, 46, false⟩ := (congrArg cmtRow h).trans cmtRow_uniform
  have hcx : s.cx[k] = ⟨46, s.cx[k].mps⟩ := congrArg (Context.mk · s.cx[k].mps) h
  rw [mpsTransition_cx_self, lpsTransition_cx_self, hrow, Bool.bne_false]
  exact ⟨hcx.symm, hcx.symm⟩

theorem transitions_index_le (k : Label) (s : State) :
    (mpsTransition k s).cx[k].i ≤ 46 ∧ (lpsTransition k s).cx[k].i ≤ 46 := by
  rw [mpsTransition_cx_self, lpsTransition_cx_self]
  exact cmtRow_next_le _

/-- Settles O26: the clauses of R87 about rows are read off the table, and those about contexts follow from what the
transitions write. -/
theorem contextModelTableFacts : Obligations.ContextModelTableFacts := by
  refine ⟨fun i _ => ?_, fun i _ => cmtRow_switch_iff i, cmtRow_qe_largest_iff, ?_,
    fun _ _ => transitions_of_uniform, fun k s _ => transitions_index_le k s, cmtRow_nmps_self_iff⟩
  · obtain ⟨hpos, hmax⟩ := cmtRow_qe_range i
    obtain ⟨hnmps, hnlps⟩ := cmtRow_next_le i
    exact ⟨BitVec.le_def.2 hpos, BitVec.le_def.2 hmax, by decide, hnmps, hnlps⟩
  · rw [cmtRow_uniform]
    exact ⟨rfl, rfl, rfl⟩

/-! ## The commands that write contexts -/

theorem initialContexts_values :
    initialContexts[labelUNI] = ⟨46, false⟩ ∧ initialContexts[labelAGG] = ⟨3, false⟩
      ∧ initialContexts[labelZC0] = ⟨4, false⟩
      ∧ ∀ k : Label, 1 ≤ k.val → k.val ≤ 16 → initialContexts[k] = ⟨0, false⟩ := by decide

/-- CXRESET outside FAULT (R86). -/
theorem exec_cxreset {s : State} (h : s.mode ≠ .fault) :
    exec .cxreset s = .next ((s.setCx initialContexts).answer Response.ok) := by
  rw [exec, execCxreset, requireNotFault_eq_none.2 h, admitted_none]

/-- Settles O22: the register file is loaded with the table of R83. -/
theorem cxresetLoadsInitialContexts : Obligations.CxresetLoadsInitialContexts :=
  fun _ h => ⟨_, exec_cxreset h, rfl, initialContexts_values⟩

/-- What a raw segment carries over (R130, R131): the contexts, A, C and CT, and EOSCNT. -/
def MqStateKept (s t : State) : Prop :=
  t.cx = s.cx ∧ t.a = s.a ∧ t.c = s.c ∧ t.ct = s.ct ∧ t.eoscnt = s.eoscnt

theorem MqStateKept.refl (s : State) : MqStateKept s s := ⟨rfl, rfl, rfl, rfl, rfl⟩

theorem RawDecoderFrame.mqStateKept {s t : State} (h : RawDecoderFrame s t) : MqStateKept s t := by
  unfold RawDecoderFrame at h
  rw [h]
  exact .refl s

theorem RawEncoderFrame.mqStateKept {s t : State} (h : RawEncoderFrame s t) : MqStateKept s t := by
  unfold RawEncoderFrame at h
  rw [h]
  exact .refl s

/-- In a raw mode the sub-coder is a raw one (R160). -/
theorem CoderFrame.mqStateKept {s t : State} (h : CoderFrame s t) (hm : s.mode = .rawdec ∨ s.mode = .rawenc) :
    MqStateKept s t := by
  unfold CoderFrame at h
  rcases hm with hm | hm <;> rw [hm] at h
  · exact RawDecoderFrame.mqStateKept h
  · exact RawEncoderFrame.mqStateKept h

theorem PassFrame.mqStateKept {s t : State} (h : PassFrame s t) (hm : s.mode = .rawdec ∨ s.mode = .rawenc) :
    MqStateKept s t :=
  CoderFrame.mqStateKept (t := { t with fp := s.fp, cp := s.cp }) h.1 hm

/-- The response and the fault leave them too; that the fault does is the model's choice (log entry 10). -/
theorem mqStateKept_finish_ok {α : Type} {s : State} {P : State → Prop} {r : Run α} (hr : r.All P)
    (hP : ∀ t, P t → MqStateKept s t) : MqStateKept s (finish r fun _ t => t.answer Response.ok) :=
  finish_of_all hr (fun _ t ht => hP t ht) fun t ht => hP t ht

/-- No raw command, and no pass in a raw mode, writes anything of the MQ coders. -/
theorem exec_mqStateKept {i : Instr} {s t : State} (h : exec i s = .next t) (hm : s.mode = .rawdec ∨ s.mode = .rawenc)
    (hi : (∃ d, i = .rawenc d) ∨ i = .rawdec ∨ i = .rawflush ∨ ∃ p, i = .sigpass p ∨ i = .refpass p) :
    MqStateKept s t := by
  rcases exec_cases i s t h with ⟨e, -, rfl⟩ | hr
  · exact .refl s
  rcases hi with ⟨d, rfl⟩ | rfl | rfl | ⟨p, rfl | rfl⟩
  · obtain ⟨-, rfl⟩ := hr
    exact mqStateKept_finish_ok (rawEncodeBit_frame d s) fun _ g => g.mqStateKept
  · obtain ⟨-, rfl⟩ := hr
    exact (rawDecodeBit_frame s).mqStateKept
  · obtain ⟨-, rfl⟩ := hr
    exact finish_of_all (rawFlush_frame s) (fun _ _ g => g.mqStateKept) fun _ g => g.mqStateKept
  · obtain ⟨⟨hi, hf⟩, -, -, rfl⟩ := hr
    exact mqStateKept_finish_ok (significancePass_frame p s hi hf) fun _ g => g.mqStateKept hm
  · obtain ⟨⟨hi, hf⟩, -, -, rfl⟩ := hr
    exact mqStateKept_finish_ok (refinementPass_frame p s hi hf) fun _ g => g.mqStateKept hm

theorem arithmetic_or_raw {m : Mode} (h : m ≠ .idle ∧ m ≠ .fault) :
    (m = .dec ∨ m = .enc) ∨ (m = .rawdec ∨ m = .rawenc) := by
  cases m <;> simp at h ⊢

/-- The commands that R88 allows to write CX, in the modes in which they may. -/
def WritesContexts (i : Instr) (s : State) : Prop :=
  i = .cxreset ∨ (i = .clrstat ∧ s.mode = .fault) ∨ (∃ cx, i = .decode cx) ∨ (∃ cx d, i = .encode cx d)
    ∨ ((s.mode = .dec ∨ s.mode = .enc) ∧ ∃ p, i = .sigpass p ∨ i = .refpass p ∨ i = .clnpass p)

theorem writesContexts_pass {i : Instr} {s : State} {p : Nat} (hm : s.mode = .dec ∨ s.mode = .enc)
    (hi : i = .sigpass p ∨ i = .refpass p ∨ i = .clnpass p) : WritesContexts i s :=
  .inr (.inr (.inr (.inr ⟨hm, p, hi⟩)))

/-- Every other command leaves every context as it is. -/
theorem exec_cx_or_writesContexts {i : Instr} {s t : State} (h : exec i s = .next t) :
    t.cx = s.cx ∨ WritesContexts i s := by
  rcases exec_cases i s t h with ⟨e, -, rfl⟩ | hr
  · exact .inl rfl
  cases i
  case nop => exact .inl (hr ▸ rfl)
  case cxreset => exact .inr (.inl rfl)
  case clrstat =>
    dsimp only at hr
    split at hr
    case isTrue hf => exact .inr (.inr (.inl ⟨rfl, hf⟩))
    case isFalse => exact .inl (hr ▸ rfl)
  case wrreg => rcases hr with ⟨-, rfl⟩ | ⟨-, rfl⟩ <;> exact .inl rfl
  case rdreg => obtain ⟨d, v, rfl⟩ := hr; exact .inl rfl
  case initdec => obtain ⟨-, -, rfl⟩ := hr; exact .inl (startDecoder_frame s).cx
  case decode cx => exact .inr (.inr (.inr (.inl ⟨cx, rfl⟩)))
  case finishdec => exact .inl (hr.2 ▸ rfl)
  case termchk => rcases hr with ⟨-, ⟨v, rfl⟩ | ⟨v, rfl⟩ | rfl⟩ <;> exact .inl rfl
  case initenc => obtain ⟨-, -, rfl⟩ := hr; exact .inl (startEncoder_frame s).cx
  case encode cx d => exact .inr (.inr (.inr (.inr (.inl ⟨cx, d, rfl⟩))))
  case flushenc =>
    obtain ⟨-, rfl⟩ := hr
    exact .inl (finish_of_all (Q := fun t => t.cx = s.cx) (flushEncoder_cx s) (fun _ _ g => g) fun _ g => g)
  case rawinitdec => obtain ⟨-, -, rfl⟩ := hr; exact .inl (startRawDecoder_frame s).cx
  case rawdec => exact .inl (exec_mqStateKept h (.inl hr.1) (.inr (.inl rfl))).1
  case rawinitenc => obtain ⟨-, -, rfl⟩ := hr; exact .inl (startRawEncoder_frame s).cx
  case rawenc d => exact .inl (exec_mqStateKept h (.inr hr.1) (.inl ⟨d, rfl⟩)).1
  case rawflush => exact .inl (exec_mqStateKept h (.inr hr.1) (.inr (.inr (.inl rfl)))).1
  case cbinit wm1 hm1 o clr =>
    obtain ⟨-, -, rfl⟩ := hr
    obtain ⟨u, m, hload⟩ := loadGeometry_eq wm1 hm1 o clr s
    rw [hload]
    exact .inl (by simp [State.answer])
  case sigpass p =>
    rcases arithmetic_or_raw hr.1 with hm | hm
    · exact .inr (writesContexts_pass hm (.inl rfl))
    · exact .inl (exec_mqStateKept h hm (.inr (.inr (.inr ⟨p, .inl rfl⟩)))).1
  case refpass p =>
    rcases arithmetic_or_raw hr.1 with hm | hm
    · exact .inr (writesContexts_pass hm (.inr (.inl rfl)))
    · exact .inl (exec_mqStateKept h hm (.inr (.inr (.inr ⟨p, .inr rfl⟩)))).1
  case clnpass p => exact .inr (writesContexts_pass hr.1 (.inr (.inr rfl)))

/-- Settles O18: a command is one of the writers of CX or leaves it as it is, and the raw sub-coder writes nothing of the
MQ coders. -/
theorem onlyListedCommandsWriteContexts : Obligations.OnlyListedCommandsWriteContexts :=
  ⟨fun _ _ _ h hcx => (exec_cx_or_writesContexts h).resolve_left hcx, fun _ _ _ h hm hi => exec_mqStateKept h hm hi⟩

end Sys2Proof.Machine

/-! ## Byte-in (R90) -/

namespace Sys2Proof.Machine

/-- A byte taken into C, moved up by at most 24 places, loses no bit. -/
theorem toNat_byte_shifted (b : Byte) {k : Nat} (hk : k ≤ 24) : (b.setWidth 32 <<< k).toNat = b.toNat * 2 ^ k := by
  have hpow : b.toNat * 2 ^ k < 2 ^ 32 :=
    (Nat.mul_lt_mul_of_lt_of_le b.isLt (Nat.pow_le_pow_right two_pos hk) (Nat.two_pow_pos 24)).trans_eq (by decide)
  rw [BitVec.toNat_shiftLeft, Nat.shiftLeft_eq, toNat_setWidth_word b (by decide), Nat.mod_eq_of_lt hpow]

theorem toNat_add_byte_shifted (c : Word) (b : Byte) {k : Nat} (hk : k ≤ 24) :
    (c + b.setWidth 32 <<< k).toNat = (c.toNat + b.toNat * 2 ^ k) % 2 ^ 32 := by
  rw [BitVec.toNat_add, toNat_byte_shifted b hk]

/-- EOSCNT counts one marker more and saturates (R18). -/
theorem countMarker_toNat (n : Word) : (countMarker n).toNat = min (n.toNat + 1) (2 ^ 32 - 1) := by
  unfold countMarker
  split
  case isTrue h => rw [h]; rfl
  case isFalse h => bv_omega

theorem byteIn_marker {s : State} (hcur : fetchByte s s.bp = 0xFF) (hnext : 0x8F < fetchByte s (s.bp + 1)) :
    byteIn s = ((s.setC (s.c + 0xFF00)).setCt 8).setEoscnt (countMarker s.eoscnt) :=
  (if_pos hcur).trans (if_pos hnext)

theorem byteIn_stuffed {s : State} (hcur : fetchByte s s.bp = 0xFF) (hnext : fetchByte s (s.bp + 1) ≤ 0x8F) :
    byteIn s = ((s.setBp (s.bp + 1)).setC (s.c + (fetchByte s (s.bp + 1)).setWidth 32 <<< 9)).setCt 7 :=
  (if_pos hcur).trans (if_neg (BitVec.not_lt.2 hnext))

theorem byteIn_ordinary {s : State} (hcur : fetchByte s s.bp ≠ 0xFF) :
    byteIn s = ((s.setBp (s.bp + 1)).setC (s.c + (fetchByte s (s.bp + 1)).setWidth 32 <<< 8)).setCt 8 :=
  if_neg hcur

/-- The frame of BYTEIN, without A and the contexts, which it does not write (R90). -/
theorem byteIn_eq (s : State) :
    byteIn s = { s with
      c := (byteIn s).c, ct := (byteIn s).ct, bp := (byteIn s).bp, eoscnt := (byteIn s).eoscnt } := by
  have h := byteIn_frame s
  rw [DecoderFrame, byteIn_a, byteIn_cx] at h
  exact h

/-- Settles O28: the three arms of BYTEIN, each with its arithmetic on C and EOSCNT. -/
theorem byteInTakesMarkerStuffedOrOrdinaryByte : Obligations.ByteInTakesMarkerStuffedOrOrdinaryByte := by
  intro s t cur following
  refine ⟨byteIn_eq s, fun hcur hnext => ?marker, fun hcur hnext => ?stuffed, fun hcur => ?ordinary⟩
  case marker =>
    have ht : t = _ := byteIn_marker hcur hnext
    rw [ht]
    refine ⟨by simp, by simp, ?_, ?_⟩
    · rw [State.setEoscnt_c, State.setCt_c, State.setC_c]
      bv_omega
    · rw [State.setEoscnt_eoscnt]
      exact countMarker_toNat s.eoscnt
  case stuffed =>
    have ht : t = _ := byteIn_stuffed hcur hnext
    rw [ht]
    refine ⟨by simp, by simp, ?_, by simp⟩
    rw [State.setCt_c, State.setC_c]
    exact toNat_add_byte_shifted s.c following (by decide)
  case ordinary =>
    have ht : t = _ := byteIn_ordinary hcur
    rw [ht]
    refine ⟨by simp, by simp, ?_, by simp⟩
    rw [State.setCt_c, State.setC_c]
    exact toNat_add_byte_shifted s.c following (by decide)

/-! ## Renormalization (R91, R115) -/

theorem decoderRound_iterate_a (n : Nat) (s : State) : (decoderRound^[n] s).a = s.a <<< n := by
  induction n generalizing s with
  | zero => simp
  | succ n ih => rw [Function.iterate_succ_apply, ih, decoderRound_a, ← BitVec.shiftLeft_add, Nat.add_comm]

/-- RENORMD makes exactly the rounds that are due (R91). -/
theorem renormDecoder_eq_iterate {k n : Nat} {s : State} (hk : ShiftsDue (k + 1) s.a) (hkn : k < n) :
    renormDecoder n s = decoderRound^[k + 1] s := by
  induction k generalizing n s with
  | zero =>
    obtain ⟨n, rfl⟩ := Nat.exists_eq_add_one_of_ne_zero (Nat.ne_zero_of_lt hkn)
    have hdone : ¬ (decoderRound s).a < 0x8000 := by
      rw [decoderRound_a]
      exact hk.succ.2.not_lt
    exact if_neg hdone
  | succ k ih =>
    obtain ⟨n, rfl⟩ := Nat.exists_eq_add_one_of_ne_zero (Nat.ne_zero_of_lt hkn)
    have hrest : ShiftsDue (k + 1) (decoderRound s).a := by
      rw [decoderRound_a]
      exact hk.succ.2
    have hlt : (decoderRound s).a < 0x8000 := hrest.succ.1
    rw [renormDecoder, if_pos hlt, ih hrest (by omega), ← Function.iterate_succ_apply]

/-- A byte-out does not touch A (R116). -/
theorem byteOut_a (s : State) : (byteOut s).All fun t => t.a = s.a := by
  rcases byteOut_result s with ⟨m, c, h⟩ | ⟨-, m, c, n, -, h⟩ <;> rw [h] <;> simp

theorem encoderRound_a (s : State) : (encoderRound s).All fun t => t.a = s.a <<< 1 := by
  unfold encoderRound
  split
  · exact byteOut_a (shiftUp s)
  · exact shiftUp_a s

/-- The two renormalizations shift A alike: how often depends on A alone (R91, R115). -/
theorem renormEncoder_a (n : Nat) {s t u : State} (ha : s.a = t.a) (h : renormEncoder n t = .done () u) :
    u.a = (renormDecoder n s).a := by
  induction n generalizing s t with
  | zero =>
    cases h
    exact ha.symm
  | succ n ih =>
    have hround := encoderRound_a t
    rw [renormEncoder] at h
    cases hr : encoderRound t with
    | overflow v => rw [hr] at h; cases h
    | done _ v =>
      rw [hr, Run.bind_done] at h
      rw [hr, Run.all_done] at hround
      have hv : (decoderRound s).a = v.a := by rw [decoderRound_a, ha, hround]
      rw [renormDecoder, hv]
      split at h
      case isTrue hlt => rw [if_pos hlt]; exact ih hv h
      case isFalse hge => cases h; rw [if_neg hge, hv]

/-- Settles O29: the rounds of RENORMD are counted by the shifts that are due, and RENORME shifts A as RENORMD does. -/
theorem renormalizationShiftsUntilNormalized : Obligations.RenormalizationShiftsUntilNormalized := by
  refine ⟨fun s n ha hn hlt hle => ?_, fun s => rfl, fun s => rfl⟩
  have h15 : n ≤ 15 := shifts_le_fifteen ha hlt
  obtain ⟨k, rfl⟩ := Nat.exists_eq_add_one_of_ne_zero (Nat.ne_zero_of_lt hn)
  have hiter : renormDecoder maxShifts s = decoderRound^[k + 1] s :=
    renormDecoder_eq_iterate (shiftsDue_of_range hlt hle) h15
  have hshift : (renormDecoder maxShifts s).a.toNat = s.a.toNat * 2 ^ (k + 1) := by
    have hfits : s.a.toNat * 2 ^ (k + 1) < 2 ^ 16 := by
      rw [Nat.add_sub_cancel] at hlt
      rw [Nat.pow_succ, ← Nat.mul_assoc]
      omega
    rw [hiter, decoderRound_iterate_a, BitVec.toNat_shiftLeft, Nat.shiftLeft_eq, Nat.mod_eq_of_lt hfits]
  exact ⟨h15, hiter, hshift, fun t ht => by rw [renormEncoder_a maxShifts rfl ht, hshift]⟩

end Sys2Proof.Machine

/-! ## INITDEC (R92) -/

namespace Sys2Proof.Machine

/-- An admitted window ends in CB, so END is SEGBASE + SEGLEN without wrap-around (R42). -/
theorem windowAdmitted_end {s : State} (hp : s.params.wf = true) (hw : WindowAdmitted s) :
    (s.segbase + s.seglen).toNat = s.segbase.toNat + s.seglen.toNat := by
  obtain ⟨-, hend⟩ := hw
  have hcb : s.params.cbsize ≤ 2 ^ 31 := by
    simp only [Params.wf, Bool.and_eq_true, decide_eq_true_eq] at hp
    exact hp.1.1
  rw [BitVec.toNat_add]
  omega

@[simp] theorem firstByteLoaded_bp (s : State) : (firstByteLoaded s).bp = s.segbase.toNat := by
  simp [firstByteLoaded, loadWindow]

@[simp] theorem firstByteLoaded_endAddr (s : State) : (firstByteLoaded s).endAddr = s.segbase + s.seglen := by
  simp [firstByteLoaded, loadWindow]

@[simp] theorem firstByteLoaded_eoscnt (s : State) : (firstByteLoaded s).eoscnt = 0 := by
  simp [firstByteLoaded]

@[simp] theorem firstByteLoaded_cb (s : State) : (firstByteLoaded s).cb = s.cb := by
  simp [firstByteLoaded, loadWindow]

@[simp] theorem decoderPrimed_c (s : State) : (decoderPrimed s).c = s.c <<< 7 := by simp [decoderPrimed]

@[simp] theorem decoderPrimed_ct (s : State) : (decoderPrimed s).ct = s.ct - 7 := by simp [decoderPrimed]

@[simp] theorem decoderPrimed_bp (s : State) : (decoderPrimed s).bp = s.bp := by simp [decoderPrimed]

@[simp] theorem decoderPrimed_eoscnt (s : State) : (decoderPrimed s).eoscnt = s.eoscnt := by simp [decoderPrimed]

/-- In the window that INITDEC loads, `fetch` reads the bytes of the segment (R42, R43). -/
theorem fetchByte_firstByteLoaded {s : State} (hp : s.params.wf = true) (hw : WindowAdmitted s) (n : Nat) :
    fetchByte (firstByteLoaded s) ((s.segbase.toNat : Int) + n) = segmentByte s n := by
  unfold fetchByte segmentByte
  rw [firstByteLoaded_endAddr, firstByteLoaded_cb, windowAdmitted_end hp hw, ← Nat.cast_add, Int.toNat_natCast]
  exact if_congr (by omega) rfl rfl

theorem firstByteLoaded_c {s : State} (hp : s.params.wf = true) (hw : WindowAdmitted s) :
    (firstByteLoaded s).c = (segmentByte s 0).setWidth 32 <<< 16 := by
  rw [← fetchByte_firstByteLoaded hp hw 0]
  simp [firstByteLoaded, fetchByte]

/-- The two bytes that INITDEC reads, moved up by 7 places at once, fit in C. -/
theorem toNat_two_bytes_primed (b0 b1 : Byte) {k : Nat} (hk : k ≤ 24)
    (h : b0.toNat * 2 ^ 16 + b1.toNat * 2 ^ k < 2 ^ 25) :
    ((b0.setWidth 32 <<< 16 + b1.setWidth 32 <<< k : Word) <<< 7).toNat
      = (b0.toNat * 2 ^ 16 + b1.toNat * 2 ^ k) * 2 ^ 7 := by
  rw [BitVec.toNat_shiftLeft, Nat.shiftLeft_eq, toNat_add_byte_shifted _ b1 hk, toNat_byte_shifted b0 (by decide)]
  omega

/-- INITDEC leaves what R92 lists and nothing else. -/
theorem startDecoder_fields (s : State) :
    let t := startDecoder s
    t = { s with
      mode := .dec, startAddr := s.segbase, endAddr := s.segbase + s.seglen, a := 0x8000, c := t.c, ct := t.ct
      bp := t.bp, eoscnt := t.eoscnt
      unspec := { s.unspec with mq := false, bp := false, window := false, eoscnt := false } } := by
  obtain ⟨c, ct, bp, n, h⟩ : ∃ c ct bp n, byteIn (firstByteLoaded s) =
      { firstByteLoaded s with c := c, ct := ct, bp := bp, eoscnt := n } := ⟨_, _, _, _, byteIn_eq _⟩
  rw [startDecoder_eq, h]
  apply State.ext <;> simp [decoderPrimed, firstByteLoaded, loadWindow]

/-- What INITDEC makes of its byte-in (R92). -/
theorem startDecoder_of_byteIn {s u : State} (h : byteIn (firstByteLoaded s) = u) :
    (startDecoder s).c = u.c <<< 7 ∧ (startDecoder s).ct = u.ct - 7 ∧ (startDecoder s).bp = u.bp
      ∧ (startDecoder s).eoscnt = u.eoscnt := by
  rw [startDecoder_eq, h]
  simp

/-- INITDEC's registers by the first two bytes of the segment, in the three cases of the byte-in (R90, R92). -/
theorem startDecoder_registers {s : State} (hp : s.params.wf = true) (hw : WindowAdmitted s) :
    let t := startDecoder s
    let b0 := segmentByte s 0
    let b1 := segmentByte s 1
    (b0 = 0xFF → 0x8F < b1 → t.c = 0x7FFF8000 ∧ t.ct = 1 ∧ t.bp = s.segbase.toNat ∧ t.eoscnt = 1)
      ∧ (b0 = 0xFF → b1 ≤ 0x8F →
        t.c.toNat = (0xFF0000 + b1.toNat * 2 ^ 9) * 2 ^ 7 ∧ t.ct = 0 ∧ t.bp = s.segbase.toNat + 1 ∧ t.eoscnt = 0)
      ∧ (b0 ≠ 0xFF →
        t.c.toNat = (b0.toNat * 2 ^ 16 + b1.toNat * 2 ^ 8) * 2 ^ 7 ∧ t.ct = 1 ∧ t.bp = s.segbase.toNat + 1
          ∧ t.eoscnt = 0) := by
  intro t b0 b1
  have hcur : fetchByte (firstByteLoaded s) (firstByteLoaded s).bp = b0 := by
    simpa using fetchByte_firstByteLoaded hp hw 0
  have hnext : fetchByte (firstByteLoaded s) ((firstByteLoaded s).bp + 1) = b1 := by
    simpa using fetchByte_firstByteLoaded hp hw 1
  have hfirst : (firstByteLoaded s).c = b0.setWidth 32 <<< 16 := firstByteLoaded_c hp hw
  have hb0 := b0.isLt
  have hb1 := b1.isLt
  refine ⟨fun h0 h1 => ?marker, fun h0 h1 => ?stuffed, fun h0 => ?ordinary⟩
  case marker =>
    obtain ⟨hc, hct, hbp, hn⟩ := startDecoder_of_byteIn (byteIn_marker (hcur.trans h0) (hnext ▸ h1))
    rw [hc, hct, hbp, hn]
    simp [hfirst, h0, countMarker]
  case stuffed =>
    have hsum := toNat_two_bytes_primed b0 b1 (k := 9) (by decide) (by rw [h0]; bv_omega)
    obtain ⟨hc, hct, hbp, hn⟩ := startDecoder_of_byteIn (byteIn_stuffed (hcur.trans h0) (hnext ▸ h1))
    rw [hc, hct, hbp, hn, hnext]
    refine ⟨?_, by simp, by simp, by simp⟩
    rw [State.setCt_c, State.setC_c, hfirst, hsum, h0]
    rfl
  case ordinary =>
    have hsum := toNat_two_bytes_primed b0 b1 (k := 8) (by decide) (by omega)
    obtain ⟨hc, hct, hbp, hn⟩ := startDecoder_of_byteIn (byteIn_ordinary (hcur ▸ h0))
    rw [hc, hct, hbp, hn, hnext]
    refine ⟨?_, by simp, by simp, by simp⟩
    rw [State.setCt_c, State.setC_c, hfirst, hsum]

/-- Settles O30: INITDEC is admitted, and its byte-in reads the first two bytes of the segment. -/
theorem initdecLoadsTheSegment : Obligations.InitdecLoadsTheSegment := by
  intro s hp hf hw b0 b1
  have hexec := opensSegment_initdec.exec_eq s hf hw
  have hfields := startDecoder_fields s
  have hend := (congrArg BitVec.toNat (startDecoder_window s).2).trans (windowAdmitted_end hp hw)
  have hregs := startDecoder_registers hp hw
  generalize startDecoder s = t at hexec hfields hend hregs
  exact ⟨_, hexec, congrArg (State.answer · Response.ok) hfields, hend, hregs⟩

/-! ## TERMCHK (R99) -/

theorem execTermchk_eq {s : State} (hm : s.mode = .dec ∨ s.mode = .rawdec) :
    exec .termchk s = .next (
      if (Config.tolBytes : Int) < slackBytes s then
        (s.setWslack true).answer (Response.warning .slack (BitVec.ofInt 32 (slackBytes s - Config.tolBytes)))
      else if Config.tolMark < s.eoscnt.toNat then (s.setWmark true).answer (Response.warning .markers s.eoscnt)
      else s.answer Response.ok) := by
  have hcheck : requireMode [.dec, .rawdec] s = none := requireMode_eq_none.2 (by simpa using hm)
  rw [exec, execTermchk, hcheck, admitted_none]

/-- Settles O33: slack beyond TOLBYTES comes first, then markers beyond TOLMARK. -/
theorem termchkReportsAtMostOneWarning : Obligations.TermchkReportsAtMostOneWarning := by
  intro s hm
  have hslack : (Config.tolBytes : Int) < slackBytes s ↔ s.bp + 2 < s.endAddr.toNat := by
    unfold slackBytes Config.tolBytes
    omega
  rw [execTermchk_eq hm]
  refine ⟨fun h => ⟨BitVec.ofInt 32 (slackBytes s - Config.tolBytes), fun hbp => ?_, ?_⟩, fun h hmark => ?_,
    fun h hmark => ?_⟩
  · rw [ofInt_word_toNat]
    unfold slackBytes Config.tolBytes
    omega
  · rw [if_pos (hslack.2 h)]
    rfl
  · have hmore : Config.tolMark < s.eoscnt.toNat := hmark
    rw [if_neg (mt hslack.1 h.not_gt), if_pos hmore]
    rfl
  · have hfew : ¬ Config.tolMark < s.eoscnt.toNat := hmark.not_gt
    rw [if_neg (mt hslack.1 h.not_gt), if_neg hfew]
    rfl

end Sys2Proof.Machine

/-! ## The conditional exchanges (R94, R95) -/

namespace Sys2Proof.Machine

section

variable {k : Label} {q : BitVec 16} {s : State}

theorem mpsExchange_of_lt (h : s.a < q) : mpsExchange k q s = (!s.cx[k].mps, lpsTransition k s) := if_pos h

theorem mpsExchange_of_le (h : q ≤ s.a) : mpsExchange k q s = (s.cx[k].mps, mpsTransition k s) :=
  if_neg (BitVec.not_lt.2 h)

theorem lpsExchange_of_lt (h : s.a < q) : lpsExchange k q s = (s.cx[k].mps, (mpsTransition k s).setA q) := if_pos h

theorem lpsExchange_of_le (h : q ≤ s.a) : lpsExchange k q s = (!s.cx[k].mps, (lpsTransition k s).setA q) :=
  if_neg (BitVec.not_lt.2 h)

theorem lpsExchange_c (k : Label) (q : BitVec 16) (s : State) : (lpsExchange k q s).2.c = s.c := by
  unfold lpsExchange
  split <;> rfl

end

/-- Settles O32, arm by arm. -/
theorem conditionalExchangesAsStated : Obligations.ConditionalExchangesAsStated := by
  intro k s q _
  refine ⟨mpsExchange_of_lt, mpsExchange_of_le, mpsExchange_a k q s, fun h => ?_, fun h => ?_, lpsExchange_c k q s⟩
  · rw [lpsExchange_of_lt h]
    exact ⟨rfl, rfl⟩
  · rw [lpsExchange_of_le h]
    exact ⟨rfl, rfl⟩

/-! ## One decision of the decoder (R93) -/

/-- The context after a decision that renormalizes: an MPS takes NMPS, an LPS takes NLPS and switches where SWITCH is 1
(R85). -/
def codedContext (d : Bool) (x : Context) : Context :=
  let row := cmtRow x.i
  if d = x.mps then ⟨row.nmps, x.mps⟩ else ⟨row.nlps, if row.switch then !x.mps else x.mps⟩

/-- The context register file after such a decision under label k. -/
def codedContexts (k : Label) (d : Bool) (cx : Vector Context 19) : Vector Context 19 := cx.set k (codedContext d cx[k])

theorem codedContexts_self (k : Label) (d : Bool) (cx : Vector Context 19) :
    (codedContexts k d cx)[k] = codedContext d cx[k] := Vector.getElem_set_self k.isLt

theorem codedContexts_ne {j k : Label} (h : j ≠ k) (d : Bool) (cx : Vector Context 19) :
    (codedContexts k d cx)[j] = cx[j] := Vector.getElem_set_ne k.isLt j.isLt (Fin.val_ne_of_ne h.symm)

theorem mpsTransition_eq_setCx {k : Label} {d : Bool} {s : State} (h : d = s.cx[k].mps) :
    mpsTransition k s = s.setCx (codedContexts k d s.cx) := by
  rw [codedContexts, codedContext, if_pos h]
  rfl

theorem lpsTransition_eq_setCx {k : Label} {d : Bool} {s : State} (h : d ≠ s.cx[k].mps) :
    lpsTransition k s = s.setCx (codedContexts k d s.cx) := by
  rw [codedContexts, codedContext, if_neg h, ← bne_switch]
  rfl

/-- The code value lies in the lower part of the interval, which is QE wide (R93). -/
def lowerTaken (k : Label) (s : State) : Bool := decide (chigh s.c < (selectedRow k s).qe)

/-- The decision: the lower part is the MPS's where it is the larger one (R94, R95). -/
def decodedBit (k : Label) (s : State) : Bool :=
  if lowerTaken k s = decide (s.a - (selectedRow k s).qe < (selectedRow k s).qe) then s.cx[k].mps else !s.cx[k].mps

/-- A and C become those of the part of the interval that the code value lies in (R93). -/
def partTaken (k : Label) (s : State) : State :=
  (s.setA (if lowerTaken k s then (selectedRow k s).qe else s.a - (selectedRow k s).qe)).setC
    (if lowerTaken k s then s.c else s.c - (selectedRow k s).qe.setWidth 32 <<< 16)

/-- The path without renormalization: the MPS, and no transition (R93). -/
theorem decodeDecision_noRenorm {k : Label} {s : State} (hlow : ¬ chigh s.c < (selectedRow k s).qe)
    (h : 0x8000 ≤ s.a - (selectedRow k s).qe) :
    decodeDecision k s = (s.cx[k].mps,
      (s.setA (s.a - (selectedRow k s).qe)).setC (s.c - (selectedRow k s).qe.setWidth 32 <<< 16)) :=
  (if_neg hlow).trans (if_neg (BitVec.not_lt.2 h))

section

variable {k : Label} {q : BitVec 16} {s : State} {d : Bool}

/-- LPS-EXCHANGE is a decision, its transition, and A = q (R95). -/
theorem lpsExchange_eq (hd : d = if s.a < q then s.cx[k].mps else !s.cx[k].mps) :
    lpsExchange k q s = (d, (s.setA q).setCx (codedContexts k d s.cx)) := by
  by_cases h : s.a < q
  · rw [if_pos h] at hd
    rw [lpsExchange_of_lt h, mpsTransition_eq_setCx hd, ← hd]
    rfl
  · rw [if_neg h] at hd
    rw [lpsExchange_of_le (BitVec.not_lt.1 h), lpsTransition_eq_setCx (hd.trans_ne (Bool.not_ne_self _)), ← hd]
    rfl

/-- MPS-EXCHANGE is a decision and its transition (R94). -/
theorem mpsExchange_eq (hd : d = if s.a < q then !s.cx[k].mps else s.cx[k].mps) :
    mpsExchange k q s = (d, s.setCx (codedContexts k d s.cx)) := by
  by_cases h : s.a < q
  · rw [if_pos h] at hd
    rw [mpsExchange_of_lt h, lpsTransition_eq_setCx (hd.trans_ne (Bool.not_ne_self _)), ← hd]
  · rw [if_neg h] at hd
    rw [mpsExchange_of_le (BitVec.not_lt.1 h), mpsTransition_eq_setCx hd, ← hd]

end

/-- The paths with renormalization, through one of the conditional exchanges (R93). -/
theorem decodeDecision_renorm {k : Label} {s : State}
    (h : chigh s.c < (selectedRow k s).qe ∨ s.a - (selectedRow k s).qe < 0x8000) :
    decodeDecision k s = (decodedBit k s,
      renormDecoder maxShifts ((partTaken k s).setCx (codedContexts k (decodedBit k s) s.cx))) := by
  unfold decodeDecision
  dsimp only
  by_cases hlow : chigh s.c < (selectedRow k s).qe
  · have hl : lowerTaken k s = true := decide_eq_true hlow
    have hd : decodedBit k s = if s.a - (selectedRow k s).qe < (selectedRow k s).qe then s.cx[k].mps
        else !s.cx[k].mps := by simp [decodedBit, hl]
    rw [if_pos hlow, lpsExchange_eq (s := s.setA _) hd, partTaken, hl]
    rfl
  · have hl : lowerTaken k s = false := decide_eq_false hlow
    have hd : decodedBit k s = if s.a - (selectedRow k s).qe < (selectedRow k s).qe then !s.cx[k].mps
        else s.cx[k].mps := by rw [← ite_not]; simp [decodedBit, hl]
    rw [if_neg hlow, State.setC_a, State.setA_a, if_pos (h.resolve_left hlow),
      mpsExchange_eq (s := (s.setA _).setC _) hd, partTaken, hl]
    rfl

/-! ## DECODE -/

theorem response_decision_eq (d : Bool) : Response.decision d = ⟨if d then 0x10 else 0, 0⟩ := by cases d <;> rfl

theorem execDecode_eq {s : State} {cx : Nat} (hcx : cx < 19) (hm : s.mode = .dec) :
    exec (.decode cx) s = .next ((decodeDecision ⟨cx, hcx⟩ s).2.answer
      ⟨if (decodeDecision ⟨cx, hcx⟩ s).1 then 0x10 else 0, 0⟩) := by
  rw [exec, execDecode, requireMode_self hm, admitted_none, labelOf_of_lt hcx, ← response_decision_eq]

/-- Taking the upper part subtracts QE from Chigh, without a borrow (R93). -/
theorem toNat_upper_c {q : BitVec 16} {c : Word} (h : ¬ chigh c < q) :
    (c - q.setWidth 32 <<< 16).toNat + q.toNat * 2 ^ 16 = c.toNat := by
  have hq := q.isLt
  have hle : q.toNat ≤ c.toNat / 2 ^ 16 % 2 ^ 16 := by
    have := BitVec.le_def.1 (BitVec.not_lt.1 h)
    rwa [chigh, BitVec.extractLsb'_toNat, Nat.shiftRight_eq_div_pow] at this
  have hshift : (q.setWidth 32 <<< 16).toNat = q.toNat * 2 ^ 16 := by
    rw [BitVec.toNat_shiftLeft, Nat.shiftLeft_eq, toNat_setWidth_word q (by decide)]
    omega
  rw [BitVec.toNat_sub_of_le (BitVec.le_def.2 (by omega)), hshift]
  omega

/-- The part taken is not empty, and where a renormalization follows it is narrower than 0x8000. -/
theorem partTaken_a_range {k : Label} {s : State} (ha : 0x8000 ≤ s.a)
    (h : chigh s.c < (selectedRow k s).qe ∨ s.a - (selectedRow k s).qe < 0x8000) :
    1 ≤ (partTaken k s).a.toNat ∧ (partTaken k s).a.toNat < 2 ^ 15 := by
  obtain ⟨hq1, hq2⟩ := selectedRow_qe_range k s
  have hsub := toNat_sub_qe k s ha
  have ha' : 0x8000 ≤ s.a.toNat := ha
  unfold partTaken
  rw [State.setC_a, State.setA_a]
  split
  case isTrue => omega
  case isFalse hl =>
    have hlt : (s.a - (selectedRow k s).qe).toNat < 2 ^ 15 :=
      h.resolve_left (of_decide_eq_false (Bool.eq_false_of_not_eq_true hl))
    omega

/-- Settles O31: the path without renormalization, and those with one. -/
theorem decodeFollowsTheFourPaths : Obligations.DecodeFollowsTheFourPaths := by
  intro s cx hcx hm k row m reduced lower small d
  have hexec := execDecode_eq hcx hm
  by_cases h : chigh s.c < row.qe ∨ reduced < 0x8000
  case neg =>
    obtain ⟨hlow, hge⟩ := not_or.1 h
    rw [decodeDecision_noRenorm hlow (BitVec.not_lt.1 hge)] at hexec
    exact ⟨_, hexec, rfl, fun _ _ => rfl, fun _ _ => ⟨rfl, toNat_upper_c hlow, rfl, rfl, rfl, rfl, rfl⟩,
      fun h' => absurd (h'.imp_left of_decide_eq_true) h⟩
  case pos =>
    have hdec := decodeDecision_renorm h
    have hframe : DecoderFrame s _ := decodeDecision_frame k s
    rw [hdec] at hexec hframe
    generalize hu : renormDecoder maxShifts ((partTaken k s).setCx (codedContexts k (decodedBit k s) s.cx)) = u
      at hexec hframe
    have hucx : u.cx = codedContexts k d s.cx := by rw [← hu, renormDecoder_cx]; rfl
    refine ⟨_, hexec, congrArg (State.answer · _) hframe, fun j hj => ?others, fun hl hge => ?unshifted,
      fun _ => ⟨rfl, ?self, ?renormed, fun ha => ?normal⟩⟩
    case others => exact (congrArg (·[j]) hucx).trans (codedContexts_ne hj d s.cx)
    case unshifted => exact absurd h (not_or.2 ⟨of_decide_eq_false hl, BitVec.not_lt.2 hge⟩)
    case self => exact (congrArg (·[k]) hucx).trans (codedContexts_self k d s.cx)
    case renormed =>
      have hrenorm : u = renormDecoder maxShifts ((partTaken k s).setCx u.cx) := by rw [hucx]; exact hu.symm
      exact congrArg (State.answer · _) hrenorm
    case normal =>
      obtain ⟨hpos, hlt⟩ := partTaken_a_range ha h
      rw [← hu]
      exact le_renormDecoder_a hpos hlt

/-! ## The encoder mirrors the decoder -/

theorem mpsTransition_cx_eq {k : Label} {d : Bool} {s : State} {cx : Vector Context 19} (hcx : s.cx = cx)
    (h : d = cx[k].mps) : (mpsTransition k s).cx = codedContexts k d cx := by
  subst hcx
  rw [mpsTransition_eq_setCx h, State.setCx_cx]

theorem lpsTransition_cx_eq {k : Label} {d : Bool} {s : State} {cx : Vector Context 19} (hcx : s.cx = cx)
    (h : d ≠ cx[k].mps) : (lpsTransition k s).cx = codedContexts k d cx := by
  subst hcx
  rw [lpsTransition_eq_setCx h, State.setCx_cx]

/-- A decision that must renormalize makes its transition, also where it overflows (R113, R114). -/
theorem encodeDecision_renorm_cx {k : Label} {d : Bool} {s : State}
    (h : d ≠ s.cx[k].mps ∨ s.a - (selectedRow k s).qe < 0x8000) :
    (encodeDecision k d s).All fun t => t.cx = codedContexts k d s.cx := by
  unfold encodeDecision
  split
  case isTrue hd =>
    rw [codeMps, State.setA_a, if_pos (h.resolve_left (not_not.2 hd))]
    exact Run.all_imp (fun _ ht => ht.trans (mpsTransition_cx_eq (by split <;> rfl) hd)) (renormEncoder_cx _ _)
  case isFalse hd =>
    rw [codeLps, State.setA_a]
    exact Run.all_imp (fun _ ht => ht.trans (lpsTransition_cx_eq (by split <;> rfl) hd)) (renormEncoder_cx _ _)

/-- Given the decision that the decoder makes, the encoder takes the same part of the interval. -/
theorem splitA_decodedBit (k : Label) (s : State) : splitA k (decodedBit k s) s = (partTaken k s).a := by
  unfold splitA partTaken decodedBit
  generalize decide (s.a - (selectedRow k s).qe < (selectedRow k s).qe) = small
  generalize s.cx[k].mps = m
  rw [State.setC_a, State.setA_a]
  cases lowerTaken k s <;> cases small <;> cases m <;> rfl

/-- Where the decoder renormalizes, so does the encoder: with the MPS, only below 0x8000 (R93, R112). -/
theorem decodedBit_renorms {k : Label} {s : State}
    (h : chigh s.c < (selectedRow k s).qe ∨ s.a - (selectedRow k s).qe < 0x8000) :
    decodedBit k s ≠ s.cx[k].mps ∨ s.a - (selectedRow k s).qe < 0x8000 := by
  by_cases hlt : s.a - (selectedRow k s).qe < 0x8000
  · exact .inr hlt
  · obtain ⟨-, hq⟩ := selectedRow_qe_range k s
    have hlow : lowerTaken k s = true := decide_eq_true (h.resolve_right hlt)
    have hlarge : ¬ s.a - (selectedRow k s).qe < (selectedRow k s).qe := by
      have hge : ¬ (s.a - (selectedRow k s).qe).toNat < 2 ^ 15 := hlt
      rw [BitVec.lt_def]
      omega
    exact .inl (by simp [decodedBit, hlow, hlarge])

/-- Settles O38: the decision fixes the part and the transition, and both renormalizations shift A alike. -/
theorem encoderMirrorsTheDecoder : Obligations.EncoderMirrorsTheDecoder := by
  intro k s t u ha hcx hu
  have hrow : selectedRow k t = selectedRow k s := by rw [selectedRow, selectedRow, hcx]
  by_cases h : chigh s.c < (selectedRow k s).qe ∨ s.a - (selectedRow k s).qe < 0x8000
  case pos =>
    rw [decodeDecision_renorm h] at hu ⊢
    have hrenorm : decodedBit k s ≠ t.cx[k].mps ∨ t.a - (selectedRow k t).qe < 0x8000 := by
      rw [← hcx, ← ha, hrow]
      exact decodedBit_renorms h
    have hsplit : splitA k (decodedBit k s) t = (partTaken k s).a := by
      rw [← splitA_decodedBit, splitA, splitA, hrow, ha, hcx]
    have hcoded := encodeDecision_renorm_cx hrenorm
    rw [hu, Run.all_done, ← hcx] at hcoded
    obtain ⟨x, hx⟩ := encodeDecision_renorm hrenorm
    rw [hx] at hu
    refine ⟨renormEncoder_a maxShifts ?_ hu, by rw [hcoded, renormDecoder_cx, State.setCx_cx]⟩
    exact hsplit.symm
  case neg =>
    obtain ⟨hlow, hge⟩ := not_or.1 h
    rw [decodeDecision_noRenorm hlow (BitVec.not_lt.1 hge)] at hu ⊢
    have hge' : ¬ t.a - (selectedRow k t).qe < 0x8000 := by rwa [← ha, hrow]
    rw [encodeDecision, if_pos (by rw [hcx]), codeMps, State.setA_a, if_neg hge'] at hu
    cases hu
    simp [hrow, ha, hcx]

end Sys2Proof.Machine

namespace Sys2Proof.Machine

/-! ## The INIT commands of the encoder and of the raw sub-coder (R110, R131, R133) -/

theorem startEncoder_fields (s : State) :
    startEncoder s = { s with
      mode := .enc, startAddr := s.segbase, endAddr := s.segbase + s.seglen, bp := (s.segbase.toNat : Int) - 1
      a := 0x8000, c := 0, ct := 12
      unspec := { s.unspec with mq := false, bp := false, window := false } } := by
  apply State.ext <;> simp [startEncoder, loadWindow]

theorem startRawDecoder_fields (s : State) :
    startRawDecoder s = { s with
      mode := .rawdec, startAddr := s.segbase, endAddr := s.segbase + s.seglen, bp := s.segbase.toNat
      rb := 0, rct := 0, eoscnt := 0
      unspec := { s.unspec with bp := false, window := false, raw := false, eoscnt := false } } := by
  apply State.ext <;> simp [startRawDecoder, loadWindow]

theorem startRawEncoder_fields (s : State) :
    startRawEncoder s = { s with
      mode := .rawenc, startAddr := s.segbase, endAddr := s.segbase + s.seglen, bp := s.segbase.toNat
      rb := 0, rct := 8, lastff := false
      unspec := { s.unspec with bp := false, window := false, raw := false, lastff := false } } := by
  apply State.ext <;> simp [startRawEncoder, loadWindow]

/-- Settles O41: each INIT command is admitted, and its operation writes the fields listed. -/
theorem encoderAndRawInitsLoadTheWindow : Obligations.EncoderAndRawInitsLoadTheWindow := by
  intro s hf hw
  have henc := opensSegment_initenc.exec_eq s hf hw
  have hrawdec := opensSegment_rawinitdec.exec_eq s hf hw
  have hrawenc := opensSegment_rawinitenc.exec_eq s hf hw
  rw [startEncoder_fields] at henc
  rw [startRawDecoder_fields] at hrawdec
  rw [startRawEncoder_fields] at hrawenc
  exact ⟨henc, hrawdec, hrawenc⟩

/-! ## SETBITS (R117) -/

/-- Setting the 16 low bits adds at most 0xFFFF. -/
theorem toNat_or_lowOnes_le (c : Word) : (c ||| 0x0000FFFF).toNat ≤ c.toNat + 0xFFFF := by
  have hlow : c.toNat % 2 ^ 16 ||| 0xFFFF < 2 ^ 16 := Nat.or_lt_two_pow (Nat.mod_lt _ (by decide)) (by decide)
  have hsplit : c.toNat ||| 0xFFFF = 2 ^ 16 * (c.toNat / 2 ^ 16) + (c.toNat % 2 ^ 16 ||| 0xFFFF) := by
    rw [Nat.two_pow_add_eq_or_of_lt hlow, ← Nat.or_assoc, ← Nat.two_pow_add_eq_or_of_lt (Nat.mod_lt _ (by decide)),
      Nat.div_add_mod]
  have hor : (c ||| 0x0000FFFF).toNat = c.toNat ||| 0xFFFF := BitVec.toNat_or c 0x0000FFFF
  omega

theorem setBits_of_le {s : State} (h : s.c.toNat + s.a.toNat ≤ (s.c ||| 0x0000FFFF).toNat) :
    setBits s = s.setC ((s.c ||| 0x0000FFFF) - 0x8000) := if_pos h

theorem setBits_of_lt {s : State} (h : (s.c ||| 0x0000FFFF).toNat < s.c.toNat + s.a.toNat) :
    setBits s = s.setC (s.c ||| 0x0000FFFF) := if_neg (not_le.2 h)

/-- SETBITS writes C alone, and stays below the end of the interval. -/
theorem setBits_interval {s : State} (ha : 0x8000 ≤ s.a) :
    setBits s = s.setC (setBits s).c ∧ (setBits s).c.toNat < s.c.toNat + s.a.toNat := by
  have ha' : 0x8000 ≤ s.a.toNat := ha
  have hones := toNat_or_lowOnes_le s.c
  rcases le_or_gt (s.c.toNat + s.a.toNat) (s.c ||| 0x0000FFFF).toNat with h | h
  · rw [setBits_of_le h]
    refine ⟨rfl, ?_⟩
    have hle : (0x8000 : Word) ≤ s.c ||| 0x0000FFFF := BitVec.le_def.2 (by show 0x8000 ≤ _; omega)
    rw [State.setC_c, BitVec.toNat_sub_of_le hle]
    show (s.c ||| 0x0000FFFF).toNat - 0x8000 < _
    omega
  · rw [setBits_of_lt h]
    exact ⟨rfl, h⟩

/-- Settles O36: the two cases of the comparison, and in each the value is below T. -/
theorem setBitsStaysInTheInterval : Obligations.SetBitsStaysInTheInterval := by
  intro s ha hc
  have hlt := s.a.isLt
  obtain ⟨hframe, hbelow⟩ := setBits_interval ha
  exact ⟨hframe, fun h => by rw [setBits_of_le h, State.setC_c], fun h => by rw [setBits_of_lt h, State.setC_c],
    by omega, hbelow⟩

end Sys2Proof.Machine

namespace Sys2Proof.Machine

/-! ## BYTEOUT (R116) -/

/-- The phantom byte reads as 0 (R111). -/
theorem lastByte_eq (s : State) :
    lastByte s = if s.bp = (s.startAddr.toNat : Int) - 1 then 0 else s.cb.read s.bp.toNat := by
  simp [lastByte, atPhantom]

theorem lastByte_of_ne {s : State} (h : s.bp ≠ (s.startAddr.toNat : Int) - 1) : lastByte s = s.cb.read s.bp.toNat :=
  (lastByte_eq s).trans (if_neg h)

/-- BYTEOUT carries into the previous byte: bit 27 of C is 1, and that byte is not 0xFF (R116). -/
def outCarries (s : State) : Bool := decide (lastByte s ≠ 0xFF ∧ 2 ^ 27 ≤ s.c.toNat)

/-- BYTEOUT moves 7 bits out: the previous byte is 0xFF, or the carry makes it so (R116). -/
def outStuffs (s : State) : Bool := decide (lastByte s = 0xFF ∨ (outCarries s = true ∧ lastByte s = 0xFE))

/-- CB after the carry of BYTEOUT, which the phantom byte does not take (R111, R116). -/
def carriedCb (s : State) : Memory 8 :=
  if outCarries s = true ∧ atPhantom s = false then s.cb.write s.bp.toNat (lastByte s + 1) else s.cb

/-- The byte that BYTEOUT puts (R116). -/
def outByte (s : State) : Byte :=
  if lastByte s = 0xFF then (s.c >>> 20).setWidth 8
  else if outStuffs s then ((s.c &&& 0x07FFFFFF) >>> 20).setWidth 8
  else (s.c >>> 19).setWidth 8

/-- `s` after the byte `v` is put into the code buffer `m`, with `c` left in C and CT reloaded (R116). -/
def movedOut (m : Memory 8) (v : Byte) (c : Word) (ct : BitVec 4) (s : State) : State :=
  (((s.setCb (m.write (s.bp + 1).toNat v)).setBp (s.bp + 1)).setC c).setCt ct

/-- The state after a BYTEOUT that has room (R116). -/
def byteMovedOut (s : State) : State :=
  movedOut (carriedCb s) (outByte s) (if outStuffs s then s.c &&& 0x000FFFFF else s.c &&& 0x0007FFFF)
    (if outStuffs s then 7 else 8) s

theorem putStuffed_eq_movedOut {s : State} (h : s.bp + 1 < s.endAddr.toNat) (m : Memory 8) (c : Word) :
    putStuffed ((s.setCb m).setC c) = .done () (movedOut m ((c >>> 20).setWidth 8) (c &&& 0x000FFFFF) 7 s) := by
  rw [putStuffed_of_room (by exact h)]
  simp only [State.setC_c, State.setC_cb, State.setCb_cb, State.setC_bp, State.setCb_bp]
  rfl

theorem putPlain_eq_movedOut {s : State} (h : s.bp + 1 < s.endAddr.toNat) (m : Memory 8) :
    putPlain (s.setCb m) = .done () (movedOut m ((s.c >>> 19).setWidth 8) (s.c &&& 0x0007FFFF) 8 s) := by
  rw [putPlain_of_room (by exact h)]
  simp only [State.setCb_c, State.setCb_cb, State.setCb_bp]
  rfl

theorem storeByte_of_lt {address : Int} {v : Byte} {s : State} (h : address < s.endAddr.toNat) :
    storeByte address v s = .done () (s.setCb (s.cb.write address.toNat v)) := if_pos h

theorem carryIntoLast_eq {s : State} (h : s.bp + 1 < s.endAddr.toNat) (hc : outCarries s = true) :
    carryIntoLast s = .done () (s.setCb (carriedCb s)) := by
  unfold carryIntoLast carriedCb
  cases hph : atPhantom s with
  | true => simp [State.setCb]
  | false => simpa [hc] using storeByte_of_lt (show s.bp < s.endAddr.toNat by omega)

theorem outCarries_eq_false_of_ff {s : State} (h : lastByte s = 0xFF) : outCarries s = false := by
  simp [outCarries, h]

theorem carriedCb_of_not {s : State} (h : outCarries s = false) : carriedCb s = s.cb := by simp [carriedCb, h]

theorem not_c_lt_iff {s : State} : ¬ s.c < 0x08000000 ↔ 2 ^ 27 ≤ s.c.toNat := by
  rw [BitVec.lt_def]
  exact not_lt

/-- BYTEOUT with room for the next byte, its four arms in one (R116). -/
theorem byteOut_eq {s : State} (h : s.bp + 1 < s.endAddr.toNat) : byteOut s = .done () (byteMovedOut s) := by
  by_cases hff : lastByte s = 0xFF
  case pos =>
    have hst : outStuffs s = true := decide_eq_true (.inl hff)
    have harm : byteOut s = putStuffed ((s.setCb s.cb).setC s.c) := if_pos hff
    rw [harm, putStuffed_eq_movedOut h, byteMovedOut, carriedCb_of_not (outCarries_eq_false_of_ff hff), outByte,
      if_pos hff, if_pos hst, if_pos hst]
  by_cases hlt : s.c < 0x08000000
  case pos =>
    have hc : outCarries s = false := decide_eq_false fun h => not_c_lt_iff.2 h.2 hlt
    have hst : ¬ outStuffs s = true := fun h =>
      (of_decide_eq_true h).elim hff fun h => absurd (hc.symm.trans h.1) (by decide)
    have harm : byteOut s = putPlain (s.setCb s.cb) := (if_neg hff).trans (if_pos hlt)
    rw [harm, putPlain_eq_movedOut h, byteMovedOut, carriedCb_of_not hc, outByte, if_neg hff, if_neg hst, if_neg hst,
      if_neg hst]
  have hc : outCarries s = true := decide_eq_true ⟨hff, not_c_lt_iff.1 hlt⟩
  rw [byteOut, if_neg hff, if_neg hlt, carryIntoLast_eq h hc, Run.bind_done]
  by_cases hfe : lastByte s = 0xFE
  case pos =>
    have hst : outStuffs s = true := decide_eq_true (.inr ⟨hc, hfe⟩)
    have hmask : (s.c &&& 0x07FFFFFF) &&& 0x000FFFFF = s.c &&& 0x000FFFFF := BitVec.and_assoc _ _ _
    rw [if_pos (by rw [hfe]; rfl), State.setCb_c, putStuffed_eq_movedOut h, byteMovedOut, outByte, if_neg hff, if_pos hst,
      if_pos hst, if_pos hst, hmask]
  case neg =>
    have hst : ¬ outStuffs s = true := fun h => (of_decide_eq_true h).elim hff fun h => hfe h.2
    have hne : ¬ lastByte s + 1 = 0xFF := fun he => hfe (by bv_omega)
    rw [if_neg hne, putPlain_eq_movedOut h, byteMovedOut, outByte, if_neg hff, if_neg hst, if_neg hst, if_neg hst]

section

variable {s : State}

@[simp] theorem byteMovedOut_bp : (byteMovedOut s).bp = s.bp + 1 := by simp [byteMovedOut, movedOut]

@[simp] theorem byteMovedOut_startAddr : (byteMovedOut s).startAddr = s.startAddr := by simp [byteMovedOut, movedOut]

theorem byteMovedOut_ct : (byteMovedOut s).ct = if outStuffs s then 7 else 8 := rfl

theorem byteMovedOut_eq : byteMovedOut s = { s with
    c := (byteMovedOut s).c, ct := (byteMovedOut s).ct, bp := s.bp + 1, cb := (byteMovedOut s).cb } := by
  apply State.ext <;> simp [byteMovedOut, movedOut]

theorem byteMovedOut_c_toNat :
    (byteMovedOut s).c.toNat = if outStuffs s then s.c.toNat % 2 ^ 20 else s.c.toNat % 2 ^ 19 := by
  show (if outStuffs s then s.c &&& 0x000FFFFF else s.c &&& 0x0007FFFF).toNat = _
  rw [apply_ite BitVec.toNat, BitVec.toNat_and, BitVec.toNat_and]
  exact if_congr Iff.rfl (Nat.and_two_pow_sub_one_eq_mod _ 20) (Nat.and_two_pow_sub_one_eq_mod _ 19)

theorem outByte_toNat : (outByte s).toNat = if lastByte s = 0xFF then s.c.toNat / 2 ^ 20 % 2 ^ 8
    else if outStuffs s then s.c.toNat % 2 ^ 27 / 2 ^ 20 else s.c.toNat / 2 ^ 19 % 2 ^ 8 := by
  have hmask : (s.c &&& 0x07FFFFFF).toNat = s.c.toNat % 2 ^ 27 :=
    (BitVec.toNat_and _ _).trans (Nat.and_two_pow_sub_one_eq_mod _ 27)
  unfold outByte
  split
  · rw [BitVec.toNat_setWidth, BitVec.toNat_ushiftRight, Nat.shiftRight_eq_div_pow]
  · split <;> rw [BitVec.toNat_setWidth, BitVec.toNat_ushiftRight, Nat.shiftRight_eq_div_pow]
    rw [hmask]
    omega

/-- The byte put, where BYTEOUT has moved BP to. -/
theorem byteMovedOut_read_next : (byteMovedOut s).cb.read (s.bp + 1).toNat = outByte s :=
  (Memory.read_write _ _ _ _).trans (if_pos rfl)

/-- Away from the byte put, CB is as the carry left it. -/
theorem byteMovedOut_read_ne {a : Nat} (h : a ≠ (s.bp + 1).toNat) :
    (byteMovedOut s).cb.read a = (carriedCb s).read a :=
  (Memory.read_write _ _ _ _).trans (if_neg h)

theorem carriedCb_read_bp (hc : outCarries s = true) (hph : s.bp ≠ (s.startAddr.toNat : Int) - 1) :
    (carriedCb s).read s.bp.toNat = lastByte s + 1 := by
  rw [carriedCb, if_pos ⟨hc, by simpa [atPhantom] using hph⟩, Memory.read_write, if_pos rfl]

/-- The carry changes no byte but the one at BP, if any. -/
theorem carriedCb_read_ne {a : Nat} (hlo : (s.startAddr.toNat : Int) - 1 ≤ s.bp)
    (h : (a : Int) ≠ s.bp ∨ outCarries s = false) : (carriedCb s).read a = s.cb.read a := by
  unfold carriedCb
  split
  case isTrue hc =>
    obtain ⟨hc, hph⟩ := hc
    have hph : s.bp ≠ (s.startAddr.toNat : Int) - 1 := by simpa [atPhantom] using hph
    have hne : (a : Int) ≠ s.bp := h.resolve_right (by simp [hc])
    rw [Memory.read_write, if_neg (by omega)]
  case isFalse => rfl

end

/-- Settles O35: `byteOut_eq`, field by field and cell by cell. -/
theorem byteOutMovesOneByte : Obligations.ByteOutMovesOneByte := by
  intro s hlo hroom hph
  rw [← lastByte_eq]
  intro b carries stuffs
  have hput : ∀ a : Nat, (a : Int) ≠ s.bp + 1 → a ≠ (s.bp + 1).toNat := fun a ha => by omega
  refine ⟨rfl, byteMovedOut s, byteOut_eq hroom, byteMovedOut_eq, byteMovedOut_ct, byteMovedOut_c_toNat,
    (congrArg BitVec.toNat byteMovedOut_read_next).trans outByte_toNat, fun hc => ?carry, fun a ha hkept => ?frame⟩
  case carry =>
    have hbig : 2 ^ 27 ≤ s.c.toNat := (of_decide_eq_true hc).2
    have hne : s.bp ≠ (s.startAddr.toNat : Int) - 1 := fun he => absurd (hph he) (not_lt.2 hbig)
    rw [byteMovedOut_read_ne (by omega)]
    exact carriedCb_read_bp hc hne
  case frame =>
    rw [byteMovedOut_read_ne (hput a ha)]
    exact carriedCb_read_ne hlo hkept

end Sys2Proof.Machine

namespace Sys2Proof.Machine

/-! ## What a run of RENORME leaves (R115, R119) -/

/-- What `n` rounds of RENORME that lead from `s` to `t` have done: CT counts the shifts down and a byte put reloads it with
at least 7 (R119); BP does not move down, and in CB the bytes from the old BP to the new one alone can differ. -/
def RoundsDone (n : Nat) (s t : State) : Prop :=
  t.startAddr = s.startAddr ∧ 1 ≤ t.ct.toNat ∧ 7 * t.bp + s.ct.toNat ≤ 7 * s.bp + n + t.ct.toNat ∧ s.bp ≤ t.bp
    ∧ ∀ a : Nat, (a : Int) < s.bp ∨ t.bp < a → t.cb.read a = s.cb.read a

/-- Rounds may be none: the registers that they count by, and CB, are as they were. -/
theorem RoundsDone.of_eq {s t : State} (n : Nat) (hct : 1 ≤ s.ct.toNat) (hst : t.startAddr = s.startAddr)
    (hct' : t.ct = s.ct) (hbp : t.bp = s.bp) (hcb : t.cb = s.cb) : RoundsDone n s t := by
  rw [RoundsDone, hst, hct', hbp, hcb]
  exact ⟨rfl, hct, by omega, le_rfl, fun _ _ => rfl⟩

theorem RoundsDone.trans {m n : Nat} {s t u : State} (h : RoundsDone m s t) (g : RoundsDone n t u) :
    RoundsDone (n + m) s u := by
  obtain ⟨hst, -, hcount, hup, hbytes⟩ := h
  obtain ⟨gst, gct, gcount, gup, gbytes⟩ := g
  refine ⟨gst.trans hst, gct, by push_cast; omega, hup.trans gup, fun a ha => ?_⟩
  rw [gbytes a (ha.imp_left fun h => by omega), hbytes a (ha.imp_right fun h => by omega)]

/-- More rounds are allowed. -/
theorem RoundsDone.mono {m n : Nat} {s t : State} (h : RoundsDone m s t) (hmn : m ≤ n) : RoundsDone n s t := by
  obtain ⟨hst, hct, hcount, hrest⟩ := h
  exact ⟨hst, hct, by omega, hrest⟩

/-- A BYTEOUT where it ends: the bytes at the old and the new BP alone can differ. -/
theorem byteMovedOut_read_kept {s : State} (hlo : (s.startAddr.toNat : Int) - 1 ≤ s.bp) (a : Nat)
    (ha : (a : Int) < s.bp ∨ s.bp + 1 < a) : (byteMovedOut s).cb.read a = s.cb.read a := by
  rw [byteMovedOut_read_ne (by omega), carriedCb_read_ne hlo (.inl (by omega))]

theorem seven_le_byteMovedOut_ct (s : State) : 7 ≤ (byteMovedOut s).ct.toNat := by
  rw [byteMovedOut_ct]
  split <;> decide

/-- A round that ends has shifted once, and put a byte if CT became 0. -/
theorem encoderRound_roundsDone {s : State} (hct : 1 ≤ s.ct.toNat) (hlo : (s.startAddr.toNat : Int) - 1 ≤ s.bp) :
    (encoderRound s).Ends (RoundsDone 1 s) fun _ => True := by
  rcases hct.eq_or_lt with h1 | h1
  · rw [encoderRound_byteOut h1.symm]
    by_cases hroom : (shiftUp s).bp + 1 < (shiftUp s).endAddr.toNat
    · rw [byteOut_eq hroom]
      have hct7 := seven_le_byteMovedOut_ct (shiftUp s)
      have hbp : (byteMovedOut (shiftUp s)).bp = s.bp + 1 := byteMovedOut_bp
      refine ⟨byteMovedOut_startAddr, by omega, by omega, by omega, fun a ha => ?_⟩
      exact byteMovedOut_read_kept (s := shiftUp s) hlo a (hbp ▸ ha)
    · obtain ⟨v, hv⟩ := byteOut_overflow (not_lt.1 hroom)
      rw [hv]
      trivial
  · have hct' := shiftUp_ct_toNat hct
    rw [encoderRound_shift h1]
    exact ⟨rfl, by omega, by show 7 * s.bp + _ ≤ 7 * s.bp + _ + _; omega, le_rfl, fun _ _ => rfl⟩

theorem renormEncoder_roundsDone (n : Nat) {s : State} (hct : 1 ≤ s.ct.toNat)
    (hlo : (s.startAddr.toNat : Int) - 1 ≤ s.bp) : (renormEncoder n s).Ends (RoundsDone n s) fun _ => True := by
  induction n generalizing s with
  | zero => exact .of_eq 0 hct rfl rfl rfl rfl
  | succ n ih =>
    rw [renormEncoder]
    refine Run.ends_bind (encoderRound_roundsDone hct hlo) fun _ t ht => ?_
    split
    case isTrue =>
      have ⟨hst, hct', _, hup, _⟩ := ht
      exact (ih hct' (hst ▸ hlo.trans hup)).imp (fun _ hu => ht.trans hu) fun _ h => h
    case isFalse => exact ht.mono (Nat.le_add_left 1 n)

/-! ## RENORME with room for two bytes -/

/-- Shifts that do not bring CT to 0 are all that such a renormalization does. -/
theorem renormRest_eq_shifts {k n : Nat} {s : State} (hkn : k ≤ n) (hk : ShiftsDue k s.a) (hct : k < s.ct.toNat) :
    renormRest n s = .done () (shiftUp^[k] s) := by
  induction k generalizing n s with
  | zero => exact renormRest_zero hk
  | succ k ih =>
    obtain ⟨n, rfl⟩ := Nat.exists_eq_add_one_of_ne_zero (Nat.ne_zero_of_lt hkn)
    rw [renormRest_succ hk, encoderRound_shift (by omega), Run.bind_done,
      ih (by omega) hk.succ.2 (by rw [shiftUp_ct_toNat (by omega)]; omega), Function.iterate_succ_apply]

theorem renormRest_noByte {k n : Nat} {s : State} (hkn : k ≤ n) (hk : ShiftsDue k s.a) (hct : k < s.ct.toNat) :
    ∃ t, renormRest n s = .done () t ∧ t.bp = s.bp := by
  obtain ⟨-, -, hbp, -⟩ := shiftUp_iterate k s
  exact ⟨_, renormRest_eq_shifts hkn hk hct, hbp⟩

/-- At most 15 shifts put at most two bytes: a third one would need 16, since no two bytes in a row are stuffed (R116,
R120). -/
theorem renormRest_two_bytes {k n : Nat} {s : State} (hct : 1 ≤ s.ct.toNat) (hk15 : k ≤ 15) (hkn : k ≤ n)
    (hs : ShiftsDue k s.a) (hc : (s.c <<< s.ct.toNat).toNat < 2 ^ 27 + 2 ^ 24) (h : s.bp + 2 < s.endAddr.toNat) :
    ∃ t, renormRest n s = .done () t ∧ t.bp ≤ s.bp + 2 := by
  rcases lt_or_ge k s.ct.toNat with hfew | hk
  · obtain ⟨t, ht, hbp⟩ := renormRest_noByte hkn hs hfew
    exact ⟨t, ht, by omega⟩
  obtain ⟨u, hu, hudue, huct, hubp, huen, hlast⟩ := renormRest_of_room hct hk hkn hs (by omega)
  have hct7 : 7 ≤ u.ct.toNat := huct ▸ seven_le_reloadedCt _
  rw [hu]
  rcases lt_or_ge (k - s.ct.toNat) u.ct.toNat with hfew | hk
  · obtain ⟨t, ht, hbp⟩ := renormRest_noByte (n := n - s.ct.toNat) (by omega) hudue hfew
    exact ⟨t, ht, by omega⟩
  obtain ⟨v, hv, hvdue, hvct, hvbp, -⟩ :=
    renormRest_of_room (n := n - s.ct.toNat) (by omega) hk (by omega) hudue (by rw [hubp, huen]; omega)
  have hsum : 15 ≤ u.ct.toNat + v.ct.toNat := by
    have hv7 : 7 ≤ v.ct.toNat := hvct ▸ seven_le_reloadedCt _
    rcases reloadedCt_cases (s.setC (s.c <<< s.ct.toNat)) with h7 | h8
    · have hv8 : v.ct = 8 := hvct.trans (reloadedCt_eq_eight (hlast (huct.trans h7) hc))
      rw [huct, h7, hv8]
      decide
    · rw [huct, h8]
      show 15 ≤ 8 + _
      omega
  obtain ⟨t, ht, hbp⟩ := renormRest_noByte (n := n - s.ct.toNat - u.ct.toNat) (by omega) hvdue (by omega)
  exact ⟨t, hv.trans ht, by omega⟩

/-- Some number of shifts up to 15 takes an A from 1 to 0x7FFF to 0x8000 or above (R115). -/
theorem exists_shiftsDue {a : BitVec 16} (hpos : 1 ≤ a.toNat) : ∃ n ≤ 15, ShiftsDue n a := by
  have hex : ∃ n, 2 ^ 15 ≤ a.toNat * 2 ^ n := ⟨15, Nat.le_mul_of_pos_left _ hpos⟩
  exact ⟨Nat.find hex, Nat.find_le (Nat.le_mul_of_pos_left _ hpos), fun _ hj => not_le.1 (Nat.find_min hex hj),
    Nat.find_spec hex⟩

/-- RENORME after a split of the interval, with room for two bytes, ends: the bytes it may have changed, how far BP and CT
have moved, and A normalized. -/
theorem renormEncoder_of_room {a : BitVec 16} {c : Word} (x : Vector Context 19) {s : State} (hct : 1 ≤ s.ct.toNat)
    (hpos : 1 ≤ a.toNat) (hlt : a.toNat < 2 ^ 15) (hc : (c <<< s.ct.toNat).toNat < 2 ^ 27 + 2 ^ 24)
    (hlo : (s.startAddr.toNat : Int) - 1 ≤ s.bp) (h : s.bp + 2 < s.endAddr.toNat) :
    ∃ t, renormEncoder maxShifts (((s.setA a).setC c).setCx x) = .done () t ∧ RoundsDone 15 s t ∧ t.bp ≤ s.bp + 2
      ∧ 0x8000 ≤ t.a := by
  obtain ⟨n, hn, hdue⟩ := exists_shiftsDue hpos
  obtain ⟨t, ht, hbp⟩ := renormRest_two_bytes (n := maxShifts) (s := ((s.setA a).setC c).setCx x) hct hn hn hdue hc h
  rw [renormRest_of_lt (by exact hlt)] at ht
  have hdone := renormEncoder_roundsDone maxShifts (s := ((s.setA a).setC c).setCx x) hct hlo
  have ha := renormEncoder_a maxShifts rfl ht
  have hnorm : 0x8000 ≤ (renormDecoder maxShifts (((s.setA a).setC c).setCx x)).a := le_renormDecoder_a hpos hlt
  rw [ht, Run.ends_done] at hdone
  exact ⟨t, ht, hdone, hbp, ha ▸ hnorm⟩

/-! ## One decision (R112 to R114) -/

/-- The MPS without a renormalization takes the upper part of the interval (R113). -/
theorem encodeDecision_unshifted {k : Label} {d : Bool} {s : State} (hd : d = s.cx[k].mps)
    (h : 0x8000 ≤ s.a - (selectedRow k s).qe) :
    encodeDecision k d s =
      .done () ((s.setA (s.a - (selectedRow k s).qe)).setC (s.c + (selectedRow k s).qe.setWidth 32)) := by
  rw [encodeDecision, if_pos hd, codeMps, State.setA_a, if_neg (BitVec.not_lt.2 h)]

/-- Where a renormalization follows, the part taken is narrower than 0x8000. -/
theorem splitA_lt {k : Label} {d : Bool} {s : State} (h : d ≠ s.cx[k].mps ∨ s.a - (selectedRow k s).qe < 0x8000) :
    (splitA k d s).toNat < 2 ^ 15 := by
  obtain ⟨-, hq⟩ := selectedRow_qe_range k s
  unfold splitA
  split
  case isTrue => omega
  case isFalse hupper =>
    rcases h with hd | hlt
    · have hsmall : s.a - (selectedRow k s).qe < (selectedRow k s).qe := by
        by_contra hlarge
        exact hupper ((decide_eq_false hlarge).trans (decide_eq_false hd).symm)
      have := BitVec.lt_def.1 hsmall
      omega
    · exact hlt

/-- A decision that must renormalize is the RENORME of its split and transition. -/
theorem encodeDecision_eq_renorm {k : Label} {d : Bool} {s : State}
    (h : d ≠ s.cx[k].mps ∨ s.a - (selectedRow k s).qe < 0x8000) :
    encodeDecision k d s =
      renormEncoder maxShifts (((s.setA (splitA k d s)).setC (splitC k d s)).setCx (codedContexts k d s.cx)) := by
  obtain ⟨x, hx⟩ := encodeDecision_renorm h
  have hcoded := encodeDecision_renorm_cx h
  have hkept := renormEncoder_cx maxShifts (((s.setA (splitA k d s)).setC (splitC k d s)).setCx x)
  have hcx : x = codedContexts k d s.cx := by
    rw [← hx] at hkept
    cases hrun : encodeDecision k d s <;> rw [hrun] at hkept hcoded <;> exact hkept.symm.trans hcoded
  rw [hx, hcx]

/-- With room for two bytes a decision ends, with A normalized (R112 to R115). -/
theorem encodeDecision_of_room (k : Label) (d : Bool) {s : State} (ha : 0x8000 ≤ s.a) (hc : EncoderCursor s)
    (h : s.bp + 2 < s.endAddr.toNat) :
    ∃ t, encodeDecision k d s = .done () t ∧ RoundsDone 15 s t ∧ t.bp ≤ s.bp + 2 ∧ 0x8000 ≤ t.a := by
  have hshifted := splitC_shifted_lt k d ha hc
  obtain ⟨hct, -, -, -, hlo, -⟩ := hc
  by_cases hrenorm : d ≠ s.cx[k].mps ∨ s.a - (selectedRow k s).qe < 0x8000
  case pos =>
    rw [encodeDecision_eq_renorm hrenorm]
    exact renormEncoder_of_room _ hct (splitA_pos k d ha) (splitA_lt hrenorm) hshifted hlo h
  case neg =>
    obtain ⟨hd, hge⟩ := not_or.1 hrenorm
    have hnorm : 0x8000 ≤ s.a - (selectedRow k s).qe := BitVec.not_lt.1 hge
    rw [encodeDecision_unshifted (not_not.1 hd) hnorm]
    exact ⟨_, rfl, .of_eq 15 hct rfl rfl rfl rfl, by simp, hnorm⟩

theorem codedContext_mps {d : Bool} {x : Context} (h : d = x.mps) : codedContext d x = ⟨(cmtRow x.i).nmps, x.mps⟩ :=
  if_pos h

theorem codedContext_lps {d : Bool} {x : Context} (h : d ≠ x.mps) :
    codedContext d x = ⟨(cmtRow x.i).nlps, if (cmtRow x.i).switch then !x.mps else x.mps⟩ := if_neg h

/-- C takes QE without overflow (R113, R120). -/
theorem toNat_add_qe (k : Label) {s : State} (hc : EncoderCursor s) :
    (s.c + (selectedRow k s).qe.setWidth 32).toNat = s.c.toNat + (selectedRow k s).qe.toNat := by
  obtain ⟨-, hq⟩ := selectedRow_qe_range k s
  have hclt := hc.c_lt
  rw [BitVec.toNat_add, toNat_setWidth_word _ (by decide)]
  omega

/-- Settles O34: the decision ends (`encodeDecision_of_room`), with a renormalization of its split and transition or
without one. -/
theorem encodeCodesOneDecision : Obligations.EncodeCodesOneDecision := by
  intro s cx hcx d hm hb hroom k row m reduced
  obtain ⟨ha, hc⟩ : 0x8000 ≤ s.a ∧ EncoderCursor s := hb hm
  obtain ⟨t, ht, ⟨-, -, -, hup, hbytes⟩, hbp, hnorm⟩ := encodeDecision_of_room k d ha hc hroom
  have hexec := execEncode_eq hcx d hm
  have hframe : (encodeDecision k d s).All (EncoderFrame s) := encodeDecision_frame k d s
  rw [ht, finish_done] at hexec
  rw [ht, Run.all_done] at hframe
  have hresponse : t.response = s.response := by
    rw [EncoderFrame] at hframe
    rw [hframe]
  refine ⟨_, hexec, congrArg (State.answer · Response.ok) hframe, ?_⟩
  by_cases h : d ≠ m ∨ reduced < 0x8000
  case pos =>
    have hcoded := encodeDecision_renorm_cx h
    rw [ht, Run.all_done] at hcoded
    have hself : t.cx[k] = codedContext d s.cx[k] := (congrArg (·[k]) hcoded).trans (codedContexts_self k d s.cx)
    rw [encodeDecision_eq_renorm h, ← hcoded] at ht
    exact ⟨fun j hj => (congrArg (·[j]) hcoded).trans (codedContexts_ne hj d s.cx),
      fun hd hge => absurd h (not_or.2 ⟨not_not.2 hd, BitVec.not_lt.2 hge⟩),
      fun hd _ => hself.trans (codedContext_mps hd), fun hd => hself.trans (codedContext_lps hd),
      fun _ => ht.trans (congrArg (fun r => Run.done () { t with response := r }) hresponse), hnorm, hup, hbp, hbytes⟩
  case neg =>
    obtain ⟨hd, hge⟩ := not_or.1 h
    rw [encodeDecision_unshifted (not_not.1 hd) (BitVec.not_lt.1 hge)] at ht
    cases ht
    exact ⟨fun _ _ => rfl, fun _ _ => ⟨rfl, toNat_add_qe k hc, rfl, rfl, rfl, rfl⟩, fun _ hlt => absurd hlt hge,
      fun hne => absurd hne hd, fun h' => absurd h' h, hnorm, hup, hbp, hbytes⟩

end Sys2Proof.Machine

namespace Sys2Proof.Machine

/-! ## FLUSHENC (R118) -/

/-- Only what a byte-out writes differs (R116). -/
def ByteOutFrame (s t : State) : Prop := t = { s with c := t.c, ct := t.ct, bp := t.bp, cb := t.cb }

theorem ByteOutFrame.trans {s t u : State} (h : ByteOutFrame s t) (g : ByteOutFrame t u) : ByteOutFrame s u := by
  unfold ByteOutFrame at *
  rw [State.ext_iff] at *
  simp_all

theorem byteMovedOut_frame (s : State) : ByteOutFrame s (byteMovedOut s) := byteMovedOut_eq

/-- Between a byte-out and the next one, C moved up by CT stays below the carry position. -/
theorem byteMovedOut_product_lt (s : State) :
    (byteMovedOut s).c.toNat * 2 ^ (byteMovedOut s).ct.toNat < 2 ^ 27 := by
  rw [byteMovedOut_c_toNat, byteMovedOut_ct]
  split
  · exact Nat.mul_lt_mul_of_pos_right (Nat.mod_lt _ (by decide)) (by decide)
  · exact Nat.mul_lt_mul_of_pos_right (Nat.mod_lt _ (by decide)) (by decide)

/-- The shift of the flush loses no bit of a C that stays below 2^32. -/
theorem shiftOut_c_toNat {s : State} (h : s.c.toNat * 2 ^ s.ct.toNat < 2 ^ 32) :
    (shiftOut s).c.toNat = s.c.toNat * 2 ^ s.ct.toNat := by
  show (s.c <<< s.ct.toNat).toNat = _
  rw [BitVec.toNat_shiftLeft, Nat.shiftLeft_eq, Nat.mod_eq_of_lt h]

/-- A byte put after a 0xFF without a carry position in use is below 0x80 (R116). -/
theorem outByte_ne_ff {s : State} (hff : lastByte s = 0xFF) (hc : s.c.toNat < 2 ^ 27) : outByte s ≠ 0xFF := by
  intro he
  have hbyte : (outByte s).toNat = s.c.toNat / 2 ^ 20 % 2 ^ 8 := outByte_toNat.trans (if_pos hff)
  rw [he] at hbyte
  have : s.c.toNat / 2 ^ 20 % 2 ^ 8 = 255 := hbyte.symm
  omega

theorem outCarries_eq_false_of_lt {s : State} (hc : s.c.toNat < 2 ^ 27) : outCarries s = false :=
  decide_eq_false fun h => absurd h.2 (not_le.2 hc)

/-- The state after the first byte-out of the flush (R118). -/
def flushedOnce (s : State) : State := byteMovedOut (shiftOut (setBits s))

/-- The state after both byte-outs of the flush (R118). -/
def flushedTwice (s : State) : State := byteMovedOut (shiftOut (flushedOnce s))

theorem setBits_ct (s : State) : (setBits s).ct = s.ct := by
  unfold setBits
  dsimp only
  split <;> rfl

theorem shiftOut_setBits_eq {s : State} (ha : 0x8000 ≤ s.a) :
    shiftOut (setBits s) = s.setC ((setBits s).c <<< s.ct.toNat) := by
  obtain ⟨hframe, -⟩ := setBits_interval ha
  rw [shiftOut, hframe]
  rfl

/-- The first byte-out of the flush puts one byte, and may carry into the one before it. -/
theorem flushedOnce_spec {s : State} (ha : 0x8000 ≤ s.a) (hlo : (s.startAddr.toNat : Int) - 1 ≤ s.bp) :
    ByteOutFrame s (flushedOnce s) ∧ (flushedOnce s).bp = s.bp + 1
      ∧ ∀ a : Nat, (a : Int) < s.bp ∨ s.bp + 1 < a → (flushedOnce s).cb.read a = s.cb.read a := by
  rw [flushedOnce, shiftOut_setBits_eq ha]
  generalize (setBits s).c <<< s.ct.toNat = c
  have hshift : ByteOutFrame s (s.setC c) := rfl
  refine ⟨hshift.trans (byteMovedOut_frame _), byteMovedOut_bp, fun a h => ?_⟩
  exact byteMovedOut_read_kept (s := s.setC c) hlo a h

/-- The second byte-out of the flush, away from the phantom byte, has no carry to make: it puts one byte, which is not 0xFF
after a 0xFF. -/
theorem byteMovedOut_shiftOut_spec {u : State} (hlo : (u.startAddr.toNat : Int) ≤ u.bp)
    (hc : u.c.toNat * 2 ^ u.ct.toNat < 2 ^ 27) :
    (∀ a : Nat, (a : Int) ≠ u.bp + 1 → (byteMovedOut (shiftOut u)).cb.read a = u.cb.read a)
      ∧ ((byteMovedOut (shiftOut u)).cb.read (u.bp + 1).toNat = 0xFF →
        (byteMovedOut (shiftOut u)).cb.read u.bp.toNat ≠ 0xFF) := by
  have hc' : (shiftOut u).c.toNat < 2 ^ 27 := by rwa [shiftOut_c_toNat (hc.trans (by decide))]
  have hcarries := outCarries_eq_false_of_lt hc'
  have hne : u.bp ≠ (u.startAddr.toNat : Int) - 1 := by omega
  have hlast : lastByte (shiftOut u) = u.cb.read u.bp.toNat := lastByte_of_ne (s := shiftOut u) hne
  have hkept : ∀ a : Nat, (a : Int) ≠ u.bp + 1 → (byteMovedOut (shiftOut u)).cb.read a = u.cb.read a := fun a h => by
    rw [byteMovedOut_read_ne (by show a ≠ (u.bp + 1).toNat; omega), carriedCb_of_not hcarries]
    rfl
  refine ⟨hkept, fun hput hbefore => ?_⟩
  rw [hkept _ (by omega), ← hlast] at hbefore
  exact outByte_ne_ff hbefore hc' (byteMovedOut_read_next.symm.trans hput)

/-- The two byte-outs of the flush: the bytes that can differ, and no 0xFF after a 0xFF (R116, R118). -/
theorem flushedTwice_spec {s : State} (ha : 0x8000 ≤ s.a) (hlo : (s.startAddr.toNat : Int) - 1 ≤ s.bp) :
    ByteOutFrame s (flushedTwice s) ∧ (flushedTwice s).bp = s.bp + 2
      ∧ (∀ a : Nat, (a : Int) < s.bp ∨ s.bp + 2 < a → (flushedTwice s).cb.read a = s.cb.read a)
      ∧ ((flushedTwice s).cb.read (s.bp + 2).toNat = 0xFF → (flushedTwice s).cb.read (s.bp + 1).toNat ≠ 0xFF) := by
  obtain ⟨hframe, hbp, hkept⟩ := flushedOnce_spec ha hlo
  have hst : (flushedOnce s).startAddr = s.startAddr := by rw [hframe]
  have hproduct : (flushedOnce s).c.toNat * 2 ^ (flushedOnce s).ct.toNat < 2 ^ 27 := byteMovedOut_product_lt _
  rw [flushedTwice]
  generalize flushedOnce s = u at hframe hbp hkept hst hproduct
  obtain ⟨hkept', hff⟩ := byteMovedOut_shiftOut_spec (u := u) (by rw [hst, hbp]; omega) hproduct
  have hshift : ByteOutFrame u (shiftOut u) := rfl
  have hbp' : u.bp + 1 = s.bp + 2 := by omega
  refine ⟨hframe.trans (hshift.trans (byteMovedOut_frame _)), byteMovedOut_bp.trans hbp', fun a h => ?_, ?_⟩
  · rw [hkept' a (by omega), hkept a (by omega)]
  · rwa [hbp', hbp] at hff

/-- BP after the flush (R118): a last byte 0xFF is not counted. -/
def flushedBp (s : State) : Int := if (flushedTwice s).cb.read (s.bp + 2).toNat = 0xFF then s.bp + 2 else s.bp + 3

theorem byteOut_flushedOnce {s : State} (h : s.bp + 2 < s.endAddr.toNat) (ha : 0x8000 ≤ s.a) :
    byteOut (shiftOut (setBits s)) = .done () (flushedOnce s) := by
  rw [flushedOnce, byteOut_eq]
  rw [shiftOut_setBits_eq ha]
  show s.bp + 1 < s.endAddr.toNat
  omega

theorem byteOut_flushedTwice {s : State} (h : s.bp + 2 < s.endAddr.toNat) (ha : 0x8000 ≤ s.a)
    (hlo : (s.startAddr.toNat : Int) - 1 ≤ s.bp) :
    byteOut (shiftOut (flushedOnce s)) = .done () (flushedTwice s) := by
  obtain ⟨hframe, hbp, -⟩ := flushedOnce_spec ha hlo
  have hen : (flushedOnce s).endAddr = s.endAddr := by rw [hframe]
  refine byteOut_eq ?_
  show (flushedOnce s).bp + 1 < (flushedOnce s).endAddr.toNat
  rw [hbp, hen]
  omega

theorem flushEncoder_eq {s : State} (h : s.bp + 2 < s.endAddr.toNat) (ha : 0x8000 ≤ s.a)
    (hlo : (s.startAddr.toNat : Int) - 1 ≤ s.bp) :
    flushEncoder s = .done () ((flushedTwice s).setBp (flushedBp s)) := by
  obtain ⟨hframe, hbp, -⟩ := flushedTwice_spec ha hlo
  have hst : (flushedTwice s).startAddr = s.startAddr := by rw [hframe]
  have hlast : lastByte (flushedTwice s) = (flushedTwice s).cb.read (s.bp + 2).toNat := by
    rw [lastByte_of_ne (by rw [hst, hbp]; omega), hbp]
  rw [flushEncoder, byteOut_flushedOnce h ha, Run.bind_done, byteOut_flushedTwice h ha hlo, Run.bind_done, hlast,
    flushedBp]
  split
  · rw [← hbp]
    rfl
  · rw [hbp, Int.add_assoc]
    rfl

theorem flushedBp_cases (s : State) :
    (flushedTwice s).cb.read (s.bp + 2).toNat = 0xFF ∧ flushedBp s = s.bp + 2
      ∨ (flushedTwice s).cb.read (s.bp + 2).toNat ≠ 0xFF ∧ flushedBp s = s.bp + 3 := by
  unfold flushedBp
  split
  case isTrue h => exact .inl ⟨h, rfl⟩
  case isFalse h => exact .inr ⟨h, rfl⟩

/-- Settles O37: both byte-outs have room, the second makes no carry, and a last byte 0xFF follows another byte. -/
theorem flushencEndsTheSegment : Obligations.FlushencEndsTheSegment := by
  intro s hm hb hroom
  obtain ⟨ha, -, -, -, -, hlo, -⟩ := hb hm
  have hexec := execFlushenc_eq hm
  have hfirst := byteOut_flushedOnce hroom ha
  have hsecond := byteOut_flushedTwice hroom ha hlo
  obtain ⟨hframe, hbp, hkept, hff⟩ := flushedTwice_spec ha hlo
  have hcases := flushedBp_cases s
  have hflushed : flushedBp s = if (flushedTwice s).cb.read (s.bp + 2).toNat = 0xFF then s.bp + 2 else s.bp + 3 := rfl
  rw [flushEncoder_eq hroom ha hlo] at hexec
  have hshift : shiftOut (setBits s) = { setBits s with c := (setBits s).c <<< s.ct.toNat } := by
    rw [shiftOut, setBits_ct]
    rfl
  generalize flushedOnce s = u at hfirst hsecond
  generalize flushedBp s = bp at hexec hcases hflushed
  generalize flushedTwice s = v at hexec hsecond hframe hbp hkept hff hcases hflushed
  rw [ByteOutFrame, hbp] at hframe
  generalize v.c = c, v.ct = ct, v.cb = m at hframe hkept hff hcases hflushed
  subst hframe
  refine ⟨_, hexec, rfl, ?range, ?dropped, fun _ => ?last, hkept, u, _, ?first, hsecond, ?both⟩
  case range => exact hcases.imp And.right And.right
  case dropped =>
    show bp = s.bp + 2 ↔ m.read (s.bp + 2).toNat = 0xFF
    rcases hcases with ⟨hread, h⟩ | ⟨hread, h⟩
    · exact iff_of_true h hread
    · exact iff_of_false (by omega) hread
  case last =>
    show m.read (bp - 1).toNat ≠ 0xFF
    rcases hcases with ⟨hread, h⟩ | ⟨hread, h⟩
    · rw [h, show s.bp + 2 - 1 = s.bp + 1 by omega]
      exact hff hread
    · rw [h, show s.bp + 3 - 1 = s.bp + 2 by omega]
      exact hread
  case first => exact hshift ▸ hfirst
  case both =>
    rw [hflushed, show s.bp + 3 = s.bp + 2 + 1 by omega]
    rfl

end Sys2Proof.Machine

namespace Sys2Proof.Machine

/-! ## Capacity (R119) -/

/-- The commands of the list all answer without error, and leave MODE = IDLE. -/
def EndsIdle (commands : List Instr) (s : State) : Prop :=
  (issueAll commands s).1.length = commands.length ∧ (∀ r ∈ (issueAll commands s).1, r.err = 0)
    ∧ (issueAll commands s).2.mode = .idle

theorem EndsIdle.nil {s : State} (hm : s.mode = .idle) : EndsIdle [] s := ⟨rfl, by simp [issueAll], hm⟩

theorem EndsIdle.cons {i : Instr} {rest : List Instr} {s t : State} {r : Response} (h : exec i s = .next t)
    (hr : t.response = some r) (herr : r.err = 0) (hrest : EndsIdle rest t) : EndsIdle (i :: rest) s := by
  obtain ⟨hlength, hclean, hidle⟩ := hrest
  rw [EndsIdle, issueAll_cons h hr]
  exact ⟨congrArg (· + 1) hlength, List.forall_mem_cons.2 ⟨herr, hclean⟩, hidle⟩

/-- The window has room for `n` decisions and the flush (R119): a decision makes at most 15 shifts, a byte takes at least 7
of them, and the first byte those that CT counts already. -/
def RoomFor (n : Nat) (s : State) : Prop :=
  s.mode = .enc ∧ CoderBounds s ∧ 7 * s.bp + 15 * n + 34 ≤ 7 * s.endAddr.toNat + s.ct.toNat

theorem RoomFor.two_bytes {n : Nat} {s : State} (h : RoomFor n s) : s.bp + 2 < s.endAddr.toNat := by
  obtain ⟨hm, hb, hroom⟩ := h
  obtain ⟨-, -, -, hct, -⟩ := (coderBounds_iff_enc hm).1 hb
  have hct12 : s.ct.toNat ≤ 12 := BitVec.le_def.1 hct
  omega

/-- A window of `floor(15 n / 7) + 3` bytes has room for `n` decisions and the flush, from INITENC on. -/
theorem startEncoder_roomFor {n : Nat} {s : State} (hp : s.params.wf = true) (hw : WindowAdmitted s)
    (hlen : 15 * n / 7 + 3 ≤ s.seglen.toNat) : RoomFor n (startEncoder s) := by
  have hend := windowAdmitted_end hp hw
  have hbounds : CoderBounds (startEncoder (s.setWindow 0 0)) :=
    startEncoder_coderBounds ⟨hp, le_rfl, Nat.zero_le _⟩ hw
  refine ⟨rfl, hbounds, ?_⟩
  show 7 * ((s.segbase.toNat : Int) - 1) + 15 * n + 34 ≤ 7 * ((s.segbase + s.seglen).toNat : Nat) + ((12 : Nat) : Int)
  omega

/-- ENCODE completes and uses up the room for one decision. -/
theorem RoomFor.encode {n : Nat} {s : State} (h : RoomFor (n + 1) s) (k : Label) (d : Bool) :
    ∃ t, exec (.encode k.val d) s = .next t ∧ t.response = some Response.ok ∧ RoomFor n t := by
  have htwo := h.two_bytes
  obtain ⟨hm, hb, hroom⟩ := h
  obtain ⟨-, ha, hc⟩ := (coderBounds_iff_enc hm).1 hb
  obtain ⟨t, ht, ⟨-, -, hcount, -⟩, -⟩ := encodeDecision_of_room k d ha hc htwo
  have hexec := execEncode_eq k.isLt d hm
  have hframe : (encodeDecision k d s).All (EncoderFrame s) := encodeDecision_frame k d s
  rw [ht, Run.all_done] at hframe
  rw [ht, finish_done] at hexec
  obtain ⟨-, hen⟩ := hframe.coding.window
  refine ⟨_, hexec, rfl, hframe.coding.mode.trans hm, exec_coderBounds hexec hb, ?_⟩
  show 7 * t.bp + 15 * n + 34 ≤ 7 * t.endAddr.toNat + t.ct.toNat
  rw [hen]
  push_cast at hroom
  omega

/-- FLUSHENC completes in the room that is left. -/
theorem RoomFor.flush {n : Nat} {s : State} (h : RoomFor n s) : EndsIdle [.flushenc] s := by
  have htwo := h.two_bytes
  obtain ⟨hm, ⟨-, -, hb, -⟩, -⟩ := h
  obtain ⟨t, hexec, ht, -⟩ := flushencEndsTheSegment s hm hb htwo
  have hresponse : t.response = some (Response.okValue (BitVec.ofInt 32 (t.bp - s.startAddr.toNat))) := by rw [ht]; rfl
  have hidle : t.mode = .idle := by rw [ht]
  exact .cons hexec hresponse rfl (.nil hidle)

theorem RoomFor.decisions {decisions : List (Label × Bool)} {s : State} (h : RoomFor decisions.length s) :
    EndsIdle (decisions.map (fun kd => .encode kd.1.val kd.2) ++ [.flushenc]) s := by
  induction decisions generalizing s with
  | nil => exact h.flush
  | cons kd rest ih =>
    obtain ⟨t, hexec, hresponse, hroom⟩ := h.encode kd.1 kd.2
    exact .cons hexec hresponse rfl (ih hroom)

/-- Settles O39: INITENC opens a window with room for the decisions, each of which leaves room for those after it. -/
theorem windowOfTheStatedCapacityNeverFaults : Obligations.WindowOfTheStatedCapacityNeverFaults := by
  intro s decisions hp hf hw hlen
  have hinit := opensSegment_initenc.exec_eq s hf hw
  have hroom : RoomFor decisions.length ((startEncoder s).answer Response.ok) := startEncoder_roomFor hp hw hlen
  obtain ⟨hlength, hclean, hidle⟩ := EndsIdle.cons hinit rfl rfl hroom.decisions
  exact ⟨by simpa using hlength, hclean, hidle⟩

end Sys2Proof.Machine

namespace Sys2Proof.Machine

/-! ## RAWDEC (R132) -/

/-- The raw decoder with a bit to deliver: refilled where none is left (R132). -/
def rawFilled (s : State) : State := if s.rct = 0 then rawRefill s else s

/-- RAWDEC counts down and delivers the bit of RB at the new RCT (R132). -/
theorem rawDecodeBit_eq (s : State) :
    rawDecodeBit s = ((rawFilled s).rb.getLsbD ((rawFilled s).rct - 1).toNat,
      (rawFilled s).setRaw (rawFilled s).rb ((rawFilled s).rct - 1)) := rfl

section

variable {s : State}

theorem rawFilled_of_ne (h : s.rct ≠ 0) : rawFilled s = s := if_neg h

theorem rawFilled_marker (h : s.rct = 0) (hff : s.rb = 0xFF) (hnext : 0x8F < fetchByte s s.bp) :
    rawFilled s = s.setRaw 0xFF 8 := (if_pos h).trans <| (if_pos hff).trans (if_pos hnext)

theorem rawFilled_stuffed (h : s.rct = 0) (hff : s.rb = 0xFF) (hnext : fetchByte s s.bp ≤ 0x8F) :
    rawFilled s = (s.setRaw (fetchByte s s.bp) 7).setBp (s.bp + 1) :=
  (if_pos h).trans <| (if_pos hff).trans (if_neg (BitVec.not_lt.2 hnext))

theorem rawFilled_ordinary (h : s.rct = 0) (hff : s.rb ≠ 0xFF) :
    rawFilled s = (s.setRaw (fetchByte s s.bp) 8).setBp (s.bp + 1) := (if_pos h).trans (if_neg hff)

theorem execRawdec_eq (hm : s.mode = .rawdec) :
    exec .rawdec s = .next ((rawDecodeBit s).2.answer (Response.decision (rawDecodeBit s).1)) := by
  rw [exec, execRawdec, requireMode_self hm, admitted_none]

end

/-- Settles O42: the bit is read off `rawFilled`, whose four cases are the clauses. -/
theorem rawdecDeliversTheNextBit : Obligations.RawdecDeliversTheNextBit := by
  intro s hm next
  have hexec := execRawdec_eq hm
  have hframe : RawDecoderFrame s (rawDecodeBit s).2 := rawDecodeBit_frame s
  rw [response_decision_eq] at hexec
  refine ⟨_, _, hexec, congrArg (State.answer · _) hframe, rfl, fun h => ?left, fun h hff hnext => ?marker,
    fun h hff hnext => ?stuffed, fun h hff => ?ordinary⟩
  case left => simp [State.answer, rawDecodeBit_eq, rawFilled_of_ne h]
  case marker => simp [State.answer, rawDecodeBit_eq, rawFilled_marker h hff hnext]
  case stuffed => simp [State.answer, rawDecodeBit_eq, rawFilled_stuffed h hff hnext, next]
  case ordinary => simp [State.answer, rawDecodeBit_eq, rawFilled_ordinary h hff, next]

end Sys2Proof.Machine

namespace Sys2Proof.Machine

/-! ## RAWENC (R134) -/

/-- RAWENC puts its bit at the next lower position of RB and leaves the others. -/
theorem rawPacked_getLsbD (d : Bool) {s : State} (hrct : 1 ≤ s.rct.toNat) {n : Nat} (hn : n < 8) :
    (rawPacked d s).getLsbD n = (s.rb.getLsbD n || decide (n + 1 = s.rct.toNat) && d) := by
  have hleft : (s.rct - 1).toNat = s.rct.toNat - 1 := by bv_omega
  rw [rawPacked, BitVec.getLsbD_or, BitVec.getLsbD_shiftLeft, BitVec.getLsbD_setWidth, BitVec.getLsbD_ofBool, hleft]
  congr 1
  by_cases h : n + 1 = s.rct.toNat
  · simp [h, hn, show n - (s.rct.toNat - 1) = 0 by omega, show ¬ n < s.rct.toNat - 1 by omega]
  · by_cases hlt : n < s.rct.toNat - 1
    · simp [h, hlt]
    · simp [h, show n - (s.rct.toNat - 1) ≠ 0 by omega]

theorem rawPacked_eq (d : Bool) {s : State} (hrct : 1 ≤ s.rct.toNat) :
    rawPacked d s = if d then s.rb ||| (1#8 <<< (s.rct.toNat - 1)) else s.rb := by
  have hleft : (s.rct - 1).toNat = s.rct.toNat - 1 := by bv_omega
  rw [rawPacked, hleft]
  cases d
  · simp
  · rfl

/-- The state after RAWENC has stored the byte that its bit fills (R134). -/
def rawStored (d : Bool) (s : State) : State :=
  { s with
    rb := 0, rct := if rawPacked d s = 0xFF then 7 else 8, lastff := decide (rawPacked d s = 0xFF), bp := s.bp + 1
    cb := s.cb.write s.bp.toNat (rawPacked d s) }

theorem rawEncodeBit_stored (d : Bool) {s : State} (hrct : s.rct = 1) (hroom : s.bp < s.endAddr.toNat) :
    rawEncodeBit d s = .done () (rawStored d s) := by
  rw [rawEncodeBit_full d hrct, storeByte_of_lt (by exact hroom), beq_eq_decide, Run.bind_done, rawStored]
  refine congrArg (Run.done ()) ?_
  apply State.ext <;> simp

/-- The state after one raw bit is appended, where a byte that becomes full has room (R134). -/
def rawAppended (d : Bool) (s : State) : State :=
  if s.rct = 1 then rawStored d s else s.setRaw (rawPacked d s) (s.rct - 1)

theorem rawAppended_full (d : Bool) {s : State} (h : s.rct = 1) : rawAppended d s = rawStored d s := if_pos h

theorem rawAppended_pack (d : Bool) {s : State} (h : s.rct ≠ 1) :
    rawAppended d s = s.setRaw (rawPacked d s) (s.rct - 1) := if_neg h

theorem execRawenc_of_room (d : Bool) {s : State} (hm : s.mode = .rawenc)
    (hroom : s.rct = 1 → s.bp < s.endAddr.toNat) :
    exec (.rawenc d) s = .next ((rawAppended d s).answer Response.ok) := by
  rw [execRawenc_eq d hm]
  by_cases h1 : s.rct = 1
  · rw [rawEncodeBit_stored d h1 (hroom h1), finish_done, rawAppended_full d h1]
  · rw [rawEncodeBit_pack d h1, finish_done, rawAppended_pack d h1]

/-- Settles O43: the bit is packed, and the byte it fills is stored. -/
theorem rawencAppendsOneBit : Obligations.RawencAppendsOneBit := by
  intro s d hm hb hroom rb
  obtain ⟨hrct, -, hst, -⟩ := hb hm
  have hpacked : rawPacked d s = rb := rawPacked_eq d hrct
  refine ⟨_, execRawenc_of_room d hm hroom, fun h1 => ?packed, fun h1 => ?stored⟩
  case packed =>
    rw [rawAppended_pack d h1, hpacked]
    rfl
  case stored =>
    rw [rawAppended_full d h1, ← hpacked]
    refine ⟨rfl, fun a => ?_⟩
    show (s.cb.write s.bp.toNat (rawPacked d s)).read a = _
    rw [Memory.read_write]
    exact if_congr (by omega) rfl rfl

end Sys2Proof.Machine

namespace Sys2Proof.Machine

/-! ## RAWFLUSH (R135) -/

/-- The padding puts `v`, its complement, `v`, ... into the `m` low bits, from the top one down (R135). -/
theorem padByte_getLsbD (m : Nat) (v : Bool) (rb : Byte) {n : Nat} (hn : n < 8) :
    (padByte m v rb).getLsbD n = (rb.getLsbD n || decide (n < m) && (v ^^ decide ((m - 1 - n) % 2 = 1))) := by
  induction m generalizing v rb with
  | zero => simp [padByte]
  | succ m ih =>
    rw [padByte, ih, BitVec.getLsbD_or, BitVec.getLsbD_shiftLeft, BitVec.getLsbD_setWidth, BitVec.getLsbD_ofBool]
    rcases lt_trichotomy n m with h | rfl | h
    · have hparity : decide ((m + 1 - 1 - n) % 2 = 1) = !decide ((m - 1 - n) % 2 = 1) := by
        rw [← decide_not]
        exact decide_eq_decide.2 (by omega)
      rw [hparity]
      simp [h, show n < m + 1 by omega]
    · simp [hn]
    · simp [show ¬ n < m by omega, show ¬ n < m + 1 by omega, show n - m ≠ 0 by omega]

/-- RCT where no bit waits in RB: a byte after 0xFF has 7 bits (R135, R136). -/
def rawFull (s : State) : BitVec 4 := if s.lastff then 7 else 8

/-- BP after RAWFLUSH (R135). -/
def rawFlushedBp (s : State) : Int :=
  if s.rct ≠ rawFull s then s.bp + 1 else if s.lastff then s.bp - 1 else s.bp

/-- CB after RAWFLUSH (R135). -/
def rawFlushedCb (s : State) : Memory 8 :=
  if s.rct ≠ rawFull s then s.cb.write s.bp.toNat (padByte s.rct.toNat false s.rb) else s.cb

theorem rawFlushedCb_of_waits {s : State} (h : s.rct ≠ rawFull s) :
    rawFlushedCb s = s.cb.write s.bp.toNat (padByte s.rct.toNat false s.rb) := if_pos h

/-- The state after RAWFLUSH up to MODE, where a padded byte has room (R135). -/
def rawFlushed (s : State) : State :=
  { s with rb := 0, rct := 8, lastff := false, bp := rawFlushedBp s, cb := rawFlushedCb s }

theorem rawFlush_of_room {s : State} (hroom : s.rct ≠ rawFull s → s.bp < s.endAddr.toNat) :
    rawFlush s = .done () (rawFlushed s) := by
  by_cases h : s.rct ≠ rawFull s
  · rw [rawFlush_padded h, storeByte_of_lt (by exact hroom h), rawFlushed, rawFlushedBp, rawFlushedCb, if_pos h,
      if_pos h]
    generalize padByte s.rct.toNat false s.rb = b
    rfl
  · unfold rawFlush
    dsimp only
    rw [← rawFull, rawFlushed, rawFlushedBp, rawFlushedCb, if_neg h, if_neg h, if_neg h]
    split <;> rfl

theorem execRawflush_of_room {s : State} (hm : s.mode = .rawenc)
    (hroom : s.rct ≠ rawFull s → s.bp < s.endAddr.toNat) :
    exec .rawflush s =
      .next (((rawFlushed s).setMode .idle).answer (Response.okValue (numBytes (rawFlushed s)))) := by
  rw [execRawflush_eq hm, rawFlush_of_room hroom, finish_done]

/-- Settles O44: the byte that waits is padded (`padByte_getLsbD`) and stored, or none waits. -/
theorem rawflushEndsTheSegment : Obligations.RawflushEndsTheSegment := by
  intro s hm hb full hroom
  obtain ⟨-, -, hst, -⟩ := hb hm
  have hexec := execRawflush_of_room hm hroom
  refine ⟨_, hexec, rfl, fun h => ⟨if_pos h, fun a ha => ?kept, fun n hn => ?byte⟩,
    fun h => ⟨if_neg (not_not.2 h), if_neg (not_not.2 h)⟩⟩
  case kept =>
    show (rawFlushedCb s).read a = _
    rw [rawFlushedCb_of_waits h, Memory.read_write, if_neg (by omega)]
  case byte =>
    show ((rawFlushedCb s).read s.bp.toNat).getLsbD n = _
    rw [rawFlushedCb_of_waits h, Memory.read_write, if_pos rfl, padByte_getLsbD _ _ _ hn, Bool.false_xor]

end Sys2Proof.Machine

namespace Sys2Proof.Machine

/-! ## The raw round trip (R137): the encoder -/

/-- The bits of RB that RAWENC has still to fill are 0, and after a byte 0xFF so is bit 7 (R136). -/
def RawClean (e : State) : Prop :=
  (∀ n, n < e.rct.toNat → e.rb.getLsbD n = false)
    ∧ (e.lastff = true → e.rb.getLsbD 7 = false ∧ e.cb.read (e.bp - 1).toNat = 0xFF)

theorem RawClean.encode {e : State} (h : RawClean e) (d : Bool) (hrct : 1 ≤ e.rct.toNat) (h8 : e.rct ≤ 8)
    (h7 : e.lastff = true → e.rct ≤ 7) : RawClean (rawAppended d e) := by
  obtain ⟨hfree, hff⟩ := h
  by_cases h1 : e.rct = 1
  case pos =>
    rw [rawAppended_full d h1]
    refine ⟨fun n _ => BitVec.getLsbD_zero, fun hl => ⟨BitVec.getLsbD_zero, ?_⟩⟩
    show (e.cb.write e.bp.toNat (rawPacked d e)).read (e.bp + 1 - 1).toNat = 0xFF
    rw [Int.add_sub_cancel, Memory.read_write, if_pos rfl]
    exact of_decide_eq_true hl
  case neg =>
    rw [rawAppended_pack d h1]
    refine ⟨fun n hn => ?_, fun hl => ⟨?_, (hff hl).2⟩⟩
    · have hn' : n + 1 < e.rct.toNat := by
        have : n < (e.rct - 1).toNat := hn
        bv_omega
      have hrct8 : e.rct.toNat ≤ 8 := h8
      show (rawPacked d e).getLsbD n = false
      rw [rawPacked_getLsbD d hrct (by omega), hfree n (by omega)]
      simp [hn'.ne]
    · have hrct7 : e.rct.toNat ≤ 7 := h7 hl
      show (rawPacked d e).getLsbD 7 = false
      rw [rawPacked_getLsbD d hrct (by decide), (hff hl).1]
      simp [show 7 + 1 ≠ e.rct.toNat by omega]

/-- The encoder of a segment that RAWINITENC opened in the state `s`, with room for `n` bits more: a byte takes at
least 7 of them. -/
structure RawPacking (s : State) (n : Nat) (e : State) : Prop where
  mode : e.mode = .rawenc
  bounds : CoderBounds e
  clean : RawClean e
  params : e.params = s.params
  segbase : e.segbase = s.segbase
  window : e.startAddr = s.segbase ∧ e.endAddr = s.segbase + s.seglen
  room : (rawFull e).toNat + n + 7 * e.bp ≤ 7 * e.endAddr.toNat + e.rct.toNat

section

variable {s e : State} {n : Nat}

theorem RawPacking.cursor (h : RawPacking s n e) : RawEncoderCursor e := ((coderBounds_iff_rawenc h.mode).1 h.bounds).2

theorem RawPacking.rct_le_full (h : RawPacking s n e) : e.rct ≤ rawFull e := by
  obtain ⟨-, h8, -, -, hff⟩ := h.cursor
  unfold rawFull
  split
  case isTrue hl => exact (hff hl).1
  case isFalse => exact h8

theorem rawFull_rawStored (d : Bool) (e : State) : rawFull (rawStored d e) = (rawStored d e).rct := by
  simp [rawFull, rawStored]

theorem rawAppended_kept (d : Bool) (e : State) :
    (rawAppended d e).mode = e.mode ∧ (rawAppended d e).params = e.params ∧ (rawAppended d e).segbase = e.segbase
      ∧ (rawAppended d e).startAddr = e.startAddr ∧ (rawAppended d e).endAddr = e.endAddr := by
  unfold rawAppended
  split
  · exact ⟨rfl, rfl, rfl, rfl, rfl⟩
  · exact ⟨rfl, rfl, rfl, rfl, rfl⟩

theorem rawFull_le (e : State) : 7 ≤ (rawFull e).toNat ∧ (rawFull e).toNat ≤ 8 := by
  unfold rawFull
  split <;> decide

/-- RAWINITENC opens a segment with room for 7 bits in each byte of its window. -/
theorem startRawEncoder_packing (hp : s.params.wf = true) (hw : WindowAdmitted s) (hn : n ≤ 7 * s.seglen.toNat) :
    RawPacking s n ((startRawEncoder s).answer Response.ok) := by
  have hend := windowAdmitted_end hp hw
  have hbounds : CoderBounds (startRawEncoder (s.setWindow 0 0)) :=
    startRawEncoder_coderBounds ⟨hp, le_rfl, Nat.zero_le _⟩ hw
  rw [startRawEncoder_fields] at hbounds ⊢
  refine ⟨rfl, hbounds, ⟨fun _ _ => BitVec.getLsbD_zero, fun h => absurd h Bool.false_ne_true⟩, rfl, rfl, ⟨rfl, rfl⟩,
    ?_⟩
  show ((8 : Nat) : Int) + n + 7 * s.segbase.toNat ≤ 7 * ((s.segbase + s.seglen).toNat : Nat) + ((8 : Nat) : Int)
  omega

/-- RAWENC takes up the room for one bit. -/
theorem rawAppended_room (d : Bool) (hrct : 1 ≤ e.rct.toNat)
    (h : (rawFull e).toNat + (n + 1 : Nat) + 7 * e.bp ≤ 7 * e.endAddr.toNat + e.rct.toNat) :
    (rawFull (rawAppended d e)).toNat + n + 7 * (rawAppended d e).bp
      ≤ 7 * e.endAddr.toNat + (rawAppended d e).rct.toNat := by
  obtain ⟨hfull7, hfull8⟩ := rawFull_le e
  by_cases h1 : e.rct = 1
  · have hone : e.rct.toNat = 1 := by rw [h1]; rfl
    rw [rawAppended_full d h1, rawFull_rawStored]
    show _ + n + 7 * (e.bp + 1) ≤ _
    omega
  · have hless : (e.rct - 1).toNat = e.rct.toNat - 1 := by bv_omega
    rw [rawAppended_pack d h1]
    show (rawFull e).toNat + n + 7 * e.bp ≤ 7 * e.endAddr.toNat + (e.rct - 1).toNat
    rw [hless]
    omega

/-- RAWENC completes and uses up the room for one bit. -/
theorem RawPacking.encode (h : RawPacking s (n + 1) e) (d : Bool) :
    exec (.rawenc d) e = .next ((rawAppended d e).answer Response.ok)
      ∧ RawPacking s n ((rawAppended d e).answer Response.ok) := by
  obtain ⟨hfull7, -⟩ := rawFull_le e
  have hroom := h.room
  obtain ⟨hrct, h8, -, -, hff⟩ := h.cursor
  obtain ⟨hmode, hparams, hsegbase, hstart, hend⟩ := rawAppended_kept d e
  have hexec := execRawenc_of_room d h.mode fun h1 => by
    have : e.rct.toNat = 1 := by rw [h1]; rfl
    omega
  have hspace := rawAppended_room d hrct hroom
  rw [← hend] at hspace
  obtain ⟨hstart', hend'⟩ := h.window
  exact ⟨hexec, hmode.trans h.mode, exec_coderBounds hexec h.bounds, h.clean.encode d hrct h8 fun hl => (hff hl).1,
    hparams.trans h.params, hsegbase.trans h.segbase, ⟨hstart.trans hstart', hend.trans hend'⟩, hspace⟩

end

/-! ## The raw round trip (R137): the decoder -/

/-- The bytes `f` that a decoder fetches hold what the encoder has put out: the bytes stored, and the bits that wait. -/
def RawHolds (f : Int → Byte) (e : State) : Prop :=
  (∀ a : Nat, (a : Int) < e.bp → f a = e.cb.read a)
    ∧ (e.rct ≠ rawFull e → ∀ n, e.rct.toNat ≤ n → n < 8 → (f e.bp).getLsbD n = e.rb.getLsbD n)

/-- The decoder `D` over the bytes `f` stands where the encoder does: at a byte not begun, or in the byte at BP. -/
def RawAt (f : Int → Byte) (e D : State) : Prop :=
  D.mode = .rawdec ∧ fetchByte D = f
    ∧ (e.rct = rawFull e → D.rct = 0 ∧ D.bp = e.bp ∧ (D.rb = 0xFF ↔ e.lastff = true))
    ∧ (e.rct ≠ rawFull e → D.rct = e.rct ∧ D.bp = e.bp + 1 ∧ D.rb = f e.bp)

/-- The byte at BP has the bit `d` in the place of the next bit, and after 0xFF it is no marker. -/
def RawNext (f : Int → Byte) (d : Bool) (e : State) : Prop :=
  (f e.bp).getLsbD (e.rct.toNat - 1) = d ∧ (e.lastff = true → f e.bp ≤ 0x8F)

section

variable {s e D : State} {n : Nat} {f : Int → Byte} {d : Bool}

/-- What RAWENC has put out, the bytes before BP and the bits of the byte at BP down to the new one. -/
theorem RawHolds.of_appended (h : RawPacking s n e) (hf : RawHolds f (rawAppended d e)) :
    (∀ a : Nat, (a : Int) < e.bp → f a = e.cb.read a)
      ∧ (e.rct = 1 → f e.bp = rawPacked d e)
      ∧ ∀ n, e.rct.toNat ≤ n + 1 → n < 8 → (f e.bp).getLsbD n = (rawPacked d e).getLsbD n := by
  obtain ⟨hrct, -, hst, -⟩ := h.cursor
  obtain ⟨hbytes, hbits⟩ := hf
  by_cases h1 : e.rct = 1
  case pos =>
    rw [rawAppended_full d h1] at hbytes
    have hread : ∀ a : Nat, (a : Int) < e.bp + 1 → f a = if a = e.bp.toNat then rawPacked d e else e.cb.read a :=
      fun a ha => (hbytes a ha).trans (Memory.read_write _ _ _ _)
    have hbyte : f e.bp = rawPacked d e := by
      have := hread e.bp.toNat (by omega)
      rwa [if_pos rfl, Int.toNat_of_nonneg (by omega)] at this
    exact ⟨fun a ha => (hread a (by omega)).trans (if_neg (by omega)), fun _ => hbyte, fun n _ _ => by rw [hbyte]⟩
  case neg =>
    rw [rawAppended_pack d h1] at hbytes hbits
    have hle : e.rct.toNat ≤ (rawFull e).toNat := h.rct_le_full
    have hless : (e.rct - 1).toNat = e.rct.toNat - 1 := by bv_omega
    have hwaits : e.rct - 1 ≠ rawFull e := fun he => by
      rw [he] at hless
      omega
    exact ⟨hbytes, fun he => absurd he h1, fun n hn => hbits hwaits n (by show (e.rct - 1).toNat ≤ n; omega)⟩

/-- Bytes that hold the encoder's output after a bit hold it before that bit, and the bit comes next. -/
theorem RawHolds.before (h : RawPacking s n e) (hf : RawHolds f (rawAppended d e)) :
    RawHolds f e ∧ RawNext f d e := by
  obtain ⟨hbytes, -, hbits⟩ := hf.of_appended h
  obtain ⟨hrct, h8, -, -, hff⟩ := h.cursor
  obtain ⟨hfree, hlast⟩ := h.clean
  have hrct8 : e.rct.toNat ≤ 8 := h8
  have hbit : ∀ n, e.rct.toNat ≤ n + 1 → n < 8 →
      (f e.bp).getLsbD n = (e.rb.getLsbD n || decide (n + 1 = e.rct.toNat) && d) := fun n hn hn8 =>
    (hbits n hn hn8).trans (rawPacked_getLsbD d hrct hn8)
  refine ⟨⟨hbytes, fun _ n hn hn8 => ?_⟩, ?_, fun hl => ?_⟩
  · rw [hbit n (by omega) hn8]
    simp [show n + 1 ≠ e.rct.toNat by omega]
  · rw [hbit _ (by omega) (by omega), hfree _ (by omega)]
    simp [show e.rct.toNat - 1 + 1 = e.rct.toNat by omega]
  · have hrct7 : e.rct.toNat ≤ 7 := (hff hl).1
    have htop : (f e.bp).getLsbD 7 = false := by
      rw [hbit 7 (by omega) (by decide), (hlast hl).1]
      simp [show 7 + 1 ≠ e.rct.toNat by omega]
    have hmsb : (f e.bp).msb = false := htop
    rw [BitVec.msb_eq_false_iff_two_mul_lt] at hmsb
    bv_omega

/-- Where the next bit comes in, the decoder has the byte at BP in RB, and as many bits left as the encoder. -/
theorem RawAt.filled (hD : RawAt f e D) (hleft : 1 ≤ e.rct.toNat) (hnext : RawNext f d e) :
    rawFilled D = (D.setRaw (f e.bp) e.rct).setBp (e.bp + 1) := by
  obtain ⟨-, hfetch, hnew, hold⟩ := hD
  obtain ⟨-, hmarker⟩ := hnext
  by_cases hfull : e.rct = rawFull e
  case pos =>
    obtain ⟨hrct, hbp, hrb⟩ := hnew hfull
    have hbyte : fetchByte D D.bp = f e.bp := by rw [hfetch, hbp]
    rw [hfull, rawFull]
    by_cases hl : e.lastff = true
    · rw [rawFilled_stuffed hrct (hrb.2 hl) (hbyte ▸ hmarker hl), hbyte, hbp, if_pos hl]
    · rw [rawFilled_ordinary hrct (mt hrb.1 hl), hbyte, hbp, if_neg hl]
  case neg =>
    obtain ⟨hrct, hbp, hrb⟩ := hold hfull
    have hne : D.rct ≠ 0 := by bv_omega
    rw [rawFilled_of_ne hne, ← hrct, ← hbp, ← hrb]
    rfl

/-- RAWDEC where the encoder appended `d`: it answers `d`, and follows the encoder. -/
theorem RawAt.decode (h : RawPacking s n e) (hf : RawHolds f (rawAppended d e)) (hD : RawAt f e D)
    (hnext : RawNext f d e) :
    ∃ D', exec .rawdec D = .next D' ∧ D'.response = some (Response.decision d)
      ∧ RawAt f (rawAppended d e) D' := by
  obtain ⟨-, hbyte, -⟩ := hf.of_appended h
  obtain ⟨hrct, -⟩ := h.cursor
  have hless : (e.rct - 1).toNat = e.rct.toNat - 1 := by bv_omega
  have hle : e.rct.toNat ≤ (rawFull e).toNat := h.rct_le_full
  have hfilled := hD.filled hrct hnext
  obtain ⟨hmode, hfetch, -⟩ := hD
  obtain ⟨hbit, -⟩ := hnext
  have hexec := execRawdec_eq hmode
  rw [rawDecodeBit_eq, hfilled] at hexec
  simp only [State.setBp_rb, State.setRaw_rb, State.setBp_rct, State.setRaw_rct, hless, hbit] at hexec
  refine ⟨_, hexec, rfl, hmode, hfetch, ?_⟩
  by_cases h1 : e.rct = 1
  case pos =>
    rw [rawAppended_full d h1]
    refine ⟨fun _ => ⟨?_, rfl, ?_⟩, fun hne => absurd (rawFull_rawStored d e).symm hne⟩
    · show e.rct - 1 = 0
      rw [h1]
      rfl
    · show f e.bp = 0xFF ↔ decide (rawPacked d e = 0xFF) = true
      rw [hbyte h1, decide_eq_true_iff]
  case neg =>
    rw [rawAppended_pack d h1]
    refine ⟨fun hfull => ?_, fun _ => ⟨rfl, rfl, rfl⟩⟩
    have hfull' : (e.rct - 1).toNat = (rawFull e).toNat := congrArg BitVec.toNat hfull
    omega

/-- All the bits: RAWENC completes on each, and over bytes that hold the encoder's output at the end RAWDEC returns
them. -/
theorem RawPacking.bits {bits : List Bool} (h : RawPacking s bits.length e) :
    ∃ u, issueAll (bits.map .rawenc) e = (List.replicate bits.length Response.ok, u) ∧ RawPacking s 0 u
      ∧ ∀ f, RawHolds f u → RawHolds f e ∧ ∀ D, RawAt f e D →
        (issueAll (List.replicate bits.length .rawdec) D).1 = bits.map Response.decision := by
  induction bits generalizing e with
  | nil => exact ⟨e, rfl, h, fun f hf => ⟨hf, fun D _ => rfl⟩⟩
  | cons d rest ih =>
    obtain ⟨hexec, hpacking⟩ := RawPacking.encode h d
    obtain ⟨u, hrun, hu, hback⟩ := ih hpacking
    refine ⟨u, ?_, hu, fun f hf => ?_⟩
    · rw [List.map_cons, issueAll_cons hexec rfl, hrun]
      rfl
    · obtain ⟨hafter, hrest⟩ := hback f hf
      obtain ⟨hbefore, hnext⟩ := RawHolds.before (d := d) h hafter
      refine ⟨hbefore, fun D hD => ?_⟩
      obtain ⟨D', hdec, hresponse, hD'⟩ := hD.decode h hafter hnext
      rw [List.length_cons, List.replicate_succ, issueAll_cons hdec hresponse, List.map_cons]
      exact congrArg _ (hrest D' hD')

end

/-! ## The raw round trip (R137): the flush and the segment it ends -/

/-- The state in which the decoder is opened: after RAWFLUSH, with its VAL in SEGLEN. -/
def rawReopened (u : State) : State :=
  ((((rawFlushed u).setMode .idle).answer (Response.okValue (numBytes (rawFlushed u)))).setSeglen
    (numBytes (rawFlushed u))).answer Response.ok

section

variable {s u D : State}

theorem RawPacking.flush (h : RawPacking s 0 u) :
    exec .rawflush u =
      .next (((rawFlushed u).setMode .idle).answer (Response.okValue (numBytes (rawFlushed u)))) := by
  refine execRawflush_of_room h.mode fun hne => ?_
  have hroom := h.room
  have hle : u.rct.toNat ≤ (rawFull u).toNat := h.rct_le_full
  have hlt : u.rct.toNat ≠ (rawFull u).toNat := fun he => hne (BitVec.eq_of_toNat_eq he)
  omega

theorem RawPacking.flushedBp_range (h : RawPacking s 0 u) :
    (u.startAddr.toNat : Int) ≤ rawFlushedBp u ∧ rawFlushedBp u ≤ u.endAddr.toNat := by
  have hroom := h.room
  have hle : u.rct.toNat ≤ (rawFull u).toNat := h.rct_le_full
  obtain ⟨-, -, hst, hen, hff⟩ := h.cursor
  unfold rawFlushedBp
  split
  case isTrue hne =>
    have hlt : u.rct.toNat ≠ (rawFull u).toNat := fun he => hne (BitVec.eq_of_toNat_eq he)
    omega
  case isFalse =>
    split
    case isTrue hl =>
      have := (hff hl).2
      omega
    case isFalse => exact ⟨hst, hen⟩

/-- The bytes of the flushed segment, and the 0xFF that a decoder fetches beyond it, hold what the encoder has put out:
the padding leaves the bits that wait, and a byte that was dropped is fetched as 0xFF (R135). -/
theorem rawHolds_of_flushed (h : RawPacking s 0 u) (hend : (D.endAddr.toNat : Int) = rawFlushedBp u)
    (hcb : D.cb = rawFlushedCb u) : RawHolds (fetchByte D) u := by
  obtain ⟨-, -, hst, -⟩ := h.cursor
  obtain ⟨-, hlast⟩ := h.clean
  by_cases hfull : u.rct ≠ rawFull u
  case pos =>
    have hbp : rawFlushedBp u = u.bp + 1 := if_pos hfull
    have hread : ∀ a : Nat, (a : Int) < u.bp + 1 →
        fetchByte D a = if a = u.bp.toNat then padByte u.rct.toNat false u.rb else u.cb.read a := fun a ha => by
      rw [fetchByte, if_pos (by omega), hcb, rawFlushedCb_of_waits hfull, Memory.read_write, Int.toNat_natCast]
    refine ⟨fun a ha => (hread a (by omega)).trans (if_neg (by omega)), fun _ n hn hn8 => ?_⟩
    have hbyte := hread u.bp.toNat (by omega)
    rw [if_pos rfl, Int.toNat_of_nonneg (by omega)] at hbyte
    rw [hbyte, padByte_getLsbD _ _ _ hn8]
    simp [show ¬ n < u.rct.toNat by omega]
  case neg =>
    have hcb' : D.cb = u.cb := hcb.trans (if_neg hfull)
    have hbp : rawFlushedBp u = if u.lastff then u.bp - 1 else u.bp := if_neg hfull
    refine ⟨fun a ha => ?_, fun hne => absurd hne hfull⟩
    unfold fetchByte
    split
    case isTrue => rw [hcb', Int.toNat_natCast]
    case isFalse hge =>
      by_cases hl : u.lastff = true
      · rw [if_pos hl] at hbp
        have ha' : (u.bp - 1).toNat = a := by omega
        exact (ha' ▸ (hlast hl).2).symm
      · rw [if_neg hl] at hbp
        omega

/-- VAL of the flush is the length of the segment, which is at most that of the window. -/
theorem RawPacking.reopened (h : RawPacking s 0 u) (hp : s.params.wf = true) (hw : WindowAdmitted s) :
    WindowAdmitted (rawReopened u)
      ∧ (((rawReopened u).segbase + (rawReopened u).seglen).toNat : Int) = rawFlushedBp u := by
  have hend := windowAdmitted_end hp hw
  obtain ⟨hlen, hwindow⟩ := hw
  obtain ⟨hlo, hhi⟩ := h.flushedBp_range
  obtain ⟨hstart, hendAddr⟩ := h.window
  have hlen31 : 2 * s.seglen.toNat < 2 ^ 32 := BitVec.toInt_pos_iff.1 hlen
  rw [hstart] at hlo
  rw [hendAddr, hend] at hhi
  have hval : ((numBytes (rawFlushed u)).toNat : Int) = rawFlushedBp u - s.segbase.toNat := by
    show ((BitVec.ofInt 32 (rawFlushedBp u - u.startAddr.toNat)).toNat : Int) = _
    rw [hstart, BitVec.toNat_ofInt]
    omega
  have hadmitted : WindowAdmitted (rawReopened u) := by
    refine ⟨BitVec.toInt_pos_iff.2 (by show 2 * (numBytes (rawFlushed u)).toNat < 2 ^ 32; omega), ?_⟩
    show u.segbase.toNat + (numBytes (rawFlushed u)).toNat ≤ u.params.cbsize
    rw [h.segbase, h.params]
    omega
  have hp' : (rawReopened u).params.wf = true := (congrArg Params.wf h.params).trans hp
  refine ⟨hadmitted, ?_⟩
  rw [windowAdmitted_end hp' hadmitted]
  show ((u.segbase.toNat + (numBytes (rawFlushed u)).toNat : Nat) : Int) = _
  rw [h.segbase]
  omega

end

/-- The commands of two lists are carried out one list after the other. -/
theorem issueAll_append (first second : List Instr) (s : State) :
    issueAll (first ++ second) s =
      ((issueAll first s).1 ++ (issueAll second (issueAll first s).2).1, (issueAll second (issueAll first s).2).2) := by
  induction first generalizing s with
  | nil => rfl
  | cons i rest ih =>
    obtain ⟨t, ht⟩ := exec_next i s
    simp [issueAll, ht, ih]

theorem err_decision (d : Bool) : (Response.decision d).err = 0 := by cases d <;> rfl

theorem bit_decision (d : Bool) : (Response.decision d).bit = d := by cases d <;> rfl

/-- RAWINITDEC over the flushed segment stands where RAWINITENC did. -/
theorem startRawDecoder_rawAt {s t : State} (h : t.segbase = s.segbase) :
    RawAt (fetchByte (startRawDecoder t)) (startRawEncoder s) (startRawDecoder t) := by
  rw [startRawDecoder_fields, startRawEncoder_fields, h]
  have hrb : (0 : Byte) = 0xFF ↔ false = true := by decide
  exact ⟨rfl, rfl, fun _ => ⟨rfl, rfl, hrb⟩, fun hne => absurd rfl hne⟩

/-- Settles O46: the encoder keeps room for the bits that follow, the flushed bytes hold its output
(`rawHolds_of_flushed`), and the decoder follows it bit by bit (`RawPacking.bits`). -/
theorem rawRoundTripReturnsTheBits : Obligations.RawRoundTripReturnsTheBits := by
  intro s bits hp hf hw hlen coded
  have hinit := opensSegment_rawinitenc.exec_eq s hf hw
  obtain ⟨u, hrun, hu, hback⟩ := (startRawEncoder_packing hp hw hlen).bits
  obtain ⟨hadmitted, hend⟩ := hu.reopened hp hw
  have hcoded : coded = ([Response.ok] ++ List.replicate bits.length Response.ok
      ++ [Response.okValue (numBytes (rawFlushed u))],
      ((rawFlushed u).setMode .idle).answer (Response.okValue (numBytes (rawFlushed u)))) := by
    show issueAll ([.rawinitenc] ++ bits.map .rawenc ++ [.rawflush]) s = _
    rw [List.append_assoc, List.singleton_append, issueAll_cons hinit rfl, issueAll_append, hrun,
      issueAll_cons hu.flush rfl]
    rfl
  have hopen := opensSegment_rawinitdec.exec_eq (rawReopened u) (show Mode.idle ≠ .fault by decide) hadmitted
  have hholds : RawHolds (fetchByte (startRawDecoder (rawReopened u))) u := rawHolds_of_flushed hu hend rfl
  have hreturned := (hback _ hholds).2 ((startRawDecoder (rawReopened u)).answer Response.ok)
    (startRawDecoder_rawAt hu.segbase)
  rw [hcoded]
  refine ⟨Response.okValue (numBytes (rawFlushed u)), List.getLast?_concat .., ?coded, ?decoded⟩
  case coded =>
    have hbits : ∀ r ∈ List.replicate bits.length Response.ok, r.err = 0 := fun r hr => by
      rw [List.eq_of_mem_replicate hr]
      rfl
    exact List.forall_mem_append.2 ⟨List.forall_mem_cons.2 ⟨rfl, hbits⟩, List.forall_mem_singleton.2 rfl⟩
  case decoded =>
    rw [List.cons_append, issueAll_cons (t := rawReopened u) rfl rfl, List.cons_append, issueAll_cons hopen rfl,
      List.nil_append, hreturned]
    have hbits : ∀ r ∈ bits.map Response.decision, r.err = 0 := List.forall_mem_map.2 fun d _ => err_decision d
    refine ⟨List.forall_mem_cons.2 ⟨rfl, List.forall_mem_cons.2 ⟨rfl, hbits⟩⟩, ?_⟩
    show (bits.map Response.decision).map Response.bit = bits
    simp [bit_decision, Function.comp_def]

end Sys2Proof.Machine

/-! ## The coding primitives, mode by mode (R160, R161) -/

namespace Sys2Proof.Machine

theorem Run.bind_assoc {α β γ : Type} (r : Run α) (f : α → State → Run β) (g : β → State → Run γ) :
    (r.bind f).bind g = r.bind fun v s => (f v s).bind g := by
  cases r <;> rfl

@[simp] theorem Run.bind_done_right (r : Run Unit) : (r.bind fun _ t => .done () t) = r := by cases r <;> rfl

/-- What follows a procedure counts only in the states that the procedure can end in. -/
theorem Run.bind_congr {α β : Type} {P : State → Prop} {r : Run α} {f g : α → State → Run β} (hr : r.All P)
    (h : ∀ v t, P t → f v t = g v t) : r.bind f = r.bind g := by
  cases r with
  | done v t => exact h v t hr
  | overflow t => rfl

/-- A procedure that ends after another one began in the state that the other one ended in. -/
theorem Run.bind_eq_done {α β : Type} {r : Run α} {f : α → State → Run β} {b : β} {u : State} :
    r.bind f = .done b u ↔ ∃ v t, r = .done v t ∧ f v t = .done b u := by
  cases r with
  | done v t => exact ⟨fun h => ⟨v, t, rfl, h⟩, fun ⟨_, _, hr, hf⟩ => by cases hr; exact hf⟩
  | overflow t => exact ⟨fun h => (nomatch h), fun ⟨_, _, hr, _⟩ => (nomatch hr)⟩

section

variable {s : State}

theorem codeLabel_of_dec (k : Label) (v : Bool) (hm : s.mode = .dec) :
    codeLabel k v s = .done (decodeDecision k s).1 (decodeDecision k s).2 := if_pos hm

theorem codeLabel_of_enc (k : Label) (v : Bool) (hm : s.mode = .enc) :
    codeLabel k v s = (encodeDecision k v s).bind fun _ t => .done v t := if_neg (by simp [hm])

theorem codeRaw_of_rawdec (v : Bool) (hm : s.mode = .rawdec) :
    codeRaw v s = .done (rawDecodeBit s).1 (rawDecodeBit s).2 := if_pos hm

theorem codeRaw_of_rawenc (v : Bool) (hm : s.mode = .rawenc) :
    codeRaw v s = (rawEncodeBit v s).bind fun _ t => .done v t := if_neg (by simp [hm])

theorem codeSymbol_of_arithmetic (k : Label) (v : Bool) (ha : isArithmetic s = true) :
    codeSymbol k v s = codeLabel k v s := if_pos ha

theorem codeSymbol_of_raw (k : Label) (v : Bool) (ha : isArithmetic s = false) :
    codeSymbol k v s = codeRaw v s := if_neg (by simp [ha])

theorem codeSign_of_arithmetic (x y : Nat) (ha : isArithmetic s = true) :
    codeSign x y s = (codeLabel (scLabelOf s x y).1 (isNegative s x y != (scLabelOf s x y).2) s).bind
      fun d t => .done (d != (scLabelOf s x y).2) t := if_pos ha

theorem codeSign_of_raw (x y : Nat) (ha : isArithmetic s = false) :
    codeSign x y s = codeRaw (isNegative s x y) s := if_neg (by simp [ha])

theorem isArithmetic_of_mode (hm : s.mode = .dec ∨ s.mode = .enc) : isArithmetic s = true := by
  simpa [isArithmetic] using hm

theorem isArithmetic_of_rawMode (hm : s.mode = .rawdec ∨ s.mode = .rawenc) : isArithmetic s = false := by
  rcases hm with hm | hm <;> simp [isArithmetic, hm]

theorem codeSymbol_of_dec (k : Label) (v : Bool) (hm : s.mode = .dec) :
    codeSymbol k v s = .done (decodeDecision k s).1 (decodeDecision k s).2 := by
  rw [codeSymbol_of_arithmetic k v (isArithmetic_of_mode (.inl hm)), codeLabel_of_dec k v hm]

theorem codeSymbol_of_enc (k : Label) (v : Bool) (hm : s.mode = .enc) :
    codeSymbol k v s = (encodeDecision k v s).bind fun _ t => .done v t := by
  rw [codeSymbol_of_arithmetic k v (isArithmetic_of_mode (.inr hm)), codeLabel_of_enc k v hm]

theorem codeSymbol_of_rawdec (k : Label) (v : Bool) (hm : s.mode = .rawdec) :
    codeSymbol k v s = .done (rawDecodeBit s).1 (rawDecodeBit s).2 := by
  rw [codeSymbol_of_raw k v (isArithmetic_of_rawMode (.inl hm)), codeRaw_of_rawdec v hm]

theorem codeSymbol_of_rawenc (k : Label) (v : Bool) (hm : s.mode = .rawenc) :
    codeSymbol k v s = (rawEncodeBit v s).bind fun _ t => .done v t := by
  rw [codeSymbol_of_raw k v (isArithmetic_of_rawMode (.inr hm)), codeRaw_of_rawenc v hm]

theorem codeSign_of_dec (x y : Nat) (hm : s.mode = .dec) :
    codeSign x y s = .done ((decodeDecision (scLabelOf s x y).1 s).1 != (scLabelOf s x y).2)
      (decodeDecision (scLabelOf s x y).1 s).2 := by
  rw [codeSign_of_arithmetic x y (isArithmetic_of_mode (.inl hm)), codeLabel_of_dec _ _ hm, Run.bind_done]

theorem codeSign_of_enc (x y : Nat) (hm : s.mode = .enc) :
    codeSign x y s = (encodeDecision (scLabelOf s x y).1 (isNegative s x y != (scLabelOf s x y).2) s).bind
      fun _ t => .done (isNegative s x y) t := by
  rw [codeSign_of_arithmetic x y (isArithmetic_of_mode (.inr hm)), codeLabel_of_enc _ _ hm, Run.bind_assoc]
  simp

theorem codeSign_of_rawdec (x y : Nat) (hm : s.mode = .rawdec) :
    codeSign x y s = .done (rawDecodeBit s).1 (rawDecodeBit s).2 := by
  rw [codeSign_of_raw x y (isArithmetic_of_rawMode (.inl hm)), codeRaw_of_rawdec _ hm]

theorem codeSign_of_rawenc (x y : Nat) (hm : s.mode = .rawenc) :
    codeSign x y s = (rawEncodeBit (isNegative s x y) s).bind fun _ t => .done (isNegative s x y) t := by
  rw [codeSign_of_raw x y (isArithmetic_of_rawMode (.inr hm)), codeRaw_of_rawenc _ hm]

end

/-! ## The label tables (R154 to R159) -/

/-- R156: label 0 where no neighbour is significant, and nowhere else, in every orientation. -/
theorem zcLabel_eq_zero_iff (o : Orientation) (h v d : Nat) : (zcLabel o h v d).val = 0 ↔ h + v + d = 0 := by
  have ll : ∀ h v d : Nat, (zcLabelLL h v d).val = 0 ↔ h + v + d = 0 := fun h v d => by
    unfold zcLabelLL
    split_ifs <;> simp <;> omega
  have hh : ∀ hv d : Nat, (zcLabelHH hv d).val = 0 ↔ hv + d = 0 := fun hv d => by
    unfold zcLabelHH
    split_ifs <;> simp <;> omega
  cases o
  case ll => exact ll h v d
  case hl => exact (ll v h d).trans (by omega)
  case lh => exact ll h v d
  case hh => exact hh (h + v) d

/-- The zero-coding labels are 0 to 8 (R82). -/
theorem zcLabel_le_eight (o : Orientation) (h v d : Nat) : (zcLabel o h v d).val ≤ 8 := by
  have ll : ∀ h v d : Nat, (zcLabelLL h v d).val ≤ 8 := fun h v d => by
    unfold zcLabelLL
    split_ifs <;> decide
  have hh : ∀ hv d : Nat, (zcLabelHH hv d).val ≤ 8 := fun hv d => by
    unfold zcLabelHH
    split_ifs <;> decide
  cases o
  case ll => exact ll h v d
  case hl => exact ll v h d
  case lh => exact ll h v d
  case hh => exact hh (h + v) d

/-- The rows of R154. -/
theorem zcLabelLL_rows {h v d : Nat} (hh : h ≤ 2) (hv : v ≤ 2) :
    (h = 2 → (zcLabelLL h v d).val = 8) ∧ (h = 1 → 1 ≤ v → (zcLabelLL h v d).val = 7)
      ∧ (h = 1 → v = 0 → 1 ≤ d → (zcLabelLL h v d).val = 6) ∧ (h = 1 → v = 0 → d = 0 → (zcLabelLL h v d).val = 5)
      ∧ (h = 0 → v = 2 → (zcLabelLL h v d).val = 4) ∧ (h = 0 → v = 1 → (zcLabelLL h v d).val = 3)
      ∧ (h = 0 → v = 0 → 2 ≤ d → (zcLabelLL h v d).val = 2) ∧ (h = 0 → v = 0 → d = 1 → (zcLabelLL h v d).val = 1)
      ∧ (h = 0 → v = 0 → d = 0 → (zcLabelLL h v d).val = 0) := by
  unfold zcLabelLL
  split_ifs <;> simp <;> omega

/-- The rows of R156. -/
theorem zcLabelHH_rows (hv d : Nat) :
    (3 ≤ d → (zcLabelHH hv d).val = 8) ∧ (d = 2 → 1 ≤ hv → (zcLabelHH hv d).val = 7)
      ∧ (d = 2 → hv = 0 → (zcLabelHH hv d).val = 6) ∧ (d = 1 → 2 ≤ hv → (zcLabelHH hv d).val = 5)
      ∧ (d = 1 → hv = 1 → (zcLabelHH hv d).val = 4) ∧ (d = 1 → hv = 0 → (zcLabelHH hv d).val = 3)
      ∧ (d = 0 → 2 ≤ hv → (zcLabelHH hv d).val = 2) ∧ (d = 0 → hv = 1 → (zcLabelHH hv d).val = 1)
      ∧ (d = 0 → hv = 0 → (zcLabelHH hv d).val = 0) := by
  unfold zcLabelHH
  split_ifs <;> simp <;> omega

/-- Settles O47: the rows of the tables, and the sign coded under its label in DEC and ENC. -/
theorem zeroAndSignCodingLabelTables : Obligations.ZeroAndSignCodingLabelTables := by
  refine ⟨?rowsLL, fun h v d _ _ _ => rfl, fun h v d _ _ _ => zcLabelHH_rows (h + v) d, ?families,
    rfl, rfl, rfl, rfl, rfl, rfl, rfl, rfl, rfl, fun s x y => ⟨codeSign_of_enc x y, codeSign_of_dec x y⟩⟩
  case rowsLL => rintro o (rfl | rfl) h v d hh hv - <;> exact zcLabelLL_rows hh hv
  case families =>
    intro o h v d _ _ _
    refine ⟨(zcLabel_eq_zero_iff o h v d).2, fun hpos => ⟨?_, zcLabel_le_eight o h v d⟩⟩
    exact Nat.one_le_iff_ne_zero.2 fun h0 => hpos.ne' ((zcLabel_eq_zero_iff o h v d).1 h0)

/-- Each contribution is -1, 0 or 1 (R157). -/
theorem clampOne_cases (v : Int) : clampOne v = -1 ∨ clampOne v = 0 ∨ clampOne v = 1 := by
  unfold clampOne
  omega

/-- The sign-coding labels are 9 to 13, whatever the contributions (R82, R158). -/
theorem scLabel_range (hc vc : Int) : 9 ≤ (scLabel hc vc).1.val ∧ (scLabel hc vc).1.val ≤ 13 := by
  unfold scLabel
  split_ifs <;> decide

section

variable {s : State} {x y : Nat}

theorem sigAt_le_one (s : State) (xf yf : Nat) : sigAt s xf yf ≤ 1 := Bool.toNat_le _

theorem sumH_le_two : sumH s x y ≤ 2 := Nat.add_le_add (sigAt_le_one ..) (sigAt_le_one ..)

theorem sumV_le_two : sumV s x y ≤ 2 := Nat.add_le_add (sigAt_le_one ..) (sigAt_le_one ..)

theorem sumD_le_four : sumD s x y ≤ 4 :=
  Nat.add_le_add (Nat.add_le_add (Nat.add_le_add (sigAt_le_one ..) (sigAt_le_one ..)) (sigAt_le_one ..))
    (sigAt_le_one ..)

theorem neighbours_le_eight : neighbours s x y ≤ 8 :=
  Nat.add_le_add (Nat.add_le_add sumH_le_two sumV_le_two) sumD_le_four

theorem mrLabel_refined (n : Nat) : (mrLabel true n).val = 16 := rfl

theorem mrLabel_near {n : Nat} (h : 0 < n) : (mrLabel false n).val = 15 := by simp [mrLabel, h]

theorem mrLabel_alone : (mrLabel false 0).val = 14 := rfl

end

/-- Settles O48: the sums and contributions are the definitions of R153 and R157, and each label is of its family
whatever they are. -/
theorem derivedLabelsAreOfTheirFamily : Obligations.DerivedLabelsAreOfTheirFamily := by
  intro s x y sig sign
  refine ⟨rfl, rfl, rfl, rfl, rfl, rfl, rfl, rfl, sumH_le_two, sumV_le_two, sumD_le_four, neighbours_le_eight,
    clampOne_cases _, clampOne_cases _, zcLabel_le_eight .., zcLabel_eq_zero_iff .., (scLabel_range ..).1,
    (scLabel_range ..).2, fun hr => ?refined, fun hr hn => ?near, fun hr hn => ?alone⟩ <;> rw [mrLabelOf, hr]
  case refined => exact mrLabel_refined _
  case near => exact mrLabel_near hn
  case alone => rw [hn]; exact mrLabel_alone

end Sys2Proof.Machine

/-! ## The scan order (R150) -/

namespace Sys2Proof.Machine

/-- The rows of a stripe are consecutive: those from row j of the stripe on that the code-block has. -/
theorem stripeRows_eq (h k j : Nat) : stripeRows h k j = List.range' (4 * k + j) (min (4 - j) (h - (4 * k + j))) := by
  have below : ∀ n a : Nat, ((List.range' a n).filter fun y => decide (y < h)) = List.range' a (min n (h - a)) := by
    intro n
    induction n with
    | zero => intro a; simp
    | succ n ih =>
      intro a
      rw [List.range'_succ, List.filter_cons, ih]
      by_cases ha : a < h
      · rw [if_pos (decide_eq_true ha), show min (n + 1) (h - a) = min n (h - (a + 1)) + 1 by omega, List.range'_succ]
      · rw [if_neg (by simpa using ha), show h - (a + 1) = 0 by omega, show h - a = 0 by omega, Nat.min_zero,
          Nat.min_zero]
        rfl
  rw [stripeRows, List.map_add_range', below]

theorem mem_stripeRows_iff {h k j y : Nat} : y ∈ stripeRows h k j ↔ 4 * k + j ≤ y ∧ y < 4 * k + 4 ∧ y < h := by
  rw [stripeRows_eq, List.mem_range'_1]
  omega

theorem stripeRows_rising (h k j : Nat) : (stripeRows h k j).Pairwise (· < ·) := by
  rw [stripeRows_eq]
  exact List.pairwise_lt_range'

theorem mem_scanColumns_iff {w h : Nat} {col : Nat × Nat} :
    col ∈ scanColumns w h ↔ col.1 < stripeCount h ∧ col.2 < w := by
  refine ⟨mem_scanColumns, fun ⟨hk, hx⟩ => ?_⟩
  simp only [scanColumns, List.mem_flatMap, List.mem_range, List.mem_map]
  exact ⟨col.1, hk, col.2, hx, rfl⟩

/-- The columns come by stripes, and within a stripe from left to right. -/
theorem scanColumns_rising (w h : Nat) :
    (scanColumns w h).Pairwise fun a b => a.1 < b.1 ∨ a.1 = b.1 ∧ a.2 < b.2 := by
  rw [scanColumns, List.pairwise_flatMap]
  refine ⟨fun k _ => ?within, (List.pairwise_lt_range).imp fun {k l} hkl a ha b hb => ?between⟩
  case within => exact List.pairwise_map.2 ((List.pairwise_lt_range).imp fun hx => .inr ⟨rfl, hx⟩)
  case between =>
    obtain ⟨-, -, rfl⟩ := List.mem_map.1 ha
    obtain ⟨-, -, rfl⟩ := List.mem_map.1 hb
    exact .inl hkl

theorem scanColumns_nodup (w h : Nat) : (scanColumns w h).Nodup :=
  (scanColumns_rising w h).imp fun {a b} hab he => by subst he; omega

theorem mem_scanOrder_iff {w h x y : Nat} : (x, y) ∈ scanOrder w h ↔ x < w ∧ y < h := by
  refine ⟨mem_scanOrder, fun ⟨hx, hy⟩ => ?_⟩
  simp only [scanOrder, List.mem_flatMap, List.mem_map]
  refine ⟨(y / 4, x), mem_scanColumns_iff.2 ⟨?_, hx⟩, y, mem_stripeRows_iff.2 (by omega), rfl⟩
  unfold stripeCount
  omega

/-- The order of R150: by stripes, then by columns, then by rows. -/
theorem scanOrder_rising (w h : Nat) : (scanOrder w h).Pairwise fun a b =>
    a.2 / 4 < b.2 / 4 ∨ a.2 / 4 = b.2 / 4 ∧ (a.1 < b.1 ∨ a.1 = b.1 ∧ a.2 < b.2) := by
  have stripe : ∀ {k y : Nat}, y ∈ stripeRows h k 0 → y / 4 = k := fun hy => by
    have := mem_stripeRows_iff.1 hy
    omega
  rw [scanOrder, List.pairwise_flatMap]
  refine ⟨fun col _ => ?within, (scanColumns_rising w h).imp fun {col col'} hcol a ha b hb => ?between⟩
  case within =>
    refine List.pairwise_map.2 ((stripeRows_rising h col.1 0).imp_of_mem fun hy hy' hlt => ?_)
    exact .inr ⟨(stripe hy).trans (stripe hy').symm, .inr ⟨rfl, hlt⟩⟩
  case between =>
    obtain ⟨y, hy, rfl⟩ := List.mem_map.1 ha
    obtain ⟨y', hy', rfl⟩ := List.mem_map.1 hb
    rw [stripe hy, stripe hy']
    exact hcol.imp_right fun ⟨hk, hx⟩ => ⟨hk, .inl hx⟩

theorem scanOrder_nodup (w h : Nat) : (scanOrder w h).Nodup :=
  (scanOrder_rising w h).imp fun {a b} hab he => by subst he; omega

/-- Settles O49: `mem_scanOrder_iff`, and the order, which no coefficient precedes itself in. -/
theorem scanOrderVisitsEachCoefficientOnce : Obligations.ScanOrderVisitsEachCoefficientOnce :=
  fun w h => ⟨fun _ _ => mem_scanOrder_iff, scanOrder_nodup w h, scanOrder_rising w h⟩

/-! ## CBINIT (R162) -/

theorem execCbinit_admitted {s : State} {wm1 hm1 : Nat} (o : Orientation) (clr : Bool) (hm : s.mode ≠ .fault)
    (ha : (wm1 + 1) * (hm1 + 1) ≤ s.params.maxarea) :
    exec (.cbinit wm1 hm1 o clr) s = .next ((loadGeometry wm1 hm1 o clr s).answer Response.ok) := by
  have hc : orElse (requireNotFault s) (areaCheck wm1 hm1 s) = none :=
    orElse_eq_none.2 ⟨requireNotFault_eq_none.2 hm, require_eq_none.2 (decide_eq_true ha)⟩
  rw [exec, execCbinit, hc, admitted_none]

/-- CBINIT, field by field. -/
theorem loadGeometry_fields (wm1 hm1 : Nat) (o : Orientation) (clr : Bool) (s : State) :
    loadGeometry wm1 hm1 o clr s = { s with
      w := wm1 + 1, h := hm1 + 1, orient := o, geomv := true, fp := []
      cp := if clr then s.cp.zeroRange 0 ((wm1 + 1) * (hm1 + 1)) else s.cp
      unspec := { s.unspec with geom := false } } := by
  cases clr <;> rfl

/-- Settles O50: the geometry loaded, the empty flag plane and the cleared range of CP. -/
theorem cbinitLoadsTheGeometry : Obligations.CbinitLoadsTheGeometry := by
  intro s wm1 hm1 o clr hm ha
  have hexec := execCbinit_admitted o clr hm ha
  rw [loadGeometry_fields] at hexec
  refine ⟨_, hexec, rfl, fun _ _ _ _ => rfl, fun n => ?coefficients⟩
  case coefficients =>
    show (if clr then s.cp.zeroRange 0 ((wm1 + 1) * (hm1 + 1)) else s.cp).read n = _
    cases clr
    · simp
    · simp [Memory.read_zeroRange]

end Sys2Proof.Machine

/-! ## Flag cells and coefficient cells (R25, R26, R151, R152) -/

namespace Sys2Proof.Machine

/-- A write of the flag cell of a coefficient in row x < W leaves every other cell of the plane alone. -/
theorem setFlagCell_flagCell {s : State} {x y : Nat} (v : BitVec 4) {xf yf : Nat} (hx : x < s.w) (hxf : xf ≤ s.w + 1) :
    flagCell (setFlagCell s x y v) xf yf = if xf = x + 1 ∧ yf = y + 1 then v else flagCell s xf yf := by
  show (s.fp.write _ v).read (flagIndex s.w xf yf) = _
  rw [Cells.read_write]
  refine if_congr ⟨flagIndex_inj (by omega) (by omega), ?_⟩ rfl rfl
  rintro ⟨rfl, rfl⟩
  rfl

theorem setCoefCell_read (s : State) (x y : Nat) (v : Word) (n : Nat) :
    (setCoefCell s x y v).cp.read n = if n = coefIndex s x y then v else s.cp.read n := Memory.read_write ..

/-- The coefficients of a code-block stand at different places of CP (R53). -/
theorem coefIndex_inj {w x y x' y' : Nat} (hx : x < w) (hx' : x' < w) (h : y * w + x = y' * w + x') :
    x = x' ∧ y = y' := by
  have hmod := congrArg (· % w) h
  simp only [Nat.mul_add_mod', Nat.mod_eq_of_lt hx, Nat.mod_eq_of_lt hx'] at hmod
  subst hmod
  exact ⟨rfl, Nat.eq_of_mul_eq_mul_right (by omega : 0 < w) (by omega)⟩

theorem coefIndex_lt {w h x y : Nat} (hx : x < w) (hy : y < h) : y * w + x < w * h := by
  calc y * w + x < y * w + w := by omega
    _ = (y + 1) * w := (Nat.succ_mul y w).symm
    _ ≤ h * w := Nat.mul_le_mul_right w hy
    _ = w * h := Nat.mul_comm h w

/-- The flag cell of a coefficient that becomes significant (R161). -/
def flagsSignified (neg : Bool) (f : BitVec 4) : BitVec 4 := (f &&& 0b1100#4) ||| (if neg then 0b0011#4 else 0b0001#4)

section

variable (neg : Bool) (f : BitVec 4)

@[simp] theorem flagsSignified_sig : (flagsSignified neg f).getLsbD sigBit = true := by
  cases neg <;> simp [flagsSignified, sigBit]

@[simp] theorem flagsSignified_sgn : (flagsSignified neg f).getLsbD sgnBit = neg := by
  cases neg <;> simp [flagsSignified, sgnBit]

@[simp] theorem flagsSignified_vis : (flagsSignified neg f).getLsbD visBit = f.getLsbD visBit := by
  cases neg <;> simp [flagsSignified, visBit]

@[simp] theorem flagsSignified_ref : (flagsSignified neg f).getLsbD refBit = f.getLsbD refBit := by
  cases neg <;> simp [flagsSignified, refBit]

end

/-- The cell of CP with the decision ORed into bit p of the magnitude (R152). -/
def magOred (p : Nat) (b : Bool) (c : Word) : Word := c ||| (BitVec.ofBool b).setWidth 32 <<< p

/-- The cell of CP with the sign written (R161). -/
def signWritten (neg : Bool) (c : Word) : Word := (c &&& 0x7FFFFFFF#32) ||| (BitVec.ofBool neg).setWidth 32 <<< 31

section

variable {p n : Nat} (b neg : Bool) (c : Word)

theorem magOred_getLsbD (hn : n < 32) : (magOred p b c).getLsbD n = (c.getLsbD n || decide (n = p) && b) := by
  rw [magOred, BitVec.getLsbD_or, BitVec.getLsbD_shiftLeft, BitVec.getLsbD_setWidth, BitVec.getLsbD_ofBool]
  congr 1
  rcases Nat.lt_trichotomy n p with h | rfl | h
  · simp [h, h.ne]
  · simp [hn]
  · simp [h.ne', show n - p ≠ 0 by omega]

theorem signWritten_sign : (signWritten neg c).getLsbD 31 = neg := by
  cases neg <;> simp [signWritten]

theorem signWritten_getLsbD (hn : n < 31) : (signWritten neg c).getLsbD n = c.getLsbD n := by
  have hmask : (0x7FFFFFFF#32).getLsbD n = true :=
    (by decide : ∀ m < 31, (0x7FFFFFFF#32).getLsbD m = true) n hn
  rw [signWritten, BitVec.getLsbD_or, BitVec.getLsbD_and, hmask, BitVec.getLsbD_shiftLeft]
  simp [hn]

end

theorem orMagBit_eq (x y p : Nat) (b : Bool) (s : State) :
    orMagBit x y p b s = setCoefCell s x y (magOred p b (coefCell s x y)) := rfl

theorem setNegative_eq (x y : Nat) (neg : Bool) (s : State) :
    setNegative x y neg s = setCoefCell s x y (signWritten neg (coefCell s x y)) := rfl

/-! ## What the coding primitives leave alone (R160) -/

theorem decodeDecision_coding (k : Label) (s : State) : CodingFrame s (decodeDecision k s).2 :=
  (decodeDecision_frame k s).coding

theorem encodeDecision_coding (k : Label) (d : Bool) (s : State) : (encodeDecision k d s).All (CodingFrame s) :=
  Run.all_imp (fun _ h => h.coding) (encodeDecision_frame k d s)

theorem codeLabel_coding (k : Label) (v : Bool) (s : State) : (codeLabel k v s).All (CodingFrame s) := by
  refine Run.all_imp (fun t h => ?_) (codeLabel_frame k v s)
  split at h
  · exact h.coding
  · exact h.coding

theorem codeRaw_coding (v : Bool) (s : State) : (codeRaw v s).All (CodingFrame s) := by
  refine Run.all_imp (fun t h => ?_) (codeRaw_frame v s)
  split at h
  · exact h.coding
  · exact h.coding

theorem codeSymbol_coding (k : Label) (v : Bool) (s : State) : (codeSymbol k v s).All (CodingFrame s) := by
  unfold codeSymbol
  split
  · exact codeLabel_coding k v s
  · exact codeRaw_coding v s

theorem codeSign_coding (x y : Nat) (s : State) : (codeSign x y s).All (CodingFrame s) := by
  unfold codeSign
  split
  · exact Run.all_bind (codeLabel_coding _ _ s) fun _ _ h => h
  · exact codeRaw_coding _ s

/-- What the scanner reads, and no coder writes: MODE, the geometry and the planes. -/
structure SameScan (s t : State) : Prop where
  mode : t.mode = s.mode
  w : t.w = s.w
  h : t.h = s.h
  fp : t.fp = s.fp
  cp : t.cp = s.cp

theorem CodingFrame.sameScan {s t : State} (h : CodingFrame s t) : SameScan s t := by
  unfold CodingFrame at h
  rw [h]
  exact ⟨rfl, rfl, rfl, rfl, rfl⟩

section

variable {s t : State} (h : SameScan s t)
include h

theorem SameScan.isDecoding : isDecoding t = isDecoding s := by rw [Machine.isDecoding, h.mode, Machine.isDecoding]

theorem SameScan.flagCell (xf yf : Nat) : flagCell t xf yf = flagCell s xf yf := by
  rw [Machine.flagCell, h.w, h.fp, Machine.flagCell]

theorem SameScan.coefCell (x y : Nat) : coefCell t x y = coefCell s x y := by
  rw [Machine.coefCell, coefIndex, h.w, h.cp, Machine.coefCell, coefIndex]

end

/-! ## SIGNIFY (R161) -/

/-- The state after the writes of SIGNIFY, once the sign is coded. -/
def signified (x y p : Nat) (neg : Bool) (s : State) : State :=
  if isDecoding s then setNegative x y neg (orMagBit x y p true (markSignificant x y neg s))
  else markSignificant x y neg s

theorem signify_eq (x y p : Nat) (s : State) :
    signify x y p s = (codeSign x y s).bind fun neg t => .done () (signified x y p neg t) := rfl

section

variable {x y p : Nat} {neg : Bool} {s : State}

/-- SIGNIFY writes FP and CP besides what the coder writes. -/
theorem signified_eq :
    signified x y p neg s = { s with fp := (signified x y p neg s).fp, cp := (signified x y p neg s).cp } := by
  unfold signified
  split <;> rfl

theorem signified_fp :
    (signified x y p neg s).fp = (setFlagCell s x y (flagsSignified neg (flagCell s (x + 1) (y + 1)))).fp := by
  unfold signified
  split <;> rfl

theorem signified_flagCell {xf yf : Nat} (hx : x < s.w) (hxf : xf ≤ s.w + 1) :
    flagCell (signified x y p neg s) xf yf =
      if xf = x + 1 ∧ yf = y + 1 then flagsSignified neg (flagCell s (x + 1) (y + 1)) else flagCell s xf yf := by
  rw [← setFlagCell_flagCell _ hx hxf, flagCell, signified_fp, signified_eq]
  rfl

/-- The cell of CP that SIGNIFY writes in decode direction. -/
theorem signified_cp_read (n : Nat) : (signified x y p neg s).cp.read n =
    if isDecoding s = true ∧ n = coefIndex s x y then signWritten neg (magOred p true (coefCell s x y))
    else s.cp.read n := by
  unfold signified
  split
  case isTrue hd =>
    have hcell : coefCell (orMagBit x y p true (markSignificant x y neg s)) x y = magOred p true (coefCell s x y) :=
      (setCoefCell_read ..).trans (if_pos rfl)
    rw [setNegative_eq, hcell, setCoefCell_read, orMagBit_eq, setCoefCell_read]
    by_cases hn : n = coefIndex s x y
    · exact (if_pos hn).trans (if_pos ⟨hd, hn⟩).symm
    · exact (if_neg hn).trans ((if_neg hn).trans (if_neg fun h => hn h.2).symm)
  case isFalse hd => exact (if_neg fun h => hd h.1).symm

theorem signified_coefCell : coefCell (signified x y p neg s) x y =
    if isDecoding s then signWritten neg (magOred p true (coefCell s x y)) else coefCell s x y := by
  have hindex : coefIndex (signified x y p neg s) x y = coefIndex s x y := by rw [signified_eq]; rfl
  rw [coefCell, hindex, signified_cp_read]
  simp [coefCell]

end

/-- Settles O53: the sign coded in each mode, and the writes of `signified` cell by cell. -/
theorem signifyMarksTheCoefficient : Obligations.SignifyMarksTheCoefficient := by
  refine ⟨fun s x y => ⟨codeSign_of_rawenc x y, codeSign_of_rawdec x y⟩, fun s u x y p neg hx hp hcode => ?_⟩
  have hsame : SameScan s u := by
    have := codeSign_coding x y s
    rw [hcode] at this
    exact CodingFrame.sameScan this
  have hxu : x < u.w := hsame.w ▸ hx
  have hflags := signified_flagCell (y := y) (p := p) (neg := neg) hxu (xf := x + 1) (yf := y + 1) (by omega)
  have hcoef := signified_coefCell (x := x) (y := y) (p := p) (neg := neg) (s := u)
  rw [if_pos ⟨rfl, rfl⟩, hsame.flagCell] at hflags
  rw [hsame.coefCell, hsame.isDecoding] at hcoef
  refine ⟨fun hm => ?sign, signified x y p neg u, ?signify, signified_eq, ?_, ?_, ?_, ?_, fun xf yf hxf hne => ?flags,
    fun n hn => ?coefficients, fun hd => ?encoding, fun hd => ?decoding⟩
  case sign =>
    rw [codeSign_of_dec x y hm] at hcode
    cases hcode
    exact ⟨rfl, rfl⟩
  case signify => rw [signify_eq, hcode, Run.bind_done]
  case flags =>
    rw [signified_flagCell hxu (hsame.w ▸ hxf), if_neg (by omega), hsame.flagCell]
  case coefficients =>
    rw [signified_cp_read, if_neg (fun h => hn ?_), hsame.cp]
    rw [h.2, coefIndex, hsame.w]
  case encoding =>
    rw [signified, if_neg (by simp [hsame.isDecoding, hd])]
    exact hsame.cp
  case decoding =>
    rw [if_pos hd] at hcoef
    refine ⟨?_, ?_, fun b hb hne => ?_⟩
    · rw [isNegative, hcoef, signWritten_sign]
    · rw [magBit, hcoef, signWritten_getLsbD _ _ (by omega), magOred_getLsbD _ _ (by omega)]
      simp
    · rw [magBit, hcoef, signWritten_getLsbD _ _ hb, magOred_getLsbD _ _ (by omega), magBit]
      simp [hne]
  all_goals simp [isSignificant, isVisited, isRefined, flagOf, hflags]

end Sys2Proof.Machine

/-! ## Commands that run a pass (R163 to R167) -/

namespace Sys2Proof.Machine

section

variable {s t : State} {p : Nat}

theorem execSigpass_admitted (hi : s.mode ≠ .idle) (hf : s.mode ≠ .fault) (hp : p ≤ 29) (hg : s.geomv = true) :
    exec (.sigpass p) s = .next (finish (significancePass p s) fun _ t => t.answer Response.ok) := by
  have hc : passCheck [.dec, .enc, .rawdec, .rawenc] p s = none :=
    passCheck_eq_none.2 ⟨by cases hm : s.mode <;> simp [hm] at hi hf ⊢, hp, hg⟩
  rw [exec, execSigpass, hc, admitted_none]

theorem execRefpass_admitted (hi : s.mode ≠ .idle) (hf : s.mode ≠ .fault) (hp : p ≤ 29) (hg : s.geomv = true) :
    exec (.refpass p) s = .next (finish (refinementPass p s) fun _ t => t.answer Response.ok) := by
  have hc : passCheck [.dec, .enc, .rawdec, .rawenc] p s = none :=
    passCheck_eq_none.2 ⟨by cases hm : s.mode <;> simp [hm] at hi hf ⊢, hp, hg⟩
  rw [exec, execRefpass, hc, admitted_none]

theorem execClnpass_admitted (hm : s.mode = .dec ∨ s.mode = .enc) (hp : p ≤ 29) (hg : s.geomv = true) :
    exec (.clnpass p) s = .next (finish (cleanupPass p s) fun _ t => t.answer Response.ok) := by
  have hc : passCheck [.dec, .enc] p s = none :=
    passCheck_eq_none.2 ⟨by rcases hm with hm | hm <;> simp [hm], hp, hg⟩
  rw [exec, execClnpass, hc, admitted_none]

/-- A response that carries an error is no answer without one (R70). -/
theorem not_answersWithoutError {e : ErrorCode} (h : t.response = some (Response.error e)) :
    ¬ AnswersWithoutError t := by
  rintro ⟨r, hr, herr⟩
  obtain rfl := Option.some.inj (h.symm.trans hr)
  cases e <;> exact absurd herr (by decide)

/-- A command that answers without error came to its end. -/
theorem eq_done_of_finish {α : Type} {r : Run α} {last : α → State → State} (h : AnswersWithoutError (finish r last)) :
    ∃ v u, r = .done v u ∧ finish r last = last v u := by
  rcases finish_cases r last with hdone | ⟨u, -, hfault⟩
  · exact hdone
  · exact absurd h (not_answersWithoutError (e := .overflow) (by rw [hfault]; rfl))

/-- A SIGPASS that answers without error was admitted, and its scan came to its end. -/
theorem sigpass_done (h : exec (.sigpass p) s = .next t) (ha : AnswersWithoutError t) :
    p ≤ 29 ∧ s.mode ≠ .idle ∧ s.mode ≠ .fault ∧ ∃ u, significancePass p s = .done () u ∧ t = u.answer Response.ok := by
  rcases exec_cases _ s t h with ⟨e, -, rfl⟩ | ⟨⟨hi, hf⟩, hp, -, rfl⟩
  · exact absurd ha (not_answersWithoutError (e := e) rfl)
  · obtain ⟨_, u, hu, ht⟩ := eq_done_of_finish ha
    exact ⟨hp, hi, hf, u, hu, ht⟩

/-- A REFPASS that answers without error was admitted, and its scan came to its end. -/
theorem refpass_done (h : exec (.refpass p) s = .next t) (ha : AnswersWithoutError t) :
    p ≤ 29 ∧ s.mode ≠ .idle ∧ s.mode ≠ .fault ∧ ∃ u, refinementPass p s = .done () u ∧ t = u.answer Response.ok := by
  rcases exec_cases _ s t h with ⟨e, -, rfl⟩ | ⟨⟨hi, hf⟩, hp, -, rfl⟩
  · exact absurd ha (not_answersWithoutError (e := e) rfl)
  · obtain ⟨_, u, hu, ht⟩ := eq_done_of_finish ha
    exact ⟨hp, hi, hf, u, hu, ht⟩

/-- A CLNPASS that answers without error was admitted, and its scan came to its end, where the VIS bits are cleared. -/
theorem clnpass_done (h : exec (.clnpass p) s = .next t) (ha : AnswersWithoutError t) :
    p ≤ 29 ∧ (s.mode = .dec ∨ s.mode = .enc) ∧ ∃ u, forEach (visitColumn p) (scanColumns s.w s.h) s = .done () u
      ∧ t = (clearVisited u).answer Response.ok := by
  rcases exec_cases _ s t h with ⟨e, -, rfl⟩ | ⟨hm, hp, -, rfl⟩
  · exact absurd ha (not_answersWithoutError (e := e) rfl)
  · obtain ⟨_, v, hv, ht⟩ := eq_done_of_finish ha
    obtain ⟨_, u, hu, hclear⟩ := Run.bind_eq_done.1 hv
    cases hclear
    exact ⟨hp, hm, u, hu, ht⟩

end

/-! ## Visits that do nothing -/

section

variable {s : State} {p x y : Nat}

theorem visitSignificance_skip (h : isSignificant s x y = true ∨ isVisited s x y = true ∨ neighbours s x y = 0) :
    visitSignificance p (x, y) s = .done () s := if_neg (by rcases h with h | h | h <;> simp [h])

theorem visitRefinement_skip (h : isSignificant s x y = false ∨ isVisited s x y = true) :
    visitRefinement p (x, y) s = .done () s := if_neg (by rcases h with h | h <;> simp [h])

theorem visitCleanup_skip (h : isSignificant s x y = true ∨ isVisited s x y = true) :
    visitCleanup p x y s = .done () s := if_neg (by rcases h with h | h <;> simp [h])

/-- Visits that do nothing, one after the other, do nothing. -/
theorem forEach_skip {α : Type} {visit : α → State → Run Unit} {xs : List α}
    (h : ∀ z ∈ xs, visit z s = .done () s) : forEach visit xs s = .done () s := by
  induction xs with
  | nil => rfl
  | cons z xs ih =>
    rw [forEach, h z (List.mem_cons_self ..), Run.bind_done]
    exact ih fun y hy => h y (List.mem_cons_of_mem _ hy)

/-- With a clear halo and no significant coefficient every SIG bit of the plane is 0. -/
theorem sigAt_eq_zero (hh : HaloClear s) (hs : ∀ x y : Nat, x < s.w → y < s.h → isSignificant s x y = false)
    {xf yf : Nat} (hxf : xf ≤ s.w + 1) (hyf : yf ≤ s.h + 1) : sigAt s xf yf = 0 := by
  by_cases hhalo : xf = 0 ∨ xf = s.w + 1 ∨ yf = 0 ∨ yf = s.h + 1
  · rw [sigAt, hh.2 xf yf hxf hyf hhalo]
    rfl
  · obtain ⟨x, rfl⟩ := Nat.exists_eq_add_one_of_ne_zero (n := xf) (by omega)
    obtain ⟨y, rfl⟩ := Nat.exists_eq_add_one_of_ne_zero (n := yf) (by omega)
    have hsig : isSignificant s x y = false := hs x y (by omega) (by omega)
    exact congrArg Bool.toNat hsig

theorem neighbours_eq_zero (hh : HaloClear s) (hs : ∀ x y : Nat, x < s.w → y < s.h → isSignificant s x y = false)
    (hx : x < s.w) (hy : y < s.h) : neighbours s x y = 0 := by
  have zero : ∀ xf yf, xf ≤ x + 2 → yf ≤ y + 2 → sigAt s xf yf = 0 := fun xf yf hxf hyf =>
    sigAt_eq_zero hh hs (by omega) (by omega)
  simp [neighbours, sumH, sumV, sumD, zero]

end

/-- Settles O57: every visit of either pass does nothing. -/
theorem passesWithNothingSignificantChangeNothing : Obligations.PassesWithNothingSignificantChangeNothing := by
  intro s p hi hf hp hg hh hs
  have hsig : significancePass p s = .done () s := forEach_skip fun xy hxy =>
    visitSignificance_skip (.inr (.inr (neighbours_eq_zero hh hs (mem_scanOrder hxy).1 (mem_scanOrder hxy).2)))
  have href : refinementPass p s = .done () s := forEach_skip fun xy hxy =>
    visitRefinement_skip (.inl (hs _ _ (mem_scanOrder hxy).1 (mem_scanOrder hxy).2))
  rw [execSigpass_admitted hi hf hp hg, execRefpass_admitted hi hf hp hg, hsig, href]
  exact ⟨rfl, rfl⟩

/-! ## The run-length mode of CLNPASS (R165) -/

theorem forEach_map {α β : Type} (f : α → β) (visit : β → State → Run Unit) (xs : List α) (s : State) :
    forEach visit (xs.map f) s = forEach (fun x => visit (f x)) xs s := by
  induction xs generalizing s with
  | nil => rfl
  | cons x xs ih => simp only [List.map_cons, forEach, ih]

section

variable {s : State} {p k x : Nat}

theorem runEligible_iff : runEligible k x s = true ↔ 4 * k + 3 < s.h ∧ ∀ j : Nat, j < 4 →
    isSignificant s x (4 * k + j) = false ∧ isVisited s x (4 * k + j) = false ∧ neighbours s x (4 * k + j) = 0 := by
  simp [runEligible, and_assoc]

/-- The rows of a full stripe. -/
theorem cleanRows_full (r : Nat) (h : 4 * k + 3 < s.h) :
    cleanRows p k x r s = forEach (fun j => visitCleanup p x (4 * k + j)) (List.range' r (4 - r)) s := by
  rw [cleanRows, stripeRows_eq, show min (4 - r) (s.h - (4 * k + r)) = 4 - r by omega, ← List.map_add_range',
    forEach_map]

theorem visitColumn_of_not_eligible (h : runEligible k x s = false) : visitColumn p (k, x) s = cleanRows p k x 0 s :=
  if_neg (by simp [h])

/-- What follows the two decisions under UNI: row r gets its sign, and the rows after it are coded one by one. -/
def runTail (p k x r : Nat) (s : State) : Run Unit :=
  (signify x (4 * k + r) p s).bind fun _ u => cleanRows p k x (r + 1) u

/-- An eligible column; AGG and UNI are labels 17 and 18 (R82). -/
theorem visitColumn_of_eligible (h : runEligible k x s = true) : visitColumn p (k, x) s =
    (codeLabel 17 (anyInRun k x p s) s).bind fun a t =>
      if a then
        (codeLabel 18 ((firstInRun k x p s).testBit 1) t).bind fun r1 t1 =>
          (codeLabel 18 ((firstInRun k x p s).testBit 0) t1).bind fun r0 t0 =>
            runTail p k x (2 * r1.toNat + r0.toNat) t0
      else .done () t := if_pos h

theorem signify_h (x y p : Nat) (s : State) : (signify x y p s).All fun u => u.h = s.h := by
  rw [signify_eq]
  refine Run.all_bind (Run.all_imp (fun t h => h.sameScan.h) (codeSign_coding x y s)) fun neg t ht => ?_
  rw [Run.all_done, signified_eq]
  exact ht

theorem runTail_eq (r : Nat) (h : 4 * k + 3 < s.h) : runTail p k x r s =
    (signify x (4 * k + r) p s).bind fun _ u =>
      forEach (fun j => visitCleanup p x (4 * k + j)) (List.range' (r + 1) (3 - r)) u := by
  refine Run.bind_congr (signify_h x (4 * k + r) p s) fun _ u hu => ?_
  rw [cleanRows_full (r + 1) (by rw [hu]; exact h), show 4 - (r + 1) = 3 - r by omega]

theorem anyInRun_eq_false (h : ∀ j : Nat, j < 4 → magBit s x (4 * k + j) p = false) : anyInRun k x p s = false := by
  simpa [anyInRun] using h

theorem anyInRun_eq_true {r : Nat} (hr : r < 4) (h : magBit s x (4 * k + r) p = true) : anyInRun k x p s = true := by
  simp only [anyInRun, List.any_eq_true, List.mem_range]
  exact ⟨r, hr, h⟩

/-- `first` is the least row whose magnitude has bit P. -/
theorem firstInRun_eq {r : Nat} (hr : r < 4) (h : magBit s x (4 * k + r) p = true)
    (hlt : ∀ j : Nat, j < r → magBit s x (4 * k + j) p = false) : firstInRun k x p s = r := by
  have hfind : (List.range 4).find? (fun j => magBit s x (4 * k + j) p) = some r :=
    List.find?_range_eq_some.2 ⟨h, List.mem_range.2 hr, fun j hj => by simp [hlt j hj]⟩
  rw [firstInRun, hfind]
  rfl

/-- The row in two bits, the more significant one first. -/
theorem row_bits : ∀ r < 4, r.testBit 1 = decide (2 ≤ r) ∧ r.testBit 0 = decide (r % 2 = 1)
    ∧ 2 * (decide (2 ≤ r)).toNat + (decide (r % 2 = 1)).toNat = r := by decide

/-- ENC, a column of zeros: the AGG decision 0 alone. -/
theorem visitColumn_enc_none (hm : s.mode = .enc) (h : runEligible k x s = true)
    (hnone : ∀ j : Nat, j < 4 → magBit s x (4 * k + j) p = false) :
    visitColumn p (k, x) s = encodeDecision 17 false s := by
  rw [visitColumn_of_eligible h, anyInRun_eq_false hnone, codeLabel_of_enc _ _ hm, Run.bind_assoc]
  simp only [Run.bind_done, Bool.false_eq_true, if_false, Run.bind_done_right]

/-- ENC, a column with a first row r that has bit P: the AGG decision 1, r, and the rest of the column. -/
theorem visitColumn_enc_first (hm : s.mode = .enc) (h : runEligible k x s = true) {r : Nat} (hr : r < 4)
    (hbit : magBit s x (4 * k + r) p = true) (hlt : ∀ j : Nat, j < r → magBit s x (4 * k + j) p = false) :
    visitColumn p (k, x) s = (encodeDecision 17 true s).bind fun _ t =>
      (encodeDecision 18 (decide (2 ≤ r)) t).bind fun _ t1 =>
        (encodeDecision 18 (decide (r % 2 = 1)) t1).bind fun _ t0 => runTail p k x r t0 := by
  obtain ⟨hb1, hb0, hsum⟩ := row_bits r hr
  rw [visitColumn_of_eligible h, anyInRun_eq_true hr hbit, firstInRun_eq hr hbit hlt, codeLabel_of_enc _ _ hm,
    Run.bind_assoc, hb1, hb0]
  refine Run.bind_congr (encodeDecision_coding _ _ s) fun _ t ht => ?_
  rw [Run.bind_done, if_pos rfl, codeLabel_of_enc _ _ (ht.mode.trans hm), Run.bind_assoc]
  refine Run.bind_congr (encodeDecision_coding _ _ t) fun _ t1 ht1 => ?_
  rw [Run.bind_done, codeLabel_of_enc _ _ (ht1.mode.trans (ht.mode.trans hm)), Run.bind_assoc]
  simp only [Run.bind_done, hsum]

/-- DEC, the AGG decision 0: the column is done. -/
theorem visitColumn_dec_none (hm : s.mode = .dec) (h : runEligible k x s = true)
    (ha : (decodeDecision 17 s).1 = false) : visitColumn p (k, x) s = .done () (decodeDecision 17 s).2 := by
  rw [visitColumn_of_eligible h, codeLabel_of_dec _ _ hm, Run.bind_done]
  exact if_neg (by simpa using ha)

/-- DEC, the AGG decision 1: the row decoded, and the rest of the column. -/
theorem visitColumn_dec_first (hm : s.mode = .dec) (h : runEligible k x s = true)
    (ha : (decodeDecision 17 s).1 = true) :
    let r1 := decodeDecision 18 (decodeDecision 17 s).2
    let r0 := decodeDecision 18 r1.2
    visitColumn p (k, x) s = runTail p k x (2 * r1.1.toNat + r0.1.toNat) r0.2 := by
  have hm1 := (decodeDecision_coding 17 s).mode.trans hm
  have hm0 := (decodeDecision_coding 18 (decodeDecision 17 s).2).mode.trans hm1
  rw [visitColumn_of_eligible h, codeLabel_of_dec _ _ hm, Run.bind_done]
  refine (if_pos ha).trans ?_
  rw [codeLabel_of_dec _ _ hm1, Run.bind_done, codeLabel_of_dec _ _ hm0, Run.bind_done]

end

/-- Settles O58: `runEligible_iff`, and the column in ENC and in DEC with no row and with a first row r. -/
theorem eligibleColumnIsRunLengthCoded : Obligations.EligibleColumnIsRunLengthCoded := by
  refine ⟨fun s k x => runEligible_iff,
    fun s p k x hm he => ⟨visitColumn_enc_none hm he, fun r hr hbit hlt => ?enc⟩, ?dec⟩
  case enc =>
    rw [visitColumn_enc_first hm he hr hbit hlt]
    have hfull := (runEligible_iff.1 he).1
    refine Run.bind_congr (encodeDecision_coding _ _ s) fun _ t ht => ?_
    refine Run.bind_congr (encodeDecision_coding _ _ t) fun _ t1 ht1 => ?_
    refine Run.bind_congr (encodeDecision_coding _ _ t1) fun _ t0 ht0 => runTail_eq r ?_
    rwa [ht0.sameScan.h, ht1.sameScan.h, ht.sameScan.h]
  case dec =>
    intro s p k x hm he a r1 r0 r
    refine ⟨runEligible_iff.1 he, visitColumn_dec_none hm he, fun ha => ?_⟩
    refine (visitColumn_dec_first hm he ha).trans (runTail_eq r ?_)
    rw [(decodeDecision_coding 18 _).sameScan.h, (decodeDecision_coding 18 _).sameScan.h,
      (decodeDecision_coding 17 _).sameScan.h]
    exact (runEligible_iff.1 he).1

end Sys2Proof.Machine

/-! ## What a visit leaves alone -/

namespace Sys2Proof.Machine

theorem Run.All.of_done {α : Type} {P : State → Prop} {r : Run α} {v : α} {t : State} (h : r.All P)
    (hr : r = .done v t) : P t := by
  rw [hr] at h
  exact h

/-- The flag cell and the coefficient cell of coefficient (x, y). -/
def cellsAt (s : State) (x y : Nat) : BitVec 4 × Word := (flagCell s (x + 1) (y + 1), coefCell s x y)

/-- What every visit keeps: MODE, the size of the code-block, each SIG bit that is set, and the canonical form of FP. -/
structure ScanFrame (s t : State) : Prop where
  mode : t.mode = s.mode
  w : t.w = s.w
  h : t.h = s.h
  sig : ∀ a, (s.fp.read a).getLsbD sigBit = true → (t.fp.read a).getLsbD sigBit = true
  wf : s.fp.wf = true → t.fp.wf = true

/-- A visit that changes the cells of no coefficient but those in `S`. -/
structure ScanStep (S : Nat → Nat → Prop) (s t : State) : Prop where
  frame : ScanFrame s t
  kept : ∀ x y, x < s.w → ¬ S x y → cellsAt t x y = cellsAt s x y

/-- The one coefficient that a visit is to. -/
def At (z : Nat × Nat) (x y : Nat) : Prop := (x, y) = z

theorem ScanFrame.trans {s t u : State} (h : ScanFrame s t) (g : ScanFrame t u) : ScanFrame s u :=
  ⟨g.mode.trans h.mode, g.w.trans h.w, g.h.trans h.h, fun a ha => g.sig a (h.sig a ha), fun hw => g.wf (h.wf hw)⟩

theorem ScanFrame.isDecoding {s t : State} (h : ScanFrame s t) : isDecoding t = isDecoding s := by
  rw [Machine.isDecoding, h.mode, Machine.isDecoding]

/-- Significant neighbours stay significant, and others can become so. -/
theorem ScanFrame.neighbours_le {s t : State} (h : ScanFrame s t) (x y : Nat) :
    neighbours s x y ≤ neighbours t x y := by
  have sigAt_le : ∀ xf yf, sigAt s xf yf ≤ sigAt t xf yf := fun xf yf =>
    Bool.toNat_le_toNat fun hs => by rw [flagCell, h.w]; exact h.sig _ hs
  exact Nat.add_le_add (Nat.add_le_add (Nat.add_le_add (sigAt_le ..) (sigAt_le ..))
    (Nat.add_le_add (sigAt_le ..) (sigAt_le ..)))
    (Nat.add_le_add (Nat.add_le_add (Nat.add_le_add (sigAt_le ..) (sigAt_le ..)) (sigAt_le ..)) (sigAt_le ..))

theorem SameScan.cellsAt {s t : State} (h : SameScan s t) (x y : Nat) : cellsAt t x y = cellsAt s x y := by
  rw [Machine.cellsAt, h.flagCell, h.coefCell, Machine.cellsAt]

theorem SameScan.step {s t : State} (h : SameScan s t) (S : Nat → Nat → Prop) : ScanStep S s t :=
  ⟨⟨h.mode, h.w, h.h, fun a ha => by rwa [h.fp], fun hw => by rwa [h.fp]⟩, fun x y _ _ => h.cellsAt x y⟩

section

variable {S T : Nat → Nat → Prop} {s t u : State} {x y p : Nat} {neg b : Bool}

theorem ScanStep.refl (S : Nat → Nat → Prop) (s : State) : ScanStep S s s := SameScan.step ⟨rfl, rfl, rfl, rfl, rfl⟩ S

theorem ScanStep.trans (h : ScanStep S s t) (g : ScanStep S t u) : ScanStep S s u :=
  ⟨h.frame.trans g.frame, fun x y hx hS => (g.kept x y (h.frame.w ▸ hx) hS).trans (h.kept x y hx hS)⟩

theorem ScanStep.mono (h : ScanStep S s t) (hST : ∀ x y, S x y → T x y) : ScanStep T s t :=
  ⟨h.frame, fun x y hx hT => h.kept x y hx fun hS => hT (hST x y hS)⟩

/-- A write of the flag cell of a coefficient that does not clear its SIG bit. -/
theorem setFlagCell_step {v : BitVec 4} (hx : x < s.w)
    (hv : (flagCell s (x + 1) (y + 1)).getLsbD sigBit = true → v.getLsbD sigBit = true) :
    ScanStep (At (x, y)) s (setFlagCell s x y v) := by
  refine ⟨⟨rfl, rfl, rfl, fun a ha => ?sig, fun hw => Cells.wf_write hw _ v⟩, fun x' y' hx' hne => ?cells⟩
  case sig =>
    show ((s.fp.write _ v).read a).getLsbD sigBit = true
    rw [Cells.read_write]
    split
    case isTrue h => exact hv (by rw [flagCell, ← h]; exact ha)
    case isFalse => exact ha
  case cells =>
    have hcell := setFlagCell_flagCell (y := y) v hx (xf := x' + 1) (yf := y' + 1) (by omega)
    rw [if_neg fun h => hne (Prod.ext (Nat.succ.inj h.1) (Nat.succ.inj h.2))] at hcell
    exact congrArg (·, coefCell s x' y') hcell

theorem setCoefCell_step {v : Word} (hx : x < s.w) : ScanStep (At (x, y)) s (setCoefCell s x y v) := by
  refine ⟨⟨rfl, rfl, rfl, fun _ h => h, fun h => h⟩, fun x' y' hx' hne => congrArg (flagCell s (x' + 1) (y' + 1), ·) ?_⟩
  refine (setCoefCell_read s x y v _).trans (if_neg fun h => hne ?_)
  obtain ⟨rfl, rfl⟩ := coefIndex_inj hx' hx h
  rfl

theorem markVisited_step (hx : x < s.w) : ScanStep (At (x, y)) s (markVisited x y s) :=
  setFlagCell_step hx fun h => by simp [h]

theorem markRefined_step (hx : x < s.w) : ScanStep (At (x, y)) s (markRefined x y s) :=
  setFlagCell_step hx fun h => by simp [h]

theorem signified_step (hx : x < s.w) : ScanStep (At (x, y)) s (signified x y p neg s) := by
  have hmark : ScanStep (At (x, y)) s (markSignificant x y neg s) :=
    setFlagCell_step hx fun _ => flagsSignified_sig neg _
  unfold signified
  split
  · exact (hmark.trans (setCoefCell_step hx)).trans (setCoefCell_step hx)
  · exact hmark

theorem signify_step (hx : x < s.w) : (signify x y p s).All (ScanStep (At (x, y)) s) := by
  rw [signify_eq]
  refine Run.all_bind (Run.all_imp (fun t h => h.sameScan.step _) (codeSign_coding x y s)) fun neg t ht => ?_
  exact ht.trans (signified_step (ht.frame.w ▸ hx))

theorem codeSymbol_step (S : Nat → Nat → Prop) (k : Label) (v : Bool) (s : State) :
    (codeSymbol k v s).All (ScanStep S s) :=
  Run.all_imp (fun _ h => h.sameScan.step S) (codeSymbol_coding k v s)

theorem codeLabel_step (S : Nat → Nat → Prop) (k : Label) (v : Bool) (s : State) :
    (codeLabel k v s).All (ScanStep S s) :=
  Run.all_imp (fun _ h => h.sameScan.step S) (codeLabel_coding k v s)

/-- What a step leads to, a run of the next one leads on from. -/
theorem ScanStep.then_all {α : Type} {r : Run α} (h : ScanStep S s t) (hr : r.All (ScanStep S t)) :
    r.All (ScanStep S s) := Run.all_imp (fun _ g => h.trans g) hr

theorem codeSignificance_step (hx : x < s.w) : (codeSignificance x y p s).All (ScanStep (At (x, y)) s) := by
  refine Run.all_bind (codeSymbol_step _ _ _ s) fun b t ht => ?_
  split
  · exact ht.then_all (signify_step (ht.frame.w ▸ hx))
  · exact ht

theorem visitSignificance_step (hx : x < s.w) : (visitSignificance p (x, y) s).All (ScanStep (At (x, y)) s) := by
  unfold visitSignificance
  split
  · exact Run.all_bind (codeSignificance_step hx) fun _ t ht => ht.trans (markVisited_step (ht.frame.w ▸ hx))
  · exact ScanStep.refl _ s

theorem visitRefinement_step (hx : x < s.w) : (visitRefinement p (x, y) s).All (ScanStep (At (x, y)) s) := by
  unfold visitRefinement
  split
  · refine Run.all_bind (codeSymbol_step _ _ _ s) fun b t ht => ?_
    have hxt : x < t.w := ht.frame.w ▸ hx
    split
    · exact (ht.trans (setCoefCell_step hxt)).trans (markRefined_step hxt)
    · exact ht.trans (markRefined_step hxt)
  · exact ScanStep.refl _ s

theorem visitCleanup_step (hx : x < s.w) : (visitCleanup p x y s).All (ScanStep (At (x, y)) s) := by
  unfold visitCleanup
  split
  · exact codeSignificance_step hx
  · exact ScanStep.refl _ s

end

/-! ## A coefficient in a scan -/

theorem forEach_append {α : Type} (visit : α → State → Run Unit) (xs ys : List α) (s : State) :
    forEach visit (xs ++ ys) s = (forEach visit xs s).bind fun _ t => forEach visit ys t := by
  induction xs generalizing s with
  | nil => rfl
  | cons x xs ih =>
    rw [List.cons_append, forEach, forEach, Run.bind_assoc]
    simp only [ih]

section

variable {α : Type} {visit : α → State → Run Unit} {S : α → Nat → Nat → Prop} {xs : List α} {w : Nat}

/-- Visits that each keep to a part of the code-block keep, all of them, to the parts together. -/
theorem forEach_step (step : ∀ z ∈ xs, ∀ s : State, s.w = w → (visit z s).All (ScanStep (S z) s)) {s : State}
    (hw : s.w = w) : (forEach visit xs s).All (ScanStep (fun x y => ∃ z ∈ xs, S z x y) s) := by
  induction xs generalizing s with
  | nil => exact ScanStep.refl _ s
  | cons z xs ih =>
    have hz := step z (List.mem_cons_self ..) s hw
    refine Run.all_bind (Run.all_imp (fun t h => h.mono fun _ _ h => ⟨z, List.mem_cons_self .., h⟩) hz) fun _ t ht => ?_
    refine ht.then_all (Run.all_imp (fun u h => h.mono ?_) (ih (fun y hy => step y (List.mem_cons_of_mem _ hy))
      (ht.frame.w.trans hw)))
    exact fun x y ⟨z', hz', h⟩ => ⟨z', List.mem_cons_of_mem _ hz', h⟩

/-- A coefficient that one visit of a scan alone can change: that visit finds its cells as they were before the scan,
and leaves them as they are after it. -/
theorem forEach_at (step : ∀ z ∈ xs, ∀ s : State, s.w = w → (visit z s).All (ScanStep (S z) s)) (hnodup : xs.Nodup)
    {z : α} (hz : z ∈ xs) {x y : Nat} (honly : ∀ z' ∈ xs, S z' x y → z' = z) {s t : State} (hw : s.w = w) (hx : x < w)
    (hrun : forEach visit xs s = .done () t) :
    ∃ u v, visit z u = .done () v ∧ ScanFrame s u ∧ ScanFrame u v ∧ ScanFrame v t ∧ cellsAt u x y = cellsAt s x y
      ∧ cellsAt t x y = cellsAt v x y := by
  obtain ⟨before, after, rfl⟩ := List.append_of_mem hz
  obtain ⟨-, hafter, hdisjoint⟩ := List.nodup_append.1 hnodup
  rw [forEach_append] at hrun
  obtain ⟨_, u, hu, hrun⟩ := Run.bind_eq_done.1 hrun
  rw [forEach] at hrun
  obtain ⟨_, v, hv, hrun⟩ := Run.bind_eq_done.1 hrun
  have hsu := (forEach_step (fun z' hz' => step z' (List.mem_append_left _ hz')) hw).of_done hu
  have huv := (step z hz u (hsu.frame.w.trans hw)).of_done hv
  have hvw : v.w = w := huv.frame.w.trans (hsu.frame.w.trans hw)
  have hvt := (forEach_step (fun z' hz' => step z' (List.mem_append_right _ (List.mem_cons_of_mem _ hz'))) hvw).of_done
    hrun
  refine ⟨u, v, hv, hsu.frame, huv.frame, hvt.frame, hsu.kept x y (hw ▸ hx) ?_, hvt.kept x y (hvw ▸ hx) ?_⟩
  · rintro ⟨z', hz', hS⟩
    obtain rfl := honly z' (List.mem_append_left _ hz') hS
    exact hdisjoint _ hz' _ (List.mem_cons_self ..) rfl
  · rintro ⟨z', hz', hS⟩
    obtain rfl := honly z' (List.mem_append_right _ (List.mem_cons_of_mem _ hz')) hS
    exact (List.nodup_cons.1 hafter).1 hz'

end

/-- A coefficient in a scan of the code-block, coefficient by coefficient. -/
theorem scan_at {visit : Nat × Nat → State → Run Unit} {s t : State}
    (step : ∀ x y (u : State), x < u.w → (visit (x, y) u).All (ScanStep (At (x, y)) u)) {x y : Nat} (hx : x < s.w)
    (hy : y < s.h) (hrun : forEach visit (scanOrder s.w s.h) s = .done () t) :
    ∃ u v, visit (x, y) u = .done () v ∧ ScanFrame s u ∧ ScanFrame u v ∧ ScanFrame v t ∧ cellsAt u x y = cellsAt s x y
      ∧ cellsAt t x y = cellsAt v x y :=
  forEach_at (S := At) (fun z hz u hu => step z.1 z.2 u (hu ▸ (mem_scanOrder hz).1)) (scanOrder_nodup ..)
    (mem_scanOrder_iff.2 ⟨hx, hy⟩) (fun _ _ h => h.symm) rfl hx hrun

/-! ## REFPASS (R164) -/

section

variable {s t u : State} {p x y : Nat} {b : Bool}

theorem isDecoding_of_decoding (hm : s.mode = .dec ∨ s.mode = .rawdec) : isDecoding s = true := by
  simpa [isDecoding] using hm

/-- A visit that refines. -/
theorem visitRefinement_of_due (hs : isSignificant s x y = true) (hv : isVisited s x y = false) :
    visitRefinement p (x, y) s = (codeSymbol (mrLabelOf s x y) (magBit s x y p) s).bind fun b t =>
      .done () (markRefined x y (if isDecoding t then orMagBit x y p b t else t)) := if_pos (by simp [hs, hv])

/-- In encode direction the bit is coded, and REF is set. -/
theorem visitRefinement_encoded (hs : isSignificant s x y = true) (hv : isVisited s x y = false) {r : Run Unit}
    (hd : isDecoding s = false) (hr : r.All (CodingFrame s))
    (hcode : codeSymbol (mrLabelOf s x y) (magBit s x y p) s = r.bind fun _ t => .done (magBit s x y p) t) :
    visitRefinement p (x, y) s = r.bind fun _ t => .done () (markRefined x y t) := by
  rw [visitRefinement_of_due hs hv, hcode, Run.bind_assoc]
  refine Run.bind_congr hr fun _ t ht => ?_
  rw [Run.bind_done, if_neg (by simp [ht.sameScan.isDecoding, hd])]

/-- In decode direction the decision is ORed into bit P, and REF is set. -/
theorem visitRefinement_decoded (hs : isSignificant s x y = true) (hv : isVisited s x y = false)
    (hd : isDecoding s = true) (hcode : codeSymbol (mrLabelOf s x y) (magBit s x y p) s = .done b u) :
    visitRefinement p (x, y) s = .done () (markRefined x y (orMagBit x y p b u)) := by
  have hu := ((codeSymbol_coding _ _ s).of_done hcode).sameScan
  rw [visitRefinement_of_due hs hv, hcode, Run.bind_done, if_pos (hu.isDecoding.trans hd)]

theorem magOred_eq (p : Nat) (b : Bool) (c : Word) : magOred p b c = c ||| (if b then 1#32 <<< p else 0) := by
  cases b
  · simp [magOred]
  · rfl

/-- The writes of a visit that refines in decode direction. -/
theorem markRefined_orMagBit_cells (h : SameScan s u) :
    coefCell (markRefined x y (orMagBit x y p b u)) x y = coefCell s x y ||| (if b then 1#32 <<< p else 0)
      ∧ ∀ n : Nat, n ≠ y * s.w + x → (markRefined x y (orMagBit x y p b u)).cp.read n = s.cp.read n := by
  have hread : ∀ n, (markRefined x y (orMagBit x y p b u)).cp.read n =
      if n = coefIndex u x y then magOred p b (coefCell u x y) else u.cp.read n := fun n => setCoefCell_read ..
  refine ⟨?_, fun n hn => ?_⟩
  · rw [← magOred_eq, ← h.coefCell]
    exact (hread _).trans (if_pos rfl)
  · rw [hread, if_neg (by rwa [coefIndex, h.w]), h.cp]

/-- A visit of REFPASS sets REF of a coefficient that is significant and not visited, and does nothing to any other. -/
theorem visitRefinement_cells (hx : x < s.w) (h : visitRefinement p (x, y) s = .done () t) :
    (cellsAt t x y).1 = (if isSignificant s x y && !isVisited s x y then (cellsAt s x y).1 ||| 0b1000#4
        else (cellsAt s x y).1)
      ∧ ((isSignificant s x y && !isVisited s x y) = false → cellsAt t x y = cellsAt s x y) := by
  by_cases hdue : isSignificant s x y = true ∧ isVisited s x y = false
  · obtain ⟨hs, hv⟩ := hdue
    rw [visitRefinement_of_due hs hv] at h
    obtain ⟨b, u, hcode, hlast⟩ := Run.bind_eq_done.1 h
    cases hlast
    have hu := ((codeSymbol_coding _ _ s).of_done hcode).sameScan
    have hflags : ∀ v : State, SameScan s { v with cp := s.cp } →
        (cellsAt (markRefined x y v) x y).1 = (cellsAt s x y).1 ||| 0b1000#4 := fun v hv => by
      have hfp : flagCell v (x + 1) (y + 1) = flagCell s (x + 1) (y + 1) := hv.flagCell _ _
      have hw : v.w = s.w := hv.w
      exact (setFlagCell_flagCell _ (hw ▸ hx) (by omega)).trans ((if_pos ⟨rfl, rfl⟩).trans (by rw [hfp]; rfl))
    rw [hs, hv]
    refine ⟨hflags _ ?_, fun h => absurd h (by simp)⟩
    split <;> exact ⟨hu.mode, hu.w, hu.h, hu.fp, rfl⟩
  · have hskip : isSignificant s x y = false ∨ isVisited s x y = true := by
      rw [not_and_or] at hdue
      simpa using hdue
    rw [visitRefinement_skip hskip] at h
    cases h
    rw [if_neg (by rcases hskip with h | h <;> simp [h])]
    exact ⟨rfl, fun _ => rfl⟩

end

/-- Settles O54: the visit in each mode, and the one visit of the scan that can change a coefficient. -/
theorem refpassRefinesExactlyTheSignificant : Obligations.RefpassRefinesExactlyTheSignificant := by
  refine ⟨fun s p x y hs hv => ⟨fun hm => ?enc, fun hm => ?rawenc, fun r hr => ?decoding⟩,
    fun s p x y h => visitRefinement_skip h, fun s p hp hg hi hf => execRefpass_admitted hi hf hp hg,
    fun s t p hexec ha x y hx hy => ?pass⟩
  case enc =>
    exact visitRefinement_encoded hs hv (isDecoding_of_encoding (.inl hm)) (encodeDecision_coding _ _ s)
      (codeSymbol_of_enc _ _ hm)
  case rawenc =>
    exact visitRefinement_encoded hs hv (isDecoding_of_encoding (.inr hm))
      (Run.all_imp (fun _ h => h.coding) (rawEncodeBit_frame _ s)) (codeSymbol_of_rawenc _ _ hm)
  case decoding =>
    have hcode : codeSymbol (mrLabelOf s x y) (magBit s x y p) s = .done r.1 r.2 := by
      rcases hr with ⟨hm, rfl⟩ | ⟨hm, rfl⟩
      · exact codeSymbol_of_dec _ _ hm
      · exact codeSymbol_of_rawdec _ _ hm
    have hd : isDecoding s = true := isDecoding_of_decoding (hr.imp And.left And.left)
    have hsame := ((codeSymbol_coding _ _ s).of_done hcode).sameScan
    exact ⟨_, visitRefinement_decoded hs hv hd hcode, rfl, markRefined_orMagBit_cells hsame⟩
  case pass =>
    obtain ⟨-, -, -, w, hrun, rfl⟩ := refpass_done hexec ha
    obtain ⟨u, v, hvisit, hsu, -, -, hbefore, hafter⟩ := scan_at (fun x y u => visitRefinement_step) hx hy hrun
    obtain ⟨hflags, hkept⟩ := visitRefinement_cells (hsu.w ▸ hx) hvisit
    have hsig : isSignificant u x y = isSignificant s x y := congrArg (·.1.getLsbD sigBit) hbefore
    have hvis : isVisited u x y = isVisited s x y := congrArg (·.1.getLsbD visBit) hbefore
    rw [hsig, hvis, ← hafter, hbefore] at hflags hkept
    have hcell : flagCell w (x + 1) (y + 1) = if isSignificant s x y && !isVisited s x y
        then flagCell s (x + 1) (y + 1) ||| 0b1000#4 else flagCell s (x + 1) (y + 1) := hflags
    have bit : ∀ n, flagOf n (w.answer Response.ok) x y =
        (flagOf n s x y || (isSignificant s x y && !isVisited s x y) && (0b1000#4).getLsbD n) := fun n => by
      show (flagCell w (x + 1) (y + 1)).getLsbD n = _
      rw [hcell]
      cases isSignificant s x y && !isVisited s x y
      · simp [flagOf]
      · simp [flagOf]
    refine ⟨?_, ?_, ?_, ?_, fun h => congrArg Prod.snd (hkept h)⟩
    · exact (bit refBit).trans (by simp [refBit, isRefined])
    · exact (bit sigBit).trans (by simp [sigBit, isSignificant])
    · exact (bit visBit).trans (by simp [visBit, isVisited])
    · exact (bit sgnBit).trans (by simp [sgnBit])

end Sys2Proof.Machine

/-! ## A significance decision and its coefficient (R160, R161) -/

namespace Sys2Proof.Machine

/-- The cells of a coefficient that SIGNIFY makes significant with the sign `neg` (R161). -/
def signifiedCells (decoding : Bool) (p : Nat) (neg : Bool) (a : BitVec 4 × Word) : BitVec 4 × Word :=
  (flagsSignified neg a.1, if decoding then signWritten neg (magOred p true a.2) else a.2)

/-- A significance decision leads from the cells `a` of its coefficient to `b`: they stay, or they become significant.
In encode direction bit P says which, and the sign is that of the coefficient. -/
def CodedAs (decoding : Bool) (p : Nat) (a b : BitVec 4 × Word) : Prop :=
  (b = a ∧ (decoding = false → a.2.getLsbD p = false))
    ∨ ∃ neg, b = signifiedCells decoding p neg a ∧ (decoding = false → a.2.getLsbD p = true ∧ neg = a.2.getLsbD 31)

section

variable {d : Bool} {p : Nat} {a b : BitVec 4 × Word}

theorem CodedAs.ref (h : CodedAs d p a b) : b.1.getLsbD refBit = a.1.getLsbD refBit := by
  rcases h with ⟨rfl, -⟩ | ⟨neg, rfl, -⟩
  · rfl
  · exact flagsSignified_ref neg a.1

/-- In encode direction a coefficient becomes significant exactly where its bit P is 1, with its sign. -/
theorem CodedAs.encoded (h : CodedAs false p a b) (ha : a.1.getLsbD sigBit = false) :
    b.1.getLsbD sigBit = a.2.getLsbD p ∧ (b.1.getLsbD sigBit = true → b.1.getLsbD sgnBit = a.2.getLsbD 31) := by
  rcases h with ⟨rfl, hbit⟩ | ⟨neg, rfl, hbit⟩
  · exact ⟨ha.trans (hbit rfl).symm, fun hsig => absurd hsig (by simp [ha])⟩
  · obtain ⟨hp, rfl⟩ := hbit rfl
    exact ⟨(flagsSignified_sig _ a.1).trans hp.symm, fun _ => flagsSignified_sgn _ a.1⟩

/-- In decode direction a coefficient that becomes significant gets bit P and its sign. -/
theorem CodedAs.decoded (h : CodedAs true p a b) (hp : p ≤ 29) (ha : a.1.getLsbD sigBit = false)
    (hsig : b.1.getLsbD sigBit = true) : b.2.getLsbD p = true ∧ b.2.getLsbD 31 = b.1.getLsbD sgnBit := by
  rcases h with ⟨rfl, -⟩ | ⟨neg, rfl, -⟩
  · exact absurd hsig (by simp [ha])
  · refine ⟨?_, (signWritten_sign neg _).trans (flagsSignified_sgn neg a.1).symm⟩
    refine (signWritten_getLsbD neg _ (by omega)).trans ((magOred_getLsbD true _ (by omega)).trans ?_)
    simp

/-- A coefficient that does not become significant keeps its cell of CP. -/
theorem CodedAs.kept (h : CodedAs d p a b) (hsig : b.1.getLsbD sigBit = false) : b.2 = a.2 := by
  rcases h with ⟨rfl, -⟩ | ⟨neg, rfl, -⟩
  · rfl
  · exact absurd hsig (by simp [signifiedCells])

end

section

variable {s t : State} {p x y : Nat} {b v : Bool} {k : Label}

theorem modes_of_encoding (hd : isDecoding s = false) : s.mode ≠ .dec ∧ s.mode ≠ .rawdec := by
  simpa [isDecoding] using hd

/-- In encode direction a decision is the one that is coded (R160). -/
theorem codeLabel_value (hd : isDecoding s = false) (h : codeLabel k v s = .done b t) : b = v := by
  rw [codeLabel, if_neg (modes_of_encoding hd).1] at h
  obtain ⟨_, u, -, hlast⟩ := Run.bind_eq_done.1 h
  cases hlast
  rfl

theorem codeRaw_value (hd : isDecoding s = false) (h : codeRaw v s = .done b t) : b = v := by
  rw [codeRaw, if_neg (modes_of_encoding hd).2] at h
  obtain ⟨_, u, -, hlast⟩ := Run.bind_eq_done.1 h
  cases hlast
  rfl

theorem codeSymbol_value (hd : isDecoding s = false) (h : codeSymbol k v s = .done b t) : b = v := by
  unfold codeSymbol at h
  split at h
  · exact codeLabel_value hd h
  · exact codeRaw_value hd h

/-- In encode direction the sign coded is that of the coefficient, XORBIT or not (R158, R161). -/
theorem codeSign_value (hd : isDecoding s = false) (h : codeSign x y s = .done b t) : b = isNegative s x y := by
  unfold codeSign at h
  split at h
  · obtain ⟨d, u, hcode, hlast⟩ := Run.bind_eq_done.1 h
    obtain rfl := codeLabel_value hd hcode
    cases hlast
    simp
  · exact codeRaw_value hd h

/-- SIGNIFY makes the coefficient significant, in encode direction with its own sign. -/
theorem signify_cells (hx : x < s.w) (h : signify x y p s = .done () t) :
    ∃ neg, cellsAt t x y = signifiedCells (isDecoding s) p neg (cellsAt s x y)
      ∧ (isDecoding s = false → neg = isNegative s x y) := by
  rw [signify_eq] at h
  obtain ⟨neg, u, hcode, hlast⟩ := Run.bind_eq_done.1 h
  cases hlast
  have hu := ((codeSign_coding x y s).of_done hcode).sameScan
  have hxu : x < u.w := hu.w ▸ hx
  refine ⟨neg, ?_, fun hd => codeSign_value hd hcode⟩
  rw [← hu.cellsAt, ← hu.isDecoding, cellsAt, signified_coefCell, signified_flagCell hxu (by omega),
    if_pos ⟨rfl, rfl⟩]
  rfl

theorem codeSignificance_cells (hx : x < s.w) (h : codeSignificance x y p s = .done () t) :
    CodedAs (isDecoding s) p (cellsAt s x y) (cellsAt t x y) := by
  obtain ⟨b, u, hcode, hlast⟩ := Run.bind_eq_done.1 h
  have hu := ((codeSymbol_coding _ _ s).of_done hcode).sameScan
  have hbit : isDecoding s = false → b = (cellsAt s x y).2.getLsbD p := fun hd => codeSymbol_value hd hcode
  rw [← hu.cellsAt, ← hu.isDecoding] at hbit ⊢
  cases b
  case false =>
    cases hlast
    exact .inl ⟨rfl, fun hd => (hbit hd).symm⟩
  case true =>
    obtain ⟨neg, hcells, hneg⟩ := signify_cells (hu.w ▸ hx) hlast
    exact .inr ⟨neg, hcells, fun hd => ⟨(hbit hd).symm, hneg hd⟩⟩

end

/-! ## SIGPASS (R163) -/

section

variable {s t : State} {p x y : Nat}

/-- The end of a visit of SIGPASS that codes, after its significance decision (R163). -/
def significanceTail (x y p : Nat) (b : Bool) (t : State) : Run Unit :=
  (if b then signify x y p t else .done () t).bind fun _ u => .done () (markVisited x y u)

/-- A visit of SIGPASS that codes. -/
theorem visitSignificance_of_due (hs : isSignificant s x y = false) (hv : isVisited s x y = false)
    (hn : 0 < neighbours s x y) :
    visitSignificance p (x, y) s = (codeSignificance x y p s).bind fun _ t => .done () (markVisited x y t) :=
  if_pos (by simp [hs, hv, hn])

theorem visitSignificance_eq (hs : isSignificant s x y = false) (hv : isVisited s x y = false)
    (hn : 0 < neighbours s x y) :
    visitSignificance p (x, y) s =
      (codeSymbol (zcLabelOf s x y) (magBit s x y p) s).bind (significanceTail x y p) := by
  rw [visitSignificance_of_due hs hv hn, codeSignificance, Run.bind_assoc]
  rfl

theorem markVisited_cells (hx : x < s.w) :
    cellsAt (markVisited x y s) x y = ((cellsAt s x y).1 ||| 0b0100#4, (cellsAt s x y).2) := by
  refine Prod.ext ?_ rfl
  exact (setFlagCell_flagCell _ hx (by omega)).trans (if_pos ⟨rfl, rfl⟩)

/-- A visit of SIGPASS that codes is a significance decision, and sets VIS. -/
theorem visitSignificance_cells (hx : x < s.w) (hs : isSignificant s x y = false) (hv : isVisited s x y = false)
    (hn : 0 < neighbours s x y) (h : visitSignificance p (x, y) s = .done () t) :
    ∃ c, CodedAs (isDecoding s) p (cellsAt s x y) c ∧ cellsAt t x y = (c.1 ||| 0b0100#4, c.2) := by
  rw [visitSignificance_of_due hs hv hn] at h
  obtain ⟨_, u, hcode, hlast⟩ := Run.bind_eq_done.1 h
  cases hlast
  have hxu : x < u.w := ((codeSignificance_step hx).of_done hcode).frame.w ▸ hx
  exact ⟨cellsAt u x y, codeSignificance_cells hx hcode, markVisited_cells hxu⟩

/-- What SIGPASS does to a coefficient: nothing, or, where it was not significant and not visited and came to have a
significant neighbour, a significance decision. -/
theorem significancePass_at (hx : x < s.w) (hy : y < s.h) (h : significancePass p s = .done () t) :
    (cellsAt t x y = cellsAt s x y
        ∧ (isSignificant s x y = false → isVisited s x y = false → neighbours s x y = 0))
      ∨ isSignificant s x y = false ∧ isVisited s x y = false ∧ 0 < neighbours t x y
        ∧ ∃ c, CodedAs (isDecoding s) p (cellsAt s x y) c ∧ cellsAt t x y = (c.1 ||| 0b0100#4, c.2) := by
  obtain ⟨u, v, hvisit, hsu, huv, hvt, hbefore, hafter⟩ := scan_at (fun x y u => visitSignificance_step) hx hy h
  have hsig : isSignificant u x y = isSignificant s x y := congrArg (·.1.getLsbD sigBit) hbefore
  have hvis : isVisited u x y = isVisited s x y := congrArg (·.1.getLsbD visBit) hbefore
  rw [hafter, ← hbefore, ← hsig, ← hvis, ← hsu.isDecoding]
  by_cases hskip : isSignificant u x y = true ∨ isVisited u x y = true ∨ neighbours u x y = 0
  · rw [visitSignificance_skip hskip] at hvisit
    cases hvisit
    refine .inl ⟨rfl, fun hs hv => ?_⟩
    have hn : neighbours u x y = 0 := (hskip.resolve_left (by simp [hs])).resolve_left (by simp [hv])
    have := hsu.neighbours_le x y
    omega
  · obtain ⟨hs, hv, hn⟩ : isSignificant u x y = false ∧ isVisited u x y = false ∧ neighbours u x y ≠ 0 := by
      simpa [not_or] using hskip
    have hle : neighbours u x y ≤ neighbours t x y := (huv.trans hvt).neighbours_le x y
    exact .inr ⟨hs, hv, by omega, visitSignificance_cells (hsu.w ▸ hx) hs hv (by omega) hvisit⟩

end

/-- Settles O55: the visit in each mode, and `significancePass_at`. -/
theorem sigpassCodesInsignificantNeighbours : Obligations.SigpassCodesInsignificantNeighbours := by
  refine ⟨fun s p x y hs hv hn => ?visit, fun s p x y h => visitSignificance_skip h,
    fun s p hp hg hi hf => execSigpass_admitted hi hf hp hg, fun s t p hexec ha x y hx hy => ?pass⟩
  case visit =>
    intro k v last
    have heq : visitSignificance p (x, y) s = (codeSymbol k v s).bind last := visitSignificance_eq hs hv hn
    refine ⟨fun hm => ?_, fun hm => ?_, fun hm => ?_, fun hm => ?_⟩
    · rw [heq, codeSymbol_of_dec _ _ hm, Run.bind_done]
    · rw [heq, codeSymbol_of_rawdec _ _ hm, Run.bind_done]
    · rw [heq, codeSymbol_of_enc _ _ hm, Run.bind_assoc]
      rfl
    · rw [heq, codeSymbol_of_rawenc _ _ hm, Run.bind_assoc]
      rfl
  case pass =>
    obtain ⟨hp, -, -, w, hrun, rfl⟩ := sigpass_done hexec ha
    rcases significancePass_at hx hy hrun with ⟨hsame, hnone⟩ | ⟨hs, hv, hn, c, hcoded, hcells⟩
    case inl =>
      have hboth := Prod.mk.inj hsame
      refine ⟨fun _ => hboth, fun hs hv => ⟨congrArg (·.1.getLsbD refBit) hsame, fun hpos => ?_, fun _ => hboth,
        fun hvis => ?_⟩⟩
      · exact absurd (hnone hs hv) hpos.ne'
      · exact absurd ((hvis.symm.trans (congrArg (·.1.getLsbD visBit) hsame)).trans hv) (by simp)
    case inr =>
      have hflag : ∀ n, flagOf n w x y = (c.1.getLsbD n || (0b0100#4).getLsbD n) := fun n =>
        (congrArg (·.1.getLsbD n) hcells).trans (BitVec.getLsbD_or ..)
      have hcoef : ∀ n, (coefCell w x y).getLsbD n = c.2.getLsbD n := fun n => congrArg (·.2.getLsbD n) hcells
      have hvis : isVisited w x y = true := (hflag visBit).trans (by simp [visBit])
      have hsig : isSignificant w x y = c.1.getLsbD sigBit := (hflag sigBit).trans (by simp [sigBit])
      have hsgn : flagOf sgnBit w x y = c.1.getLsbD sgnBit := (hflag sgnBit).trans (by simp [sgnBit])
      have href : isRefined w x y = c.1.getLsbD refBit := (hflag refBit).trans (by simp [refBit])
      refine ⟨fun h => absurd h (by simp [hs, hv]), fun _ _ => ⟨href.trans hcoded.ref, fun _ => hvis,
        fun h => absurd (hvis.symm.trans h) (by simp), fun _ => ⟨hn, fun hd => ?encoded, fun hd h => ?decoded⟩⟩⟩
      case encoded =>
        rw [hd] at hcoded
        obtain ⟨hbit, hsign⟩ := hcoded.encoded hs
        exact ⟨hsig.trans hbit, fun h => hsgn.trans (hsign (hsig.symm.trans h))⟩
      case decoded =>
        rw [hd] at hcoded
        obtain ⟨hbit, hsign⟩ := hcoded.decoded hp hs (hsig.symm.trans h)
        exact ⟨(hcoef p).trans hbit, (hcoef 31).trans (hsign.trans hsgn.symm)⟩

end Sys2Proof.Machine

/-! ## CLNPASS, row by row (R165) -/

namespace Sys2Proof.Machine

/-- CLNPASS leads from the cells `a` of a coefficient to `b`, but for the VIS bit, which its end clears: those of a
coefficient that was significant or visited stay, any other coefficient takes a significance decision. -/
def CleanedAs (decoding : Bool) (p : Nat) (a b : BitVec 4 × Word) : Prop :=
  (a.1.getLsbD sigBit = true ∨ a.1.getLsbD visBit = true → b = a)
    ∧ (a.1.getLsbD sigBit = false → a.1.getLsbD visBit = false → CodedAs decoding p a b)

/-- The column that coefficient (x, y) stands in, as a pair of its stripe and x. -/
def InColumn (col : Nat × Nat) (x y : Nat) : Prop := (y / 4, x) = col

section

variable {s t : State} {p k x y j r : Nat}

theorem visitCleanup_of_due (hs : isSignificant s x y = false) (hv : isVisited s x y = false) :
    visitCleanup p x y s = codeSignificance x y p s := if_pos (by simp [hs, hv])

theorem visitCleanup_cleaned (hx : x < s.w) (h : visitCleanup p x y s = .done () t) :
    CleanedAs (isDecoding s) p (cellsAt s x y) (cellsAt t x y) := by
  refine ⟨fun hskip => ?_, fun hs hv => ?_⟩
  · rw [visitCleanup_skip hskip] at h
    cases h
    rfl
  · rw [visitCleanup_of_due hs hv] at h
    exact codeSignificance_cells hx h

theorem cleanRows_step (hx : x < s.w) :
    (cleanRows p k x j s).All (ScanStep (fun x' y' => x' = x ∧ y' ∈ stripeRows s.h k j) s) := by
  have step := forEach_step (visit := fun y => visitCleanup p x y) (S := fun y => At (x, y)) (xs := stripeRows s.h k j)
    (fun y _ u hu => visitCleanup_step (hu ▸ hx)) rfl
  refine Run.all_imp (fun t h => h.mono ?_) step
  rintro x' y' ⟨y, hy, hat⟩
  obtain ⟨rfl, rfl⟩ := Prod.mk.inj hat
  exact ⟨rfl, hy⟩

theorem cleanRows_at (hx : x < s.w) (hy : y ∈ stripeRows s.h k j) (h : cleanRows p k x j s = .done () t) :
    CleanedAs (isDecoding s) p (cellsAt s x y) (cellsAt t x y) := by
  obtain ⟨u, v, hvisit, hsu, -, -, hbefore, hafter⟩ := forEach_at (visit := fun y => visitCleanup p x y)
    (S := fun y => At (x, y)) (w := s.w) (fun y _ u hu => visitCleanup_step (hu ▸ hx)) (stripeRows_rising ..).nodup hy
    (fun _ _ hat => (Prod.mk.inj hat).2.symm) rfl hx h
  rw [hafter, ← hbefore, ← hsu.isDecoding]
  exact visitCleanup_cleaned (hsu.w ▸ hx) hvisit

/-! ## CLNPASS, columns in run-length mode (R165) -/

/-- The rows above row r of the run stay, row r becomes significant, and the rows below it are coded one by one. -/
theorem runTail_at (hx : x < s.w) (hfull : 4 * k + 3 < s.h) (hj : j < 4) (h : runTail p k x r s = .done () t) :
    (j < r → cellsAt t x (4 * k + j) = cellsAt s x (4 * k + j))
      ∧ (j = r → ∃ neg, cellsAt t x (4 * k + j) = signifiedCells (isDecoding s) p neg (cellsAt s x (4 * k + j))
          ∧ (isDecoding s = false → neg = isNegative s x (4 * k + j)))
      ∧ (r < j → CleanedAs (isDecoding s) p (cellsAt s x (4 * k + j)) (cellsAt t x (4 * k + j))) := by
  obtain ⟨_, u, hsign, hrows⟩ := Run.bind_eq_done.1 h
  have hsu := (signify_step hx).of_done hsign
  have hxu : x < u.w := hsu.frame.w ▸ hx
  have hut := (cleanRows_step hxu).of_done hrows
  have habove : j ≤ r → cellsAt t x (4 * k + j) = cellsAt u x (4 * k + j) := fun hjr =>
    hut.kept x _ hxu fun hin => by
      have := mem_stripeRows_iff.1 hin.2
      omega
  have hother : j ≠ r → cellsAt u x (4 * k + j) = cellsAt s x (4 * k + j) := fun hne =>
    hsu.kept x _ hx fun hat => by
      have := (Prod.mk.inj hat).2
      omega
  refine ⟨fun hlt => ?_, fun he => ?_, fun hlt => ?_⟩
  · exact (habove hlt.le).trans (hother hlt.ne)
  · subst he
    rw [habove le_rfl]
    exact signify_cells hx hsign
  · rw [← hother hlt.ne', ← hsu.frame.isDecoding]
    refine cleanRows_at hxu (mem_stripeRows_iff.2 ⟨by omega, by omega, ?_⟩) hrows
    rw [hsu.frame.h]
    omega

theorem runTail_step (hx : x < s.w) (hr : r < 4) : (runTail p k x r s).All (ScanStep (InColumn (k, x)) s) := by
  have row : ∀ y', 4 * k ≤ y' → y' < 4 * k + 4 → InColumn (k, x) x y' := fun y' hlo hhi =>
    Prod.ext (by show y' / 4 = k; omega) rfl
  have sign : (signify x (4 * k + r) p s).All (ScanStep (InColumn (k, x)) s) :=
    Run.all_imp (fun t h => h.mono fun x' y' hat => by
      obtain ⟨rfl, rfl⟩ := Prod.mk.inj hat
      exact row _ (by omega) (by omega)) (signify_step hx)
  refine Run.all_bind sign fun _ t ht => ht.then_all ?_
  refine Run.all_imp (fun u h => h.mono ?_) (cleanRows_step (ht.frame.w ▸ hx))
  rintro x' y' ⟨rfl, hy⟩
  obtain ⟨hlo, hhi, -⟩ := mem_stripeRows_iff.1 hy
  exact row y' (by omega) hhi

theorem row_lt_four (r1 r0 : Bool) : 2 * r1.toNat + r0.toNat < 4 := by
  cases r1 <;> cases r0 <;> decide

/-- A visit of CLNPASS changes the coefficients of its column alone. -/
theorem visitColumn_step (hx : x < s.w) : (visitColumn p (k, x) s).All (ScanStep (InColumn (k, x)) s) := by
  cases he : runEligible k x s
  case false =>
    rw [visitColumn_of_not_eligible he]
    refine Run.all_imp (fun t h => h.mono ?_) (cleanRows_step hx)
    rintro x' y' ⟨rfl, hy⟩
    have := mem_stripeRows_iff.1 hy
    exact Prod.ext (by show y' / 4 = k; omega) rfl
  case true =>
    rw [visitColumn_of_eligible he]
    refine Run.all_bind (codeLabel_step _ _ _ s) fun a t ht => ?_
    split
    · refine Run.all_bind (ht.then_all (codeLabel_step _ _ _ t)) fun r1 t1 ht1 => ?_
      refine Run.all_bind (ht1.then_all (codeLabel_step _ _ _ t1)) fun r0 t0 ht0 => ?_
      exact ht0.then_all (runTail_step (ht0.frame.w ▸ hx) (row_lt_four r1 r0))
    · exact ht

/-- Where a row of the run has bit P, `first` is the first such row. -/
theorem firstInRun_spec (h : anyInRun k x p s = true) :
    firstInRun k x p s < 4 ∧ magBit s x (4 * k + firstInRun k x p s) p = true
      ∧ ∀ j : Nat, j < firstInRun k x p s → magBit s x (4 * k + j) p = false := by
  have hex : ∃ j, j < 4 ∧ magBit s x (4 * k + j) p = true := by simpa [anyInRun] using h
  obtain ⟨hr, hbit⟩ := Nat.find_spec hex
  have hlt : ∀ j : Nat, j < Nat.find hex → magBit s x (4 * k + j) p = false := fun j hj => by
    simpa [hj.trans hr] using Nat.find_min hex hj
  rw [firstInRun_eq hr hbit hlt]
  exact ⟨hr, hbit, hlt⟩

/-- An eligible column: each of its coefficients takes a significance decision, coded in the run or alone. -/
theorem visitColumn_eligible_coded (hx : x < s.w) (he : runEligible k x s = true) (hj : j < 4)
    (h : visitColumn p (k, x) s = .done () t) :
    CodedAs (isDecoding s) p (cellsAt s x (4 * k + j)) (cellsAt t x (4 * k + j)) := by
  obtain ⟨hfull, hclean⟩ := runEligible_iff.1 he
  obtain ⟨hs, hv, -⟩ := hclean j hj
  rw [visitColumn_of_eligible he] at h
  obtain ⟨a, t2, ha, h⟩ := Run.bind_eq_done.1 h
  have hst2 := ((codeLabel_coding _ _ s).of_done ha).sameScan
  cases a
  case false =>
    cases h
    refine .inl ⟨hst2.cellsAt _ _, fun hd => ?_⟩
    have hany : anyInRun k x p s = false := (codeLabel_value hd ha).symm
    exact (by simpa [anyInRun] using hany : ∀ j < 4, magBit s x (4 * k + j) p = false) j hj
  case true =>
    obtain ⟨r1, t1, hr1, h⟩ := Run.bind_eq_done.1 h
    obtain ⟨r0, t0, hr0, h⟩ := Run.bind_eq_done.1 h
    have ht2t1 := ((codeLabel_coding _ _ t2).of_done hr1).sameScan
    have ht1t0 := ((codeLabel_coding _ _ t1).of_done hr0).sameScan
    have hcells : cellsAt t0 x (4 * k + j) = cellsAt s x (4 * k + j) :=
      (ht1t0.cellsAt _ _).trans ((ht2t1.cellsAt _ _).trans (hst2.cellsAt _ _))
    have hneg0 : isNegative t0 x (4 * k + j) = isNegative s x (4 * k + j) := congrArg (·.2.getLsbD 31) hcells
    have hd1 : isDecoding t1 = isDecoding s := ht2t1.isDecoding.trans hst2.isDecoding
    have hd0 : isDecoding t0 = isDecoding s := ht1t0.isDecoding.trans hd1
    have hw0 : t0.w = s.w := ht1t0.w.trans (ht2t1.w.trans hst2.w)
    have hh0 : t0.h = s.h := ht1t0.h.trans (ht2t1.h.trans hst2.h)
    have hrow : isDecoding s = false → 2 * r1.toNat + r0.toNat = firstInRun k x p s
        ∧ magBit s x (4 * k + firstInRun k x p s) p = true
        ∧ ∀ j : Nat, j < firstInRun k x p s → magBit s x (4 * k + j) p = false := fun hd => by
      obtain ⟨hlt, hspec⟩ := firstInRun_spec (codeLabel_value hd ha).symm
      obtain ⟨hb1, hb0, hsum⟩ := row_bits _ hlt
      refine ⟨?_, hspec⟩
      rw [codeLabel_value (hst2.isDecoding.trans hd) hr1, codeLabel_value (hd1.trans hd) hr0, hb1, hb0, hsum]
    obtain ⟨habove, hrun, hbelow⟩ := runTail_at (hw0 ▸ hx) (hh0 ▸ hfull) hj h
    rw [hcells] at habove
    rw [hcells, hd0] at hrun hbelow
    rcases Nat.lt_trichotomy j (2 * r1.toNat + r0.toNat) with hlt | he | hlt
    · refine .inl ⟨habove hlt, fun hd => ?_⟩
      obtain ⟨hfirst, -, hbits⟩ := hrow hd
      exact hbits j (hfirst ▸ hlt)
    · obtain ⟨neg, hsigned, hneg⟩ := hrun he
      refine .inr ⟨neg, hsigned, fun hd => ?_⟩
      obtain ⟨hfirst, hbit, -⟩ := hrow hd
      exact ⟨by rw [← hfirst, ← he] at hbit; exact hbit, (hneg hd).trans hneg0⟩
    · exact (hbelow hlt).2 hs hv

/-- What the visit to its column does to a coefficient. -/
theorem visitColumn_cleaned (hx : x < s.w) (hy : y ∈ stripeRows s.h k 0) (h : visitColumn p (k, x) s = .done () t) :
    CleanedAs (isDecoding s) p (cellsAt s x y) (cellsAt t x y) := by
  cases he : runEligible k x s
  case false =>
    rw [visitColumn_of_not_eligible he] at h
    exact cleanRows_at hx hy h
  case true =>
    obtain ⟨hlo, hhi, -⟩ := mem_stripeRows_iff.1 hy
    obtain ⟨j, rfl⟩ := Nat.exists_eq_add_of_le hlo
    obtain ⟨hs, hv, -⟩ := (runEligible_iff.1 he).2 j (by omega)
    refine ⟨fun hskip => absurd hskip ?_, fun _ _ => visitColumn_eligible_coded hx he (by omega) h⟩
    exact not_or.2 ⟨Bool.eq_false_iff.1 hs, Bool.eq_false_iff.1 hv⟩

/-! ## CLNPASS (R165, R166) -/

theorem scanColumns_step : (forEach (visitColumn p) (scanColumns s.w s.h) s).All (ScanFrame s) :=
  Run.all_imp (fun _ h => h.frame) (forEach_step (S := InColumn)
    (fun _ hcol _ hu => visitColumn_step (hu ▸ (mem_scanColumns hcol).2)) rfl)

/-- What the columns of CLNPASS do to a coefficient. -/
theorem scanColumns_at (hx : x < s.w) (hy : y < s.h)
    (h : forEach (visitColumn p) (scanColumns s.w s.h) s = .done () t) :
    CleanedAs (isDecoding s) p (cellsAt s x y) (cellsAt t x y) := by
  have hmem : (y / 4, x) ∈ scanColumns s.w s.h := mem_scanColumns_iff.2 ⟨by unfold stripeCount; omega, hx⟩
  obtain ⟨u, v, hvisit, hsu, -, -, hbefore, hafter⟩ := forEach_at (S := InColumn)
    (fun _ hcol _ hu => visitColumn_step (hu ▸ (mem_scanColumns hcol).2)) (scanColumns_nodup ..) hmem
    (fun _ _ hin => hin.symm) rfl hx h
  rw [hafter, ← hbefore, ← hsu.isDecoding]
  refine visitColumn_cleaned (hsu.w ▸ hx) (mem_stripeRows_iff.2 ⟨by omega, by omega, ?_⟩) hvisit
  rwa [hsu.h]

/-- The end of CLNPASS clears the VIS bits and leaves the others (R166). -/
theorem clearVisited_flagCell (hwf : s.fp.wf = true) (xf yf : Nat) :
    flagCell (clearVisited s) xf yf = flagCell s xf yf &&& 0b1011#4 := by
  rw [clearVisited_eq]
  exact Cells.read_masked _ hwf _

theorem finish_cleanupPass : finish (cleanupPass p s) (fun _ t => t.answer Response.ok) =
    finish (forEach (visitColumn p) (scanColumns s.w s.h) s) fun _ t => (clearVisited t).answer Response.ok := by
  unfold cleanupPass
  cases forEach (visitColumn p) (scanColumns s.w s.h) s <;> rfl

end

/-- Settles O56: the visit in each mode, the columns, `scanColumns_at`, and the clearing of the VIS bits. -/
theorem clnpassCodesTheRest : Obligations.ClnpassCodesTheRest := by
  refine ⟨fun s p x y hs hv => ⟨fun hm => ?dec, fun hm => ?enc⟩, fun s p x y h => visitCleanup_skip h,
    fun s p k x he => ?rows, fun s p hp hg hm => ?command, fun s t p hwf hexec ha => ?pass⟩
  case dec =>
    rw [visitCleanup_of_due hs hv, codeSignificance, codeSymbol_of_dec _ _ hm, Run.bind_done]
  case enc =>
    rw [visitCleanup_of_due hs hv, codeSignificance, codeSymbol_of_enc _ _ hm, Run.bind_assoc]
    rfl
  case rows =>
    rw [visitColumn_of_not_eligible he, cleanRows, stripeRows_eq]
    rfl
  case command => rw [execClnpass_admitted hm hp hg, finish_cleanupPass]
  case pass =>
    obtain ⟨hp, hm, u, hrun, rfl⟩ := clnpass_done hexec ha
    have hframe := scanColumns_step.of_done hrun
    have hflag : ∀ xf yf n, (flagCell ((clearVisited u).answer Response.ok) xf yf).getLsbD n =
        ((flagCell u xf yf).getLsbD n && (0b1011#4).getLsbD n) := fun xf yf n =>
      (congrArg (·.getLsbD n) (clearVisited_flagCell (hframe.wf hwf) xf yf)).trans (BitVec.getLsbD_and ..)
    refine ⟨fun xf yf => (hflag xf yf visBit).trans (by simp [visBit]), fun x y hx hy => ?_⟩
    obtain ⟨hkept, hcoded⟩ := scanColumns_at hx hy hrun
    have hsig : isSignificant ((clearVisited u).answer Response.ok) x y = isSignificant u x y :=
      (hflag _ _ sigBit).trans (by simp [sigBit, isSignificant, flagOf])
    have hsgn : flagOf sgnBit ((clearVisited u).answer Response.ok) x y = flagOf sgnBit u x y :=
      (hflag _ _ sgnBit).trans (by simp [sgnBit, flagOf])
    have href : isRefined ((clearVisited u).answer Response.ok) x y = isRefined u x y :=
      (hflag _ _ refBit).trans (by simp [refBit, isRefined, flagOf])
    rw [hsig, hsgn, href]
    refine ⟨?ref, fun h => ?kept, fun hs hv => ⟨fun he => ?enc, fun hd h => ?dec, fun _ h => (hcoded hs hv).kept h⟩⟩
    case ref =>
      by_cases hskip : isSignificant s x y = true ∨ isVisited s x y = true
      · exact congrArg (·.1.getLsbD refBit) (hkept hskip)
      · obtain ⟨hs, hv⟩ := not_or.1 hskip
        exact (hcoded (Bool.eq_false_iff.2 hs) (Bool.eq_false_iff.2 hv)).ref
    case kept =>
      have hsame := hkept h
      exact ⟨congrArg (·.1.getLsbD sigBit) hsame, congrArg (·.1.getLsbD sgnBit) hsame, congrArg Prod.snd hsame⟩
    case enc =>
      rw [isDecoding_of_encoding (.inl he)] at hcoded
      exact (hcoded hs hv).encoded hs
    case dec =>
      rw [isDecoding_of_decoding (.inl hd)] at hcoded
      exact (hcoded hs hv).decoded hp hs h

end Sys2Proof.Machine

/-! ## What the passes leave in CP in decode direction (R152) -/

namespace Sys2Proof.Machine

/-- From `c` to `d` bit p of the magnitude can become 1, and no other bit of the magnitude changes (R152). -/
def MagnitudeDecoded (p : Nat) (c d : Word) : Prop :=
  (∀ b : Nat, b < 31 → b ≠ p → d.getLsbD b = c.getLsbD b) ∧ (c.getLsbD p = true → d.getLsbD p = true)

theorem MagnitudeDecoded.refl (p : Nat) (c : Word) : MagnitudeDecoded p c c := ⟨fun _ _ _ => rfl, fun h => h⟩

section

variable {s t : State} {p x y : Nat}

theorem magnitudeDecoded_magOred (b : Bool) (c : Word) : MagnitudeDecoded p c (magOred p b c) := by
  refine ⟨fun n hn hne => ?_, fun h => ?_⟩
  · rw [magOred_getLsbD b c (by omega)]
    simp [hne]
  · rw [magOred, BitVec.getLsbD_or, h, Bool.true_or]

theorem CodedAs.magnitude {d : Bool} {a b : BitVec 4 × Word} (h : CodedAs d p a b) (hp : p ≤ 29) :
    MagnitudeDecoded p a.2 b.2 := by
  rcases h with ⟨rfl, -⟩ | ⟨neg, rfl, -⟩
  · exact .refl p _
  · cases d
    case false => exact .refl p _
    case true =>
      obtain ⟨hother, hset⟩ := magnitudeDecoded_magOred (p := p) true a.2
      exact ⟨fun b hb hne => (signWritten_getLsbD neg _ hb).trans (hother b hb hne),
        fun h => (signWritten_getLsbD neg _ (by omega)).trans (hset h)⟩

theorem CleanedAs.magnitude {d : Bool} {a b : BitVec 4 × Word} (h : CleanedAs d p a b) (hp : p ≤ 29) :
    MagnitudeDecoded p a.2 b.2 := by
  obtain ⟨hkept, hcoded⟩ := h
  by_cases hskip : a.1.getLsbD sigBit = true ∨ a.1.getLsbD visBit = true
  · rw [hkept hskip]
    exact .refl p _
  · obtain ⟨hs, hv⟩ := not_or.1 hskip
    exact (hcoded (Bool.eq_false_iff.2 hs) (Bool.eq_false_iff.2 hv)).magnitude hp

theorem visitRefinement_magnitude (hd : isDecoding s = true) (h : visitRefinement p (x, y) s = .done () t) :
    MagnitudeDecoded p (coefCell s x y) (coefCell t x y) := by
  by_cases hskip : isSignificant s x y = false ∨ isVisited s x y = true
  · rw [visitRefinement_skip hskip] at h
    cases h
    exact .refl p _
  · obtain ⟨hs, hv⟩ : isSignificant s x y = true ∧ isVisited s x y = false := by simpa [not_or] using hskip
    obtain ⟨b, u, hcode, -⟩ := Run.bind_eq_done.1 (visitRefinement_of_due hs hv ▸ h)
    rw [visitRefinement_decoded hs hv hd hcode] at h
    cases h
    rw [(markRefined_orMagBit_cells ((codeSymbol_coding _ _ s).of_done hcode).sameScan).1, ← magOred_eq]
    exact magnitudeDecoded_magOred b _

theorem significancePass_magnitude (hp : p ≤ 29) (hx : x < s.w) (hy : y < s.h)
    (h : significancePass p s = .done () t) : MagnitudeDecoded p (coefCell s x y) (coefCell t x y) := by
  rcases significancePass_at hx hy h with ⟨hsame, -⟩ | ⟨-, -, -, c, hcoded, hcells⟩
  · rw [show coefCell t x y = coefCell s x y from congrArg Prod.snd hsame]
    exact .refl p _
  · rw [show coefCell t x y = c.2 from congrArg Prod.snd hcells]
    exact hcoded.magnitude hp

theorem refinementPass_magnitude (hd : isDecoding s = true) (hx : x < s.w) (hy : y < s.h)
    (h : refinementPass p s = .done () t) : MagnitudeDecoded p (coefCell s x y) (coefCell t x y) := by
  obtain ⟨u, v, hvisit, hsu, -, -, hbefore, hafter⟩ := scan_at (fun x y u => visitRefinement_step) hx hy h
  rw [← show coefCell u x y = coefCell s x y from congrArg Prod.snd hbefore,
    show coefCell t x y = coefCell v x y from congrArg Prod.snd hafter]
  exact visitRefinement_magnitude (hsu.isDecoding.trans hd) hvisit

theorem cleanupPass_magnitude (hp : p ≤ 29) (hx : x < s.w) (hy : y < s.h) (h : cleanupPass p s = .done () t) :
    MagnitudeDecoded p (coefCell s x y) (coefCell t x y) := by
  obtain ⟨_, u, hu, hclear⟩ := Run.bind_eq_done.1 h
  cases hclear
  exact (scanColumns_at hx hy hu).magnitude hp

end

/-- The cells of CP outside the code-block are those of `s`. -/
def CpOutsideKept (s t : State) : Prop := ∀ n : Nat, s.w * s.h ≤ n → t.cp.read n = s.cp.read n

theorem CpOutsideKept.setCoefCell {s t : State} {x y : Nat} (h : CpOutsideKept s t) (hw : t.w = s.w) (hx : x < s.w)
    (hy : y < s.h) (v : Word) : CpOutsideKept s (setCoefCell t x y v) := fun n hn => by
  have hlt := coefIndex_lt hx hy
  rw [setCoefCell_read, coefIndex, hw, if_neg (by omega), h n hn]

/-- A visit writes cells of CP inside the code-block alone (R152). -/
theorem passCpOutside_keeps (s : State) (hi : s.mode ≠ .idle) (hf : s.mode ≠ .fault) :
    PassKeeps s.w s.h (DuringPass (CpOutsideKept s) s) where
  size _ h := h.2.mode.2
  label k v t ha h := by
    refine Run.all_and (Run.all_imp (fun u g => ?_) (codeLabel_coding k v t))
      ((passFrame_keeps s hi hf).label k v t ha h.2)
    rw [CpOutsideKept, g.sameScan.cp]
    exact h.1
  raw v t ha h := by
    refine Run.all_and (Run.all_imp (fun u g => ?_) (codeRaw_coding v t)) ((passFrame_keeps s hi hf).raw v t ha h.2)
    rw [CpOutsideKept, g.sameScan.cp]
    exact h.1
  significant _ _ _ _ _ _ h := ⟨h.1, h.2.setFp _⟩
  visited _ _ _ _ _ h := ⟨h.1, h.2.setFp _⟩
  refined _ _ _ _ _ h := ⟨h.1, h.2.setFp _⟩
  magnitude _ _ _ _ _ hx hy hd h := ⟨h.1.setCoefCell h.2.mode.2.1 hx hy _, h.2.setCp _ hd⟩
  sign _ _ _ _ hx hy hd h := ⟨h.1.setCoefCell h.2.mode.2.1 hx hy _, h.2.setCp _ hd⟩

/-- What O51 asks of a pass: it comes to its end, and in CP it sets bit p of magnitudes of the code-block alone. -/
def PassDecodes (p : Nat) (s : State) (r : Run Unit) : Prop :=
  ∃ t, r = .done () t ∧ PassFrame s t ∧ CpOutsideKept s t
    ∧ ∀ x y, x < s.w → y < s.h → MagnitudeDecoded p (coefCell s x y) (coefCell t x y)

theorem passDecodes_of_ends {p : Nat} {s : State} {r : Run Unit} (hends : r.Ends (PassFrame s) fun _ => False)
    (hout : r.All (DuringPass (CpOutsideKept s) s))
    (hmag : ∀ t x y, r = .done () t → x < s.w → y < s.h → MagnitudeDecoded p (coefCell s x y) (coefCell t x y)) :
    PassDecodes p s r := by
  cases r with
  | done v t => exact ⟨t, rfl, hends, hout.1, fun x y => hmag t x y rfl⟩
  | overflow t => exact hends.elim

section

variable {s : State} {p : Nat}

theorem significancePass_decodes (hm : s.mode = .dec ∨ s.mode = .rawdec) (hp : p ≤ 29) :
    PassDecodes p s (significancePass p s) := by
  have hkeeps := passCpOutside_keeps s (by rcases hm with h | h <;> simp [h]) (by rcases hm with h | h <;> simp [h])
  exact passDecodes_of_ends ((passDecoding_ends s hm).significancePass p s (.refl s))
    (hkeeps.significancePass p s ⟨fun _ _ => rfl, .refl s⟩) fun t x y h hx hy => significancePass_magnitude hp hx hy h

theorem refinementPass_decodes (hm : s.mode = .dec ∨ s.mode = .rawdec) : PassDecodes p s (refinementPass p s) := by
  have hkeeps := passCpOutside_keeps s (by rcases hm with h | h <;> simp [h]) (by rcases hm with h | h <;> simp [h])
  exact passDecodes_of_ends ((passDecoding_ends s hm).refinementPass p s (.refl s))
    (hkeeps.refinementPass p s ⟨fun _ _ => rfl, .refl s⟩)
    fun t x y h hx hy => refinementPass_magnitude (isDecoding_of_decoding hm) hx hy h

theorem cleanupPass_decodes (hm : s.mode = .dec) (hp : p ≤ 29) : PassDecodes p s (cleanupPass p s) := by
  have hkeeps := passCpOutside_keeps s (by simp [hm]) (by simp [hm])
  exact passDecodes_of_ends
    ((passDecoding_ends s (.inl hm)).cleanupPass (fun _ h => isArithmetic_of_passFrame (.inl hm) h)
      (fun _ h => h.setFp _) p s (.refl s))
    (hkeeps.cleanup (.inl hm) (fun _ h => h) p fun _ _ => rfl) fun t x y h hx hy => cleanupPass_magnitude hp hx hy h

/-- A cell of CP inside the code-block is that of a coefficient (R53). -/
theorem exists_coefIndex {w h n : Nat} (hn : n < w * h) : ∃ x y, x < w ∧ y < h ∧ n = y * w + x := by
  have hw : 0 < w := Nat.pos_of_mul_pos_right (Nat.zero_lt_of_lt hn)
  exact ⟨n % w, n / w, Nat.mod_lt n hw, Nat.div_lt_of_lt_mul hn, by rw [Nat.mul_comm]; exact (Nat.div_add_mod n w).symm⟩

/-- The cells of CP after a decoding pass, by their addresses. -/
theorem PassDecodes.cells {r : Run Unit} (h : PassDecodes p s r) : ∃ t, r = .done () t ∧ PassFrame s t
    ∧ (∀ n, MagnitudeDecoded p (s.cp.read n) (t.cp.read n)) ∧ CpOutsideKept s t := by
  obtain ⟨t, hr, hframe, hout, hmag⟩ := h
  refine ⟨t, hr, hframe, fun n => ?_, hout⟩
  by_cases hn : n < s.w * s.h
  · obtain ⟨x, y, hx, hy, rfl⟩ := exists_coefIndex hn
    have := hmag x y hx hy
    rwa [coefCell, coefCell, coefIndex, coefIndex, hframe.mode.2.1] at this
  · rw [hout n (by omega)]
    exact .refl p _

/-! ## The frame of a pass, mode by mode -/

variable {t : State}

theorem PassFrame.answer_dec (h : PassFrame s t) (hm : s.mode = .dec) : t.answer Response.ok = { s with
    a := t.a, c := t.c, ct := t.ct, bp := t.bp, eoscnt := t.eoscnt, cx := t.cx, fp := t.fp, cp := t.cp
    response := some ⟨0, 0⟩ } := by
  have hframe := h.1
  simp only [CoderFrame, hm] at hframe
  exact congrArg (fun u : State => { u with fp := t.fp, cp := t.cp, response := some ⟨0, 0⟩ }) hframe

theorem PassFrame.answer_rawdec (h : PassFrame s t) (hm : s.mode = .rawdec) : t.answer Response.ok = { s with
    rb := t.rb, rct := t.rct, bp := t.bp, fp := t.fp, cp := t.cp, response := some ⟨0, 0⟩ } := by
  have hframe := h.1
  simp only [CoderFrame, hm] at hframe
  exact congrArg (fun u : State => { u with fp := t.fp, cp := t.cp, response := some ⟨0, 0⟩ }) hframe

theorem PassFrame.answer_enc (h : PassFrame s t) (hm : s.mode = .enc) : t.answer Response.ok = { s with
    a := t.a, c := t.c, ct := t.ct, bp := t.bp, cx := t.cx, cb := t.cb, fp := t.fp, response := some ⟨0, 0⟩ } := by
  have hframe := h.1
  simp only [CoderFrame, hm] at hframe
  have hanswer := congrArg (fun u : State => { u with fp := t.fp, cp := t.cp, response := some ⟨0, 0⟩ }) hframe
  exact hanswer.trans (congrArg (fun m => { s with
    a := t.a, c := t.c, ct := t.ct, bp := t.bp, cx := t.cx, cb := t.cb, fp := t.fp, cp := m
    response := some ⟨0, 0⟩ }) (h.2 (.inl hm)))

theorem PassFrame.answer_rawenc (h : PassFrame s t) (hm : s.mode = .rawenc) : t.answer Response.ok = { s with
    rb := t.rb, rct := t.rct, lastff := t.lastff, bp := t.bp, cb := t.cb, fp := t.fp
    response := some ⟨0, 0⟩ } := by
  have hframe := h.1
  simp only [CoderFrame, hm] at hframe
  have hanswer := congrArg (fun u : State => { u with fp := t.fp, cp := t.cp, response := some ⟨0, 0⟩ }) hframe
  exact hanswer.trans (congrArg (fun m => { s with
    rb := t.rb, rct := t.rct, lastff := t.lastff, bp := t.bp, cb := t.cb, fp := t.fp, cp := m
    response := some ⟨0, 0⟩ }) (h.2 (.inr hm)))

end

/-- A pass command that runs to its end. -/
theorem exec_of_done {i : Instr} {s t : State} {r : Run Unit}
    (h : exec i s = .next (finish r fun _ t => t.answer Response.ok)) (hr : r = .done () t) :
    exec i s = .next (t.answer Response.ok) := by
  rw [h, hr, finish_done]

/-- Settles O51: each pass decodes (`PassDecodes`), and its frame is that of its mode. -/
theorem decodingPassesComplete : Obligations.DecodingPassesComplete := by
  intro s p i hp hg hcase
  have hm : s.mode = .dec ∨ s.mode = .rawdec := hcase.imp And.left And.left
  have hi : s.mode ≠ .idle := by rcases hm with h | h <;> simp [h]
  have hf : s.mode ≠ .fault := by rcases hm with h | h <;> simp [h]
  have hpass : ∃ r, exec i s = .next (finish r fun _ t => t.answer Response.ok) ∧ PassDecodes p s r := by
    have hsig := And.intro (execSigpass_admitted hi hf hp hg) (significancePass_decodes hm hp)
    have href := And.intro (execRefpass_admitted hi hf hp hg) (refinementPass_decodes (p := p) hm)
    rcases hcase with ⟨hdec, rfl | rfl | rfl⟩ | ⟨-, rfl | rfl⟩
    · exact ⟨_, hsig⟩
    · exact ⟨_, href⟩
    · exact ⟨_, execClnpass_admitted (.inl hdec) hp hg, cleanupPass_decodes hdec hp⟩
    · exact ⟨_, hsig⟩
    · exact ⟨_, href⟩
  obtain ⟨r, hexec, hdecodes⟩ := hpass
  obtain ⟨t, hr, hframe, hmag, hout⟩ := hdecodes.cells
  exact ⟨_, exec_of_done hexec hr, hframe.answer_dec, hframe.answer_rawdec, fun n => (hmag n).1, fun n => (hmag n).2,
    hout⟩

end Sys2Proof.Machine

/-! ## Room for the decisions of a pass in encode direction (R170) -/

namespace Sys2Proof.Machine

/-- A property of the states of a pass in encode direction that counts down: with `P (n + 1)` there is room for one more
decision, after which `P n` holds. The writes of FP keep it. -/
structure PassBudget (w h : Nat) (P : Nat → State → Prop) : Prop where
  size : ∀ n s, P n s → s.w = w ∧ s.h = h
  encoding : ∀ n s, P n s → isDecoding s = false
  weaken : ∀ n s, P (n + 1) s → P n s
  label : ∀ k v n s, isArithmetic s = true → P (n + 1) s → (codeLabel k v s).Ends (P n) fun _ => False
  raw : ∀ v n s, isArithmetic s = false → P (n + 1) s → (codeRaw v s).Ends (P n) fun _ => False
  flags : ∀ n s f, P n s → P n (s.setFp f)

/-- Visits that each use up their cost, one after the other, use up the sum. -/
theorem forEach_budget {α : Type} {P : Nat → State → Prop} {visit : α → State → Run Unit} {cost : α → Nat} {xs : List α}
    (h : ∀ z ∈ xs, ∀ n s, P (n + cost z) s → (visit z s).Ends (P n) fun _ => False) {n : Nat} {s : State}
    (hs : P (n + (xs.map cost).sum) s) : (forEach visit xs s).Ends (P n) fun _ => False := by
  induction xs generalizing s with
  | nil => exact hs
  | cons z xs ih =>
    rw [List.map_cons, List.sum_cons, Nat.add_comm (cost z), ← Nat.add_assoc] at hs
    exact Run.ends_bind (h z (List.mem_cons_self ..) _ s hs) fun _ t ht =>
      ih (fun y hy => h y (List.mem_cons_of_mem _ hy)) ht

section

variable {w h : Nat} {P : Nat → State → Prop} {n p x y k : Nat} {s : State} (c : PassBudget w h P)
include c

theorem PassBudget.weaken_le {m : Nat} (hmn : m ≤ n) (hs : P n s) : P m s := by
  induction n, hmn using Nat.le_induction with
  | base => exact hs
  | succ n _ ih => exact ih (c.weaken n s hs)

theorem PassBudget.symbol (l : Label) (v : Bool) (hs : P (n + 1) s) :
    (codeSymbol l v s).Ends (P n) fun _ => False := by
  unfold codeSymbol
  split
  case isTrue ha => exact c.label l v n s ha hs
  case isFalse ha => exact c.raw v n s (Bool.eq_false_iff.2 ha) hs

theorem PassBudget.codeSign (hs : P (n + 1) s) : (codeSign x y s).Ends (P n) fun _ => False := by
  unfold Machine.codeSign
  split
  case isTrue ha => exact Run.ends_bind (c.label _ _ n s ha hs) fun _ _ ht => ht
  case isFalse ha => exact c.raw _ n s (Bool.eq_false_iff.2 ha) hs

theorem PassBudget.signify (hs : P (n + 1) s) : (signify x y p s).Ends (P n) fun _ => False := by
  rw [signify_eq]
  refine Run.ends_bind (c.codeSign hs) fun neg t ht => ?_
  rw [signified, if_neg (by simp [c.encoding n t ht])]
  exact c.flags n t _ ht

/-- A significance decision, and the sign where it is 1. -/
theorem PassBudget.codeSignificance (hs : P (n + 2) s) : (codeSignificance x y p s).Ends (P n) fun _ => False := by
  refine Run.ends_bind (c.symbol _ _ hs) fun b t ht => ?_
  split
  · exact c.signify ht
  · exact c.weaken n t ht

theorem PassBudget.visitSignificance (hs : P (n + 2) s) : (visitSignificance p (x, y) s).Ends (P n) fun _ => False := by
  unfold Machine.visitSignificance
  split
  · exact Run.ends_bind (c.codeSignificance hs) fun _ t ht => c.flags n t _ ht
  · exact c.weaken_le (Nat.le_add_right n 2) hs

theorem PassBudget.visitRefinement (hs : P (n + 1) s) : (visitRefinement p (x, y) s).Ends (P n) fun _ => False := by
  unfold Machine.visitRefinement
  split
  · refine Run.ends_bind (c.symbol _ _ hs) fun b t ht => ?_
    rw [if_neg (by simp [c.encoding n t ht])]
    exact c.flags n t _ ht
  · exact c.weaken n s hs

theorem PassBudget.visitCleanup (hs : P (n + 2) s) : (visitCleanup p x y s).Ends (P n) fun _ => False := by
  unfold Machine.visitCleanup
  split
  · exact c.codeSignificance hs
  · exact c.weaken_le (Nat.le_add_right n 2) hs

theorem PassBudget.cleanRows {j : Nat} (hs : P (n + 2 * (stripeRows s.h k j).length) s) :
    (cleanRows p k x j s).Ends (P n) fun _ => False := by
  unfold Machine.cleanRows
  refine forEach_budget (P := P) (cost := fun _ => 2) (fun y _ m t ht => c.visitCleanup ht) ?_
  rwa [List.map_const', List.sum_replicate_nat, Nat.mul_comm]

/-- The most that a column takes: two decisions for each row, and three for the run-length mode (R170). -/
theorem PassBudget.visitColumn (arithmetic : ∀ n s, P n s → isArithmetic s = true) {col : Nat × Nat}
    (hs : P (n + (3 + 2 * (stripeRows h col.1 0).length)) s) : (visitColumn p col s).Ends (P n) fun _ => False := by
  obtain ⟨k, x⟩ := col
  have hh : s.h = h := (c.size _ s hs).2
  have coded : ∀ l v m t, P (m + 1) t → (codeLabel l v t).Ends (P m) fun _ => False := fun l v m t ht =>
    c.label l v m t (arithmetic _ t ht) ht
  cases he : runEligible k x s
  case false =>
    rw [visitColumn_of_not_eligible he]
    exact c.cleanRows (c.weaken_le (Nat.add_le_add_left (hh ▸ Nat.le_add_left _ 3) n) hs)
  case true =>
    have hfull := (runEligible_iff.1 he).1
    have hlen : ∀ j, (stripeRows h k j).length = 4 - j := fun j => by
      rw [stripeRows_eq, List.length_range']
      omega
    rw [hlen] at hs
    rw [visitColumn_of_eligible he]
    refine Run.ends_bind (coded _ _ (n + 10) s hs) fun a t ht => ?_
    split
    case isFalse => exact c.weaken_le (Nat.le_add_right n 10) ht
    case isTrue =>
      refine Run.ends_bind (coded _ _ (n + 9) t ht) fun r1 t1 ht1 => ?_
      refine Run.ends_bind (coded _ _ (n + 8) t1 ht1) fun r0 t0 ht0 => ?_
      refine Run.ends_bind (c.signify (n := n + 7) ht0) fun _ u hu => c.cleanRows (c.weaken_le ?_ hu)
      rw [(c.size _ u hu).2, hlen]
      omega

/-! ## The number of decisions of a pass (R170) -/

omit c in
theorem scanOrder_length (w h : Nat) : (scanOrder w h).length = w * h := by
  have hset : (scanOrder w h).toFinset = Finset.range w ×ˢ Finset.range h := by
    ext ⟨x, y⟩
    simp [mem_scanOrder_iff]
  rw [← List.toFinset_card_of_nodup (scanOrder_nodup w h), hset, Finset.card_product, Finset.card_range,
    Finset.card_range]

omit c in
theorem scanColumns_length (w h : Nat) : (scanColumns w h).length = stripeCount h * w := by
  simp [scanColumns, List.length_flatMap]

omit c in
/-- Two decisions for each coefficient, and three for each column. -/
theorem scanColumns_cost (w h : Nat) :
    ((scanColumns w h).map fun col => 3 + 2 * (stripeRows h col.1 0).length).sum =
      2 * w * h + 3 * w * ((h + 3) / 4) := by
  have hrows : ((scanColumns w h).map fun col => (stripeRows h col.1 0).length).sum = w * h := by
    rw [← scanOrder_length, scanOrder, List.length_flatMap]
    simp
  rw [List.sum_map_add, List.sum_map_mul_left, hrows, List.map_const', List.sum_replicate_nat, scanColumns_length,
    stripeCount]
  ring

theorem PassBudget.significancePass (hs : P (n + 2 * w * h) s) :
    (significancePass p s).Ends (P n) fun _ => False := by
  obtain ⟨rfl, rfl⟩ := c.size _ s hs
  unfold Machine.significancePass
  refine forEach_budget (P := P) (cost := fun _ => 2) (fun xy _ m t ht => c.visitSignificance ht) ?_
  rwa [List.map_const', List.sum_replicate_nat, scanOrder_length, Nat.mul_comm, ← Nat.mul_assoc]

theorem PassBudget.refinementPass (hs : P (n + w * h) s) : (refinementPass p s).Ends (P n) fun _ => False := by
  obtain ⟨rfl, rfl⟩ := c.size _ s hs
  unfold Machine.refinementPass
  refine forEach_budget (P := P) (cost := fun _ => 1) (fun xy _ m t ht => c.visitRefinement ht) ?_
  rwa [List.map_const', List.sum_replicate_nat, scanOrder_length, Nat.mul_one]

theorem PassBudget.cleanupPass (arithmetic : ∀ n s, P n s → isArithmetic s = true)
    (hs : P (n + (2 * w * h + 3 * w * ((h + 3) / 4))) s) : (cleanupPass p s).Ends (P n) fun _ => False := by
  obtain ⟨rfl, rfl⟩ := c.size _ s hs
  rw [← scanColumns_cost] at hs
  have column : ∀ col ∈ scanColumns s.w s.h, ∀ m t, P (m + (3 + 2 * (stripeRows s.h col.1 0).length)) t →
      (Machine.visitColumn p col t).Ends (P m) fun _ => False := fun col _ m t ht => c.visitColumn arithmetic ht
  refine Run.ends_bind (forEach_budget column ?_) fun _ t ht => c.flags n t _ ht
  exact hs

end

/-! ## Room in the window -/

/-- From `s` to `t` the bytes of CB from the old BP to the new one alone can differ. -/
def BytesStored (s t : State) : Prop :=
  s.bp ≤ t.bp ∧ ∀ a : Nat, (a : Int) < s.bp ∨ t.bp < a → t.cb.read a = s.cb.read a

theorem BytesStored.refl (s : State) : BytesStored s s := ⟨le_rfl, fun _ _ => rfl⟩

theorem BytesStored.trans {s t u : State} (h : BytesStored s t) (g : BytesStored t u) : BytesStored s u := by
  obtain ⟨hup, hbytes⟩ := h
  obtain ⟨gup, gbytes⟩ := g
  refine ⟨hup.trans gup, fun a ha => ?_⟩
  rw [gbytes a (ha.imp_left fun h => by omega), hbytes a (ha.imp_right fun h => by omega)]

/-- The states of a pass in an encoding mode that began in state `s`, with `room n` for `n` decisions left. -/
structure EncodingWithRoom (room : Nat → State → Prop) (s : State) (n : Nat) (t : State) : Prop where
  room : room n t
  bounds : CoderBounds t
  stored : BytesStored s t
  frame : PassFrame s t

/-- Two bytes for each decision of the MQ coder. -/
def DecisionRoom (n : Nat) (t : State) : Prop := t.bp + 2 * n < t.endAddr.toNat

/-- One byte for each raw bit. -/
def RawBitRoom (n : Nat) (t : State) : Prop := t.bp + n ≤ t.endAddr.toNat

/-- A decision of the MQ encoder uses up the room for one. -/
theorem codeLabel_room {n : Nat} {t : State} (l : Label) (v : Bool) (hm : t.mode = .enc) (hr : DecisionRoom (n + 1) t)
    (hb : CoderBounds t) : ∃ u, codeLabel l v t = .done v u ∧ DecisionRoom n u ∧ CoderBounds u ∧ BytesStored t u := by
  obtain ⟨-, ha, hc⟩ := (coderBounds_iff_enc hm).1 hb
  unfold DecisionRoom at hr
  obtain ⟨u, hu, ⟨-, -, -, hup, hbytes⟩, hbp, -⟩ := encodeDecision_of_room l v ha hc (by push_cast at hr; omega)
  have hbounds := encodeDecision_coderBounds l v hm hb
  have hend := ((encodeDecision_coding l v t).of_done hu).window.2
  rw [hu, Run.ends_done] at hbounds
  refine ⟨u, by rw [codeLabel_of_enc _ _ hm, hu, Run.bind_done], ?_, hbounds, hup, hbytes⟩
  unfold DecisionRoom
  rw [hend]
  push_cast at hr
  omega

theorem rawEncodeBit_of_room (d : Bool) {s : State} (hroom : s.rct = 1 → s.bp < s.endAddr.toNat) :
    rawEncodeBit d s = .done () (rawAppended d s) := by
  by_cases h1 : s.rct = 1
  · rw [rawEncodeBit_stored d h1 (hroom h1), rawAppended_full d h1]
  · rw [rawEncodeBit_pack d h1, rawAppended_pack d h1]

/-- A raw bit appended moves BP by one byte at most, and stores at the old BP alone. -/
theorem rawAppended_stored (d : Bool) {s : State} (hlo : 0 ≤ s.bp) :
    BytesStored s (rawAppended d s) ∧ (rawAppended d s).bp ≤ s.bp + 1 := by
  by_cases h1 : s.rct = 1
  · rw [rawAppended_full d h1]
    refine ⟨⟨Int.le_add_one le_rfl, fun a ha => ?_⟩, le_rfl⟩
    have hbp : (rawStored d s).bp = s.bp + 1 := rfl
    rw [hbp] at ha
    exact (Memory.read_write ..).trans (if_neg (by omega))
  · rw [rawAppended_pack d h1]
    exact ⟨⟨le_rfl, fun _ _ => rfl⟩, Int.le_add_one le_rfl⟩

/-- A raw bit uses up the room for one. -/
theorem codeRaw_room {n : Nat} {t : State} (v : Bool) (hm : t.mode = .rawenc) (hr : RawBitRoom (n + 1) t)
    (hb : CoderBounds t) : ∃ u, codeRaw v t = .done v u ∧ RawBitRoom n u ∧ CoderBounds u ∧ BytesStored t u := by
  obtain ⟨-, -, -, hst, -⟩ := (coderBounds_iff_rawenc hm).1 hb
  unfold RawBitRoom at hr
  push_cast at hr
  have hdone := rawEncodeBit_of_room v (s := t) fun _ => by omega
  obtain ⟨hstored, hbp⟩ := rawAppended_stored v (s := t) (by omega)
  have hbounds := rawEncodeBit_coderBounds v hm hb
  have hend := ((rawEncodeBit_frame v t).of_done hdone).coding.window.2
  rw [hdone, Run.ends_done] at hbounds
  refine ⟨_, by rw [codeRaw_of_rawenc _ hm, hdone, Run.bind_done], ?_, hbounds, hstored⟩
  unfold RawBitRoom
  rw [hend]
  omega

section

variable {room : Nat → State → Prop} {s : State}

/-- What a decision that uses up the room for one leads to. -/
theorem EncodingWithRoom.next {n : Nat} {t : State} {r : Run Bool} {v : Bool} (h : EncodingWithRoom room s (n + 1) t)
    (hr : ∃ u, r = .done v u ∧ room n u ∧ CoderBounds u ∧ BytesStored t u) (hf : r.All (PassFrame s)) :
    r.Ends (EncodingWithRoom room s n) fun _ => False := by
  obtain ⟨u, rfl, hroom, hbounds, hstored⟩ := hr
  exact ⟨hroom, hbounds, h.stored.trans hstored, hf⟩

theorem encoding_budget (hm : s.mode = .enc) : PassBudget s.w s.h (EncodingWithRoom DecisionRoom s) := by
  have keeps := passFrame_keeps s (by simp [hm]) (by simp [hm])
  have mode : ∀ n t, EncodingWithRoom DecisionRoom s n t → t.mode = .enc := fun n t h => h.frame.mode.1.trans hm
  refine ⟨fun n t h => h.frame.mode.2, fun n t h => isDecoding_of_encoding (.inl (mode n t h)), fun n t h => ?weaken,
    fun l v n t ha h => ?label, fun v n t ha h => ?raw, fun n t f h => ⟨h.room, h.bounds, h.stored, h.frame.setFp f⟩⟩
  case weaken =>
    obtain ⟨hr, hbounds, hstored, hframe⟩ := h
    unfold DecisionRoom at hr
    refine ⟨?_, hbounds, hstored, hframe⟩
    unfold DecisionRoom
    push_cast at hr
    omega
  case label => exact h.next (codeLabel_room l v (mode _ t h) h.room h.bounds) (keeps.label l v t ha h.frame)
  case raw => exact absurd (isArithmetic_of_mode (.inr (mode _ t h))) (by simp [ha])

theorem rawEncoding_budget (hm : s.mode = .rawenc) : PassBudget s.w s.h (EncodingWithRoom RawBitRoom s) := by
  have keeps := passFrame_keeps s (by simp [hm]) (by simp [hm])
  have mode : ∀ n t, EncodingWithRoom RawBitRoom s n t → t.mode = .rawenc := fun n t h => h.frame.mode.1.trans hm
  refine ⟨fun n t h => h.frame.mode.2, fun n t h => isDecoding_of_encoding (.inr (mode n t h)), fun n t h => ?weaken,
    fun l v n t ha h => ?label, fun v n t ha h => ?raw, fun n t f h => ⟨h.room, h.bounds, h.stored, h.frame.setFp f⟩⟩
  case weaken =>
    obtain ⟨hr, hbounds, hstored, hframe⟩ := h
    unfold RawBitRoom at hr
    refine ⟨?_, hbounds, hstored, hframe⟩
    unfold RawBitRoom
    push_cast at hr
    omega
  case label => exact absurd ha (by simp [isArithmetic_of_rawMode (.inr (mode _ t h))])
  case raw => exact h.next (codeRaw_room v (mode _ t h) h.room h.bounds) (keeps.raw v t ha h.frame)

end

/-- What O52 asks of a pass: it comes to its end, and stores bytes from BP to the new BP. -/
def PassEncodes (s : State) (r : Run Unit) : Prop := ∃ t, r = .done () t ∧ PassFrame s t ∧ BytesStored s t

theorem passEncodes_of_ends {room : Nat → State → Prop} {s : State} {r : Run Unit}
    (h : r.Ends (EncodingWithRoom room s 0) fun _ => False) : PassEncodes s r := by
  cases r with
  | done v t => exact ⟨t, rfl, h.frame, h.stored⟩
  | overflow t => exact h.elim

/-- Settles O52: each pass has room for its decisions (`PassBudget`), and its frame is that of its mode. -/
theorem encodingPassesCompleteWithRoom : Obligations.EncodingPassesCompleteWithRoom := by
  intro s p i hp hg hb hcase
  have hm : s.mode = .enc ∨ s.mode = .rawenc := hcase.imp And.left And.left
  have hi : s.mode ≠ .idle := by rcases hm with h | h <;> simp [h]
  have hf : s.mode ≠ .fault := by rcases hm with h | h <;> simp [h]
  have hpass : ∃ r, exec i s = .next (finish r fun _ t => t.answer Response.ok) ∧ PassEncodes s r := by
    rcases hcase with ⟨henc, hinstr, hroom⟩ | ⟨hraw, hinstr, hroom⟩
    case inl =>
      have c := encoding_budget henc
      have hs : EncodingWithRoom DecisionRoom s (0 + (2 * s.w * s.h + 3 * s.w * ((s.h + 3) / 4))) s := by
        refine ⟨?_, hb, .refl s, .refl s⟩
        unfold DecisionRoom
        push_cast
        omega
      have hone : s.w * s.h ≤ 2 * s.w * s.h := by
        rw [Nat.mul_assoc]
        omega
      rcases hinstr with rfl | rfl | rfl
      · exact ⟨_, execSigpass_admitted hi hf hp hg,
          passEncodes_of_ends (c.significancePass (n := 0) (c.weaken_le (by omega) hs))⟩
      · exact ⟨_, execRefpass_admitted hi hf hp hg,
          passEncodes_of_ends (c.refinementPass (n := 0) (c.weaken_le (by omega) hs))⟩
      · have arithmetic : ∀ n t, EncodingWithRoom DecisionRoom s n t → isArithmetic t = true := fun _ _ h =>
          isArithmetic_of_mode (.inr (h.frame.mode.1.trans henc))
        exact ⟨_, execClnpass_admitted (.inr henc) hp hg, passEncodes_of_ends (c.cleanupPass (n := 0) arithmetic hs)⟩
    case inr =>
      have c := rawEncoding_budget hraw
      have hs : EncodingWithRoom RawBitRoom s (0 + 2 * s.w * s.h) s := by
        refine ⟨?_, hb, .refl s, .refl s⟩
        unfold RawBitRoom
        push_cast
        omega
      have hone : s.w * s.h ≤ 2 * s.w * s.h := by
        rw [Nat.mul_assoc]
        omega
      rcases hinstr with rfl | rfl
      · exact ⟨_, execSigpass_admitted hi hf hp hg, passEncodes_of_ends (c.significancePass (n := 0) hs)⟩
      · exact ⟨_, execRefpass_admitted hi hf hp hg,
          passEncodes_of_ends (c.refinementPass (n := 0) (c.weaken_le (by omega) hs))⟩
  obtain ⟨r, hexec, t, hr, hframe, hup, hbytes⟩ := hpass
  exact ⟨_, exec_of_done hexec hr, hframe.answer_enc, hframe.answer_rawenc, hup, hbytes⟩

end Sys2Proof.Machine

/-! ## The housekeeping commands and the register port (R190 to R193, R29) -/

namespace Sys2Proof.Machine

/-! ### The register map -/

/-- The address of a register on the register port (R29): `portReg` read the other way (`portReg_eq_some_iff`). -/
def PortReg.address : PortReg → Nat
  | .status => 0x00
  | .segbase => 0x04
  | .seglen => 0x05
  | .a => 0x08
  | .c => 0x09
  | .ct => 0x0A
  | .bp => 0x0B
  | .startAddr => 0x0C
  | .endAddr => 0x0D
  | .eoscnt => 0x0E
  | .numbytes => 0x0F
  | .rawst => 0x10
  | .geom => 0x11
  | .cx k => 0x20 + k.val
  | .cmt i => 0x40 + i.val

theorem portReg_address (r : PortReg) : portReg r.address = some r := by
  cases r
  case cx k => revert k; decide
  case cmt i => revert i; decide
  all_goals rfl

theorem address_of_portReg {ra : Nat} {r : PortReg} (h : portReg ra = some r) : r.address = ra := by
  unfold portReg at h
  split at h
  case h_14 =>
    split_ifs at h with hcx hk hcmt hi
    · obtain rfl := Option.some.inj h
      exact Nat.add_sub_cancel' hcx
    · obtain rfl := Option.some.inj h
      exact Nat.add_sub_cancel' hcmt
  all_goals
    obtain rfl := Option.some.inj h
    rfl

/-- The register map is one to one. -/
theorem portReg_eq_some_iff {ra : Nat} {r : PortReg} : portReg ra = some r ↔ r.address = ra :=
  ⟨address_of_portReg, fun h => h ▸ portReg_address r⟩

/-- The mapped addresses (R29). -/
def MappedAddress (ra : Nat) : Prop :=
  ra = 0 ∨ ra = 4 ∨ ra = 5 ∨ (8 ≤ ra ∧ ra ≤ 0x11) ∨ (0x20 ≤ ra ∧ ra ≤ 0x32) ∨ (0x40 ≤ ra ∧ ra ≤ 0x6E)

theorem mappedAddress_address (r : PortReg) : MappedAddress r.address := by
  cases r
  case cx k =>
    have hk := k.isLt
    simp only [MappedAddress, PortReg.address]
    omega
  case cmt i =>
    have hi := i.isLt
    simp only [MappedAddress, PortReg.address]
    omega
  all_goals simp [MappedAddress, PortReg.address]

theorem exists_address_of_mapped {ra : Nat} (h : MappedAddress ra) : ∃ r : PortReg, r.address = ra := by
  rcases h with rfl | rfl | rfl | ⟨hlo, hhi⟩ | ⟨hlo, hhi⟩ | ⟨hlo, hhi⟩
  · exact ⟨.status, rfl⟩
  · exact ⟨.segbase, rfl⟩
  · exact ⟨.seglen, rfl⟩
  · interval_cases ra
    exacts [⟨.a, rfl⟩, ⟨.c, rfl⟩, ⟨.ct, rfl⟩, ⟨.bp, rfl⟩, ⟨.startAddr, rfl⟩, ⟨.endAddr, rfl⟩, ⟨.eoscnt, rfl⟩,
      ⟨.numbytes, rfl⟩, ⟨.rawst, rfl⟩, ⟨.geom, rfl⟩]
  · exact ⟨.cx ⟨ra - 0x20, by omega⟩, Nat.add_sub_cancel' hlo⟩
  · exact ⟨.cmt ⟨ra - 0x40, by omega⟩, Nat.add_sub_cancel' hlo⟩

theorem portReg_ne_none_iff {ra : Nat} : portReg ra ≠ none ↔ MappedAddress ra := by
  rw [Option.ne_none_iff_exists']
  constructor
  · rintro ⟨r, h⟩
    exact address_of_portReg h ▸ mappedAddress_address r
  · intro h
    obtain ⟨r, rfl⟩ := exists_address_of_mapped h
    exact ⟨r, portReg_address r⟩

/-! ### What the register port answers -/

theorem readReg_of_specified {r : PortReg} {s : State} (h : isUnspecified r s.unspec = false) (free : Word) :
    readReg r free s = regImage r s := by
  rw [readReg, if_neg (Bool.eq_false_iff.1 h)]

/-- LASTFF stands in bit 12 of RAWST alone (R29). -/
theorem rawImage_getLsbD_of_ne {n : Nat} (h : n ≠ 12) (rb : Byte) (rct : BitVec 4) (l l' : Bool) :
    (rawImage rb rct l).getLsbD n = (rawImage rb rct l').getLsbD n := by
  have hzero : ∀ b : Bool, ((BitVec.ofBool b).setWidth 32 <<< 12 : Word).getLsbD n = false := by
    intro b
    rw [BitVec.getLsbD_shiftLeft, BitVec.getLsbD_setWidth, BitVec.getLsbD_ofBool]
    simp only [Bool.and_eq_false_iff, Bool.not_eq_false', decide_eq_true_eq, decide_eq_false_iff_not]
    omega
  simp only [rawImage, BitVec.getLsbD_or, hzero]

/-- With RB and RCT specified, bit 12 of RAWST alone can be free (log entry 7). -/
theorem readReg_rawst_getLsbD {s : State} {n : Nat} (hraw : s.unspec.raw = false) (hn : n ≠ 12) (free : Word) :
    (readReg .rawst free s).getLsbD n = (regImage .rawst s).getLsbD n := by
  cases hu : isUnspecified .rawst s.unspec with
  | false => rw [readReg_of_specified hu]
  | true =>
    rw [readReg, if_pos hu, if_pos ⟨rfl, hraw⟩]
    exact rawImage_getLsbD_of_ne hn ..

/-- RDREG of a mapped register (R192): one free value is drawn where the register is unspecified (log entry 6). -/
theorem exec_rdreg_mapped {ra : Nat} {r : PortReg} (h : portReg ra = some r) (s : State) :
    exec (.rdreg ra) s =
      .next ((s.setDraws (s.draws + (isUnspecified r s.unspec).toNat)).answer
        (Response.okValue (readReg r (Config.freeWord s.draws) s))) := by
  simp only [exec, execRdreg, h]
  cases isUnspecified r s.unspec <;> rfl

theorem exec_rdreg_unmapped {ra : Nat} (h : portReg ra = none) (s : State) :
    exec (.rdreg ra) s = .next (refuse .illegal s) := by
  simp only [exec, execRdreg, h]

/-- Settles O24: the map is that of `PortReg.address`, and a read answers what `readReg` says. -/
theorem rdregAnswersTheRegister : Obligations.RdregAnswersTheRegister := by
  refine ⟨fun s ra r h => ?read, fun u => ?marks, fun s ra h => exec_rdreg_unmapped h s, fun ra => portReg_ne_none_iff,
    rfl, rfl, rfl, rfl, rfl, rfl, rfl, rfl, rfl, rfl, rfl, rfl, rfl, fun k => portReg_address (.cx k),
    fun i => portReg_address (.cmt i), fun s => ⟨rfl, rfl, rfl, rfl, rfl⟩⟩
  case read =>
    refine ⟨_, _, exec_rdreg_mapped h s, rfl, fun hu => ⟨readReg_of_specified hu _, ?_⟩, ?_⟩
    · rw [hu]
      rfl
    · rintro rfl hraw n hn
      exact readReg_rawst_getLsbD hraw hn _
  case marks =>
    exact ⟨rfl, rfl, rfl, fun _ => rfl, rfl, rfl, rfl, rfl, rfl, rfl, rfl, rfl, rfl, rfl, fun _ => rfl⟩

/-! ### WRREG -/

theorem exec_wrreg_segbase (v : Word) (s : State) :
    exec (.wrreg 0x04 v) s = .next ((s.setSegbase v).answer Response.ok) := rfl

theorem exec_wrreg_seglen (v : Word) (s : State) :
    exec (.wrreg 0x05 v) s = .next ((s.setSeglen v).answer Response.ok) := rfl

/-- WRREG writes SEGBASE and SEGLEN alone (R193). -/
theorem exec_wrreg_other {ra : Nat} (hbase : ra ≠ 0x04) (hlen : ra ≠ 0x05) (v : Word) (s : State) :
    exec (.wrreg ra v) s = .next (refuse .illegal s) := by
  simp only [exec, execWrreg]
  split
  case h_1 h => exact absurd (address_of_portReg h).symm hbase
  case h_2 h => exact absurd (address_of_portReg h).symm hlen
  case h_3 => rfl

/-- Settles O23: the two registers that WRREG writes, and the refusal at every other address. -/
theorem wrregWritesSegbaseOrSeglen : Obligations.WrregWritesSegbaseOrSeglen :=
  fun s v => ⟨exec_wrreg_segbase v s, exec_wrreg_seglen v s, fun _ hbase hlen => exec_wrreg_other hbase hlen v s⟩

/-! ### NOP, FINISHDEC and CLRSTAT -/

theorem exec_nop (s : State) : exec .nop s = .next (s.answer Response.ok) := rfl

/-- FINISHDEC in the decoding modes (R97). -/
theorem exec_finishdec {s : State} (h : s.mode = .dec ∨ s.mode = .rawdec) :
    exec .finishdec s = .next (s.answer Response.ok) := by
  have hm : requireMode [.dec, .rawdec] s = none := requireMode_eq_none.2 (by simpa using h)
  rw [exec, execFinishdec, hm, admitted_none]

/-- CLRSTAT outside FAULT clears the sticky bits alone (R191). -/
theorem exec_clrstat {s : State} (h : s.mode ≠ .fault) :
    exec .clrstat s = .next ((clearSticky s).answer Response.ok) := by
  rw [exec, execClrstat, if_neg h]

/-- CLRSTAT in FAULT restores the reset state too (R191, R237). -/
theorem exec_clrstat_fault {s : State} (h : s.mode = .fault) :
    exec .clrstat s = .next ((leaveFault (clearSticky s)).answer Response.ok) := by
  rw [exec, execClrstat, if_pos h]

/-- Settles O21: each command ends in the state its rule writes out. -/
theorem nopFinishdecClrstatResults : Obligations.NopFinishdecClrstatResults :=
  fun s => ⟨exec_nop s, exec_finishdec, exec_clrstat, fun h =>
    ⟨_, exec_clrstat_fault h, rfl, rfl, rfl, rfl, rfl, rfl, rfl, rfl, rfl, rfl, rfl, rfl, rfl, rfl⟩⟩

end Sys2Proof.Machine

/-! ## The host contract (R200 to R220) -/

namespace Sys2Proof.Machine

/-! ### The canonical order of the passes (R208, R212) -/

/-- Pass `m` of a code-block whose first counter is `n` (R212): pass 0 is the cleanup pass of the top plane, as if two
passes of its cycle stood before it. -/
def canonicalPosition (n m : Nat) : PassPosition := ⟨(m + 2) % 3, (n : Int) - ((m + 2) / 3 : Nat)⟩

theorem canonicalPosition_zero (n : Nat) : canonicalPosition n 0 = ⟨2, n⟩ := by simp [canonicalPosition]

theorem nextPosition_canonicalPosition (n m : Nat) :
    nextPosition (canonicalPosition n m) = canonicalPosition n (m + 1) := by
  unfold nextPosition
  split <;> rename_i hlast <;> simp only [canonicalPosition, PassPosition.mk.injEq] at hlast ⊢ <;> omega

/-- The counter is still positive (R213) for the first `3 n - 2` passes. -/
theorem one_le_canonicalPosition_iff (n m : Nat) : 1 ≤ (canonicalPosition n m).bpnoPlusOne ↔ m < 3 * n - 2 := by
  simp only [canonicalPosition]
  omega

/-- From pass `m` on the canonical order goes through the positions of `canonicalPosition`, as far as the fuel or the
counter lets it. -/
theorem passesFrom_canonicalPosition (n fuel m : Nat) :
    passesFrom fuel (canonicalPosition n m) =
      (List.range' m (min fuel (3 * n - 2 - m))).map (canonicalPosition n) := by
  induction fuel generalizing m with
  | zero => simp [passesFrom]
  | succ fuel ih =>
    simp only [passesFrom, one_le_canonicalPosition_iff, nextPosition_canonicalPosition, ih]
    by_cases hm : m < 3 * n - 2
    · rw [if_pos hm, show min (fuel + 1) (3 * n - 2 - m) = min fuel (3 * n - 2 - (m + 1)) + 1 by omega,
        List.range'_succ, List.map_cons]
    · rw [if_neg hm, show 3 * n - 2 - m = 0 by omega, Nat.min_zero, List.range'_zero, List.map_nil]

/-- The whole order of a code-block of `n` planes: `3 n` units of fuel are enough for its `3 n - 2` passes. -/
theorem passesFrom_start (n : Nat) :
    passesFrom (3 * n) ⟨2, n⟩ = (List.range (3 * n - 2)).map (canonicalPosition n) := by
  rw [← canonicalPosition_zero, passesFrom_canonicalPosition, Nat.sub_zero, Nat.min_eq_right (Nat.sub_le ..),
    List.range_eq_range']

theorem passesFrom_start_getElem? {n m : Nat} (hm : m < 3 * n - 2) :
    (passesFrom (3 * n) ⟨2, n⟩)[m]? = some (canonicalPosition n m) := by
  rw [passesFrom_start, List.getElem?_map, List.getElem?_range hm, Option.map_some]

theorem rawSelected_bypass_iff (n : Int) (pos : PassPosition) :
    rawSelected true n pos = true ↔ pos.passtype < 2 ∧ pos.bpnoPlusOne ≤ n - 4 := by
  have noncleanup : (pos.passtype = 0 ∨ pos.passtype = 1) ↔ pos.passtype < 2 := by omega
  simp [rawSelected, noncleanup]

/-- Settles O60: the order of the passes is the list of the canonical positions. -/
theorem passesFollowTheCanonicalCycle : Obligations.PassesFollowTheCanonicalCycle := by
  refine ⟨fun n hn => ⟨?length, ?first, fun m hm => passesFrom_start_getElem? hm⟩, fun _ _ => rfl,
    fun n b t => rawSelected_bypass_iff n ⟨t, b⟩⟩
  case length => rw [passesFrom_start, List.length_map, List.length_range]
  case first => rw [List.head?_eq_getElem?, passesFrom_start_getElem? (by omega), canonicalPosition_zero]

/-! ### One code-block (R202 to R205, R214, R215) -/

/-- The contract of R202, condition by condition. -/
theorem contractKept_iff (d : CodeBlock) (base : Nat) (p : Params) :
    contractKept d base p = true ↔
      1 ≤ d.width ∧ 1 ≤ d.height ∧ d.width ≤ Config.maxSide ∧ d.height ≤ Config.maxSide
        ∧ d.width * d.height ≤ p.maxarea
        ∧ (∀ g ∈ d.segments, 0 ≤ g.length ∧ 0 ≤ g.passCount)
        ∧ (∀ c ∈ d.chunks, 0 ≤ c.length ∧ c.length ≤ c.bytes.length)
        ∧ d.segmentBytes ≤ d.totalLength ∧ base + d.totalLength + p.guardBytes ≤ p.cbsize := by
  simp only [contractKept, Bool.and_eq_true, List.all_eq_true, decide_eq_true_eq, and_assoc]

section

variable {d : CodeBlock} {base : Nat} {s : State}

theorem decodeCodeBlock_of_contract_broken (hk : contractKept d base s.params = false) :
    decodeCodeBlock d base s = d.untouched (.failed .contract) s := by
  simp [decodeCodeBlock, hk]

theorem decodeCodeBlock_of_corrupted (hk : contractKept d base s.params = true) (hc : d.corrupted = true) :
    decodeCodeBlock d base s = d.untouched .skipped s := by
  simp [decodeCodeBlock, hk, hc]

theorem decodeCodeBlock_of_too_deep (hk : contractKept d base s.params = true) (hc : d.corrupted = false)
    (hb : 31 ≤ d.firstCounter) : decodeCodeBlock d base s = d.untouched (.failed .bitDepth) s := by
  simp [decodeCodeBlock, hk, hc, hb]

theorem warningsOf_length_le (t : State) : (warningsOf t).length ≤ 1 := by
  unfold warningsOf
  split
  case h_1 r _ => split_ifs <;> simp
  case h_2 => simp

/-- A code-block that passes the checks of R202 to R205 fails where a command is refused (R209, R210), and else is handed
over, with at most one warning (R214, R215). -/
theorem decodeCodeBlock_of_admitted (hk : contractKept d base s.params = true) (hc : d.corrupted = false)
    (hb : d.firstCounter < 31) :
    (∃ t, decodeCodeBlock d base s = d.untouched (.failed .contract) t) ∨
      ∃ warnings t, warnings.length ≤ 1 ∧ decodeCodeBlock d base s = d.handOver warnings t := by
  simp only [decodeCodeBlock, hk, hc, Int.not_le.2 hb, Bool.not_true, Bool.false_eq_true, if_false]
  split
  case h_1 stopped _ => exact .inl ⟨stopped, rfl⟩
  case h_2 started coded _ =>
    split
    case isTrue => exact .inr ⟨_, _, warningsOf_length_le _, rfl⟩
    case isFalse => exact .inr ⟨[], coded, Nat.zero_le 1, rfl⟩

/-- Every outcome of a decode: rejected by the checks with the block untouched, failed on a refused command, or handed
over. The bit-depth failure comes from the guard of R205 alone. -/
theorem decodeCodeBlock_cases (d : CodeBlock) (base : Nat) (s : State) :
    (∃ r t, decodeCodeBlock d base s = d.untouched r t ∧ r ≠ .decoded ∧ (r = .failed .bitDepth → 31 ≤ d.firstCounter))
      ∨ ∃ warnings t, warnings.length ≤ 1 ∧ decodeCodeBlock d base s = d.handOver warnings t := by
  cases hk : contractKept d base s.params with
  | false => exact .inl ⟨_, _, decodeCodeBlock_of_contract_broken hk, nofun, nofun⟩
  | true =>
    cases hc : d.corrupted with
    | true => exact .inl ⟨_, _, decodeCodeBlock_of_corrupted hk hc, nofun, nofun⟩
    | false =>
      rcases le_or_gt 31 d.firstCounter with hb | hb
      · exact .inl ⟨_, _, decodeCodeBlock_of_too_deep hk hc hb, nofun, fun _ => hb⟩
      · exact (decodeCodeBlock_of_admitted hk hc hb).imp_left fun ⟨t, ht⟩ => ⟨_, t, ht, nofun, nofun⟩

/-- No code-block of at most 30 planes fails the bit-depth guard (R205). -/
theorem decodeCodeBlock_result_ne_bitDepth (hb : d.firstCounter ≤ 30) :
    (decodeCodeBlock d base s).result ≠ .failed .bitDepth := by
  rcases decodeCodeBlock_cases d base s with ⟨r, t, he, -, hdeep⟩ | ⟨warnings, t, -, he⟩
  · rw [he]
    intro hr
    have := hdeep hr
    omega
  · rw [he]
    exact nofun

/-- A decoded code-block was handed over (R215). -/
theorem decodeCodeBlock_of_decoded (hr : (decodeCodeBlock d base s).result = .decoded) :
    ∃ warnings t, warnings.length ≤ 1 ∧ decodeCodeBlock d base s = d.handOver warnings t := by
  rcases decodeCodeBlock_cases d base s with ⟨r, t, he, hne, -⟩ | handed
  · rw [he] at hr
    exact absurd hr hne
  · exact handed

end

/-- Settles O59: the three rejections in their order, and the hand-over of every decoded code-block. -/
theorem rejectedCodeBlocksLeaveTheBlock : Obligations.RejectedCodeBlocksLeaveTheBlock := by
  intro d base s
  refine ⟨contractKept_iff d base s.params, decodeCodeBlock_of_contract_broken, decodeCodeBlock_of_corrupted,
    decodeCodeBlock_of_too_deep, decodeCodeBlock_result_ne_bitDepth, ?handOver⟩
  case handOver =>
    rintro o rfl hr
    obtain ⟨warnings, t, hw, he⟩ := decodeCodeBlock_of_decoded hr
    rw [he]
    exact ⟨rfl, rfl, warnings, hw, rfl⟩

end Sys2Proof.Machine

/-! ## How a command ends (R230 to R233) -/

namespace Sys2Proof.Machine

/-! ### The fields that an overflow leaves alone -/

/-- Only what an encoder and the flags of a pass in encode direction write differs (R112, R134, R163 to R166). -/
def EncodingFrame (s u : State) : Prop :=
  u = { s with
    a := u.a, c := u.c, ct := u.ct, bp := u.bp, rb := u.rb, rct := u.rct, lastff := u.lastff, cx := u.cx, fp := u.fp
    cb := u.cb }

theorem EncoderFrame.encoding {s u : State} (h : EncoderFrame s u) : EncodingFrame s u := by
  unfold EncoderFrame at h
  rw [EncodingFrame, h]

theorem RawEncoderFrame.encoding {s u : State} (h : RawEncoderFrame s u) : EncodingFrame s u := by
  unfold RawEncoderFrame at h
  rw [EncodingFrame, h]

theorem EncodingFrame.setFp {s u : State} (h : EncodingFrame s u) (f : Cells 4) : EncodingFrame s (u.setFp f) :=
  congrArg (State.setFp · f) h

/-- A pass in encode direction writes FP besides, and not CP. -/
theorem PassFrame.encoding {s u : State} (h : PassFrame s u) (hm : s.mode = .enc ∨ s.mode = .rawenc) :
    EncodingFrame s u := by
  obtain ⟨hcoder, hcp⟩ := h
  rw [← hcp hm] at hcoder
  have hkept : EncodingFrame s (u.setFp s.fp) := by
    unfold CoderFrame at hcoder
    rcases hm with hm | hm <;> rw [hm] at hcoder
    · exact EncoderFrame.encoding hcoder
    · exact RawEncoderFrame.encoding hcoder
  exact hkept.setFp u.fp

/-! ### Completed, refused, or in the fault -/

theorem Response.okValue_err (v : Word) : (Response.okValue v).err = 0 := rfl

theorem Response.decision_err (d : Bool) : (Response.decision d).err = 0 := by cases d <;> rfl

theorem Response.warning_err (k : Warning) (v : Word) : (Response.warning k v).err = 0 := by
  show (BitVec.ofNat 32 (warningNumber k) <<< 5).extractLsb' 0 4 = 0
  cases k <;> decide

theorem answersWithoutError_answer {u : State} {r : Response} (h : r.err = 0) : AnswersWithoutError (u.answer r) :=
  ⟨r, rfl, h⟩

theorem answersWithoutError_okValue (v : Word) (u : State) : AnswersWithoutError (u.answer (Response.okValue v)) :=
  answersWithoutError_answer (Response.okValue_err v)

theorem answersWithoutError_ok (u : State) : AnswersWithoutError (u.answer Response.ok) :=
  answersWithoutError_okValue 0 u

/-- The state is that of the fault, taken where an encoder that began in `s` overflowed (R57, R233). -/
def FaultTaken (s t : State) : Prop := ∃ u, EncodingFrame s u ∧ t = takeFault u

/-- The encoding commands and passes, in the mode of their encoder: all that can overflow (R57). -/
def EncodesIn (i : Instr) (s : State) : Prop :=
  s.mode = .enc ∧ ((∃ cx d, i = .encode cx d) ∨ i = .flushenc ∨ ∃ p, i = .sigpass p ∨ i = .refpass p ∨ i = .clnpass p)
    ∨ s.mode = .rawenc ∧ ((∃ d, i = .rawenc d) ∨ i = .rawflush ∨ ∃ p, i = .sigpass p ∨ i = .refpass p)

/-- A command that codes completes, or takes the fault where its procedure overflows. -/
theorem completed_or_faultTaken {α : Type} {P : State → Prop} {s : State} {r : Run α} {last : α → State → State}
    (hr : r.Ends P (EncodingFrame s)) (hlast : ∀ v u, AnswersWithoutError (last v u)) :
    AnswersWithoutError (finish r last) ∨ FaultTaken s (finish r last) := by
  cases r with
  | done v u => exact .inl (hlast v u)
  | overflow u => exact .inr ⟨u, hr, rfl⟩

/-- A pass completes, or takes the fault in an encoding mode: the decoders do not overflow. -/
theorem pass_completed_or_faultTaken {s : State} {r : Run Unit} (hi : s.mode ≠ .idle) (hf : s.mode ≠ .fault)
    (hframe : r.All (PassFrame s)) (hdec : s.mode = .dec ∨ s.mode = .rawdec → r.Ends (PassFrame s) fun _ => False) :
    AnswersWithoutError (finish r fun _ t => t.answer Response.ok)
      ∨ (s.mode = .enc ∨ s.mode = .rawenc) ∧ FaultTaken s (finish r fun _ t => t.answer Response.ok) := by
  by_cases hm : s.mode = .enc ∨ s.mode = .rawenc
  · have hends := hframe.ends.imp (fun _ h => h) fun _ h => h.encoding hm
    exact (completed_or_faultTaken hends fun _ => answersWithoutError_ok).imp_right fun h => ⟨hm, h⟩
  · have hends := hdec (by cases h : s.mode <;> simp_all)
    cases r with
    | done v u => exact .inl (answersWithoutError_ok u)
    | overflow u => exact hends.elim

/-- HOW A COMMAND ENDS: it is refused (R232), it completes, or an encoder takes the fault (R233). -/
theorem exec_refused_completed_or_fault {i : Instr} {s t : State} (h : exec i s = .next t) :
    (∃ e, e ≠ .overflow ∧ t = refuse e s) ∨ AnswersWithoutError t ∨ EncodesIn i s ∧ FaultTaken s t := by
  refine (exec_cases i s t h).imp_right fun hr => ?_
  cases i
  case nop => exact .inl (hr ▸ answersWithoutError_ok _)
  case cxreset => exact .inl (hr.2 ▸ answersWithoutError_ok _)
  case clrstat => exact .inl (hr ▸ answersWithoutError_ok _)
  case wrreg => rcases hr with ⟨-, rfl⟩ | ⟨-, rfl⟩ <;> exact .inl (answersWithoutError_ok _)
  case rdreg => obtain ⟨d, v, rfl⟩ := hr; exact .inl (answersWithoutError_okValue v _)
  case initdec | initenc | rawinitdec | rawinitenc | cbinit => exact .inl (hr.2.2 ▸ answersWithoutError_ok _)
  case decode =>
    obtain ⟨-, k, -, rfl⟩ := hr
    exact .inl (answersWithoutError_answer (Response.decision_err _))
  case rawdec => exact .inl (hr.2 ▸ answersWithoutError_answer (Response.decision_err _))
  case finishdec => exact .inl (hr.2 ▸ answersWithoutError_ok _)
  case termchk =>
    rcases hr with ⟨-, ⟨v, rfl⟩ | ⟨v, rfl⟩ | rfl⟩
    · exact .inl (answersWithoutError_answer (Response.warning_err .slack v))
    · exact .inl (answersWithoutError_answer (Response.warning_err .markers v))
    · exact .inl (answersWithoutError_ok _)
  case encode cx d =>
    obtain ⟨hm, k, -, rfl⟩ := hr
    have hends := (Run.all_imp (fun _ g => g.encoding) (encodeDecision_frame k d s)).ends
    exact (completed_or_faultTaken hends fun _ => answersWithoutError_ok).imp_right
      fun hf => ⟨.inl ⟨hm, .inl ⟨cx, d, rfl⟩⟩, hf⟩
  case flushenc =>
    obtain ⟨hm, rfl⟩ := hr
    have hends := (Run.all_imp (fun _ g => g.encoding) (flushEncoder_frame s)).ends
    exact (completed_or_faultTaken hends fun _ _ => answersWithoutError_okValue _ _).imp_right
      fun hf => ⟨.inl ⟨hm, .inr (.inl rfl)⟩, hf⟩
  case rawenc d =>
    obtain ⟨hm, rfl⟩ := hr
    have hends := (Run.all_imp (fun _ g => g.encoding) (rawEncodeBit_frame d s)).ends
    exact (completed_or_faultTaken hends fun _ => answersWithoutError_ok).imp_right
      fun hf => ⟨.inr ⟨hm, .inl ⟨d, rfl⟩⟩, hf⟩
  case rawflush =>
    obtain ⟨hm, rfl⟩ := hr
    have hends := (Run.all_imp (fun _ g => g.encoding) (rawFlush_frame s)).ends
    exact (completed_or_faultTaken hends fun _ _ => answersWithoutError_okValue _ _).imp_right
      fun hf => ⟨.inr ⟨hm, .inr (.inl rfl)⟩, hf⟩
  case sigpass p =>
    obtain ⟨⟨hi, hf⟩, -, -, rfl⟩ := hr
    refine (pass_completed_or_faultTaken hi hf (significancePass_frame p s hi hf)
      fun hd => (passDecoding_ends s hd).significancePass p s (.refl s)).imp_right (And.imp_left ?_)
    exact Or.imp (fun hm => ⟨hm, .inr (.inr ⟨p, .inl rfl⟩)⟩) fun hm => ⟨hm, .inr (.inr ⟨p, .inl rfl⟩)⟩
  case refpass p =>
    obtain ⟨⟨hi, hf⟩, -, -, rfl⟩ := hr
    refine (pass_completed_or_faultTaken hi hf (refinementPass_frame p s hi hf)
      fun hd => (passDecoding_ends s hd).refinementPass p s (.refl s)).imp_right (And.imp_left ?_)
    exact Or.imp (fun hm => ⟨hm, .inr (.inr ⟨p, .inr (.inl rfl)⟩)⟩) fun hm => ⟨hm, .inr (.inr ⟨p, .inr rfl⟩)⟩
  case clnpass p =>
    obtain ⟨hm, -, -, rfl⟩ := hr
    obtain ⟨hi, hf⟩ := ne_idle_ne_fault hm
    refine (pass_completed_or_faultTaken hi hf (cleanupPass_frame p s hm) fun hd =>
      (passDecoding_ends s hd).cleanupPass (fun _ h => isArithmetic_of_passFrame hm h) (fun _ h => h.setFp _) p s
        (.refl s)).imp_right (And.imp_left fun he => ?_)
    have henc : s.mode = .enc := he.resolve_right fun hraw => by simp [hraw] at hm
    exact .inl ⟨henc, .inr (.inr ⟨p, .inr (.inr rfl)⟩)⟩

/-! ### Refusals (R232) -/

theorem errorNumber_injective : Function.Injective errorNumber := by
  intro e e' h
  cases e <;> cases e' <;> simp [errorNumber] at h ⊢

theorem Response.error_injective : Function.Injective Response.error := by
  intro e e' h
  have hlt : ∀ e, errorNumber e < 2 ^ 32 := fun e => by cases e <;> decide
  have hnat : (BitVec.ofNat 32 (errorNumber e)).toNat = (BitVec.ofNat 32 (errorNumber e')).toNat :=
    congrArg (fun r : Response => r.rsp.toNat) h
  rw [BitVec.toNat_ofNat, BitVec.toNat_ofNat, Nat.mod_eq_of_lt (hlt e), Nat.mod_eq_of_lt (hlt e')] at hnat
  exact errorNumber_injective hnat

theorem answersError_refuse (e : ErrorCode) (s : State) : AnswersError (refuse e s) e := rfl

theorem FaultTaken.answersError {s t : State} (h : FaultTaken s t) : AnswersError t .overflow := by
  obtain ⟨u, -, rfl⟩ := h
  rfl

/-- A state answers one error. -/
theorem AnswersError.unique {t : State} {e e' : ErrorCode} (h : AnswersError t e) (h' : AnswersError t e') : e = e' :=
  Response.error_injective (Option.some.inj (h.symm.trans h'))

/-- Settles O14: a command that answers an error neither completed nor, as the error is not ERR_OVERFLOW, took the fault. -/
theorem refusedCommandChangesOneStickyBit : Obligations.RefusedCommandChangesOneStickyBit := by
  intro i s t e h he hne
  rcases exec_refused_completed_or_fault h with ⟨e', -, rfl⟩ | hok | ⟨-, hfault⟩
  · obtain rfl := (answersError_refuse e' s).unique he
    exact refuse_eq e' s
  · exact absurd hok (not_answersWithoutError he)
  · exact absurd (he.unique hfault.answersError) hne

/-! ### The fault (R233) -/

/-- A command that enters FAULT answers ERR_OVERFLOW (R19). -/
theorem answersError_of_entersFault {i : Instr} {s t : State} (h : exec i s = .next t) (hs : s.mode ≠ .fault)
    (ht : t.mode = .fault) : AnswersError t .overflow := by
  have hlisted := (exec_statusChangesListed h).1 (ht ▸ hs.symm)
  simpa [ModeChangeListed, ht, hs] using hlisted

/-- Only an encoder enters FAULT, by taking the fault where it overflows (R57, R233). -/
theorem faultTaken_of_entersFault {i : Instr} {s t : State} (h : exec i s = .next t) (hs : s.mode ≠ .fault)
    (ht : t.mode = .fault) : EncodesIn i s ∧ FaultTaken s t := by
  rcases exec_refused_completed_or_fault h with ⟨e, -, rfl⟩ | hok | hfault
  · exact absurd ht hs
  · exact absurd hok (not_answersWithoutError (answersError_of_entersFault h hs ht))
  · exact hfault

/-- What the fault leaves of the state in which the command began (R233). -/
theorem FaultTaken.kept {s t : State} (h : FaultTaken s t) :
    t.response = some ⟨8, 0⟩ ∧ t.errs = s.errs ||| 0x80#8 ∧ t.wslack = s.wslack ∧ t.wmark = s.wmark
      ∧ t.segbase = s.segbase ∧ t.seglen = s.seglen ∧ t.startAddr = s.startAddr ∧ t.endAddr = s.endAddr
      ∧ t.w = s.w ∧ t.h = s.h ∧ t.orient = s.orient ∧ t.geomv = s.geomv ∧ t.cp = s.cp ∧ t.eoscnt = s.eoscnt
      ∧ t.unspec = { s.unspec with mq := true, bp := true, raw := true, lastff := true, cx := true } := by
  obtain ⟨u, hu, rfl⟩ := h
  unfold EncodingFrame at hu
  rw [takeFault_eq, hu]
  exact ⟨rfl, rfl, rfl, rfl, rfl, rfl, rfl, rfl, rfl, rfl, rfl, rfl, rfl, rfl, rfl⟩

/-- Settles O16: the fault is taken by an encoder that overflowed (`faultTaken_of_entersFault`), which had written what its
frame lists, and no byte outside the window (O19). -/
theorem onlyEncoderOverflowEntersFault : Obligations.OnlyEncoderOverflowEntersFault := by
  intro s t i hbounds h hs ht
  obtain ⟨hencodes, hfault⟩ := faultTaken_of_entersFault h hs ht
  obtain ⟨hrsp, herrs, hslack, hmark, hbase, hlen, hstart, hend, hw, hh, ho, hg, hcp, heos, hunspec⟩ := hfault.kept
  exact ⟨hencodes, hrsp, herrs, hslack, hmark, hbase, hlen, hstart, hend, hw, hh, ho, hg, hcp, heos,
    noCommandWritesOutsideTheWindow s t i hbounds h, hunspec⟩

end Sys2Proof.Machine

/-! ## The checks before a command (R19, R231) -/

namespace Sys2Proof.Machine

/-- The modes in which a command is not refused with ERR_MODE (R19); `exec_refused_mode` says that it is in the others. -/
def modesOf : Instr → List Mode
  | .nop | .clrstat | .wrreg .. | .rdreg _ => [.idle, .dec, .enc, .rawdec, .rawenc, .fault]
  | .cxreset | .initdec | .initenc | .rawinitdec | .rawinitenc | .cbinit .. => [.idle, .dec, .enc, .rawdec, .rawenc]
  | .decode _ => [.dec]
  | .finishdec | .termchk => [.dec, .rawdec]
  | .encode .. | .flushenc => [.enc]
  | .rawdec => [.rawdec]
  | .rawenc _ | .rawflush => [.rawenc]
  | .sigpass _ | .refpass _ => [.dec, .enc, .rawdec, .rawenc]
  | .clnpass _ => [.dec, .enc]

/-- A mode condition that fails comes before every other check. -/
theorem orElse_requireMode {modes : List Mode} {s : State} (h : s.mode ∉ modes) (rest : Option ErrorCode) :
    orElse (requireMode modes s) rest = some .mode := by
  rw [requireMode_eq_some.2 ⟨h, rfl⟩, orElse_some]

theorem orElse_requireNotFault {s : State} (h : s.mode = .fault) (rest : Option ErrorCode) :
    orElse (requireNotFault s) rest = some .mode := by
  rw [requireNotFault_eq_some.2 ⟨h, rfl⟩, orElse_some]

/-- A mode outside all modes but FAULT is FAULT. -/
theorem eq_fault_of_not_mem {m : Mode} (h : m ∉ [Mode.idle, .dec, .enc, .rawdec, .rawenc]) : m = .fault := by
  cases m <;> simp at h ⊢

/-- A check that fails refuses the command before it runs (R231). -/
theorem exec_refused_of_check {i : Instr} {s : State} {check : Option ErrorCode} {run : State → State} {e : ErrorCode}
    (hi : exec i s = .next (admitted check s run)) (h : check = some e) : exec i s = .next (refuse e s) := by
  rw [hi, h, admitted_some]

/-- Every command is refused with ERR_MODE outside its modes, before any other check (R19, R231). -/
theorem exec_refused_mode (i : Instr) {s : State} (h : s.mode ∉ modesOf i) : exec i s = .next (refuse .mode s) := by
  cases i
  case nop | clrstat | wrreg | rdreg => exact absurd h (by cases hm : s.mode <;> simp [modesOf])
  case cxreset => exact exec_refused_of_check rfl (requireNotFault_eq_some.2 ⟨eq_fault_of_not_mem h, rfl⟩)
  case initdec | initenc | rawinitdec | rawinitenc | cbinit =>
    exact exec_refused_of_check rfl (orElse_requireNotFault (eq_fault_of_not_mem h) _)
  case decode | finishdec | termchk | encode | flushenc | rawdec | rawenc | rawflush =>
    exact exec_refused_of_check rfl (requireMode_eq_some.2 ⟨h, rfl⟩)
  case sigpass | refpass | clnpass => exact exec_refused_of_check rfl (orElse_requireMode h _)

/-! ### Labels (R63) -/

theorem labelOf_of_le {cx : Nat} (h : 19 ≤ cx) : labelOf cx = none := dif_neg (not_lt.2 h)

theorem execDecode_refused_label {s : State} {cx : Nat} (hm : s.mode = .dec) (h : 19 ≤ cx) :
    exec (.decode cx) s = .next (refuse .label s) := by
  rw [exec, execDecode, requireMode_self hm, admitted_none, labelOf_of_le h]

theorem execEncode_refused_label {s : State} {cx : Nat} (d : Bool) (hm : s.mode = .enc) (h : 19 ≤ cx) :
    exec (.encode cx d) s = .next (refuse .label s) := by
  rw [exec, execEncode, requireMode_self hm, admitted_none, labelOf_of_le h]

/-! ### Windows (R42) -/

theorem execInit_refused {i : Instr} {s : State} {e : ErrorCode} (hi : i ∈ initCommands) (h : initCheck s = some e) :
    exec i s = .next (refuse e s) := by
  simp only [initCommands, List.mem_cons, List.not_mem_nil, or_false] at hi
  rcases hi with rfl | rfl | rfl | rfl <;> exact exec_refused_of_check rfl h

theorem initCheck_eq_windowCheck {s : State} (hm : s.mode ≠ .fault) : initCheck s = windowCheck s := by
  rw [initCheck, requireNotFault_eq_none.2 hm, orElse_none]

/-- A negative SEGLEN comes first. -/
theorem windowCheck_of_negative {s : State} (h : s.seglen.toInt < 0) : windowCheck s = some .length := by
  simp [windowCheck, BitVec.msb_eq_toInt, h]

theorem windowCheck_of_beyond {s : State} (hlen : 0 ≤ s.seglen.toInt)
    (h : s.params.cbsize < s.segbase.toNat + s.seglen.toNat) : windowCheck s = some .range := by
  have hmsb : s.seglen.msb = false := by simpa [BitVec.msb_eq_toInt] using hlen
  rw [windowCheck, hmsb, Bool.not_false, require_true, orElse_none, decide_eq_false (not_le.2 h), require_false]

/-! ### Passes (R167) -/

/-- A pass in one of its modes: the plane is checked before the geometry. -/
theorem passCheck_of_mode {modes : List Mode} {s : State} (h : s.mode ∈ modes) (p : Nat) :
    passCheck modes p s = orElse (require (decide (p ≤ Config.maxPlane)) .bitdepth) (require s.geomv .geom) := by
  rw [passCheck, requireMode_eq_none.2 h, orElse_none]

theorem execPass_refused {i : Instr} {s : State} {p : Nat} {e : ErrorCode}
    (hi : i ∈ [Instr.sigpass p, Instr.refpass p, Instr.clnpass p]) (h : passCheck (modesOf i) p s = some e) :
    exec i s = .next (refuse e s) := by
  simp only [List.mem_cons, List.not_mem_nil, or_false] at hi
  rcases hi with rfl | rfl | rfl <;> exact exec_refused_of_check rfl h

theorem passCheck_of_deep {modes : List Mode} {s : State} {p : Nat} (hm : s.mode ∈ modes) (hp : 30 ≤ p) :
    passCheck modes p s = some .bitdepth := by
  have hdeep : ¬ p ≤ Config.maxPlane := not_le.2 hp
  rw [passCheck_of_mode hm, decide_eq_false hdeep, require_false, orElse_some]

theorem passCheck_of_no_geometry {modes : List Mode} {s : State} {p : Nat} (hm : s.mode ∈ modes) (hp : p ≤ 29)
    (hg : s.geomv = false) : passCheck modes p s = some .geom := by
  have hplane : p ≤ Config.maxPlane := hp
  rw [passCheck_of_mode hm, decide_eq_true hplane, require_true, orElse_none, hg, require_false]

/-- The modes of a pass: the coding modes, for CLNPASS the arithmetic ones. -/
theorem mem_modesOf_pass {i : Instr} {p : Nat} {m : Mode} (hi : i ∈ [Instr.sigpass p, Instr.refpass p, Instr.clnpass p]) :
    m ∈ modesOf i ↔ m = .dec ∨ m = .enc ∨ i ≠ .clnpass p ∧ (m = .rawdec ∨ m = .rawenc) := by
  simp only [List.mem_cons, List.not_mem_nil, or_false] at hi
  rcases hi with rfl | rfl | rfl <;> simp [modesOf]

/-- A mode that is IDLE, FAULT, or for CLNPASS a raw mode, is none of the modes of the pass. -/
theorem not_mem_modesOf_pass {i : Instr} {p : Nat} {m : Mode}
    (hi : i ∈ [Instr.sigpass p, Instr.refpass p, Instr.clnpass p])
    (hm : m = .idle ∨ m = .fault ∨ i = .clnpass p ∧ (m = .rawdec ∨ m = .rawenc)) : m ∉ modesOf i := by
  rw [mem_modesOf_pass hi]
  rcases hm with rfl | rfl | ⟨rfl, rfl | rfl⟩ <;> simp

/-! ### The area (R162) -/

theorem execCbinit_refused_area {s : State} {wm1 hm1 : Nat} (o : Orientation) (clr : Bool) (hm : s.mode ≠ .fault)
    (h : s.params.maxarea < (wm1 + 1) * (hm1 + 1)) : exec (.cbinit wm1 hm1 o clr) s = .next (refuse .geom s) := by
  rw [exec, execCbinit, requireNotFault_eq_none.2 hm, orElse_none, areaCheck, decide_eq_false (not_le.2 h), require_false,
    admitted_some]

/-! ### FAULT -/

theorem fault_not_mem_modesOf {i : Instr} (hnop : i ≠ .nop) (hclr : i ≠ .clrstat) (hrd : ∀ ra, i ≠ .rdreg ra)
    (hwr : ∀ ra value, i ≠ .wrreg ra value) : Mode.fault ∉ modesOf i := by
  cases i
  case nop => exact absurd rfl hnop
  case clrstat => exact absurd rfl hclr
  case rdreg => exact absurd rfl (hrd _)
  case wrreg => exact absurd rfl (hwr _ _)
  all_goals simp [modesOf]

theorem fault_not_mem_modesOf_init {i : Instr} (hi : i ∈ initCommands) : Mode.fault ∉ modesOf i := by
  simp only [initCommands, List.mem_cons, List.not_mem_nil, or_false] at hi
  rcases hi with rfl | rfl | rfl | rfl <;> simp [modesOf]

/-- Settles O15: the mode is checked first (`exec_refused_mode`), and the other checks follow in the order of
`windowCheck` and `passCheck`. -/
theorem checksComeInTheListedOrder : Obligations.ChecksComeInTheListedOrder := by
  refine ⟨fun s cx d => ?labels, fun s i hi => ?windows, fun s p i hi => ?passes, fun s wm1 hm1 o clr => ?area,
    fun s => ?modes, fun s i hm hnop hclr hrd hwr => ?fault⟩
  case labels =>
    exact ⟨fun hm => exec_refused_mode _ (by simpa [modesOf] using hm), execDecode_refused_label,
      fun hm => exec_refused_mode _ (by simpa [modesOf] using hm), execEncode_refused_label d⟩
  case windows =>
    refine ⟨fun hm => exec_refused_mode i (hm ▸ fault_not_mem_modesOf_init hi), fun hm hneg => ?_, fun hm hlen hend => ?_⟩
    · exact execInit_refused hi ((initCheck_eq_windowCheck hm).trans (windowCheck_of_negative hneg))
    · exact execInit_refused hi ((initCheck_eq_windowCheck hm).trans (windowCheck_of_beyond hlen hend))
  case passes =>
    refine ⟨fun hm => exec_refused_mode i (not_mem_modesOf_pass hi hm), fun hm => ⟨fun hp => ?_, fun hp hg => ?_⟩⟩
    · exact execPass_refused hi (passCheck_of_deep ((mem_modesOf_pass hi).2 hm) hp)
    · exact execPass_refused hi (passCheck_of_no_geometry ((mem_modesOf_pass hi).2 hm) hp hg)
  case area =>
    exact ⟨fun hm => exec_refused_mode _ (by simp [modesOf, hm]), execCbinit_refused_area o clr⟩
  case modes =>
    exact ⟨fun hm => exec_refused_mode _ (by simpa [modesOf] using hm),
      fun hm => exec_refused_mode _ (by simpa [modesOf] using hm),
      fun d hm => exec_refused_mode _ (by simpa [modesOf] using hm),
      fun hm => exec_refused_mode _ (by simpa [modesOf] using hm),
      fun hd hr => exec_refused_mode _ (by simp [modesOf, hd, hr]),
      fun hd hr => exec_refused_mode _ (by simp [modesOf, hd, hr])⟩
  case fault => exact exec_refused_mode i (hm ▸ fault_not_mem_modesOf hnop hclr hrd hwr)

end Sys2Proof.Machine
